-- ==== Sys2Proof/Word.lean ====
section
/-! DEFINITION. The word types of the block: registers are bit vectors of the widths of spec/10_state.md;
times, counts and positions in lists are natural numbers (their bounds are invariants, see Safety.lean). -/

namespace Sys2Proof

/-- A byte register or a data byte on the port bus (R82). -/
abbrev Byte := BitVec 8

/-- A 16-bit register: a PIT count as written, a DMA base register (R48, R72, R73). -/
abbrev Half := BitVec 16

/-- A 32-bit register or physical address (R6 `DMA_ADDRESS_WIDTH`, `WORD_COUNT_WIDTH`). -/
abbrev Long := BitVec 32

/-- A request line of one PIC element, 0..7. -/
abbrev Line := BitVec 3

/-- A channel of one DMA controller, 0..3. -/
abbrev DmaChan := Fin 4

end Sys2Proof
end

