-- ==== Sys2Proof/Syntax.lean ====
section
/-! DEFINITION. The syntax of the block: the parts an access can name, the agents' calls as they arrive on the
bus (R129: a port and a value, or a call with its arguments), the decoded instructions (one constructor for each row
of spec/opcode_table.json, R130), and the cursors of the state that the decoding of a port access reads. -/

namespace Sys2Proof

/-- A PIC element; its `role` (R14, R20). -/
inductive Elem
  | master
  | slave
deriving DecidableEq, Repr

/-- The even (command) and the odd (data) port of a PIC element (R100). -/
inductive PicPort
  | command
  | data
deriving DecidableEq, Repr

/-- A PIT channel (R14). -/
inductive PitChan
  | c0
  | c1
  | c2
deriving DecidableEq, Repr

/-- A DMA controller: `DMA[0]`, 8-bit, and `DMA[1]`, 16-bit (R14, R65). -/
inductive DmaCtl
  | primary
  | secondary
deriving DecidableEq, Repr

/-- The low and the high page register of a DMA channel (R75, R76). -/
inductive PageHalf
  | low
  | high
deriving DecidableEq, Repr

/-- A device of the port bus: the owner of a set of ports (R9, R81). -/
inductive PortDevice
  | pic
  | pit
  | dma (k : DmaCtl)
deriving DecidableEq, Repr

/-- The initialization cursor of a PIC element, values 0, 1, 2, 3 in this order (R33). -/
inductive InitState
  | normal
  | icw2
  | icw3
  | icw4
deriving DecidableEq, Repr

/-- Which byte of a count the next access to a PIT data port moves (R45, R46). -/
inductive ByteState
  | lsb
  | msb
  | word0
  | word1
deriving DecidableEq, Repr

/-- The latch mode of a PIT channel (R49). -/
inductive LatchState
  | none
  | lsb
  | msb
  | word0
deriving DecidableEq, Repr

/-- The access mode of a PIT channel, values 1, 2, 3 in this order (R44). -/
inductive RwMode
  | lsb
  | msb
  | word
deriving DecidableEq, Repr

/-- The counting mode of a PIT channel, 0..5 (R42). -/
inductive PitMode
  | m0
  | m1
  | m2
  | m3
  | m4
  | m5
deriving DecidableEq, Repr

/-- What a Timer calls on expiry (R61): the PIT's channel 0 (R267), or a device outside the block (R413). -/
inductive TimerTarget
  | pit0
  | device (d : Nat)
deriving DecidableEq, Repr

/-- The mutation of a Timer that an `update` goes with (R152, R153): none, re-arm, or disable. -/
inductive TimerChange
  | keep
  | arm (expiry : Nat)
  | disarm
deriving DecidableEq, Repr

/-- A register of the port map (R100 to R105). -/
inductive PortReg
  | picCommand (e : Elem)
  | picData (e : Elem)
  | elcr (e : Elem)
  | pitData (c : PitChan)
  | pitControl
  | dmaAddress (k : DmaCtl) (i : DmaChan)
  | dmaCount (k : DmaCtl) (i : DmaChan)
  | dmaControl (k : DmaCtl) (r : BitVec 4)
  | page (k : DmaCtl) (h : PageHalf) (i : DmaChan)
deriving DecidableEq, Repr

/-- One call of an agent into the block, as it arrives: the encoding of an instruction (R9, R129). Arguments are
wider than their types in R9, since a call outside them is a contract violation that the model takes (R400). -/
inductive Call
  | writeByte (port value : Nat)
  | writeWord (port value : Nat)
  | writeLong (port value : Nat)
  | readByte (port : Nat)
  | readWord (port : Nat)
  | readLong (port : Nat)
  | setIrq (line level : Nat)
  | cpuGetInterrupt
  | setGate (channel level : Nat)
  | getOut (channel : Nat)
  | holdDmaRequest (n : Nat)
  | releaseDmaRequest (n : Nat)
  | registerChannel (n device : Nat)
  | getChannelMode (n : Nat)
  | readMemory (n : Nat) (buf : List Byte) (off pos len : Int)
  | writeMemory (n : Nat) (buf : List Byte) (off pos len : Int)
  | newTimer (target : TimerTarget)
  | update (timer : Nat) (change : TimerChange)
  | getTime
  | timePasses (delta : Int)
  | reset
  | portsRequested (d : PortDevice)
deriving DecidableEq, Repr

/-- The instructions: one constructor for each row of spec/opcode_table.json, in its order. The fields are those
the row's rule uses; the bits R128 lists as ignored have been dropped by the decoder. -/
inductive Instr
  -- PIC (30_encoding.md R106 to R114)
  | picIcw1 (e : Elem) (ic4 : Bool)
  | picOcw3 (e : Elem) (esmm smm p rr ris : Bool)
  | picOcw2RotateAeoiClear (e : Elem)
  | picOcw2Eoi (e : Elem)
  | picOcw2Nop (e : Elem)
  | picOcw2SpecificEoi (e : Elem) (l : Line)
  | picOcw2RotateAeoiSet (e : Elem)
  | picOcw2RotateEoi (e : Elem)
  | picOcw2SetPriority (e : Elem) (l : Line)
  | picOcw2RotateSpecificEoi (e : Elem) (l : Line)
  | picOcw1 (e : Elem) (d : Byte)
  | picIcw2 (e : Elem) (base : BitVec 5)
  | picIcw3 (e : Elem)
  | picIcw4 (e : Elem) (sfnm aeoi : Bool)
  | picPollRead (e : Elem) (port : PicPort)
  | picIrrRead (e : Elem)
  | picIsrRead (e : Elem)
  | picImrRead (e : Elem)
  | picElcrWrite (e : Elem) (d : Byte)
  | picElcrRead (e : Elem)
  -- PIT (30_encoding.md R115 to R119)
  | pitLatch (c : PitChan)
  | pitControlLsb (c : PitChan) (m : BitVec 3) (bcd : Bool)
  | pitControlMsb (c : PitChan) (m : BitVec 3) (bcd : Bool)
  | pitControlWord (c : PitChan) (m : BitVec 3) (bcd : Bool)
  | pitReadback (count status sel0 sel1 sel2 : Bool)
  | pitWriteLsb (c : PitChan) (b : Byte)
  | pitWriteMsb (c : PitChan) (b : Byte)
  | pitWriteWord0 (c : PitChan) (b : Byte)
  | pitWriteWord1 (c : PitChan) (b : Byte)
  | pitReadStatus (c : PitChan)
  | pitReadLatchedLsb (c : PitChan)
  | pitReadLatchedMsb (c : PitChan)
  | pitReadLatchedWord0 (c : PitChan)
  | pitReadLiveLsb (c : PitChan)
  | pitReadLiveMsb (c : PitChan)
  | pitReadLiveWord0 (c : PitChan)
  | pitReadLiveWord1 (c : PitChan)
  | pitControlRead
  -- DMA (30_encoding.md R120 to R127)
  | dmaAddrWrite (k : DmaCtl) (i : DmaChan) (b : Byte)
  | dmaCountWrite (k : DmaCtl) (i : DmaChan) (b : Byte)
  | dmaAddrRead (k : DmaCtl) (i : DmaChan)
  | dmaCountRead (k : DmaCtl) (i : DmaChan)
  | dmaCommand (k : DmaCtl) (v : Byte)
  | dmaRequest (k : DmaCtl) (i : DmaChan) (set : Bool)
  | dmaSingleMask (k : DmaCtl) (i : DmaChan) (set : Bool)
  | dmaMode (k : DmaCtl) (v : Byte)
  | dmaClearFlipFlop (k : DmaCtl)
  | dmaMasterClear (k : DmaCtl)
  | dmaClearMasks (k : DmaCtl)
  | dmaWriteMasks (k : DmaCtl) (m : BitVec 4)
  | dmaStatusRead (k : DmaCtl)
  | dmaMaskRead (k : DmaCtl)
  | dmaOtherRead (k : DmaCtl) (r : BitVec 4)
  | dmaPageLowWrite (k : DmaCtl) (i : DmaChan) (b : Byte)
  | dmaPageHighWrite (k : DmaCtl) (i : DmaChan) (b : Byte)
  | dmaPageRead (k : DmaCtl) (h : PageHalf) (i : DmaChan)
  -- wide port accesses (20_memory.md R83); `long` is four bytes, otherwise two
  | outwOutl (long : Bool) (port value : Nat)
  | inwInl (long : Bool) (port : Nat)
  -- calls (00_scope.md R9, 30_encoding.md R129)
  | irq (line level : Nat)
  | inta
  | gate (channel level : Nat)
  | getOut (channel : Nat)
  | dreq (n : Nat)
  | drel (n : Nat)
  | reg (n device : Nat)
  | getChannelMode (n : Nat)
  | readMemory (n : Nat) (buf : List Byte) (off pos len : Int)
  | writeMemory (n : Nat) (buf : List Byte) (off pos len : Int)
  | newTimer (target : TimerTarget)
  | update (timer : Nat) (change : TimerChange)
  | getTime
  | tick (delta : Int)
  | reset
  | portsRequested (d : PortDevice)
deriving DecidableEq, Repr

/-- The sequencing cursors of a PIC element that the decoding reads (R79, R114). -/
structure PicCursor where
  initState : InitState
  poll : Bool
  readRegisterSelect : Bool
deriving DecidableEq, Repr

/-- The sequencing cursors of a PIT channel that the decoding reads (R79, R118). -/
structure PitCursor where
  readState : ByteState
  writeState : ByteState
  countLatched : LatchState
  statusLatched : Bool
deriving DecidableEq, Repr

/-- All cursors of the block that choose the row of a port access (R130). -/
structure Cursors where
  master : PicCursor
  slave : PicCursor
  chan0 : PitCursor
  chan1 : PitCursor
  chan2 : PitCursor
deriving DecidableEq, Repr

/-- The cursors of PIC element `e`. -/
def Cursors.pic (cur : Cursors) : Elem → PicCursor
  | .master => cur.master
  | .slave => cur.slave

/-- The cursors of PIT channel `c`. -/
def Cursors.pit (cur : Cursors) : PitChan → PitCursor
  | .c0 => cur.chan0
  | .c1 => cur.chan1
  | .c2 => cur.chan2

end Sys2Proof
end

