-- ==== Sys2Proof/Config.lean ====
section
/-! DEFINITION. The parameters of spec/00_scope.md R6 at their values, and the free values: what the spec leaves
open, as constants without a body, so that no proof can know one. -/

namespace Sys2Proof.Config

/-- `TICK_RATE`, ticks per second (R6). -/
def tickRate : Nat := 1000000000
/-- `PIT_FREQ`, Hz (R6, D19). -/
def pitFreq : Nat := 1193182
/-- `PIT_IRQ_LINE`, the PIC line of PIT channel 0 (R6, R53). -/
def pitIrqLine : Nat := 0
/-- `CASCADE_LINE`, the master line fed by the slave (R6). -/
def cascadeLine : Line := 2
/-- `ELCR_MASK_MASTER` and `ELCR_MASK_SLAVE` (R6, R20). -/
def elcrMask : Elem → Byte
  | .master => 0xF8
  | .slave => 0xDE

/-- `PORT_PIC_MASTER` and `PORT_PIC_SLAVE`: the command port; the data port is the next one (R6, R100). -/
def portPic : Elem → Nat
  | .master => 0x20
  | .slave => 0xA0
/-- `PORT_ELCR` (R6, R105). -/
def portElcr : Elem → Nat
  | .master => 0x4D0
  | .slave => 0x4D1
/-- `PORT_PIT_BASE` (R6, R101). -/
def portPitBase : Nat := 0x40
/-- `PORT_DMA_BASE` (R6, R102). -/
def portDmaBase : DmaCtl → Nat
  | .primary => 0x00
  | .secondary => 0xC0
/-- `dShift`, the `controller_index` of a DMA controller (R65). -/
def dShift : DmaCtl → Nat
  | .primary => 0
  | .secondary => 1
/-- `PORT_PAGE_LOW_BASE` and `PORT_PAGE_HIGH_BASE` (R6, R104). -/
def portPageBase : DmaCtl → PageHalf → Nat
  | .primary, .low => 0x80
  | .secondary, .low => 0x88
  | .primary, .high => 0x480
  | .secondary, .high => 0x488

/-- `PAGE_TABLE`: -1 is `none` (R6, R104). -/
def pageTable : List (Option DmaChan) :=
  [none, some 2, some 3, some 1, none, none, none, some 0]

/-- `ports_requested()` of each device (R81). -/
def portsRequested : PortDevice → List Nat
  | .pic => [0x20, 0x21, 0xA0, 0xA1, 0x4D0, 0x4D1]
  | .pit => [0x40, 0x41, 0x42, 0x43]
  | .dma .primary =>
    [0x00, 0x01, 0x02, 0x03, 0x04, 0x05, 0x06, 0x07, 0x08, 0x09, 0x0A, 0x0B, 0x0C, 0x0D, 0x0E, 0x0F,
     0x81, 0x82, 0x83, 0x87, 0x481, 0x482, 0x483, 0x487]
  | .dma .secondary =>
    [0xC0, 0xC2, 0xC4, 0xC6, 0xC8, 0xCA, 0xCC, 0xCE, 0xD0, 0xD2, 0xD4, 0xD6, 0xD8, 0xDA, 0xDC, 0xDE,
     0x89, 0x8A, 0x8B, 0x8F, 0x489, 0x48A, 0x48B, 0x48F]

/-- Port numbers are 16 bits wide (R6 `PORT_WIDTH`). -/
def portLimit : Nat := 2 ^ 16
/-- Time is an unsigned 64-bit tick count (R6 `TIME_WIDTH`). -/
def timeLimit : Nat := 2 ^ 64
/-- The argument of `time_passes` is 32 bits wide (R6 `DELTA_WIDTH`). -/
def deltaLimit : Nat := 2 ^ 32
/-- Physical addresses are 32 bits wide (R6 `DMA_ADDRESS_WIDTH`). -/
def addressLimit : Nat := 2 ^ 32
/-- Transfer positions are 32 bits wide (R6 `WORD_COUNT_WIDTH`). -/
def positionLimit : Nat := 2 ^ 32
/-- The identity of the Timer that construction makes for PIT channel 0 (R52, R430): the first one. -/
def pitTimer : Nat := 0

/-- FREE VALUE. `PIT_CONTROL_READ_VALUE`: the byte the `draw`-th free draw gives a read of port 0x43 (R284, D4;
log entry 8). -/
opaque pitControlReadValue (draw : Nat) : Byte

/-- FREE VALUE. The byte that a copy out of memory finds at `address`, past the last physical address (R91, A14;
log entry 4). -/
opaque unbackedByte (address draw : Nat) : Byte

/-- FREE VALUE. The position a transfer device returns when the state lists no reply of it (R344, R347, A16; log
entry 6). -/
opaque devicePosition (device channel position size draw : Nat) : Long

end Sys2Proof.Config
end

