-- ==== Sys2Proof/WellFormed.lean ====
section
/-! DEFINITION. Well-formed instructions: the operands lie in the types and ranges that the interface gives them
(R9, R14, R81). An instruction that is not well formed still has a meaning where an agent can send it: the contract
violation of R400. -/

namespace Sys2Proof

/-- A buffer range `off .. off+len-1` inside a buffer, with no negative number (R89, R90, CV8). The empty range of
`len = 0` is inside every buffer. -/
def bufferRangeOk (buf : List Byte) (off pos len : Int) : Bool :=
  decide (0 ≤ off) && decide (0 ≤ pos) && decide (0 ≤ len) && (decide (len = 0) || decide (off + len ≤ buf.length))

/-- The expiry of a timer mutation is an unsigned 64-bit time (R152). -/
def TimerChange.wf : TimerChange → Bool
  | .keep => true
  | .arm t => decide (t < Config.timeLimit)
  | .disarm => true

/-- The registers r = 9..14, which read 0 (R336). -/
def isOtherRead (r : BitVec 4) : Bool := decide (9 ≤ r.toNat) && decide (r.toNat ≤ 14)

/-- Operands in the ranges that the spec gives them. -/
def Instr.wf : Instr → Bool
  | .picIcw1 _ _ | .picOcw3 _ _ _ _ _ _ => true
  | .picOcw2RotateAeoiClear _ | .picOcw2Eoi _ | .picOcw2Nop _ | .picOcw2SpecificEoi _ _ => true
  | .picOcw2RotateAeoiSet _ | .picOcw2RotateEoi _ | .picOcw2SetPriority _ _ | .picOcw2RotateSpecificEoi _ _ => true
  | .picOcw1 _ _ | .picIcw2 _ _ | .picIcw3 _ | .picIcw4 _ _ _ => true
  | .picPollRead _ _ | .picIrrRead _ | .picIsrRead _ | .picImrRead _ => true
  | .picElcrWrite _ _ | .picElcrRead _ => true
  | .pitLatch _ | .pitControlLsb _ _ _ | .pitControlMsb _ _ _ | .pitControlWord _ _ _ => true
  | .pitReadback _ _ _ _ _ => true
  | .pitWriteLsb _ _ | .pitWriteMsb _ _ | .pitWriteWord0 _ _ | .pitWriteWord1 _ _ => true
  | .pitReadStatus _ | .pitReadLatchedLsb _ | .pitReadLatchedMsb _ | .pitReadLatchedWord0 _ => true
  | .pitReadLiveLsb _ | .pitReadLiveMsb _ | .pitReadLiveWord0 _ | .pitReadLiveWord1 _ | .pitControlRead => true
  | .dmaAddrWrite _ _ _ | .dmaCountWrite _ _ _ | .dmaAddrRead _ _ | .dmaCountRead _ _ => true
  | .dmaCommand _ _ | .dmaRequest _ _ _ | .dmaSingleMask _ _ _ | .dmaMode _ _ => true
  | .dmaClearFlipFlop _ | .dmaMasterClear _ | .dmaClearMasks _ | .dmaWriteMasks _ _ => true
  | .dmaStatusRead _ | .dmaMaskRead _ => true
  | .dmaOtherRead _ r => isOtherRead r
  | .dmaPageLowWrite _ _ _ | .dmaPageHighWrite _ _ _ | .dmaPageRead _ _ _ => true
  | .outwOutl long port value => decide (port < Config.portLimit) && decide (value < if long then 2 ^ 32 else 2 ^ 16)
  | .inwInl _ port => decide (port < Config.portLimit)
  | .irq line level => decide (line ≤ 15) && decide (level ≤ 1)
  | .inta => true
  | .gate c level => decide (c ≤ 2) && decide (level ≤ 1)
  | .getOut c => decide (c ≤ 2)
  | .dreq n | .drel n | .reg n _ | .getChannelMode n => decide (n ≤ 7)
  | .readMemory n buf off pos len | .writeMemory n buf off pos len => decide (n ≤ 7) && bufferRangeOk buf off pos len
  | .newTimer _ => true
  | .update _ change => change.wf
  | .getTime => true
  | .tick delta => decide (0 ≤ delta) && decide (delta < Config.deltaLimit)
  | .reset | .portsRequested _ => true

/-- A well-formed instruction. -/
abbrev WellFormed (i : Instr) : Prop := i.wf = true

end Sys2Proof
end

