-- ==== Sys2Proof/Decode.lean ====
section
/-! DEFINITION. Decoding: the port map (R100 to R105), the row that a port access selects from its port, the
cursors of the state and the data byte (R106, R114, R118, R130), and the calls, which carry their arguments (R129).
Total on every call; what is not a registered access is rejected by name. Then the encoder: the call of an
instruction, written from the same tables; and the opcode table itself, as data. -/

namespace Sys2Proof

/-! ## The port map -/

/-- The register r = 0..15 of a DMA controller (R102, R103, R320). -/
def dmaReg (k : DmaCtl) (r : Nat) : PortReg :=
  if r < 8 then
    if r % 2 = 0 then .dmaAddress k (Fin.ofNat 4 (r / 2)) else .dmaCount k (Fin.ofNat 4 (r / 2))
  else .dmaControl k (BitVec.ofNat 4 r)

/-- The PIC register at port `p`: even address command, odd address data (R100), and the ELCR (R105). -/
def picReg? (e : Elem) (p : Nat) : Option PortReg :=
  if p = Config.portPic e then some (.picCommand e)
  else if p = Config.portPic e + 1 then some (.picData e)
  else if p = Config.portElcr e then some (.elcr e)
  else none

/-- The PIT register at port `p` (R101). -/
def pitReg? (p : Nat) : Option PortReg :=
  if p = Config.portPitBase then some (.pitData .c0)
  else if p = Config.portPitBase + 1 then some (.pitData .c1)
  else if p = Config.portPitBase + 2 then some (.pitData .c2)
  else if p = Config.portPitBase + 3 then some .pitControl
  else none

/-- The register of DMA controller `k` at port `p`: `r = (offset >> dShift) & 0x0F` (R102, R320); on the 16-bit
controller the odd ports are not registered. -/
def dmaReg? (k : DmaCtl) (p : Nat) : Option PortReg :=
  let offset := p - Config.portDmaBase k
  if Config.portDmaBase k ≤ p ∧ offset < 16 * 2 ^ Config.dShift k ∧ offset % 2 ^ Config.dShift k = 0 then
    some (dmaReg k ((offset >>> Config.dShift k) % 16))
  else none

/-- The page register at port `p`: the channel is `PAGE_TABLE` at the offset; an offset without a channel is not
registered (R104, R337). -/
def pageReg? (k : DmaCtl) (h : PageHalf) (p : Nat) : Option PortReg :=
  let base := Config.portPageBase k h
  if base ≤ p ∧ p - base < 8 then ((Config.pageTable[p - base]?).join).map (.page k h) else none

/-- The register of the block at port `p`, if the port is registered (R81). -/
def portReg (p : Nat) : Option PortReg :=
  (picReg? .master p).or <| (picReg? .slave p).or <| (pitReg? p).or <|
  (dmaReg? .primary p).or <| (dmaReg? .secondary p).or <|
  (pageReg? .primary .low p).or <| (pageReg? .secondary .low p).or <|
  (pageReg? .primary .high p).or (pageReg? .secondary .high p)

/-- The device that owns a register (R81). -/
def PortReg.device : PortReg → PortDevice
  | .picCommand _ | .picData _ | .elcr _ => .pic
  | .pitData _ | .pitControl => .pit
  | .dmaAddress k _ | .dmaCount k _ | .dmaControl k _ | .page k _ _ => .dma k

/-! ## Fields of a data byte -/

/-- Bits `lo + w - 1 .. lo` of a data byte as a number, `d[hi:lo]` (R12). -/
def field (d : Byte) (lo w : Nat) : Nat := (d.extractLsb' lo w).toNat

/-- A flag at bit `n` of a byte that is being put together. -/
def flagAt (b : Bool) (n : Nat) : Byte := if b then 1#8 <<< n else 0#8

/-- A field of width `w` at bit `lo` of a byte that is being put together. -/
def fieldAt {w : Nat} (x : BitVec w) (lo : Nat) : Byte := x.setWidth 8 <<< lo

/-- The channel that `SC = d[7:6]` selects: 3 is none, the readback command (R115). -/
def selectedChannel (d : Byte) : Option PitChan :=
  match field d 6 2 with
  | 0 => some .c0
  | 1 => some .c1
  | 2 => some .c2
  | _ => none

/-- The bits `SC` of a channel (R115). -/
def channelBits : PitChan → BitVec 2
  | .c0 => 0
  | .c1 => 1
  | .c2 => 2

/-- The channel that bits 1:0 of a DMA request, mask or mode byte select (R123, R124, R125). -/
def dmaChannelOf (d : Byte) : DmaChan := Fin.ofNat 4 (field d 0 2)

/-! ## The row of a port access -/

/-- A write to a PIC command port: ICW1 if `d[4] = 1`, else OCW3 if `d[3] = 1`, else OCW2 by `d[7:5]`
(R106, R107, R112, R113). -/
def decodePicCommand (e : Elem) (d : Byte) : Instr :=
  if d.getLsbD 4 then .picIcw1 e (d.getLsbD 0)
  else if d.getLsbD 3 then
    .picOcw3 e (d.getLsbD 6) (d.getLsbD 5) (d.getLsbD 2) (d.getLsbD 1) (d.getLsbD 0)
  else
    let l : Line := d.extractLsb' 0 3
    match field d 5 3 with
    | 0 => .picOcw2RotateAeoiClear e
    | 1 => .picOcw2Eoi e
    | 2 => .picOcw2Nop e
    | 3 => .picOcw2SpecificEoi e l
    | 4 => .picOcw2RotateAeoiSet e
    | 5 => .picOcw2RotateEoi e
    | 6 => .picOcw2SetPriority e l
    | _ => .picOcw2RotateSpecificEoi e l

/-- A write to a PIC data port, by `init_state` (R114, R108, R109, R110, R111). -/
def decodePicData (cur : PicCursor) (e : Elem) (d : Byte) : Instr :=
  match cur.initState with
  | .normal => .picOcw1 e d
  | .icw2 => .picIcw2 e (d.extractLsb' 3 5)
  | .icw3 => .picIcw3 e
  | .icw4 => .picIcw4 e (d.getLsbD 4) (d.getLsbD 1)

/-- A write to port 0x43: a control word, a counter latch command, or the readback command (R115, R116). -/
def decodePitControl (d : Byte) : Instr :=
  match selectedChannel d with
  | none =>
    .pitReadback (!d.getLsbD 5) (!d.getLsbD 4) (d.getLsbD 1) (d.getLsbD 2) (d.getLsbD 3)
  | some c =>
    let m : BitVec 3 := d.extractLsb' 1 3
    match field d 4 2 with
    | 0 => .pitLatch c
    | 1 => .pitControlLsb c m (d.getLsbD 0)
    | 2 => .pitControlMsb c m (d.getLsbD 0)
    | _ => .pitControlWord c m (d.getLsbD 0)

/-- A write to a PIT data port, by `write_state` (R118). -/
def decodePitData (cur : PitCursor) (c : PitChan) (b : Byte) : Instr :=
  match cur.writeState with
  | .lsb => .pitWriteLsb c b
  | .msb => .pitWriteMsb c b
  | .word0 => .pitWriteWord0 c b
  | .word1 => .pitWriteWord1 c b

/-- A write to a DMA controller register, r = 8..15 (R103, R122 to R126); r = 0..7 are channel registers and never
come here. -/
def decodeDmaControl (k : DmaCtl) (r : BitVec 4) (d : Byte) : Instr :=
  match r.toNat with
  | 8 => .dmaCommand k d
  | 9 => .dmaRequest k (dmaChannelOf d) (d.getLsbD 2)
  | 10 => .dmaSingleMask k (dmaChannelOf d) (d.getLsbD 2)
  | 11 => .dmaMode k d
  | 12 => .dmaClearFlipFlop k
  | 13 => .dmaMasterClear k
  | 14 => .dmaClearMasks k
  | _ => .dmaWriteMasks k (d.extractLsb' 0 4)

/-- The row of a byte write to a register (R130). -/
def decodeWrite (cur : Cursors) (r : PortReg) (d : Byte) : Instr :=
  match r with
  | .picCommand e => decodePicCommand e d
  | .picData e => decodePicData (cur.pic e) e d
  | .elcr e => .picElcrWrite e d
  | .pitData c => decodePitData (cur.pit c) c d
  | .pitControl => decodePitControl d
  | .dmaAddress k i => .dmaAddrWrite k i d
  | .dmaCount k i => .dmaCountWrite k i d
  | .dmaControl k r => decodeDmaControl k r d
  | .page k .low i => .dmaPageLowWrite k i d
  | .page k .high i => .dmaPageHighWrite k i d

/-- A read of a PIC port: by `poll` first, then by the port (R114). -/
def decodePicRead (cur : PicCursor) (e : Elem) (port : PicPort) : Instr :=
  if cur.poll then .picPollRead e port
  else
    match port with
    | .command => if cur.readRegisterSelect then .picIsrRead e else .picIrrRead e
    | .data => .picImrRead e

/-- A read of a PIT data port: by `status_latched`, then `count_latched`, then `read_state` (R118). -/
def decodePitRead (cur : PitCursor) (c : PitChan) : Instr :=
  if cur.statusLatched then .pitReadStatus c
  else
    match cur.countLatched with
    | .lsb => .pitReadLatchedLsb c
    | .msb => .pitReadLatchedMsb c
    | .word0 => .pitReadLatchedWord0 c
    | .none =>
      match cur.readState with
      | .lsb => .pitReadLiveLsb c
      | .msb => .pitReadLiveMsb c
      | .word0 => .pitReadLiveWord0 c
      | .word1 => .pitReadLiveWord1 c

/-- A read of a DMA controller register, r = 8..15 (R103). -/
def decodeDmaControlRead (k : DmaCtl) (r : BitVec 4) : Instr :=
  match r.toNat with
  | 8 => .dmaStatusRead k
  | 15 => .dmaMaskRead k
  | _ => .dmaOtherRead k r

/-- The row of a byte read of a register (R130). -/
def decodeRead (cur : Cursors) (r : PortReg) : Instr :=
  match r with
  | .picCommand e => decodePicRead (cur.pic e) e .command
  | .picData e => decodePicRead (cur.pic e) e .data
  | .elcr e => .picElcrRead e
  | .pitData c => decodePitRead (cur.pit c) c
  | .pitControl => .pitControlRead
  | .dmaAddress k i => .dmaAddrRead k i
  | .dmaCount k i => .dmaCountRead k i
  | .dmaControl k r => decodeDmaControlRead k r
  | .page k h i => .dmaPageRead k h i

/-! ## The decoder -/

/-- Why a call is no instruction: its port is not registered (CV4, R81), or an argument lies outside its type
(CV9, R9). -/
inductive Reject
  | unregisteredPort (port : Nat)
  | badArgument
deriving DecidableEq, Repr

/-- The instruction of a byte write (R82). -/
def decodeByteWrite (cur : Cursors) (port value : Nat) : Except Reject Instr :=
  if Config.portLimit ≤ port ∨ 2 ^ 8 ≤ value then .error .badArgument
  else
    match portReg port with
    | none => .error (.unregisteredPort port)
    | some r => .ok (decodeWrite cur r (BitVec.ofNat 8 value))

/-- The instruction of a byte read (R82). -/
def decodeByteRead (cur : Cursors) (port : Nat) : Except Reject Instr :=
  if Config.portLimit ≤ port then .error .badArgument
  else
    match portReg port with
    | none => .error (.unregisteredPort port)
    | some r => .ok (decodeRead cur r)

/-- The instruction of a wide write; its bytes are decoded one by one when it runs (R83). -/
def decodeWideWrite (long : Bool) (port value : Nat) : Except Reject Instr :=
  if Config.portLimit ≤ port ∨ (if long then 2 ^ 32 else 2 ^ 16) ≤ value then .error .badArgument
  else .ok (.outwOutl long port value)

/-- The instruction of a wide read (R83). -/
def decodeWideRead (long : Bool) (port : Nat) : Except Reject Instr :=
  if Config.portLimit ≤ port then .error .badArgument else .ok (.inwInl long port)

/-- The instruction of a call, at the cursors of the state (R129, R130). -/
def decode (cur : Cursors) : Call → Except Reject Instr
  | .writeByte p v => decodeByteWrite cur p v
  | .writeWord p v => decodeWideWrite false p v
  | .writeLong p v => decodeWideWrite true p v
  | .readByte p => decodeByteRead cur p
  | .readWord p => decodeWideRead false p
  | .readLong p => decodeWideRead true p
  | .setIrq line level => .ok (.irq line level)
  | .cpuGetInterrupt => .ok .inta
  | .setGate c level => .ok (.gate c level)
  | .getOut c => .ok (.getOut c)
  | .holdDmaRequest n => .ok (.dreq n)
  | .releaseDmaRequest n => .ok (.drel n)
  | .registerChannel n d => .ok (.reg n d)
  | .getChannelMode n => .ok (.getChannelMode n)
  | .readMemory n buf off pos len => .ok (.readMemory n buf off pos len)
  | .writeMemory n buf off pos len => .ok (.writeMemory n buf off pos len)
  | .newTimer target => .ok (.newTimer target)
  | .update t change => .ok (.update t change)
  | .getTime => .ok .getTime
  | .timePasses delta => .ok (.tick delta)
  | .reset => .ok .reset
  | .portsRequested d => .ok (.portsRequested d)

/-! ## The encoder -/

/-- The offset of the page registers of a channel: where `PAGE_TABLE` holds it (R104). -/
def pageOffset (i : DmaChan) : Nat := Config.pageTable.findIdx (· == some i)

/-- The port of a register (R100 to R105). -/
def portOf : PortReg → Nat
  | .picCommand e => Config.portPic e
  | .picData e => Config.portPic e + 1
  | .elcr e => Config.portElcr e
  | .pitData .c0 => Config.portPitBase
  | .pitData .c1 => Config.portPitBase + 1
  | .pitData .c2 => Config.portPitBase + 2
  | .pitControl => Config.portPitBase + 3
  | .dmaAddress k i => Config.portDmaBase k + (2 * i.val) <<< Config.dShift k
  | .dmaCount k i => Config.portDmaBase k + (2 * i.val + 1) <<< Config.dShift k
  | .dmaControl k r => Config.portDmaBase k + r.toNat <<< Config.dShift k
  | .page k h i => Config.portPageBase k h + pageOffset i

/-- A byte write to a register. -/
def writeTo (r : PortReg) (d : Byte) : Call := .writeByte (portOf r) d.toNat

/-- A byte read of a register. -/
def readOf (r : PortReg) : Call := .readByte (portOf r)

/-- The data byte of an OCW2 command (R112). -/
def ocw2Byte (cmd l : BitVec 3) : Byte := fieldAt cmd 5 ||| fieldAt l 0

/-- The data byte of a PIT control word (R115). -/
def controlByte (c : PitChan) (rw : BitVec 2) (m : BitVec 3) (bcd : Bool) : Byte :=
  fieldAt (channelBits c) 6 ||| fieldAt rw 4 ||| fieldAt m 1 ||| flagAt bcd 0

/-- The data byte of a DMA request or single-mask write (R123, R124). -/
def dmaSelectByte (i : DmaChan) (set : Bool) : Byte := BitVec.ofNat 8 i.val ||| flagAt set 2

/-- The call of an instruction: its port and data byte, with every ignored bit 0, or the call itself (R129). -/
def encode : Instr → Call
  | .picIcw1 e ic4 => writeTo (.picCommand e) (flagAt true 4 ||| flagAt ic4 0)
  | .picOcw3 e esmm smm p rr ris =>
    writeTo (.picCommand e)
      (flagAt esmm 6 ||| flagAt smm 5 ||| flagAt true 3 ||| flagAt p 2 ||| flagAt rr 1 ||| flagAt ris 0)
  | .picOcw2RotateAeoiClear e => writeTo (.picCommand e) (ocw2Byte 0 0)
  | .picOcw2Eoi e => writeTo (.picCommand e) (ocw2Byte 1 0)
  | .picOcw2Nop e => writeTo (.picCommand e) (ocw2Byte 2 0)
  | .picOcw2SpecificEoi e l => writeTo (.picCommand e) (ocw2Byte 3 l)
  | .picOcw2RotateAeoiSet e => writeTo (.picCommand e) (ocw2Byte 4 0)
  | .picOcw2RotateEoi e => writeTo (.picCommand e) (ocw2Byte 5 0)
  | .picOcw2SetPriority e l => writeTo (.picCommand e) (ocw2Byte 6 l)
  | .picOcw2RotateSpecificEoi e l => writeTo (.picCommand e) (ocw2Byte 7 l)
  | .picOcw1 e d => writeTo (.picData e) d
  | .picIcw2 e base => writeTo (.picData e) (fieldAt base 3)
  | .picIcw3 e => writeTo (.picData e) 0
  | .picIcw4 e sfnm aeoi => writeTo (.picData e) (flagAt sfnm 4 ||| flagAt aeoi 1)
  | .picPollRead e .command => readOf (.picCommand e)
  | .picPollRead e .data => readOf (.picData e)
  | .picIrrRead e => readOf (.picCommand e)
  | .picIsrRead e => readOf (.picCommand e)
  | .picImrRead e => readOf (.picData e)
  | .picElcrWrite e d => writeTo (.elcr e) d
  | .picElcrRead e => readOf (.elcr e)
  | .pitLatch c => writeTo .pitControl (controlByte c 0 0 false)
  | .pitControlLsb c m bcd => writeTo .pitControl (controlByte c 1 m bcd)
  | .pitControlMsb c m bcd => writeTo .pitControl (controlByte c 2 m bcd)
  | .pitControlWord c m bcd => writeTo .pitControl (controlByte c 3 m bcd)
  | .pitReadback count status sel0 sel1 sel2 =>
    writeTo .pitControl
      (flagAt true 7 ||| flagAt true 6 ||| flagAt (!count) 5 ||| flagAt (!status) 4 |||
        flagAt sel2 3 ||| flagAt sel1 2 ||| flagAt sel0 1)
  | .pitWriteLsb c b => writeTo (.pitData c) b
  | .pitWriteMsb c b => writeTo (.pitData c) b
  | .pitWriteWord0 c b => writeTo (.pitData c) b
  | .pitWriteWord1 c b => writeTo (.pitData c) b
  | .pitReadStatus c => readOf (.pitData c)
  | .pitReadLatchedLsb c => readOf (.pitData c)
  | .pitReadLatchedMsb c => readOf (.pitData c)
  | .pitReadLatchedWord0 c => readOf (.pitData c)
  | .pitReadLiveLsb c => readOf (.pitData c)
  | .pitReadLiveMsb c => readOf (.pitData c)
  | .pitReadLiveWord0 c => readOf (.pitData c)
  | .pitReadLiveWord1 c => readOf (.pitData c)
  | .pitControlRead => readOf .pitControl
  | .dmaAddrWrite k i b => writeTo (.dmaAddress k i) b
  | .dmaCountWrite k i b => writeTo (.dmaCount k i) b
  | .dmaAddrRead k i => readOf (.dmaAddress k i)
  | .dmaCountRead k i => readOf (.dmaCount k i)
  | .dmaCommand k v => writeTo (.dmaControl k 8) v
  | .dmaRequest k i set => writeTo (.dmaControl k 9) (dmaSelectByte i set)
  | .dmaSingleMask k i set => writeTo (.dmaControl k 10) (dmaSelectByte i set)
  | .dmaMode k v => writeTo (.dmaControl k 11) v
  | .dmaClearFlipFlop k => writeTo (.dmaControl k 12) 0
  | .dmaMasterClear k => writeTo (.dmaControl k 13) 0
  | .dmaClearMasks k => writeTo (.dmaControl k 14) 0
  | .dmaWriteMasks k m => writeTo (.dmaControl k 15) (fieldAt m 0)
  | .dmaStatusRead k => readOf (.dmaControl k 8)
  | .dmaMaskRead k => readOf (.dmaControl k 15)
  | .dmaOtherRead k r => readOf (.dmaControl k r)
  | .dmaPageLowWrite k i b => writeTo (.page k .low i) b
  | .dmaPageHighWrite k i b => writeTo (.page k .high i) b
  | .dmaPageRead k h i => readOf (.page k h i)
  | .outwOutl false p v => .writeWord p v
  | .outwOutl true p v => .writeLong p v
  | .inwInl false p => .readWord p
  | .inwInl true p => .readLong p
  | .irq line level => .setIrq line level
  | .inta => .cpuGetInterrupt
  | .gate c level => .setGate c level
  | .getOut c => .getOut c
  | .dreq n => .holdDmaRequest n
  | .drel n => .releaseDmaRequest n
  | .reg n d => .registerChannel n d
  | .getChannelMode n => .getChannelMode n
  | .readMemory n buf off pos len => .readMemory n buf off pos len
  | .writeMemory n buf off pos len => .writeMemory n buf off pos len
  | .newTimer target => .newTimer target
  | .update t change => .update t change
  | .getTime => .getTime
  | .tick delta => .timePasses delta
  | .reset => .reset
  | .portsRequested d => .portsRequested d

/-- The condition on the state under which the opcode table gives the row of an instruction (its column
"condition"); true where the table says "any state" (R114, R118, R130). -/
def Instr.selected (cur : Cursors) : Instr → Bool
  | .picOcw1 e _ => (cur.pic e).initState == .normal
  | .picIcw2 e _ => (cur.pic e).initState == .icw2
  | .picIcw3 e => (cur.pic e).initState == .icw3
  | .picIcw4 e _ _ => (cur.pic e).initState == .icw4
  | .picPollRead e _ => (cur.pic e).poll
  | .picIrrRead e => !(cur.pic e).poll && !(cur.pic e).readRegisterSelect
  | .picIsrRead e => !(cur.pic e).poll && (cur.pic e).readRegisterSelect
  | .picImrRead e => !(cur.pic e).poll
  | .pitWriteLsb c _ => (cur.pit c).writeState == .lsb
  | .pitWriteMsb c _ => (cur.pit c).writeState == .msb
  | .pitWriteWord0 c _ => (cur.pit c).writeState == .word0
  | .pitWriteWord1 c _ => (cur.pit c).writeState == .word1
  | .pitReadStatus c => (cur.pit c).statusLatched
  | .pitReadLatchedLsb c => !(cur.pit c).statusLatched && (cur.pit c).countLatched == .lsb
  | .pitReadLatchedMsb c => !(cur.pit c).statusLatched && (cur.pit c).countLatched == .msb
  | .pitReadLatchedWord0 c => !(cur.pit c).statusLatched && (cur.pit c).countLatched == .word0
  | .pitReadLiveLsb c =>
    !(cur.pit c).statusLatched && (cur.pit c).countLatched == .none && (cur.pit c).readState == .lsb
  | .pitReadLiveMsb c =>
    !(cur.pit c).statusLatched && (cur.pit c).countLatched == .none && (cur.pit c).readState == .msb
  | .pitReadLiveWord0 c =>
    !(cur.pit c).statusLatched && (cur.pit c).countLatched == .none && (cur.pit c).readState == .word0
  | .pitReadLiveWord1 c =>
    !(cur.pit c).statusLatched && (cur.pit c).countLatched == .none && (cur.pit c).readState == .word1
  | .picIcw1 _ _ | .picOcw3 _ _ _ _ _ _ => true
  | .picOcw2RotateAeoiClear _ | .picOcw2Eoi _ | .picOcw2Nop _ | .picOcw2SpecificEoi _ _ => true
  | .picOcw2RotateAeoiSet _ | .picOcw2RotateEoi _ | .picOcw2SetPriority _ _ | .picOcw2RotateSpecificEoi _ _ => true
  | .picElcrWrite _ _ | .picElcrRead _ => true
  | .pitLatch _ | .pitControlLsb _ _ _ | .pitControlMsb _ _ _ | .pitControlWord _ _ _ => true
  | .pitReadback _ _ _ _ _ | .pitControlRead => true
  | .dmaAddrWrite _ _ _ | .dmaCountWrite _ _ _ | .dmaAddrRead _ _ | .dmaCountRead _ _ => true
  | .dmaCommand _ _ | .dmaRequest _ _ _ | .dmaSingleMask _ _ _ | .dmaMode _ _ => true
  | .dmaClearFlipFlop _ | .dmaMasterClear _ | .dmaClearMasks _ | .dmaWriteMasks _ _ => true
  | .dmaStatusRead _ | .dmaMaskRead _ | .dmaOtherRead _ _ => true
  | .dmaPageLowWrite _ _ _ | .dmaPageHighWrite _ _ _ | .dmaPageRead _ _ _ => true
  | .outwOutl _ _ _ | .inwInl _ _ => true
  | .irq _ _ | .inta | .gate _ _ | .getOut _ | .dreq _ | .drel _ | .reg _ _ | .getChannelMode _ => true
  | .readMemory _ _ _ _ _ | .writeMemory _ _ _ _ _ => true
  | .newTimer _ | .update _ _ | .getTime | .tick _ | .reset | .portsRequested _ => true

/-! ## The opcode table

The rows of spec/opcode_table.json that a byte access can select (R130), as data: an account of the decoding that is
independent of the decoder above. -/

/-- The condition on the state, or on the data byte, that selects a row (the table's column "condition"). -/
inductive RowCondition
  | always
  | initState (i : InitState)
  | poll
  | noPoll
  | noPollSelect (isr : Bool)
  | notReadback
  | writeState (b : ByteState)
  | statusLatched
  | countLatched (l : LatchState)
  | live (b : ByteState)
deriving DecidableEq, Repr

/-- A row: its mnemonic, whether it is a write, its ports, the mask and the value of its data byte, its condition. -/
structure PortRow where
  mnemonic : String
  write : Bool
  ports : List Nat
  mask : Byte
  value : Byte
  condition : RowCondition
deriving DecidableEq, Repr

/-- The cursors of the PIC element at a port: the slave's at its two ports, else the master's (R100). -/
def Cursors.picAt (cur : Cursors) (port : Nat) : PicCursor :=
  if port / 2 = 0xA0 / 2 then cur.slave else cur.master

/-- The cursors of the PIT channel at a data port (R101). -/
def Cursors.pitAt (cur : Cursors) (port : Nat) : PitCursor :=
  if port % 4 = 0 then cur.chan0 else if port % 4 = 1 then cur.chan1 else cur.chan2

/-- Whether a condition holds for an access. -/
def RowCondition.holds (cur : Cursors) (port : Nat) (d : Byte) : RowCondition → Bool
  | .always => true
  | .initState i => (cur.picAt port).initState == i
  | .poll => (cur.picAt port).poll
  | .noPoll => !(cur.picAt port).poll
  | .noPollSelect isr => !(cur.picAt port).poll && (cur.picAt port).readRegisterSelect == isr
  | .notReadback => field d 6 2 != 3
  | .writeState b => (cur.pitAt port).writeState == b
  | .statusLatched => (cur.pitAt port).statusLatched
  | .countLatched l => !(cur.pitAt port).statusLatched && (cur.pitAt port).countLatched == l
  | .live b =>
    !(cur.pitAt port).statusLatched && (cur.pitAt port).countLatched == .none && (cur.pitAt port).readState == b

/-- Whether a row is the one of an access: its direction, its port, its data byte and its condition (R130). -/
def PortRow.selects (row : PortRow) (cur : Cursors) (write : Bool) (port : Nat) (d : Byte) : Bool :=
  row.write == write && row.ports.contains port && row.condition.holds cur port d &&
    (!write || d &&& row.mask == row.value)

/-- The PIC rows, in the order of the table. -/
def picRows : List PortRow := [
  ⟨"PIC_ICW1", true, [0x20, 0xA0], 0x10, 0x10, .always⟩,
  ⟨"PIC_OCW3", true, [0x20, 0xA0], 0x18, 0x08, .always⟩,
  ⟨"PIC_OCW2_ROTATE_AEOI_CLEAR", true, [0x20, 0xA0], 0xF8, 0x00, .always⟩,
  ⟨"PIC_OCW2_EOI", true, [0x20, 0xA0], 0xF8, 0x20, .always⟩,
  ⟨"PIC_OCW2_NOP", true, [0x20, 0xA0], 0xF8, 0x40, .always⟩,
  ⟨"PIC_OCW2_SPECIFIC_EOI", true, [0x20, 0xA0], 0xF8, 0x60, .always⟩,
  ⟨"PIC_OCW2_ROTATE_AEOI_SET", true, [0x20, 0xA0], 0xF8, 0x80, .always⟩,
  ⟨"PIC_OCW2_ROTATE_EOI", true, [0x20, 0xA0], 0xF8, 0xA0, .always⟩,
  ⟨"PIC_OCW2_SET_PRIORITY", true, [0x20, 0xA0], 0xF8, 0xC0, .always⟩,
  ⟨"PIC_OCW2_ROTATE_SPECIFIC_EOI", true, [0x20, 0xA0], 0xF8, 0xE0, .always⟩,
  ⟨"PIC_OCW1", true, [0x21, 0xA1], 0x00, 0x00, (.initState .normal)⟩,
  ⟨"PIC_ICW2", true, [0x21, 0xA1], 0x00, 0x00, (.initState .icw2)⟩,
  ⟨"PIC_ICW3", true, [0x21, 0xA1], 0x00, 0x00, (.initState .icw3)⟩,
  ⟨"PIC_ICW4", true, [0x21, 0xA1], 0x00, 0x00, (.initState .icw4)⟩,
  ⟨"PIC_POLL_READ", false, [0x20, 0xA0, 0x21, 0xA1], 0x00, 0x00, .poll⟩,
  ⟨"PIC_IRR_READ", false, [0x20, 0xA0], 0x00, 0x00, (.noPollSelect false)⟩,
  ⟨"PIC_ISR_READ", false, [0x20, 0xA0], 0x00, 0x00, (.noPollSelect true)⟩,
  ⟨"PIC_IMR_READ", false, [0x21, 0xA1], 0x00, 0x00, .noPoll⟩,
  ⟨"PIC_ELCR_WRITE", true, [0x4D0, 0x4D1], 0x00, 0x00, .always⟩,
  ⟨"PIC_ELCR_READ", false, [0x4D0, 0x4D1], 0x00, 0x00, .always⟩]

/-- The PIT rows. -/
def pitRows : List PortRow := [
  ⟨"PIT_LATCH", true, [0x43], 0x30, 0x00, .notReadback⟩,
  ⟨"PIT_CONTROL_LSB", true, [0x43], 0x30, 0x10, .notReadback⟩,
  ⟨"PIT_CONTROL_MSB", true, [0x43], 0x30, 0x20, .notReadback⟩,
  ⟨"PIT_CONTROL_WORD", true, [0x43], 0x30, 0x30, .notReadback⟩,
  ⟨"PIT_READBACK", true, [0x43], 0xC0, 0xC0, .always⟩,
  ⟨"PIT_WRITE_LSB", true, [0x40, 0x41, 0x42], 0x00, 0x00, (.writeState .lsb)⟩,
  ⟨"PIT_WRITE_MSB", true, [0x40, 0x41, 0x42], 0x00, 0x00, (.writeState .msb)⟩,
  ⟨"PIT_WRITE_WORD0", true, [0x40, 0x41, 0x42], 0x00, 0x00, (.writeState .word0)⟩,
  ⟨"PIT_WRITE_WORD1", true, [0x40, 0x41, 0x42], 0x00, 0x00, (.writeState .word1)⟩,
  ⟨"PIT_READ_STATUS", false, [0x40, 0x41, 0x42], 0x00, 0x00, .statusLatched⟩,
  ⟨"PIT_READ_LATCHED_LSB", false, [0x40, 0x41, 0x42], 0x00, 0x00, (.countLatched .lsb)⟩,
  ⟨"PIT_READ_LATCHED_MSB", false, [0x40, 0x41, 0x42], 0x00, 0x00, (.countLatched .msb)⟩,
  ⟨"PIT_READ_LATCHED_WORD0", false, [0x40, 0x41, 0x42], 0x00, 0x00, (.countLatched .word0)⟩,
  ⟨"PIT_READ_LIVE_LSB", false, [0x40, 0x41, 0x42], 0x00, 0x00, (.live .lsb)⟩,
  ⟨"PIT_READ_LIVE_MSB", false, [0x40, 0x41, 0x42], 0x00, 0x00, (.live .msb)⟩,
  ⟨"PIT_READ_LIVE_WORD0", false, [0x40, 0x41, 0x42], 0x00, 0x00, (.live .word0)⟩,
  ⟨"PIT_READ_LIVE_WORD1", false, [0x40, 0x41, 0x42], 0x00, 0x00, (.live .word1)⟩,
  ⟨"PIT_CONTROL_READ", false, [0x43], 0x00, 0x00, .always⟩]

/-- The DMA rows. -/
def dmaRows : List PortRow := [
  ⟨"DMA_ADDR_WRITE", true, [0x00, 0x02, 0x04, 0x06, 0xC0, 0xC4, 0xC8, 0xCC], 0x00, 0x00, .always⟩,
  ⟨"DMA_COUNT_WRITE", true, [0x01, 0x03, 0x05, 0x07, 0xC2, 0xC6, 0xCA, 0xCE], 0x00, 0x00, .always⟩,
  ⟨"DMA_ADDR_READ", false, [0x00, 0x02, 0x04, 0x06, 0xC0, 0xC4, 0xC8, 0xCC], 0x00, 0x00, .always⟩,
  ⟨"DMA_COUNT_READ", false, [0x01, 0x03, 0x05, 0x07, 0xC2, 0xC6, 0xCA, 0xCE], 0x00, 0x00, .always⟩,
  ⟨"DMA_COMMAND", true, [0x08, 0xD0], 0x00, 0x00, .always⟩,
  ⟨"DMA_REQUEST", true, [0x09, 0xD2], 0x00, 0x00, .always⟩,
  ⟨"DMA_SINGLE_MASK", true, [0x0A, 0xD4], 0x00, 0x00, .always⟩,
  ⟨"DMA_MODE", true, [0x0B, 0xD6], 0x00, 0x00, .always⟩,
  ⟨"DMA_CLEAR_FLIP_FLOP", true, [0x0C, 0xD8], 0x00, 0x00, .always⟩,
  ⟨"DMA_MASTER_CLEAR", true, [0x0D, 0xDA], 0x00, 0x00, .always⟩,
  ⟨"DMA_CLEAR_MASKS", true, [0x0E, 0xDC], 0x00, 0x00, .always⟩,
  ⟨"DMA_WRITE_MASKS", true, [0x0F, 0xDE], 0x00, 0x00, .always⟩,
  ⟨"DMA_STATUS_READ", false, [0x08, 0xD0], 0x00, 0x00, .always⟩,
  ⟨"DMA_MASK_READ", false, [0x0F, 0xDE], 0x00, 0x00, .always⟩,
  ⟨"DMA_OTHER_READ", false, [0x09, 0x0A, 0x0B, 0x0C, 0x0D, 0x0E, 0xD2, 0xD4, 0xD6, 0xD8, 0xDA, 0xDC], 0x00,
    0x00, .always⟩,
  ⟨"DMA_PAGE_LOW_WRITE", true, [0x81, 0x82, 0x83, 0x87, 0x89, 0x8A, 0x8B, 0x8F], 0x00, 0x00, .always⟩,
  ⟨"DMA_PAGE_HIGH_WRITE", true, [0x481, 0x482, 0x483, 0x487, 0x489, 0x48A, 0x48B, 0x48F], 0x00, 0x00, .always⟩,
  ⟨"DMA_PAGE_READ", false, [0x81, 0x82, 0x83, 0x87, 0x89, 0x8A, 0x8B, 0x8F, 0x481, 0x482, 0x483, 0x487, 0x489,
    0x48A, 0x48B, 0x48F], 0x00, 0x00, .always⟩]

/-- The rows of byte accesses, each at the place of its constructor in `Instr`. -/
def portRows : List PortRow := picRows ++ pitRows ++ dmaRows

/-! ## Words of the opcode table -/

/-- The registered ports in the order of R81, device by device: the first is the master PIC's command port. -/
def registeredPorts : List Nat :=
  Config.portsRequested .pic ++ Config.portsRequested .pit ++
    Config.portsRequested (.dma .primary) ++ Config.portsRequested (.dma .secondary)

/-- The bus transaction of a word of the opcode table (log entry 2). The table gives a row the bits of its data
byte and names its ports apart; the model lays the transaction out as the data byte in bits 7..0 and, above it, the
place of the port in `registeredPorts`, so that a word of 8 bits is a write to port 0x20. A place past the list
names no port. -/
def tableCall (nbits w : Nat) : Call :=
  let word := w % 2 ^ nbits
  .writeByte (registeredPorts.getD (word / 2 ^ 8) Config.portLimit) (word % 2 ^ 8)

/-- The cursors of the block after reset (R436). -/
def Cursors.reset : Cursors where
  master := { initState := .normal, poll := false, readRegisterSelect := false }
  slave := { initState := .normal, poll := false, readRegisterSelect := false }
  chan0 := { readState := .word0, writeState := .word0, countLatched := .none, statusLatched := false }
  chan1 := { readState := .word0, writeState := .word0, countLatched := .none, statusLatched := false }
  chan2 := { readState := .word0, writeState := .word0, countLatched := .none, statusLatched := false }

/-- The instruction the decoder reads from a word of the opcode table, at the cursors of reset. -/
def decodeTableWord (nbits w : Nat) : Option Instr :=
  match decode Cursors.reset (tableCall nbits w) with
  | .ok i => some i
  | .error _ => none

end Sys2Proof
end

