-- ==== Sys2Proof/Machine/State.lean ====
section
/-! DEFINITION. The state of the block as plain data: every field of spec/10_state.md, the memory behind the Memory
capability, and the model's own fields (what the outside world will do, and what has been observed); the
state at construction (R430) and after reset (R431, R436); the reasons a step can stop. -/

namespace Sys2Proof.Machine

/-! ## Registers -/

/-- One PIC element (R21 to R35); `role` and `elcr_mask` are constants of its name (R20, `Config.elcrMask`). -/
structure PicElement where
  /-- Interrupt Request Register (R21). -/
  irr : Byte
  /-- Interrupt Mask Register (R22). -/
  imr : Byte
  /-- In-Service Register (R23). -/
  isr : Byte
  /-- The last level seen on each line (R24). -/
  lastIrr : Byte
  /-- The line that has the highest priority (R25). -/
  priorityAdd : Line
  /-- The vector offset, bits 2:0 always 0 (R26). -/
  irqBase : Byte
  /-- false selects IRR, true ISR (R27). -/
  readRegisterSelect : Bool
  /-- The poll-mode latch (R28). -/
  poll : Bool
  /-- The special-mask mode flag, which no rule reads (R29). -/
  specialMask : Bool
  /-- Automatic end of interrupt (R30). -/
  autoEoi : Bool
  /-- Rotation on automatic end of interrupt (R31). -/
  rotateOnAutoEoi : Bool
  /-- Special fully nested mode (R32). -/
  specialFullyNested : Bool
  /-- The initialization cursor (R33). -/
  initState : InitState
  /-- Whether an ICW4 follows the ICW3 (R34). -/
  fourByteInit : Bool
  /-- The edge/level trigger mask, a set bit is level-triggered (R35). -/
  elcr : Byte
deriving DecidableEq, Repr

/-- One PIT channel (R40 to R51). -/
structure PitChannel where
  /-- The loaded count, 1..0x10000 (R40). -/
  countValue : Nat
  /-- The time at which counting started (R41). -/
  countStartTime : Nat
  /-- The counting mode (R42). -/
  mode : PitMode
  /-- The BCD flag, stored only (R43). -/
  bcd : Bool
  /-- The access mode (R44). -/
  rwMode : RwMode
  /-- Which byte the next live read returns (R45). -/
  readState : ByteState
  /-- Which byte the next write supplies (R46). -/
  writeState : ByteState
  /-- The low byte held between the two writes of a load (R47). -/
  inputLatch : Byte
  /-- The latched count (R48). -/
  outputLatch : Half
  /-- The latch mode (R49). -/
  countLatched : LatchState
  /-- Whether a status byte is pending (R50). -/
  statusLatched : Bool
  /-- The latched status byte (R50). -/
  status : Byte
  /-- The level last given by `set_gate` (R51). -/
  gate : Bool
deriving DecidableEq, Repr

/-- A Timer record (R61); its clock is the one clock of the block. Its identity is its place in `State.timers`. -/
structure Timer where
  target : TimerTarget
  expiry : Nat
  enabled : Bool
deriving DecidableEq, Repr

/-- One DMA channel (R70 to R77). -/
structure DmaChannel where
  /-- `base_address << dShift` since the last `init_channel` (R70). -/
  currentAddress : Long
  /-- The transfer position in bytes (R71). -/
  currentWordCount : Long
  /-- Written a byte at a time (R72). -/
  baseAddress : Half
  /-- Written a byte at a time (R73). -/
  baseWordCount : Half
  /-- The mode byte (R74). -/
  mode : Byte
  /-- Physical address bits 23:16 (R75). -/
  pageLow : Byte
  /-- Physical address bits 31:24 (R76). -/
  pageHigh : Byte
  /-- The registered transfer device (R77). -/
  device : Option Nat
deriving DecidableEq, Repr

/-- One DMA controller (R66 to R69) with its four channels. -/
structure DmaController where
  /-- Request bits 7:4 and terminal-count bits 3:0 (R66). -/
  status : Byte
  /-- The last accepted command (R67). -/
  command : Byte
  /-- A set bit masks the channel (R68). -/
  mask : BitVec 4
  /-- false selects the low byte, true the high byte (R69). -/
  flipFlop : Bool
  ch0 : DmaChannel
  ch1 : DmaChannel
  ch2 : DmaChannel
  ch3 : DmaChannel
deriving DecidableEq, Repr

/-- A dump: every field of 10_state.md, with the order of the queue and the registered devices (R11). The memory is
no part of it, being outside the block (R4, log entry 25). -/
structure Dump where
  picM : PicElement
  picS : PicElement
  pit0 : PitChannel
  pit1 : PitChannel
  pit2 : PitChannel
  pitNext : Option Nat
  currentTime : Nat
  timers : List Timer
  queue : List Nat
  dma0 : DmaController
  dma1 : DmaController
deriving DecidableEq, Repr

/-- One thing that an agent does to the block: a call, or the host's dump or reload (R7, R11). -/
inductive Action
  | call (c : Call)
  | dump
  | reload (d : Dump)
deriving DecidableEq, Repr

/-! ## What is observed -/

/-- An event that the block emits through a capability it consumes (R10). -/
inductive Event
  /-- `CPU.raise_interrupt()`. -/
  | raiseInterrupt
  /-- `CPU.clear_interrupt()`. -/
  | clearInterrupt
  /-- `MemRead(addr, len) -> bytes`. -/
  | memRead (addr : Nat) (bytes : List Byte)
  /-- `MemWrite(addr, bytes)`. -/
  | memWrite (addr : Nat) (bytes : List Byte)
  /-- `HandleTransfer(channel, position, size) -> new_position`. -/
  | handleTransfer (channel position size : Nat) (newPosition : Int)
  /-- `Expiry(timer)`, the callback of a timer that another device made (R10, R413, log entry 28). -/
  | expiry (timer : Nat)
deriving DecidableEq, Repr

/-- The value that an exposed operation returns (R9, R10). -/
inductive Result
  | none
  | byte (b : Byte)
  | word (w : Half)
  | long (w : Long)
  | level (l : Bool)
  | time (t : Nat)
  | timer (t : Nat)
  /-- The length that `read_memory` or `write_memory` returns, and the device's buffer as it leaves it (R89, R90). -/
  | transfer (len : Int) (buf : List Byte)
  | ports (ps : List Nat)
  /-- What a dump returns (R11). -/
  | dump (d : Dump)
deriving DecidableEq, Repr

/-- What a transfer device does when its handler is called: the calls it makes into the block, in order, and the
position it returns (R347, A16). -/
structure DeviceReply where
  calls : List Call
  newPosition : Int
deriving DecidableEq, Repr

/-! ## The state -/

/-- The state of the block. The fields from `calls` on are the model's own. -/
structure State where
  /-- PIC.M (R14, R36). -/
  picM : PicElement
  /-- PIC.S. -/
  picS : PicElement
  /-- PIT.C[0]. -/
  pit0 : PitChannel
  /-- PIT.C[1]. -/
  pit1 : PitChannel
  /-- PIT.C[2]. -/
  pit2 : PitChannel
  /-- `next_transition_time` of PIT channel 0 (R52). -/
  pitNext : Option Nat
  /-- `CLK.current_time` (R60). -/
  currentTime : Nat
  /-- The Timer records, by identity (R61). -/
  timers : List Timer
  /-- `CLK.Q`, the TimerQueue (R62). -/
  queue : List Nat
  /-- DMA[0]. -/
  dma0 : DmaController
  /-- DMA[1]. -/
  dma1 : DmaController
  /-- The memory behind the Memory capability, in canonical form (R80, R91). -/
  memory : List Host.Cell
  /-- MODEL. What the agents will do, in order (R7, log entry 1). -/
  calls : List Action
  /-- MODEL. What the transfer devices will do, one entry for each call of a handler (log entry 6). -/
  deviceReplies : List DeviceReply
  /-- MODEL. What the callbacks of other devices' timers will call, one entry for each expiry (log entry 7). -/
  expiryReplies : List (List Call)
  /-- MODEL. What the CPU will do inside each notification, one entry for each: return, or call back first, which is not
  admitted (R95, log entry 18). -/
  cpuReplies : List (Option Call)
  /-- MODEL. The events emitted so far, oldest first (R10, log entry 11). -/
  trace : List Event
  /-- MODEL. The value the last exposed operation returned (R10, log entry 11). -/
  result : Result
  /-- MODEL. The values returned to the calls made inside the last step, in order (R10, log entry 11). -/
  nested : List Result
  /-- MODEL. The number of free values drawn so far (log entry 9). -/
  freeCount : Nat
deriving DecidableEq, Repr

/-! ## Construction and reset -/

/-- A PIC element after `element_reset`, with the ELCR of power-on (R21 to R35, R207). -/
def PicElement.reset : PicElement where
  irr := 0
  imr := 0
  isr := 0
  lastIrr := 0
  priorityAdd := 0
  irqBase := 0
  readRegisterSelect := false
  poll := false
  specialMask := false
  autoEoi := false
  rotateOnAutoEoi := false
  specialFullyNested := false
  initState := .normal
  fourByteInit := false
  elcr := 0

/-- A PIT channel after reset at time 0, with the given gate (R40 to R51, R434). -/
def PitChannel.reset (gate : Bool) : PitChannel where
  countValue := 0x10000
  countStartTime := 0
  mode := .m3
  bcd := false
  rwMode := .word
  readState := .word0
  writeState := .word0
  inputLatch := 0
  outputLatch := 0
  countLatched := .none
  statusLatched := false
  status := 0
  gate := gate

/-- A DMA channel after reset (R70 to R77, R433). -/
def DmaChannel.reset : DmaChannel where
  currentAddress := 0
  currentWordCount := 0
  baseAddress := 0
  baseWordCount := 0
  mode := 0
  pageLow := 0
  pageHigh := 0
  device := none

/-- A DMA controller after reset (R66 to R69, R433). -/
def DmaController.reset : DmaController where
  status := 0
  command := 0
  mask := 0xF
  flipFlop := false
  ch0 := .reset
  ch1 := .reset
  ch2 := .reset
  ch3 := .reset

/-- The block at construction, before the reset that follows it (R430): time 0, the queue empty, channel 0's Timer
made and disabled. The fields that the reset writes hold their reset values (log entry 19). -/
def State.powerOn : State where
  picM := .reset
  picS := .reset
  pit0 := .reset true
  pit1 := .reset true
  pit2 := .reset false
  pitNext := none
  currentTime := 0
  timers := [{ target := .pit0, expiry := 0, enabled := false }]
  queue := []
  dma0 := .reset
  dma1 := .reset
  memory := []
  calls := []
  deviceReplies := []
  expiryReplies := []
  cpuReplies := []
  trace := []
  result := .none
  nested := []
  freeCount := 0

/-- The block right after construction and reset (R431, R434, R436): channel 0's output is high, so line 0 is
requested and `RaiseInterrupt` has been emitted, and its Timer is armed at 27462700. -/
def State.reset : State where
  picM := { PicElement.reset with irr := 0x01, lastIrr := 0x01 }
  picS := .reset
  pit0 := .reset true
  pit1 := .reset true
  pit2 := .reset false
  pitNext := some 27462700
  currentTime := 0
  timers := [{ target := .pit0, expiry := 27462700, enabled := true }]
  queue := [0]
  dma0 := .reset
  dma1 := .reset
  memory := []
  calls := []
  deviceReplies := []
  expiryReplies := []
  cpuReplies := []
  trace := [.raiseInterrupt]
  result := .none
  nested := []
  freeCount := 0

/-- The cursors of a PIC element (R79). -/
def PicElement.cursor (p : PicElement) : PicCursor where
  initState := p.initState
  poll := p.poll
  readRegisterSelect := p.readRegisterSelect

/-- The cursors of a PIT channel (R79). -/
def PitChannel.cursor (c : PitChannel) : PitCursor where
  readState := c.readState
  writeState := c.writeState
  countLatched := c.countLatched
  statusLatched := c.statusLatched

/-- The cursors that the decoding of the next port access reads (R79, R130). -/
def State.cursors (s : State) : Cursors where
  master := s.picM.cursor
  slave := s.picS.cursor
  chan0 := s.pit0.cursor
  chan1 := s.pit1.cursor
  chan2 := s.pit2.cursor

/-! ## Why a step stops -/

/-- `ContractViolation`, the one fault of the block (R400), with its code, the information the model records and the
events emitted so far. The step does not complete and no later step runs. Every one is SAFE: the spec names the stop,
and a step that stops proves nothing about what follows. DESIGN CHOICE: R400 keeps the events emitted before the stop and
is silent on the values already returned inside the step (R10); the record keeps the events and drops those values, the
step's `nested` and `result` (log entry 11). -/
inductive Fault
  /-- CV1. Raised by `set_irq` with line > 15 or a level that is not 0 or 1 (R203). Safe. -/
  | setIrqOperands (line level : Nat) (trace : List Event)
  /-- CV2. Raised by `set_gate` with channel > 2 or a level that is not 0 or 1 (R285). Safe. -/
  | setGateOperands (channel level : Nat) (trace : List Event)
  /-- CV3. Raised by a DMA call with channel n > 7 (R341, R342, R345, R346, R89, R90). Safe. -/
  | dmaChannel (n : Nat) (trace : List Event)
  /-- CV4. Raised by an access to a port that the device did not request, or by a wider access whose bytes leave the
  device's ports (R81, R83). Safe. -/
  | unregisteredPort (port : Nat) (trace : List Event)
  /-- CV5. Raised by `time_passes` with a delta outside 0..2^32-1, or that makes the time reach 2^64 (R158). Safe. -/
  | timePasses (delta : Int) (currentTime : Nat) (trace : List Event)
  /-- CV6. Raised by a call that a device, a callback or the CPU makes where it is not admitted (R95). Safe. -/
  | reentrantCall (call : Call) (trace : List Event)
  /-- CV7. Raised when `handle_transfer` returns a position outside 0..2^32-1 (R344). Safe. -/
  | transferPosition (channel : Nat) (returned : Int) (trace : List Event)
  /-- CV8. Raised by `read_memory` or `write_memory` with a buffer range outside the device's buffer, or a negative
  `len`, `off` or `pos` (R89, R90). Safe. -/
  | bufferRange (n : Nat) (off pos len : Int) (trace : List Event)
  /-- CV9. Raised by a call with an argument outside its type in R9 (R400). Safe. -/
  | badArgument (call : Call) (trace : List Event)
deriving DecidableEq, Repr

/-- The model's refusals. -/
inductive Refusal
  /-- Raised by an arm of `exec` that has no meaning yet. Safe. No arm of this model raises it. -/
  | notModelled (mnemonic : String)
  /-- Raised by the engines of Transfer.lean and Time.lean if the bound on their work were too small. Safe. The
  lemmas of Laws/Transfer.lean and Laws/Time.lean prove that it never is (log entry 24). -/
  | workBound
deriving DecidableEq, Repr

/-- The outcome of a step or of an operation that can stop. -/
abbrev Outcome := Host.Outcome State Fault Refusal

end Sys2Proof.Machine
end

