-- ==== Sys2Proof/Machine/Operands.lean ====
section
/-! DEFINITION. Operand forms: line bits, the bytes of a 16-bit register, the operands of a PIT count, the values of
the mode fields, DMA thresholds, addresses and register reads. -/

namespace Sys2Proof.Machine

/-! ## Lines and bytes -/

/-- `1 << n` for a line of an element (R202). -/
def lineBit (n : Line) : Byte := 1#8 <<< n.toNat

/-- Set the bit of line `n`. -/
def setLineBit (b : Byte) (n : Line) : Byte := b ||| lineBit n

/-- Clear the bit of line `n`. -/
def clearLineBit (b : Byte) (n : Line) : Byte := b &&& ~~~lineBit n

/-- The low or the high byte of a 16-bit register (R84, R121). -/
def halfByte (h : Half) (high : Bool) : Byte :=
  if high then h.extractLsb' 8 8 else h.extractLsb' 0 8

/-- `lo | (hi << 8)` (R119). -/
def joinBytes (lo hi : Byte) : Half := hi ++ lo

/-- A 16-bit register with its low or its high byte replaced (R322, R323). -/
def withByte (h : Half) (high : Bool) (b : Byte) : Half :=
  if high then joinBytes (halfByte h false) b else joinBytes b (halfByte h true)

/-! ## PIT -/

/-- The operand of an MSB-only write, `b << 8` (R119, R273). -/
def msbCount (b : Byte) : Half := joinBytes 0 b

/-- The operand of an LSB-only write (R119, R272). -/
def lsbCount (b : Byte) : Half := joinBytes b 0

/-- The count that a written value stands for: 0 is 0x10000 (R119, R265). -/
def loadedCount (v : Half) : Nat := if v = 0 then 0x10000 else v.toNat

/-- The counting mode of a mode field: 6 and 7 are 2 and 3 (R115, R268, C6). -/
def modeOfField (m : BitVec 3) : PitMode :=
  match m.toNat with
  | 0 => .m0
  | 1 => .m1
  | 2 => .m2
  | 3 => .m3
  | 4 => .m4
  | 5 => .m5
  | 6 => .m2
  | _ => .m3

/-- The state that a control word gives `read_state` and `write_state` (R268). -/
def byteStateOf : RwMode → ByteState
  | .lsb => .lsb
  | .msb => .msb
  | .word => .word0

/-- The latch mode that an access mode gives a latched count (R269). -/
def latchStateOf : RwMode → LatchState
  | .lsb => .lsb
  | .msb => .msb
  | .word => .word0

/-- The field value of a counting mode (R42, R117). -/
def modeBits : PitMode → Byte
  | .m0 => 0
  | .m1 => 1
  | .m2 => 2
  | .m3 => 3
  | .m4 => 4
  | .m5 => 5

/-- The field value of an access mode (R44, R117). -/
def rwBits : RwMode → Byte
  | .lsb => 1
  | .msb => 2
  | .word => 3

/-- `scale64(a, b, c) = floor(a * b / c)`, exactly (R162). -/
def scale64 (a b c : Nat) : Nat := a * b / c

/-! ## DMA -/

/-- The bit of channel `i` in the request half of the status register, `1 << (4 + i)` (R66). -/
def requestBit (i : DmaChan) : Byte := 1#8 <<< (4 + i.val)

/-- The terminal-count bit of channel `i`, `1 << i` (R66). -/
def terminalBit (i : DmaChan) : Byte := 1#8 <<< i.val

/-- The mask bit of channel `i` (R68). -/
def maskBit (i : DmaChan) : BitVec 4 := 1#4 <<< i.val

/-- The global channel number `4k + i` (R14). -/
def globalChannel (k : DmaCtl) (i : DmaChan) : Nat := 4 * Config.dShift k + i.val

/-- The controller of a global channel number, `n >> 2` (R14). -/
def controllerOf (n : Nat) : DmaCtl := if n / 4 = 0 then .primary else .secondary

/-- The channel within its controller, `n & 3` (R14). -/
def channelOf (n : Nat) : DmaChan := Fin.ofNat 4 n

/-- The completion threshold `(base_word_count + 1) << k` (R344). -/
def threshold (k : DmaCtl) (ch : DmaChannel) : Nat := (ch.baseWordCount.toNat + 1) <<< Config.dShift k

/-- Whether the channel steps downward, `mode[5]` (R74). -/
def DmaChannel.decrement (ch : DmaChannel) : Bool := ch.mode.getLsbD 5

/-- Whether the channel reinitializes itself, `mode[4]` (R74). -/
def DmaChannel.autoInit (ch : DmaChannel) : Bool := ch.mode.getLsbD 4

/-- `(page_high << 24) | (page_low << 16) | current_address` (R88): a bitwise or. -/
def physicalBase (ch : DmaChannel) : Long :=
  (ch.pageHigh.setWidth 32 <<< 24) ||| (ch.pageLow.setWidth 32 <<< 16) ||| ch.currentAddress

/-- Where a copy of `len` bytes at position `pos` starts: `A + pos`, or `A - pos - len` in decrement mode, both mod
2^32 (R89, R90). -/
def copyAddress (ch : DmaChannel) (pos len : Int) : Nat :=
  let a : Int := (physicalBase ch).toNat
  if ch.decrement then ((a - pos - len) % Config.addressLimit).toNat
  else ((a + pos) % Config.addressLimit).toNat

/-- The bytes of a copy as they lie in memory and as they lie in the buffer: reversed in decrement mode (R89, R90). -/
def copyOrder (ch : DmaChannel) (bytes : List Byte) : List Byte :=
  if ch.decrement then bytes.reverse else bytes

/-- The bytes `off .. off+len-1` of a buffer. -/
def bufferSlice (buf : List Byte) (off len : Int) : List Byte := (buf.drop off.toNat).take len.toNat

/-- A buffer with the bytes from `off` on replaced. -/
def bufferWith (buf : List Byte) (off : Int) (bytes : List Byte) : List Byte :=
  buf.take off.toNat ++ bytes ++ buf.drop (off.toNat + bytes.length)

/-- The address a transfer has reached: `current_address + current_word_count * dir`, mod 2^32 (R324). -/
def reachedAddress (ch : DmaChannel) : Long :=
  if ch.decrement then ch.currentAddress - ch.currentWordCount else ch.currentAddress + ch.currentWordCount

/-- What is left of the count: `(base_word_count << s) - current_word_count`, mod 2^32 (R325). -/
def remainingCount (k : DmaCtl) (ch : DmaChannel) : Long :=
  (ch.baseWordCount.setWidth 32 <<< Config.dShift k) - ch.currentWordCount

/-- The byte of a channel-register read: `(val >> (s + 8 * ff)) & 0xFF` (R324, R325). -/
def registerByte (k : DmaCtl) (flipFlop : Bool) (val : Long) : Byte :=
  (val >>> (Config.dShift k + if flipFlop then 8 else 0)).setWidth 8

/-- The value of the first register of a block: `base_address << s` (R321). -/
def blockStart (k : DmaCtl) (base : Half) : Long := base.setWidth 32 <<< Config.dShift k

end Sys2Proof.Machine
end

