-- ==== Sys2Proof/Machine/Flags.lean ====
section
/-! DEFINITION. The block has no condition flags (R79). What its rules compute in their place: the priority of a PIC
element's lines and its deliverable line (R200, R201), and the count, output level, next transition and status byte of
a PIT channel (R260 to R264, R117). -/

namespace Sys2Proof.Machine

/-! ## PIC priority -/

/-- The line of rank `p`: `(p + priority_add) mod 8` (R200). -/
def rankLine (priorityAdd : Line) (p : Nat) : Line := BitVec.ofNat 3 p + priorityAdd

/-- `get_priority`: the least rank whose line is set in `m`, or 8 (R200). -/
def getPriority (priorityAdd : Line) (m : Byte) : Nat :=
  ((List.range 8).find? fun p => m.getLsbD (rankLine priorityAdd p).toNat).getD 8

/-- The requests of an element that are not masked, `irr & ~imr` (R201). -/
def PicElement.pending (p : PicElement) : Byte := p.irr &&& ~~~p.imr

/-- The lines in service that hold others back: all of them, but for line 2 of a master in special fully nested mode
(R201). -/
def PicElement.blocking (role : Elem) (p : PicElement) : Byte :=
  if p.specialFullyNested && role == .master then clearLineBit p.isr Config.cascadeLine else p.isr

/-- `get_irq`: the deliverable line of an element (R201). -/
def getIrq (role : Elem) (p : PicElement) : Option Line :=
  let rank := getPriority p.priorityAdd p.pending
  if rank = 8 then none
  else if rank < getPriority p.priorityAdd (p.blocking role) then some (rankLine p.priorityAdd rank)
  else none

/-- The line in service of the highest rank, which a non-specific EOI ends (R211, R215). -/
def PicElement.currentLine (p : PicElement) : Option Line :=
  let rank := getPriority p.priorityAdd p.isr
  if rank = 8 then none else some (rankLine p.priorityAdd rank)

/-! ## PIT counting -/

/-- `elapsed`: whole PIT clocks since counting started (R260). -/
def elapsed (c : PitChannel) (t : Nat) : Nat := scale64 (t - c.countStartTime) Config.pitFreq Config.tickRate

/-- The count of a channel with loaded count `n` after `d` PIT clocks, mod 2^16 (R261). -/
def countAfter (mode : PitMode) (n d : Nat) : Half :=
  match mode with
  | .m0 | .m1 | .m4 | .m5 => BitVec.ofInt 16 ((n : Int) - d)
  | .m3 => BitVec.ofInt 16 ((n : Int) - ((2 * d) % n : Nat))
  | .m2 => BitVec.ofInt 16 ((n : Int) - (d % n : Nat))

/-- `get_count` at time `now` (R261). -/
def getCount (c : PitChannel) (now : Nat) : Half := countAfter c.mode c.countValue (elapsed c now)

/-- The output level of a channel with loaded count `n` after `d` PIT clocks (R262). -/
def outAfter (mode : PitMode) (n d : Nat) : Bool :=
  match mode with
  | .m0 => decide (n ≤ d)
  | .m1 => decide (d < n)
  | .m2 => decide (d % n = 0) && decide (d ≠ 0)
  | .m3 => decide (d % n < (n + 1) >>> 1)
  | .m4 | .m5 => decide (d = n)

/-- `get_out` at time `t` (R262). -/
def PitChannel.outAt (c : PitChannel) (t : Nat) : Bool := outAfter c.mode c.countValue (elapsed c t)

/-- `next_flip`: the least later PIT clock at which the output differs, if there is one (R263). -/
def nextFlip (mode : PitMode) (n d : Nat) : Option Nat :=
  match mode with
  | .m0 | .m1 => if d < n then some n else none
  | .m2 =>
    if n = 1 then if d = 0 then some 1 else none
    else if outAfter .m2 n d then some (d + 1)
    else some ((d / n + 1) * n)
  | .m3 =>
    if n = 1 then none
    else
      let h := (n + 1) >>> 1
      let base := d - d % n
      if d % n < h then some (base + h) else some (base + n)
  | .m4 | .m5 => if d < n then some n else if d = n then some (n + 1) else none

/-- `get_next_transition_time` at time `t`: in ticks, later than `t`, below 2^64 (R264). -/
def nextTransition (c : PitChannel) (t : Nat) : Option Nat :=
  match nextFlip c.mode c.countValue (elapsed c t) with
  | none => none
  | some d =>
    let flip := c.countStartTime + scale64 d Config.tickRate Config.pitFreq
    let time := if flip ≤ t then t + 1 else flip
    if Config.timeLimit ≤ time then none else some time

/-- The status byte of a channel at time `now`: output, null count 0, access mode, mode, BCD (R117, R271). -/
def statusByte (c : PitChannel) (now : Nat) : Byte :=
  flagAt (c.outAt now) 7 ||| (rwBits c.rwMode <<< 4) ||| (modeBits c.mode <<< 1) ||| flagAt c.bcd 0

end Sys2Proof.Machine
end

