-- ==== Sys2Proof/Machine/Ops.lean ====
section
/-! DEFINITION. The named operations over the state: access to the parts, memory, events and results, the timer queue
(R151 to R157), request lines and the delivery of an interrupt to the CPU (R202 to R206), its end (R211, R213, R215,
R217), the loading of a PIT count and the scheduling of channel 0 (R265 to R267), and the resets (R207, R321, R331,
R432 to R434). The block takes no exception (R400, R409): what it gives the CPU is `acknowledgeInterrupt`. -/

namespace Sys2Proof.Machine

/-! ## Access to the parts -/

/-- The PIC element `e`. -/
def State.pic (s : State) : Elem → PicElement
  | .master => s.picM
  | .slave => s.picS

/-- Replace the PIC element `e`. -/
def State.setPic (s : State) (e : Elem) (p : PicElement) : State :=
  match e with
  | .master => { s with picM := p }
  | .slave => { s with picS := p }

/-- The PIT channel `c`. -/
def State.pit (s : State) : PitChan → PitChannel
  | .c0 => s.pit0
  | .c1 => s.pit1
  | .c2 => s.pit2

/-- Replace the PIT channel `c`. -/
def State.setPit (s : State) (c : PitChan) (p : PitChannel) : State :=
  match c with
  | .c0 => { s with pit0 := p }
  | .c1 => { s with pit1 := p }
  | .c2 => { s with pit2 := p }

/-- The DMA controller `k`. -/
def State.dma (s : State) : DmaCtl → DmaController
  | .primary => s.dma0
  | .secondary => s.dma1

/-- Replace the DMA controller `k`. -/
def State.setDma (s : State) (k : DmaCtl) (d : DmaController) : State :=
  match k with
  | .primary => { s with dma0 := d }
  | .secondary => { s with dma1 := d }

/-- Channel `i` of a DMA controller. -/
def DmaController.ch (d : DmaController) (i : DmaChan) : DmaChannel :=
  match i with
  | 0 => d.ch0
  | 1 => d.ch1
  | 2 => d.ch2
  | 3 => d.ch3

/-- Replace channel `i` of a DMA controller. -/
def DmaController.setCh (d : DmaController) (i : DmaChan) (c : DmaChannel) : DmaController :=
  match i with
  | 0 => { d with ch0 := c }
  | 1 => { d with ch1 := c }
  | 2 => { d with ch2 := c }
  | 3 => { d with ch3 := c }

/-- Channel `i` of DMA controller `k`. -/
def State.chan (s : State) (k : DmaCtl) (i : DmaChan) : DmaChannel := (s.dma k).ch i

/-- Replace channel `i` of DMA controller `k`. -/
def State.setChan (s : State) (k : DmaCtl) (i : DmaChan) (c : DmaChannel) : State :=
  s.setDma k ((s.dma k).setCh i c)

/-! ## Events, results and violations -/

/-- Emit an event (R10, R93). -/
def State.emit (s : State) (e : Event) : State := { s with trace := s.trace ++ [e] }

/-- Return a value from an exposed operation (R9, R10). -/
def State.answer (s : State) (r : Result) : State := { s with result := r }

/-- Call the CPU, `raise_interrupt()` or `clear_interrupt()`: the event, and the next entry of what the CPU does inside
such a call is used up (R8, R95, log entry 18). -/
def State.notify (s : State) (e : Event) : State := { s.emit e with cpuReplies := s.cpuReplies.tail }

/-- Return a value to a call made inside the step: the step's own result stays (R10, log entry 11). -/
def State.returnNested (s t : State) : State := { t with result := s.result, nested := t.nested ++ [t.result] }

/-- `raise ContractViolation(info)` (R13, R400): the step does not complete; the events emitted so far stay emitted. -/
def State.violate (s : State) (info : List Event → Fault) : Outcome := .fault (info s.trace)

/-- The end of an operation that takes `s` to `t` and calls the CPU at most once: where it did and the CPU's entry is a
call back into the block, that call is not admitted and the step stops at it (R95, CV6); what the operation does after
the event emits nothing, so the stop has the same record here (log entry 18). -/
def State.cpuReturns (s t : State) : Outcome :=
  match s.cpuReplies with
  | some c :: _ => if t.trace = s.trace then .next t else t.violate (.reentrantCall c)
  | [] | none :: _ => .next t

/-- Go on with a state, if the operation before reached one. -/
def thenDo (o : Outcome) (f : State → Outcome) : Outcome :=
  match o with
  | .next s => f s
  | .fault r => .fault r
  | .refused r => .refused r

/-! ## Memory

A list of (address, byte) pairs, addresses rising, without an entry equal to what an unlisted address reads as. -/

/-- What a byte that nothing has written reads as (log entry 3). -/
def Memory.unlisted : Byte := 0

/-- The byte at an address. -/
def Memory.read : List Host.Cell → Nat → Byte
  | [], _ => Memory.unlisted
  | (a, b) :: rest, addr => if a = addr then b else Memory.read rest addr

/-- Drop the entry of an address. -/
def Memory.erase : List Host.Cell → Nat → List Host.Cell
  | [], _ => []
  | (a, b) :: rest, addr => if a = addr then rest else (a, b) :: Memory.erase rest addr

/-- Put an entry at its place. -/
def Memory.insert : List Host.Cell → Nat → Byte → List Host.Cell
  | [], addr, v => [(addr, v)]
  | (a, b) :: rest, addr, v =>
    if a = addr then (addr, v) :: rest
    else if addr < a then (addr, v) :: (a, b) :: rest
    else (a, b) :: Memory.insert rest addr v

/-- Write a byte, keeping the canonical form. -/
def Memory.write (m : List Host.Cell) (addr : Nat) (v : Byte) : List Host.Cell :=
  if v = Memory.unlisted then Memory.erase m addr else Memory.insert m addr v

/-- The canonical form. -/
def Memory.wf : List Host.Cell → Bool
  | [] => true
  | (a, b) :: rest =>
    decide (a < Config.addressLimit) && decide (b ≠ Memory.unlisted) &&
      rest.all (fun cell => decide (a < cell.1)) && Memory.wf rest

/-- Write bytes at ascending addresses; there is nothing to write past the last physical address (R91, log
entry 4). -/
def Memory.writeBytes : List Host.Cell → Nat → List Byte → List Host.Cell
  | m, _, [] => m
  | m, addr, b :: bs =>
    Memory.writeBytes (if addr < Config.addressLimit then Memory.write m addr b else m) (addr + 1) bs

/-- The byte that the Memory capability finds at an address: past the last physical address a free value (R91, A14,
log entry 4). -/
def State.byteAt (s : State) (addr : Nat) : Byte :=
  if addr < Config.addressLimit then Memory.read s.memory addr else Config.unbackedByte addr s.freeCount

/-- The bytes `addr .. addr+len-1` as the Memory capability finds them. -/
def State.bytesAt (s : State) (addr len : Nat) : List Byte := (List.range len).map fun j => s.byteAt (addr + j)

/-- `MemRead(addr, len)` (R13, R91): the event; a copy past the last physical address has drawn free values. -/
def State.memRead (s : State) (addr len : Nat) : State :=
  { s.emit (.memRead addr (s.bytesAt addr len)) with
    freeCount := if Config.addressLimit < addr + len then s.freeCount + 1 else s.freeCount }

/-- `MemWrite(addr, len, bytes)` (R13, R91). -/
def State.memWrite (s : State) (addr : Nat) (bytes : List Byte) : State :=
  { s.emit (.memWrite addr bytes) with memory := Memory.writeBytes s.memory addr bytes }

/-! ## The timer queue -/

/-- The expiry of a timer. Every identity in the queue has a record (Safety.lean); of one that had none the expiry
would be 0 (log entry 21). -/
def State.expiryOf (s : State) (t : Nat) : Nat := ((s.timers[t]?).map Timer.expiry).getD 0

/-- Whether a timer is enabled. -/
def State.timerEnabled (s : State) (t : Nat) : Bool := ((s.timers[t]?).map Timer.enabled).getD false

/-- Insert before the first entry with a strictly greater expiry (R155). -/
def insertByExpiry (expiry : Nat → Nat) (t : Nat) : List Nat → List Nat
  | [] => [t]
  | q :: rest => if expiry t < expiry q then t :: q :: rest else q :: insertByExpiry expiry t rest

/-- `offer(t)` (R155). -/
def State.offer (s : State) (t : Nat) : State := { s with queue := insertByExpiry s.expiryOf t s.queue }

/-- `remove(t)`, by identity; no effect if absent (R156). -/
def State.remove (s : State) (t : Nat) : State := { s with queue := s.queue.filter (· ≠ t) }

/-- `update(t)` (R154). -/
def State.update (s : State) (t : Nat) : State :=
  let removed := s.remove t
  if removed.timerEnabled t then removed.offer t else removed

/-- Change the record of a timer. -/
def State.modifyTimer (s : State) (t : Nat) (f : Timer → Timer) : State := { s with timers := s.timers.modify t f }

/-- `arm(t, T)` (R152). -/
def State.arm (s : State) (t expiry : Nat) : State :=
  (s.modifyTimer t fun r => { r with expiry := expiry, enabled := true }).update t

/-- `disarm(t)` (R153). -/
def State.disarm (s : State) (t : Nat) : State := (s.modifyTimer t fun r => { r with enabled := false }).update t

/-- The pop of `fire(h)`: removed and disabled before its callback runs (R159). -/
def State.popTimer (s : State) (h : Nat) : State :=
  (s.remove h).modifyTimer h fun r => { r with enabled := false }

/-- A mutation of a timer with the `update` it goes with (R152, R153, R154). -/
def State.changeTimer (s : State) (t : Nat) : TimerChange → State
  | .keep => s.update t
  | .arm expiry => s.arm t expiry
  | .disarm => s.disarm t

/-- `update(timer)` as agents call it: of a timer that `new_timer` made, with a time below 2^64 (R154, CV9). -/
def State.updateCall (s : State) (t : Nat) (change : TimerChange) : Outcome :=
  if t < s.timers.length ∧ change.wf then .next (s.changeTimer t change)
  else s.violate (.badArgument (.update t change))

/-! ## Request lines and delivery -/

/-- `set_line(E, n, level)` (R202): level-triggered lines follow the level, edge-triggered lines request on 0 to 1. -/
def PicElement.setLine (p : PicElement) (n : Line) (level : Bool) : PicElement :=
  let last := if level then setLineBit p.lastIrr n else clearLineBit p.lastIrr n
  if p.elcr.getLsbD n.toNat then
    { p with irr := if level then setLineBit p.irr n else clearLineBit p.irr n, lastIrr := last }
  else
    { p with irr := if level && !p.lastIrr.getLsbD n.toNat then setLineBit p.irr n else p.irr, lastIrr := last }

/-- The cascade pulse: master line 2 raised and lowered (R204). -/
def PicElement.pulse (p : PicElement) : PicElement :=
  (p.setLine Config.cascadeLine true).setLine Config.cascadeLine false

/-- `update_irq()` (R204): a deliverable slave line pulses the master's cascade line; a deliverable master line
signals the CPU. -/
def State.updateIrq (s : State) : State :=
  let cascaded := if (getIrq .slave s.picS).isSome then { s with picM := s.picM.pulse } else s
  if (getIrq .master cascaded.picM).isSome then cascaded.notify .raiseInterrupt else cascaded

/-- `set_irq(line, level)` for operands in range: lines 0..7 are the master's, 8..15 the slave's (R203). -/
def State.setIrq (s : State) (line : Nat) (level : Bool) : State :=
  let n : Line := BitVec.ofNat 3 line
  let e : Elem := if line ≤ 7 then .master else .slave
  (s.setPic e ((s.pic e).setLine n level)).updateIrq

/-- `set_irq` as agents call it, with its operand check (R203, CV1). -/
def State.setIrqCall (s : State) (line level : Nat) : Outcome :=
  if 15 < line ∨ 1 < level then s.violate (.setIrqOperands line level)
  else s.cpuReturns (s.setIrq line (level == 1))

/-- `ack(E, n)` (R205). -/
def PicElement.ack (p : PicElement) (n : Line) : PicElement :=
  let served :=
    if p.autoEoi then if p.rotateOnAutoEoi then { p with priorityAdd := n + 1 } else p
    else { p with isr := setLineBit p.isr n }
  if p.elcr.getLsbD n.toNat then served else { served with irr := clearLineBit served.irr n }

/-- The vector of line `n`: `(irq_base + n) & 0xFF` (R206, R405). -/
def PicElement.vector (p : PicElement) (n : Line) : Byte := p.irqBase + n.setWidth 8

/-- The spurious line of either element (R206, R407). -/
def spuriousLine : Line := 7

/-- `cpu_get_interrupt()` (R206): resolve, acknowledge, recompute, and give the vector. -/
def State.acknowledgeInterrupt (s : State) : State × Byte :=
  match getIrq .master s.picM with
  | none => (s.updateIrq, s.picM.vector spuriousLine)
  | some m =>
    let acked := { s with picM := s.picM.ack m }
    if m = Config.cascadeLine then
      match getIrq .slave acked.picS with
      | some j => (({ acked with picS := acked.picS.ack j } : State).updateIrq, acked.picS.vector j)
      | none => (acked.updateIrq, acked.picS.vector spuriousLine)
    else (acked.updateIrq, acked.picM.vector m)

/-- End the service of line `n` (R213): the return from an interrupt, as far as it is the block's. -/
def PicElement.endService (p : PicElement) (n : Line) : PicElement := { p with isr := clearLineBit p.isr n }

/-- Make line `n` the lowest priority: `priority_add <- (n + 1) mod 8` (R215, R216, R217). -/
def PicElement.rotateTo (p : PicElement) (n : Line) : PicElement := { p with priorityAdd := n + 1 }

/-- `element_reset(E)` (R207): everything but the ELCR. -/
def PicElement.elementReset (p : PicElement) : PicElement := { PicElement.reset with elcr := p.elcr }

/-! ## PIT loading and scheduling -/

/-- `irq_timer_update(C, t)`: on channel 0, drive the IRQ line with the output at `t` and schedule the next transition;
nothing on the other channels (R266). -/
def State.irqTimerUpdate (s : State) (c : PitChan) (t : Nat) : State :=
  match c with
  | .c1 | .c2 => s
  | .c0 =>
    let next := nextTransition s.pit0 t
    let driven := s.setIrq Config.pitIrqLine (s.pit0.outAt t)
    let noted := { driven with pitNext := next }
    match next with
    | some time => noted.arm Config.pitTimer time
    | none => noted.disarm Config.pitTimer

/-- `load_count(C, v)` (R265). -/
def State.loadCount (s : State) (c : PitChan) (v : Half) : State :=
  (s.setPit c { s.pit c with countStartTime := s.currentTime, countValue := loadedCount v }).irqTimerUpdate c
    s.currentTime

/-- `latch_count(C)` at time `now`; ignored while a latched count is pending (R269). -/
def PitChannel.latchCount (c : PitChannel) (now : Nat) : PitChannel :=
  match c.countLatched with
  | .none => { c with outputLatch := getCount c now, countLatched := latchStateOf c.rwMode }
  | _ => c

/-- The status half of a readback; ignored while a status is pending (R271). -/
def PitChannel.latchStatus (c : PitChannel) (now : Nat) : PitChannel :=
  if c.statusLatched then c else { c with status := statusByte c now, statusLatched := true }

/-- A control word: access mode, byte states, counting mode and BCD, and nothing else (R268). -/
def PitChannel.control (c : PitChannel) (rw : RwMode) (m : BitVec 3) (bcd : Bool) : PitChannel :=
  { c with
    rwMode := rw, readState := byteStateOf rw, writeState := byteStateOf rw, mode := modeOfField m, bcd := bcd }

/-- `PIT.C[0].on_expiry()`: evaluate at the stored transition time, not at the current one (R267). -/
def State.pitOnExpiry (s : State) : State :=
  match s.pitNext with
  | some t => s.irqTimerUpdate .c0 t
  | none => s

/-! ## DMA registers -/

/-- `init_channel(K, i)` (R321). -/
def DmaChannel.init (k : DmaCtl) (ch : DmaChannel) : DmaChannel :=
  { ch with currentAddress := blockStart k ch.baseAddress, currentWordCount := 0 }

/-- `master_clear(K)` (R331). -/
def DmaController.masterClear (d : DmaController) : DmaController :=
  { d with flipFlop := false, mask := 0xF, status := 0, command := 0 }

/-- Set the request bit of channel `i` (R327, R341). -/
def DmaController.setRequest (d : DmaController) (i : DmaChan) : DmaController :=
  { d with status := d.status ||| requestBit i }

/-- Clear the request bit of channel `i` (R327, R342). -/
def DmaController.clearRequest (d : DmaController) (i : DmaChan) : DmaController :=
  { d with status := d.status &&& ~~~requestBit i }

/-- Clear the terminal-count bit of channel `i` (R327). -/
def DmaController.clearTerminal (d : DmaController) (i : DmaChan) : DmaController :=
  { d with status := d.status &&& ~~~terminalBit i }

/-- Toggle the flip-flop (R121). -/
def DmaController.toggle (d : DmaController) : DmaController := { d with flipFlop := !d.flipFlop }

/-! ## Dump and reload -/

/-- The dump of the block (R11). -/
def State.dump (s : State) : Dump where
  picM := s.picM
  picS := s.picS
  pit0 := s.pit0
  pit1 := s.pit1
  pit2 := s.pit2
  pitNext := s.pitNext
  currentTime := s.currentTime
  timers := s.timers
  queue := s.queue
  dma0 := s.dma0
  dma1 := s.dma1

/-- The reload of a dump: the block's state is replaced by it, what is outside the block stays (R11). -/
def State.reload (s : State) (d : Dump) : State :=
  { s with
    picM := d.picM
    picS := d.picS
    pit0 := d.pit0
    pit1 := d.pit1
    pit2 := d.pit2
    pitNext := d.pitNext
    currentTime := d.currentTime
    timers := d.timers
    queue := d.queue
    dma0 := d.dma0
    dma1 := d.dma1 }

/-! ## Resets -/

/-- `pic_reset()` (R432). -/
def State.picReset (s : State) : State :=
  { s with picM := s.picM.elementReset, picS := s.picS.elementReset }

/-- `dma_reset(K)` (R433): every channel zeroed and without a device, then master clear. -/
def State.dmaReset (s : State) (k : DmaCtl) : State :=
  s.setDma k ({ s.dma k with ch0 := .reset, ch1 := .reset, ch2 := .reset, ch3 := .reset } : DmaController).masterClear

/-- The gate that reset gives a channel: low on channel 2 only (R434). -/
def resetGate : PitChan → Bool
  | .c0 | .c1 => true
  | .c2 => false

/-- The reset of one PIT channel, up to its `load_count(0)` (R434). -/
def PitChannel.clear (c : PitChannel) (gate : Bool) : PitChannel :=
  { c with
    mode := .m3, rwMode := .word, readState := .word0, writeState := .word0, bcd := false,
    inputLatch := 0, outputLatch := 0, countLatched := .none, statusLatched := false, status := 0, gate := gate }

/-- The reset of one PIT channel (R434). -/
def State.pitChannelReset (s : State) (c : PitChan) : State :=
  (s.setPit c ((s.pit c).clear (resetGate c))).loadCount c 0

/-- `pit_reset()`: channels 0, 1, 2 in that order (R434). -/
def State.pitReset (s : State) : State := ((s.pitChannelReset .c0).pitChannelReset .c1).pitChannelReset .c2

/-- `reset()`: PIC, DMA[0], DMA[1], PIT (R431). -/
def State.blockReset (s : State) : State := ((s.picReset.dmaReset .primary).dmaReset .secondary).pitReset

end Sys2Proof.Machine
end

