-- ==== Sys2Proof/Machine/Transfer.lean ====
section
/-! DEFINITION. DMA transfers: the copies between a device's buffer and memory (R89, R90), the run of a channel
(R344), the pass over the requested channels (R343), and the calls that a transfer device makes from inside its
handler (R95, R347). The calls nest: a handler may hold a request, which runs channels, whose handlers call again.
The nesting is a stack of tasks, so that a nested call runs to completion before its caller goes on (R93). -/

namespace Sys2Proof.Machine

/-! ## Copies -/

/-- `read_memory(n, buf, off, pos, len)` (R89): memory into the buffer, reversed in decrement mode. -/
def State.readMemoryCall (s : State) (n : Nat) (buf : List Byte) (off pos len : Int) : Outcome :=
  if 7 < n then s.violate (.dmaChannel n)
  else if !bufferRangeOk buf off pos len then s.violate (.bufferRange n off pos len)
  else
    let ch := s.chan (controllerOf n) (channelOf n)
    let addr := copyAddress ch pos len
    let bytes := copyOrder ch (s.bytesAt addr len.toNat)
    .next ((s.memRead addr len.toNat).answer (.transfer len (bufferWith buf off bytes)))

/-- `write_memory(n, buf, off, pos, len)` (R90): the buffer into memory; in decrement mode reversed first, and left
reversed. -/
def State.writeMemoryCall (s : State) (n : Nat) (buf : List Byte) (off pos len : Int) : Outcome :=
  if 7 < n then s.violate (.dmaChannel n)
  else if !bufferRangeOk buf off pos len then s.violate (.bufferRange n off pos len)
  else
    let ch := s.chan (controllerOf n) (channelOf n)
    let bytes := copyOrder ch (bufferSlice buf off len)
    .next ((s.memWrite (copyAddress ch pos len) bytes).answer (.transfer len (bufferWith buf off bytes)))

/-! ## Tasks -/

/-- What is still to do inside a pass over the channels of a controller. -/
inductive Task
  /-- `channel_run(K, i)` (R344). -/
  | run (k : DmaCtl) (i : DmaChan)
  /-- A call that a transfer device makes inside its handler (R347). -/
  | call (c : Call)
  /-- The return of `handle_transfer`, called at `position` with `size` (R344). -/
  | finish (k : DmaCtl) (i : DmaChan) (position size : Nat) (newPosition : Int)
deriving DecidableEq, Repr

/-- The outcome of one task: the state, and the tasks to do before the others. -/
abbrev TaskOutcome := Host.Outcome (State × List Task) Fault Refusal

/-- The snapshot of `run_transfers(K)`: `requested & ~mask`, in ascending channel order (R343). -/
def State.pendingRuns (s : State) (k : DmaCtl) : List Task :=
  let pending := (s.dma k).status.extractLsb' 4 4 &&& ~~~(s.dma k).mask
  (([0, 1, 2, 3] : List DmaChan).filter fun i => pending.getLsbD i.val).map (.run k)

/-- The position and the tasks of a call of a transfer device's handler: its next reply (log entry 6), or, where the
state lists none, a free position. -/
def State.callDevice (s : State) (k : DmaCtl) (i : DmaChan) (device position size : Nat) : State × List Task :=
  match s.deviceReplies with
  | r :: rest =>
    ({ s with deviceReplies := rest }, r.calls.map .call ++ [.finish k i position size r.newPosition])
  | [] =>
    let p := Config.devicePosition device (globalChannel k i) position size s.freeCount
    ({ s with freeCount := s.freeCount + 1 }, [.finish k i position size p.toNat])

/-- `channel_run(K, i)`, up to the call of the device: a complete block wraps or is skipped, a channel without a
device is skipped (R344). -/
def State.runChannel (s : State) (k : DmaCtl) (i : DmaChan) : State × List Task :=
  let ch := s.chan k i
  let size := threshold k ch
  if size ≤ ch.currentWordCount.toNat then
    (if ch.autoInit then s.setChan k i { ch with currentWordCount := 0 } else s, [])
  else
    match ch.device with
    | none => (s, [])
    | some device => s.callDevice k i device ch.currentWordCount.toNat size

/-- `channel_run(K, i)`, from the return of the device on: the event, the position check, the new position, and the
wrap of a completed block (R344). -/
def State.finishTransfer (s : State) (k : DmaCtl) (i : DmaChan) (position size : Nat) (p : Int) : Outcome :=
  let told := s.emit (.handleTransfer (globalChannel k i) position size p)
  if p < 0 ∨ Config.positionLimit ≤ p then told.violate (.transferPosition (globalChannel k i) p)
  else
    let ch := told.chan k i
    let done : Bool := decide ((size : Int) ≤ p) && ch.autoInit
    .next (told.setChan k i { ch with currentWordCount := if done then 0 else BitVec.ofInt 32 p })

/-- The end of a nested call that brings no tasks; `ret` is what it returns to its caller. -/
def settle (ret : State → State) : Outcome → TaskOutcome
  | .next t => .next (ret t, [])
  | .fault r => .fault r
  | .refused r => .refused r

/-- `get_channel_mode(n)` (R346). -/
def State.channelModeCall (s : State) (n : Nat) : Outcome :=
  if 7 < n then s.violate (.dmaChannel n)
  else .next (s.answer (.byte (s.chan (controllerOf n) (channelOf n)).mode))

/-- `release_dma_request(n)` (R342). -/
def State.releaseCall (s : State) (n : Nat) : Outcome :=
  if 7 < n then s.violate (.dmaChannel n)
  else .next (s.setDma (controllerOf n) ((s.dma (controllerOf n)).clearRequest (channelOf n)))

/-- A call that a transfer device makes inside its handler: those of R95, each running its own rule at once; any
other is not admitted (CV6). DESIGN CHOICE: R347 speaks of copies of the device's own channel and names no fault for
another one; the model runs a copy of any channel 0..7 (log entry 27). -/
def State.deviceCall (s : State) (c : Call) : TaskOutcome :=
  match c with
  | .readMemory n buf off pos len => settle s.returnNested (s.readMemoryCall n buf off pos len)
  | .writeMemory n buf off pos len => settle s.returnNested (s.writeMemoryCall n buf off pos len)
  | .getChannelMode n => settle s.returnNested (s.channelModeCall n)
  | .releaseDmaRequest n => settle id (s.releaseCall n)
  | .setIrq line level => settle id (s.setIrqCall line level)
  | .holdDmaRequest n =>
    if 7 < n then .fault (.dmaChannel n s.trace)
    else
      let held := s.setDma (controllerOf n) ((s.dma (controllerOf n)).setRequest (channelOf n))
      .next (held, held.pendingRuns (controllerOf n))
  | c => .fault (.reentrantCall c s.trace)

/-- One task. -/
def State.taskStep (s : State) : Task → TaskOutcome
  | .run k i => .next (s.runChannel k i)
  | .call c => s.deviceCall c
  | .finish k i position size p =>
    match s.finishTransfer k i position size p with
    | .next t => .next (t, [])
    | .fault r => .fault r
    | .refused r => .refused r

/-- All tasks, each with what it brings before the next; at most `bound` of them. -/
def runTasks : Nat → List Task → State → Outcome
  | _, [], s => .next s
  | 0, _ :: _, _ => .refused .workBound
  | n + 1, task :: rest, s =>
    match s.taskStep task with
    | .next (t, more) => runTasks n (more ++ rest) t
    | .fault r => .fault r
    | .refused r => .refused r

/-- The work that a call brings: a hold may run four channels. -/
def callWork : Call → Nat
  | .holdDmaRequest _ => 9
  | _ => 1

/-- The work that a reply brings. -/
def DeviceReply.work (r : DeviceReply) : Nat := (r.calls.map callWork).sum

/-- The work of a task. -/
def Task.work : Task → Nat
  | .run _ _ => 2
  | .call c => callWork c
  | .finish _ _ _ _ _ => 1

/-- A bound on the tasks of a pass: their work and that of every reply still listed. -/
def State.transferBound (s : State) (tasks : List Task) : Nat :=
  (tasks.map Task.work).sum + (s.deviceReplies.map DeviceReply.work).sum

/-- `run_transfers(K)` (R343). -/
def State.runTransfers (s : State) (k : DmaCtl) : Outcome :=
  runTasks (s.transferBound (s.pendingRuns k)) (s.pendingRuns k) s

end Sys2Proof.Machine
end

