-- ==== Sys2Proof/Machine/Dma.lean ====
section
/-! DEFINITION. The DMA family: the meanings of its rows (43_dma.md R322 to R346, 20_memory.md R89, R90). -/

namespace Sys2Proof.Machine

/-- Base address write; the high byte runs `init_channel` (R322). -/
def execDmaAddrWrite (k : DmaCtl) (i : DmaChan) (b : Byte) (s : State) : Outcome :=
  let d := s.dma k
  let written := { d.ch i with baseAddress := withByte (d.ch i).baseAddress d.flipFlop b }
  .next (s.setDma k (d.setCh i (if d.flipFlop then written.init k else written)).toggle)

/-- Base word count write; the high byte runs `init_channel` (R323). -/
def execDmaCountWrite (k : DmaCtl) (i : DmaChan) (b : Byte) (s : State) : Outcome :=
  let d := s.dma k
  let written := { d.ch i with baseWordCount := withByte (d.ch i).baseWordCount d.flipFlop b }
  .next (s.setDma k (d.setCh i (if d.flipFlop then written.init k else written)).toggle)

/-- Current address read (R324). -/
def execDmaAddrRead (k : DmaCtl) (i : DmaChan) (s : State) : Outcome :=
  let d := s.dma k
  .next ((s.setDma k d.toggle).answer (.byte (registerByte k d.flipFlop (reachedAddress (d.ch i)))))

/-- Current word count read (R325). -/
def execDmaCountRead (k : DmaCtl) (i : DmaChan) (s : State) : Outcome :=
  let d := s.dma k
  .next ((s.setDma k d.toggle).answer (.byte (registerByte k d.flipFlop (remainingCount k (d.ch i)))))

/-- Command register write: 0x00 and 0x04 are stored, any other value is ignored (R326). -/
def execDmaCommand (k : DmaCtl) (v : Byte) (s : State) : Outcome :=
  .next (if v &&& 0xFB = 0 then s.setDma k { s.dma k with command := v } else s)

/-- Request register write (R327). -/
def execDmaRequest (k : DmaCtl) (i : DmaChan) (set : Bool) (s : State) : Outcome :=
  let d := s.dma k
  let asked := if set then d.setRequest i else d.clearRequest i
  (s.setDma k (asked.clearTerminal i)).runTransfers k

/-- Single mask write; an unmask re-evaluates (R328). -/
def execDmaSingleMask (k : DmaCtl) (i : DmaChan) (set : Bool) (s : State) : Outcome :=
  let d := s.dma k
  if set then .next (s.setDma k { d with mask := d.mask ||| maskBit i })
  else (s.setDma k { d with mask := d.mask &&& ~~~maskBit i }).runTransfers k

/-- Mode register write: the whole byte, into the channel it selects (R329). -/
def execDmaMode (k : DmaCtl) (v : Byte) (s : State) : Outcome :=
  .next (s.setChan k (dmaChannelOf v) { s.chan k (dmaChannelOf v) with mode := v })

/-- Clear flip-flop write (R330). -/
def execDmaClearFlipFlop (k : DmaCtl) (s : State) : Outcome :=
  .next (s.setDma k { s.dma k with flipFlop := false })

/-- Master clear write (R331). -/
def execDmaMasterClear (k : DmaCtl) (s : State) : Outcome := .next (s.setDma k (s.dma k).masterClear)

/-- Clear all masks write (R332). -/
def execDmaClearMasks (k : DmaCtl) (s : State) : Outcome :=
  (s.setDma k { s.dma k with mask := 0 }).runTransfers k

/-- Write all masks (R333). -/
def execDmaWriteMasks (k : DmaCtl) (m : BitVec 4) (s : State) : Outcome :=
  (s.setDma k { s.dma k with mask := m }).runTransfers k

/-- Status read, which clears the terminal-count bits (R334). -/
def execDmaStatusRead (k : DmaCtl) (s : State) : Outcome :=
  .next ((s.setDma k { s.dma k with status := (s.dma k).status &&& 0xF0 }).answer (.byte (s.dma k).status))

/-- Mask read (R335). -/
def execDmaMaskRead (k : DmaCtl) (s : State) : Outcome :=
  .next (s.answer (.byte ((s.dma k).mask.setWidth 8)))

/-- Reads of the registers 9..14: 0x00 (R336). -/
def execDmaOtherRead (_k : DmaCtl) (_r : BitVec 4) (s : State) : Outcome := .next (s.answer (.byte 0x00))

/-- Page-low write (R338). -/
def execDmaPageLowWrite (k : DmaCtl) (i : DmaChan) (b : Byte) (s : State) : Outcome :=
  .next (s.setChan k i { s.chan k i with pageLow := b })

/-- Page-high write (R339). -/
def execDmaPageHighWrite (k : DmaCtl) (i : DmaChan) (b : Byte) (s : State) : Outcome :=
  .next (s.setChan k i { s.chan k i with pageHigh := b })

/-- Page reads (R340). -/
def execDmaPageRead (k : DmaCtl) (h : PageHalf) (i : DmaChan) (s : State) : Outcome :=
  .next (s.answer (.byte
    (match h with
      | .low => (s.chan k i).pageLow
      | .high => (s.chan k i).pageHigh)))

/-- `hold_dma_request(n)` (R341). -/
def execDreq (n : Nat) (s : State) : Outcome :=
  if 7 < n then s.violate (.dmaChannel n)
  else
    let k := controllerOf n
    (s.setDma k ((s.dma k).setRequest (channelOf n))).runTransfers k

/-- `release_dma_request(n)` (R342). -/
def execDrel (n : Nat) (s : State) : Outcome := s.releaseCall n

/-- `register_channel(n, device)` (R345). -/
def execReg (n device : Nat) (s : State) : Outcome :=
  if 7 < n then s.violate (.dmaChannel n)
  else
    .next (s.setChan (controllerOf n) (channelOf n)
      { s.chan (controllerOf n) (channelOf n) with device := some device })

/-- `get_channel_mode(n)` (R346). -/
def execGetChannelMode (n : Nat) (s : State) : Outcome := s.channelModeCall n

/-- `read_memory(n, buf, off, pos, len) -> len` (R89). -/
def execReadMemory (n : Nat) (buf : List Byte) (off pos len : Int) (s : State) : Outcome :=
  s.readMemoryCall n buf off pos len

/-- `write_memory(n, buf, off, pos, len) -> len` (R90). -/
def execWriteMemory (n : Nat) (buf : List Byte) (off pos len : Int) (s : State) : Outcome :=
  s.writeMemoryCall n buf off pos len

end Sys2Proof.Machine
end

