-- ==== Sys2Proof/Machine/Pic.lean ====
section
/-! DEFINITION. The PIC family: the meanings of its rows (41_pic.md R203 to R227). -/

namespace Sys2Proof.Machine

/-- ICW1: element reset, `ClearInterrupt`, then the cursor at ICW2 (R208). -/
def execPicIcw1 (e : Elem) (ic4 : Bool) (s : State) : Outcome :=
  let reset := (s.setPic e (s.pic e).elementReset).notify .clearInterrupt
  s.cpuReturns (reset.setPic e { reset.pic e with initState := .icw2, fourByteInit := ic4 })

/-- OCW3: read select, poll latch, special mask (R209). -/
def execPicOcw3 (e : Elem) (esmm smm p rr ris : Bool) (s : State) : Outcome :=
  .next (s.setPic e
    { s.pic e with
      readRegisterSelect := if rr then ris else (s.pic e).readRegisterSelect
      poll := if p then true else (s.pic e).poll
      specialMask := if esmm then smm else (s.pic e).specialMask })

/-- OCW2 command 0 (R210). -/
def execPicOcw2RotateAeoiClear (e : Elem) (s : State) : Outcome :=
  .next (s.setPic e { s.pic e with rotateOnAutoEoi := false })

/-- OCW2 command 1, non-specific EOI: nothing, and no recomputation, when no line is in service (R211). -/
def execPicOcw2Eoi (e : Elem) (s : State) : Outcome :=
  match (s.pic e).currentLine with
  | none => .next s
  | some n => s.cpuReturns (s.setPic e ((s.pic e).endService n)).updateIrq

/-- OCW2 command 2, no operation (R212). -/
def execPicOcw2Nop (_e : Elem) (s : State) : Outcome := .next s

/-- OCW2 command 3, specific EOI (R213). -/
def execPicOcw2SpecificEoi (e : Elem) (l : Line) (s : State) : Outcome :=
  s.cpuReturns (s.setPic e ((s.pic e).endService l)).updateIrq

/-- OCW2 command 4 (R214). -/
def execPicOcw2RotateAeoiSet (e : Elem) (s : State) : Outcome :=
  .next (s.setPic e { s.pic e with rotateOnAutoEoi := true })

/-- OCW2 command 5, rotate on non-specific EOI (R215). -/
def execPicOcw2RotateEoi (e : Elem) (s : State) : Outcome :=
  match (s.pic e).currentLine with
  | none => .next s
  | some n => s.cpuReturns (s.setPic e (((s.pic e).endService n).rotateTo n)).updateIrq

/-- OCW2 command 6, set priority (R216). -/
def execPicOcw2SetPriority (e : Elem) (l : Line) (s : State) : Outcome :=
  s.cpuReturns (s.setPic e ((s.pic e).rotateTo l)).updateIrq

/-- OCW2 command 7, rotate on specific EOI (R217). -/
def execPicOcw2RotateSpecificEoi (e : Elem) (l : Line) (s : State) : Outcome :=
  s.cpuReturns (s.setPic e (((s.pic e).endService l).rotateTo l)).updateIrq

/-- OCW1, the mask write (R218). -/
def execPicOcw1 (e : Elem) (d : Byte) (s : State) : Outcome :=
  s.cpuReturns (s.setPic e { s.pic e with imr := d }).updateIrq

/-- ICW2, the vector base: `d & 0xF8` (R219). -/
def execPicIcw2 (e : Elem) (base : BitVec 5) (s : State) : Outcome :=
  .next (s.setPic e { s.pic e with irqBase := fieldAt base 3, initState := .icw3 })

/-- ICW3, absorbed (R220). -/
def execPicIcw3 (e : Elem) (s : State) : Outcome :=
  .next (s.setPic e { s.pic e with initState := if (s.pic e).fourByteInit then .icw4 else .normal })

/-- ICW4 (R221). -/
def execPicIcw4 (e : Elem) (sfnm aeoi : Bool) (s : State) : Outcome :=
  .next (s.setPic e { s.pic e with specialFullyNested := sfnm, autoEoi := aeoi, initState := .normal })

/-- What a poll read clears: the request and the service of line `n` (R225). -/
def PicElement.clearLine (p : PicElement) (n : Line) : PicElement :=
  { p with irr := clearLineBit p.irr n, isr := clearLineBit p.isr n }

/-- The poll read (R225). -/
def State.pollRead (s : State) (e : Elem) : State :=
  let unlatched := s.setPic e { s.pic e with poll := false }
  match getIrq e (unlatched.pic e) with
  | none => unlatched.updateIrq.answer (.byte 0x07)
  | some n =>
    let uncascaded :=
      match e with
      | .master => unlatched
      | .slave => { unlatched with picM := unlatched.picM.clearLine Config.cascadeLine }
    let cleared := uncascaded.setPic e ((uncascaded.pic e).clearLine n)
    let recomputed := if e = .slave ∨ n ≠ Config.cascadeLine then cleared.updateIrq else cleared
    recomputed.answer (.byte (n.setWidth 8))

/-- A poll read through either port (R225); the port's own register is ignored. -/
def execPicPollRead (e : Elem) (_port : PicPort) (s : State) : Outcome := s.cpuReturns (s.pollRead e)

/-- IRR read (R222). -/
def execPicIrrRead (e : Elem) (s : State) : Outcome := .next (s.answer (.byte (s.pic e).irr))

/-- ISR read (R223). -/
def execPicIsrRead (e : Elem) (s : State) : Outcome := .next (s.answer (.byte (s.pic e).isr))

/-- IMR read (R224). -/
def execPicImrRead (e : Elem) (s : State) : Outcome := .next (s.answer (.byte (s.pic e).imr))

/-- ELCR write: `d & elcr_mask`, and no recomputation (R226). -/
def execPicElcrWrite (e : Elem) (d : Byte) (s : State) : Outcome :=
  .next (s.setPic e { s.pic e with elcr := d &&& Config.elcrMask e })

/-- ELCR read (R227). -/
def execPicElcrRead (e : Elem) (s : State) : Outcome := .next (s.answer (.byte (s.pic e).elcr))

/-- `set_irq(line, level)` (R203). -/
def execIrq (line level : Nat) (s : State) : Outcome := s.setIrqCall line level

/-- `cpu_get_interrupt() -> vector` (R206). -/
def execInta (s : State) : Outcome :=
  s.cpuReturns (s.acknowledgeInterrupt.1.answer (.byte s.acknowledgeInterrupt.2))

end Sys2Proof.Machine
end

