-- ==== Sys2Proof/Machine/Pit.lean ====
section
/-! DEFINITION. The PIT family: the meanings of its rows (42_pit.md R268 to R286). -/

namespace Sys2Proof.Machine

/-- Counter latch command (R270). -/
def execPitLatch (c : PitChan) (s : State) : Outcome :=
  .next (s.setPit c ((s.pit c).latchCount s.currentTime))

/-- Control word, LSB only (R268). -/
def execPitControlLsb (c : PitChan) (m : BitVec 3) (bcd : Bool) (s : State) : Outcome :=
  .next (s.setPit c ((s.pit c).control .lsb m bcd))

/-- Control word, MSB only (R268). -/
def execPitControlMsb (c : PitChan) (m : BitVec 3) (bcd : Bool) (s : State) : Outcome :=
  .next (s.setPit c ((s.pit c).control .msb m bcd))

/-- Control word, LSB then MSB (R268). -/
def execPitControlWord (c : PitChan) (m : BitVec 3) (bcd : Bool) (s : State) : Outcome :=
  .next (s.setPit c ((s.pit c).control .word m bcd))

/-- The readback of one channel: the count first, then the status (R271). -/
def PitChannel.readback (c : PitChannel) (count status : Bool) (now : Nat) : PitChannel :=
  let counted := if count then c.latchCount now else c
  if status then counted.latchStatus now else counted

/-- Readback command: every selected channel, at one time (R271, R96). -/
def execPitReadback (count status sel0 sel1 sel2 : Bool) (s : State) : Outcome :=
  .next
    { s with
      pit0 := if sel0 then s.pit0.readback count status s.currentTime else s.pit0
      pit1 := if sel1 then s.pit1.readback count status s.currentTime else s.pit1
      pit2 := if sel2 then s.pit2.readback count status s.currentTime else s.pit2 }

/-- Counter write, LSB only (R272). -/
def execPitWriteLsb (c : PitChan) (b : Byte) (s : State) : Outcome :=
  s.cpuReturns (s.loadCount c (lsbCount b))

/-- Counter write, MSB only (R273). -/
def execPitWriteMsb (c : PitChan) (b : Byte) (s : State) : Outcome :=
  s.cpuReturns (s.loadCount c (msbCount b))

/-- Counter write, first byte of a pair (R274). -/
def execPitWriteWord0 (c : PitChan) (b : Byte) (s : State) : Outcome :=
  .next (s.setPit c { s.pit c with inputLatch := b, writeState := .word1 })

/-- Counter write, second byte of a pair (R275). -/
def execPitWriteWord1 (c : PitChan) (b : Byte) (s : State) : Outcome :=
  let loaded := s.loadCount c (joinBytes (s.pit c).inputLatch b)
  s.cpuReturns (loaded.setPit c { loaded.pit c with writeState := .word0 })

/-- Read of a latched status (R276). -/
def execPitReadStatus (c : PitChan) (s : State) : Outcome :=
  .next ((s.setPit c { s.pit c with statusLatched := false }).answer (.byte (s.pit c).status))

/-- Read of a latched count, LSB only (R277). -/
def execPitReadLatchedLsb (c : PitChan) (s : State) : Outcome :=
  .next ((s.setPit c { s.pit c with countLatched := .none }).answer (.byte (halfByte (s.pit c).outputLatch false)))

/-- Read of a latched count, its high byte (R278). -/
def execPitReadLatchedMsb (c : PitChan) (s : State) : Outcome :=
  .next ((s.setPit c { s.pit c with countLatched := .none }).answer (.byte (halfByte (s.pit c).outputLatch true)))

/-- Read of a latched count, the low byte of a pair (R279). -/
def execPitReadLatchedWord0 (c : PitChan) (s : State) : Outcome :=
  .next ((s.setPit c { s.pit c with countLatched := .msb }).answer (.byte (halfByte (s.pit c).outputLatch false)))

/-- Live read, LSB only (R280). -/
def execPitReadLiveLsb (c : PitChan) (s : State) : Outcome :=
  .next (s.answer (.byte (halfByte (getCount (s.pit c) s.currentTime) false)))

/-- Live read, MSB only (R281). -/
def execPitReadLiveMsb (c : PitChan) (s : State) : Outcome :=
  .next (s.answer (.byte (halfByte (getCount (s.pit c) s.currentTime) true)))

/-- Live read, the low byte of a pair (R282). -/
def execPitReadLiveWord0 (c : PitChan) (s : State) : Outcome :=
  .next ((s.setPit c { s.pit c with readState := .word1 }).answer
    (.byte (halfByte (getCount (s.pit c) s.currentTime) false)))

/-- Live read, the high byte of a pair (R283). -/
def execPitReadLiveWord1 (c : PitChan) (s : State) : Outcome :=
  .next ((s.setPit c { s.pit c with readState := .word0 }).answer
    (.byte (halfByte (getCount (s.pit c) s.currentTime) true)))

/-- Read of the control port: `PIT_CONTROL_READ_VALUE`, a free value, a new one at each read (R284, log entry 8). -/
def execPitControlRead (s : State) : Outcome :=
  .next (({ s with freeCount := s.freeCount + 1 } : State).answer (.byte (Config.pitControlReadValue s.freeCount)))

/-- The channel of a number 0..2. -/
def pitChan? (n : Nat) : Option PitChan :=
  match n with
  | 0 => some .c0
  | 1 => some .c1
  | 2 => some .c2
  | _ => none

/-- The modes in which a rising gate edge restarts counting (R285). -/
def retriggerable : PitMode → Bool
  | .m1 | .m2 | .m3 | .m5 => true
  | .m0 | .m4 => false

/-- `set_gate(c, level)` for operands in range (R285). -/
def State.setGate (s : State) (c : PitChan) (level : Bool) : State :=
  let restarted :=
    if retriggerable (s.pit c).mode && !(s.pit c).gate && level then
      (s.setPit c { s.pit c with countStartTime := s.currentTime }).irqTimerUpdate c s.currentTime
    else s
  restarted.setPit c { restarted.pit c with gate := level }

/-- `set_gate(c, level)`, with its operand check (R285, CV2). -/
def execGate (channel level : Nat) (s : State) : Outcome :=
  if 1 < level then s.violate (.setGateOperands channel level)
  else
    match pitChan? channel with
    | some c => s.cpuReturns (s.setGate c (level == 1))
    | none => s.violate (.setGateOperands channel level)

/-- `get_out(c)` (R286). -/
def execGetOut (channel : Nat) (s : State) : Outcome :=
  match pitChan? channel with
  | some c => .next (s.answer (.level ((s.pit c).outAt s.currentTime)))
  | none => s.violate (.badArgument (.getOut channel))

end Sys2Proof.Machine
end

