-- ==== Sys2Proof/Machine/Time.lean ====
section
/-! DEFINITION. The time base and the block as a whole: timers, the drain of the queue as time passes, reset and the
list of ports (40_timebase.md R150 to R160, 70_reset_and_hazards.md R431, 20_memory.md R81). -/

namespace Sys2Proof.Machine

/-! ## The callbacks of other devices' timers -/

/-- A call that another device makes inside its timer's callback: `update` with its mutation, `set_irq`, `get_time`
(R95, R160, log entry 7); any other is not admitted (CV6). -/
def State.callbackCall (s : State) (c : Call) : Outcome :=
  match c with
  | .update t change => s.updateCall t change
  | .setIrq line level => s.setIrqCall line level
  | .getTime => .next (s.returnNested (s.answer (.time s.currentTime)))
  | c => s.violate (.reentrantCall c)

/-- The calls of one callback, in order. -/
def runCallback : List Call → State → Outcome
  | [], s => .next s
  | c :: rest, s =>
    match s.callbackCall c with
    | .next t => runCallback rest t
    | .fault r => .fault r
    | .refused r => .refused r

/-- `on_expiry()` of another device's timer `h`: the event `Expiry(h)`, then what its next reply calls (R413, log
entry 7); nothing where the state lists none. -/
def State.deviceExpiry (s : State) (h : Nat) : Outcome :=
  let told := s.emit (.expiry h)
  match told.expiryReplies with
  | [] => .next told
  | reply :: rest => runCallback reply { told with expiryReplies := rest }

/-! ## The drain -/

/-- `fire(h)`: pop, disable, and call the target (R159). DEDUCED: the callback of a timer that an agent made is an event
(R10, R413) also where its target is the PIT's channel 0; only the PIT's own timer is silent (log entry 28). -/
def State.fire (s : State) (h : Nat) : Outcome :=
  let popped := s.popTimer h
  match (s.timers[h]?).map Timer.target with
  | some .pit0 =>
    let told := if h = Config.pitTimer then popped else popped.emit (.expiry h)
    told.cpuReturns told.pitOnExpiry
  | some (.device _) => popped.deviceExpiry h
  | none => .next popped

/-- The loop of `time_passes`: fire the head of the queue while it is due, looking at the queue again after each
callback (R158, R160); at most `bound` times. -/
def drain : Nat → State → Outcome
  | 0, s =>
    match s.queue with
    | [] => .next s
    | h :: _ => if s.currentTime < s.expiryOf h then .next s else .refused .workBound
  | n + 1, s =>
    match s.queue with
    | [] => .next s
    | h :: _ =>
      if s.currentTime < s.expiryOf h then .next s
      else
        match s.fire h with
        | .next t => drain n t
        | .fault r => .fault r
        | .refused r => .refused r

/-- The calls that the replies of callbacks hold. -/
def State.callbackWork (s : State) : Nat := (s.expiryReplies.map List.length).sum

/-- A bound on the firings of one drain: the queue, the calls of the replies, and the ticks up to now (channel 0 fires
at strictly later times). -/
def State.drainBound (s : State) : Nat := s.queue.length + s.callbackWork + s.currentTime + 1

/-- `time_passes(delta)` (R158, CV5). -/
def execTick (delta : Int) (s : State) : Outcome :=
  if delta < 0 ∨ Config.deltaLimit ≤ delta ∨ Config.timeLimit ≤ s.currentTime + delta then
    s.violate (.timePasses delta s.currentTime)
  else
    let later := { s with currentTime := s.currentTime + delta.toNat }
    drain later.drainBound later

/-! ## Timers -/

/-- `new_timer(target)`: a fresh record, disabled and not queued; the caller gets its identity (R151). -/
def execNewTimer (target : TimerTarget) (s : State) : Outcome :=
  let made : State := { s with timers := s.timers ++ [{ target := target, expiry := 0, enabled := false }] }
  .next (made.answer (.timer s.timers.length))

/-- `update(timer)`, with the mutation it goes with: none, `arm` or `disarm` (R152, R153, R154). -/
def execUpdate (timer : Nat) (change : TimerChange) (s : State) : Outcome := s.updateCall timer change

/-- `get_time()` (R150). -/
def execGetTime (s : State) : Outcome := .next (s.answer (.time s.currentTime))

/-! ## The block -/

/-- `reset()` (R431). -/
def execReset (s : State) : Outcome := s.cpuReturns s.blockReset

/-- `ports_requested()` of a device (R81). -/
def execPortsRequested (d : PortDevice) (s : State) : Outcome := .next (s.answer (.ports (Config.portsRequested d)))

end Sys2Proof.Machine
end

