-- ==== Sys2Proof/Machine/Bus.lean ====
section
/-! DEFINITION. The wide port accesses: sequences of byte accesses at ascending ports, low byte first, each with its
full rule before the next, all within the ports of one device (R81, R83, R84). -/

namespace Sys2Proof.Machine

/-- The meaning of a row that a byte access to a port can select; the other instructions are calls, which no byte
access is (R95). -/
def runPortRow (i : Instr) (s : State) : Outcome :=
  match i with
  | .picIcw1 e ic4 => execPicIcw1 e ic4 s
  | .picOcw3 e esmm smm p rr ris => execPicOcw3 e esmm smm p rr ris s
  | .picOcw2RotateAeoiClear e => execPicOcw2RotateAeoiClear e s
  | .picOcw2Eoi e => execPicOcw2Eoi e s
  | .picOcw2Nop e => execPicOcw2Nop e s
  | .picOcw2SpecificEoi e l => execPicOcw2SpecificEoi e l s
  | .picOcw2RotateAeoiSet e => execPicOcw2RotateAeoiSet e s
  | .picOcw2RotateEoi e => execPicOcw2RotateEoi e s
  | .picOcw2SetPriority e l => execPicOcw2SetPriority e l s
  | .picOcw2RotateSpecificEoi e l => execPicOcw2RotateSpecificEoi e l s
  | .picOcw1 e d => execPicOcw1 e d s
  | .picIcw2 e base => execPicIcw2 e base s
  | .picIcw3 e => execPicIcw3 e s
  | .picIcw4 e sfnm aeoi => execPicIcw4 e sfnm aeoi s
  | .picPollRead e port => execPicPollRead e port s
  | .picIrrRead e => execPicIrrRead e s
  | .picIsrRead e => execPicIsrRead e s
  | .picImrRead e => execPicImrRead e s
  | .picElcrWrite e d => execPicElcrWrite e d s
  | .picElcrRead e => execPicElcrRead e s
  | .pitLatch c => execPitLatch c s
  | .pitControlLsb c m bcd => execPitControlLsb c m bcd s
  | .pitControlMsb c m bcd => execPitControlMsb c m bcd s
  | .pitControlWord c m bcd => execPitControlWord c m bcd s
  | .pitReadback count status sel0 sel1 sel2 => execPitReadback count status sel0 sel1 sel2 s
  | .pitWriteLsb c b => execPitWriteLsb c b s
  | .pitWriteMsb c b => execPitWriteMsb c b s
  | .pitWriteWord0 c b => execPitWriteWord0 c b s
  | .pitWriteWord1 c b => execPitWriteWord1 c b s
  | .pitReadStatus c => execPitReadStatus c s
  | .pitReadLatchedLsb c => execPitReadLatchedLsb c s
  | .pitReadLatchedMsb c => execPitReadLatchedMsb c s
  | .pitReadLatchedWord0 c => execPitReadLatchedWord0 c s
  | .pitReadLiveLsb c => execPitReadLiveLsb c s
  | .pitReadLiveMsb c => execPitReadLiveMsb c s
  | .pitReadLiveWord0 c => execPitReadLiveWord0 c s
  | .pitReadLiveWord1 c => execPitReadLiveWord1 c s
  | .pitControlRead => execPitControlRead s
  | .dmaAddrWrite k i b => execDmaAddrWrite k i b s
  | .dmaCountWrite k i b => execDmaCountWrite k i b s
  | .dmaAddrRead k i => execDmaAddrRead k i s
  | .dmaCountRead k i => execDmaCountRead k i s
  | .dmaCommand k v => execDmaCommand k v s
  | .dmaRequest k i set => execDmaRequest k i set s
  | .dmaSingleMask k i set => execDmaSingleMask k i set s
  | .dmaMode k v => execDmaMode k v s
  | .dmaClearFlipFlop k => execDmaClearFlipFlop k s
  | .dmaMasterClear k => execDmaMasterClear k s
  | .dmaClearMasks k => execDmaClearMasks k s
  | .dmaWriteMasks k m => execDmaWriteMasks k m s
  | .dmaStatusRead k => execDmaStatusRead k s
  | .dmaMaskRead k => execDmaMaskRead k s
  | .dmaOtherRead k r => execDmaOtherRead k r s
  | .dmaPageLowWrite k i b => execDmaPageLowWrite k i b s
  | .dmaPageHighWrite k i b => execDmaPageHighWrite k i b s
  | .dmaPageRead k h i => execDmaPageRead k h i s
  | .outwOutl _ _ _ | .inwInl _ _ | .irq _ _ | .inta | .gate _ _ | .getOut _ | .dreq _ | .drel _ | .reg _ _
  | .getChannelMode _ | .readMemory _ _ _ _ _ | .writeMemory _ _ _ _ _ | .newTimer _ | .update _ _ | .getTime
  | .tick _ | .reset | .portsRequested _ => s.violate (.reentrantCall (encode i))

/-- Whether a port belongs to a device (R81, R83). -/
def ownedBy (d : PortDevice) (port : Nat) : Option PortReg :=
  match portReg port with
  | some r => if r.device = d then some r else none
  | none => none

/-- One byte write of a wide access: at a port of the device, by the row it selects at the state it finds (R83, CV4). -/
def State.portWrite (s : State) (d : PortDevice) (port : Nat) (b : Byte) : Outcome :=
  match ownedBy d port with
  | some r => runPortRow (decodeWrite s.cursors r b) s
  | none => s.violate (.unregisteredPort port)

/-- One byte read of a wide access (R83, CV4). -/
def State.portRead (s : State) (d : PortDevice) (port : Nat) : Outcome :=
  match ownedBy d port with
  | some r => runPortRow (decodeRead s.cursors r) s
  | none => s.violate (.unregisteredPort port)

/-- Byte writes at ascending ports. -/
def writePorts (d : PortDevice) : Nat → List Byte → State → Outcome
  | _, [], s => .next s
  | port, b :: rest, s =>
    match s.portWrite d port b with
    | .next t => writePorts d (port + 1) rest t
    | .fault r => .fault r
    | .refused r => .refused r

/-- The byte of the last result. -/
def Result.asByte : Result → Byte
  | .byte b => b
  | .none | .word _ | .long _ | .level _ | .time _ | .timer _ | .transfer _ _ | .ports _ | .dump _ => 0

/-- The value that a wide read returns: its bytes, the first one lowest (R83). -/
def wideResult : List Byte → Result
  | [b0, b1] => .word (joinBytes b0 b1)
  | [b0, b1, b2, b3] => .long (b3 ++ b2 ++ b1 ++ b0)
  | _ => .none

/-- Byte reads at ascending ports, the bytes read so far in front. -/
def readPorts (d : PortDevice) : Nat → Nat → List Byte → State → Outcome
  | 0, _, bytes, s => .next (s.answer (wideResult bytes))
  | count + 1, port, bytes, s =>
    match s.portRead d port with
    | .next t => readPorts d count (port + 1) (bytes ++ [t.result.asByte]) t
    | .fault r => .fault r
    | .refused r => .refused r

/-- The bytes of a written value, low byte first (R83). -/
def wideBytes (long : Bool) (value : Nat) : List Byte :=
  (List.range (if long then 4 else 2)).map fun j => BitVec.ofNat 8 (value >>> (8 * j))

/-- `write_word` and `write_long` (R83). -/
def execOutwOutl (long : Bool) (port value : Nat) (s : State) : Outcome :=
  match portReg port with
  | some r => writePorts r.device port (wideBytes long value) s
  | none => s.violate (.unregisteredPort port)

/-- `read_word` and `read_long` (R83). -/
def execInwInl (long : Bool) (port : Nat) (s : State) : Outcome :=
  match portReg port with
  | some r => readPorts r.device (if long then 4 else 2) port [] s
  | none => s.violate (.unregisteredPort port)

end Sys2Proof.Machine
end

