-- ==== Sys2Proof/Machine/Dispatch.lean ====
section
/-! DEFINITION. The dispatch: one arm for each instruction, each one call of its meaning. -/

namespace Sys2Proof.Machine

def exec (i : Instr) (s : State) : Host.Outcome State Fault Refusal :=
  match i with
  | .picIcw1 e ic4 => Sys2Proof.Machine.execPicIcw1 e ic4 s
  | .picOcw3 e esmm smm p rr ris => Sys2Proof.Machine.execPicOcw3 e esmm smm p rr ris s
  | .picOcw2RotateAeoiClear e => Sys2Proof.Machine.execPicOcw2RotateAeoiClear e s
  | .picOcw2Eoi e => Sys2Proof.Machine.execPicOcw2Eoi e s
  | .picOcw2Nop e => Sys2Proof.Machine.execPicOcw2Nop e s
  | .picOcw2SpecificEoi e l => Sys2Proof.Machine.execPicOcw2SpecificEoi e l s
  | .picOcw2RotateAeoiSet e => Sys2Proof.Machine.execPicOcw2RotateAeoiSet e s
  | .picOcw2RotateEoi e => Sys2Proof.Machine.execPicOcw2RotateEoi e s
  | .picOcw2SetPriority e l => Sys2Proof.Machine.execPicOcw2SetPriority e l s
  | .picOcw2RotateSpecificEoi e l => Sys2Proof.Machine.execPicOcw2RotateSpecificEoi e l s
  | .picOcw1 e d => Sys2Proof.Machine.execPicOcw1 e d s
  | .picIcw2 e base => Sys2Proof.Machine.execPicIcw2 e base s
  | .picIcw3 e => Sys2Proof.Machine.execPicIcw3 e s
  | .picIcw4 e sfnm aeoi => Sys2Proof.Machine.execPicIcw4 e sfnm aeoi s
  | .picPollRead e port => Sys2Proof.Machine.execPicPollRead e port s
  | .picIrrRead e => Sys2Proof.Machine.execPicIrrRead e s
  | .picIsrRead e => Sys2Proof.Machine.execPicIsrRead e s
  | .picImrRead e => Sys2Proof.Machine.execPicImrRead e s
  | .picElcrWrite e d => Sys2Proof.Machine.execPicElcrWrite e d s
  | .picElcrRead e => Sys2Proof.Machine.execPicElcrRead e s
  | .pitLatch c => Sys2Proof.Machine.execPitLatch c s
  | .pitControlLsb c m bcd => Sys2Proof.Machine.execPitControlLsb c m bcd s
  | .pitControlMsb c m bcd => Sys2Proof.Machine.execPitControlMsb c m bcd s
  | .pitControlWord c m bcd => Sys2Proof.Machine.execPitControlWord c m bcd s
  | .pitReadback count status sel0 sel1 sel2 => Sys2Proof.Machine.execPitReadback count status sel0 sel1 sel2 s
  | .pitWriteLsb c b => Sys2Proof.Machine.execPitWriteLsb c b s
  | .pitWriteMsb c b => Sys2Proof.Machine.execPitWriteMsb c b s
  | .pitWriteWord0 c b => Sys2Proof.Machine.execPitWriteWord0 c b s
  | .pitWriteWord1 c b => Sys2Proof.Machine.execPitWriteWord1 c b s
  | .pitReadStatus c => Sys2Proof.Machine.execPitReadStatus c s
  | .pitReadLatchedLsb c => Sys2Proof.Machine.execPitReadLatchedLsb c s
  | .pitReadLatchedMsb c => Sys2Proof.Machine.execPitReadLatchedMsb c s
  | .pitReadLatchedWord0 c => Sys2Proof.Machine.execPitReadLatchedWord0 c s
  | .pitReadLiveLsb c => Sys2Proof.Machine.execPitReadLiveLsb c s
  | .pitReadLiveMsb c => Sys2Proof.Machine.execPitReadLiveMsb c s
  | .pitReadLiveWord0 c => Sys2Proof.Machine.execPitReadLiveWord0 c s
  | .pitReadLiveWord1 c => Sys2Proof.Machine.execPitReadLiveWord1 c s
  | .pitControlRead => Sys2Proof.Machine.execPitControlRead s
  | .dmaAddrWrite k ch b => Sys2Proof.Machine.execDmaAddrWrite k ch b s
  | .dmaCountWrite k ch b => Sys2Proof.Machine.execDmaCountWrite k ch b s
  | .dmaAddrRead k ch => Sys2Proof.Machine.execDmaAddrRead k ch s
  | .dmaCountRead k ch => Sys2Proof.Machine.execDmaCountRead k ch s
  | .dmaCommand k v => Sys2Proof.Machine.execDmaCommand k v s
  | .dmaRequest k ch set => Sys2Proof.Machine.execDmaRequest k ch set s
  | .dmaSingleMask k ch set => Sys2Proof.Machine.execDmaSingleMask k ch set s
  | .dmaMode k v => Sys2Proof.Machine.execDmaMode k v s
  | .dmaClearFlipFlop k => Sys2Proof.Machine.execDmaClearFlipFlop k s
  | .dmaMasterClear k => Sys2Proof.Machine.execDmaMasterClear k s
  | .dmaClearMasks k => Sys2Proof.Machine.execDmaClearMasks k s
  | .dmaWriteMasks k m => Sys2Proof.Machine.execDmaWriteMasks k m s
  | .dmaStatusRead k => Sys2Proof.Machine.execDmaStatusRead k s
  | .dmaMaskRead k => Sys2Proof.Machine.execDmaMaskRead k s
  | .dmaOtherRead k r => Sys2Proof.Machine.execDmaOtherRead k r s
  | .dmaPageLowWrite k ch b => Sys2Proof.Machine.execDmaPageLowWrite k ch b s
  | .dmaPageHighWrite k ch b => Sys2Proof.Machine.execDmaPageHighWrite k ch b s
  | .dmaPageRead k h ch => Sys2Proof.Machine.execDmaPageRead k h ch s
  | .outwOutl long port value => Sys2Proof.Machine.execOutwOutl long port value s
  | .inwInl long port => Sys2Proof.Machine.execInwInl long port s
  | .irq line level => Sys2Proof.Machine.execIrq line level s
  | .inta => Sys2Proof.Machine.execInta s
  | .gate channel level => Sys2Proof.Machine.execGate channel level s
  | .getOut channel => Sys2Proof.Machine.execGetOut channel s
  | .dreq n => Sys2Proof.Machine.execDreq n s
  | .drel n => Sys2Proof.Machine.execDrel n s
  | .reg n device => Sys2Proof.Machine.execReg n device s
  | .getChannelMode n => Sys2Proof.Machine.execGetChannelMode n s
  | .readMemory n buf off pos len => Sys2Proof.Machine.execReadMemory n buf off pos len s
  | .writeMemory n buf off pos len => Sys2Proof.Machine.execWriteMemory n buf off pos len s
  | .newTimer target => Sys2Proof.Machine.execNewTimer target s
  | .update timer change => Sys2Proof.Machine.execUpdate timer change s
  | .getTime => Sys2Proof.Machine.execGetTime s
  | .tick delta => Sys2Proof.Machine.execTick delta s
  | .reset => Sys2Proof.Machine.execReset s
  | .portsRequested d => Sys2Proof.Machine.execPortsRequested d s

end Sys2Proof.Machine
end

