-- ==== Sys2Proof/Machine/Step.lean ====
section
/-! DEFINITION. The step: take the next call of an agent, decode it at the cursors of the state, run it (R92, R130;
log entry 1); or dump or reload the block for the host (R7, R11). -/

namespace Sys2Proof.Machine

/-- The fault of a call that is no instruction (R400: CV4, CV9). -/
def rejected (c : Call) (s : State) : Reject → Outcome
  | .unregisteredPort port => s.violate (.unregisteredPort port)
  | .badArgument => s.violate (.badArgument c)

/-- The state a call finds: taken off the list, with no value returned yet. -/
def State.fetched (s : State) (rest : List Action) : State := { s with calls := rest, result := .none, nested := [] }

/-- One atomic step (R92): the next call, whole, or the host's dump or reload (R11, log entry 25). Without a call nothing
happens: time stands still and all state survives (R417). -/
def step (s : State) : Host.Outcome State Fault Refusal :=
  match s.calls with
  | [] => .next s
  | .dump :: rest => .next ((s.fetched rest).answer (.dump s.dump))
  | .reload d :: rest => .next ((s.fetched rest).reload d)
  | .call c :: rest =>
    match decode s.cursors c with
    | .ok i => exec i (s.fetched rest)
    | .error r => rejected c (s.fetched rest) r

/-- `s` with the bus transaction of a word of the opcode table as its next call (log entries 1 and 2). -/
def State.withFetchWord (s : State) (nbits w : Nat) : State := { s with calls := .call (tableCall nbits w) :: s.calls }

end Sys2Proof.Machine
end

