-- ==== Sys2Proof/Safety.lean ====
section
/-! DEFINITION. What a safe run is: the invariants that the spec states of the block's state (widths of the numbers,
R26, R35, R40, R62, R66, R67, R70, and the canonical form of memory), and the contract of the outside world under
which no `ContractViolation` arises inside a step (R95, R347, R400). -/

namespace Sys2Proof.Machine

/-! ## Invariants -/

/-- An element's vector offset has bits 2:0 zero (R26), and no bit of its ELCR lies outside its mask (R35). -/
def PicElement.Inv (role : Elem) (p : PicElement) : Prop :=
  p.irqBase &&& 0x07 = 0 ∧ p.elcr &&& ~~~Config.elcrMask role = 0

/-- A channel's count is 1..0x10000 (R40) and its start lies not after `now` (R260). -/
def PitChannel.Inv (now : Nat) (c : PitChannel) : Prop :=
  1 ≤ c.countValue ∧ c.countValue ≤ 0x10000 ∧ c.countStartTime ≤ now

/-- The stored transition of channel 0 is a 64-bit time after the start of counting (R52, R260). -/
def State.NextInv (s : State) : Prop :=
  ∀ t, s.pitNext = some t → s.pit0.countStartTime < t ∧ t < Config.timeLimit

/-- Time is 64 bits wide (R60), and so is every expiry (R61). -/
def State.TimeInv (s : State) : Prop :=
  s.currentTime < Config.timeLimit ∧ ∀ r ∈ s.timers, r.expiry < Config.timeLimit

/-- The queue is in ascending order of expiry, holds a timer at most once, and holds exactly the enabled ones (R62). -/
def State.QueueInv (s : State) : Prop :=
  s.queue.Pairwise (fun a b => s.expiryOf a ≤ s.expiryOf b) ∧ s.queue.Nodup ∧
    ∀ t, t ∈ s.queue ↔ s.timerEnabled t = true

/-- A channel's current address has at most 16 significant bits, 17 on the 16-bit controller (R70). -/
def DmaChannel.Inv (k : DmaCtl) (ch : DmaChannel) : Prop :=
  ch.currentAddress.toNat < 2 ^ (16 + Config.dShift k)

/-- The command register holds 0x00 or 0x04 (R67), the terminal-count bits are 0 (R66). -/
def DmaController.Inv (k : DmaCtl) (d : DmaController) : Prop :=
  (d.command = 0x00 ∨ d.command = 0x04) ∧ d.status &&& 0x0F = 0 ∧ ∀ i, (d.ch i).Inv k

/-- What the spec states of every reachable state. -/
structure State.Inv (s : State) : Prop where
  pic : ∀ e, (s.pic e).Inv e
  pit : ∀ c, (s.pit c).Inv s.currentTime
  next : s.NextInv
  time : s.TimeInv
  queue : s.QueueInv
  dma : ∀ k, (s.dma k).Inv k
  memory : Memory.wf s.memory = true

/-- A dump that holds a state of the block as the spec states it of every reachable one, whatever lies in memory (R11). -/
def Dump.Sound (d : Dump) : Prop := (State.powerOn.reload d).Inv

/-- The host reloads only dumps of such states (R11). -/
def State.ReloadsSound (s : State) : Prop := ∀ d, Action.reload d ∈ s.calls → d.Sound

/-! ## The contract of the outside world -/

/-- A call that R95 and R347 admit inside a transfer device's handler. -/
def admittedInHandler : Call → Bool
  | .readMemory _ _ _ _ _ | .writeMemory _ _ _ _ _ | .getChannelMode _ => true
  | .holdDmaRequest _ | .releaseDmaRequest _ | .setIrq _ _ => true
  | .writeByte _ _ | .writeWord _ _ | .writeLong _ _ | .readByte _ | .readWord _ | .readLong _ => false
  | .cpuGetInterrupt | .setGate _ _ | .getOut _ | .registerChannel _ _ => false
  | .newTimer _ | .update _ _ | .getTime | .timePasses _ | .reset | .portsRequested _ => false

/-- A call that the model admits inside another device's timer callback (R95, R160, log entry 7). -/
def admittedInCallback : Call → Bool
  | .update _ _ | .setIrq _ _ | .getTime => true
  | .writeByte _ _ | .writeWord _ _ | .writeLong _ _ | .readByte _ | .readWord _ | .readLong _ => false
  | .cpuGetInterrupt | .setGate _ _ | .getOut _ | .registerChannel _ _ | .getChannelMode _ => false
  | .holdDmaRequest _ | .releaseDmaRequest _ | .readMemory _ _ _ _ _ | .writeMemory _ _ _ _ _ => false
  | .newTimer _ | .timePasses _ | .reset | .portsRequested _ => false

/-- The CPU never calls back inside a notification (R95). -/
def State.CpuConforms (s : State) : Prop := ∀ r ∈ s.cpuReplies, r = none

/-- A call of the CPU's own capability (R8). -/
def Event.isNotice : Event → Bool
  | .raiseInterrupt | .clearInterrupt => true
  | .memRead _ _ | .memWrite _ _ | .handleTransfer _ _ _ _ | .expiry _ => false

/-- From `s` to `t` events are only added, and the CPU has answered each notification among them. -/
def State.CpuAnswered (s t : State) : Prop :=
  ∃ events, t.trace = s.trace ++ events ∧ t.cpuReplies = s.cpuReplies.drop (events.countP Event.isNotice)

/-- A call that a transfer device may make inside its handler, with operands in range (R95, R347, R400). -/
def deviceMayCall : Call → Bool
  | .readMemory n buf off pos len | .writeMemory n buf off pos len => decide (n ≤ 7) && bufferRangeOk buf off pos len
  | .getChannelMode n | .holdDmaRequest n | .releaseDmaRequest n => decide (n ≤ 7)
  | .setIrq line level => decide (line ≤ 15) && decide (level ≤ 1)
  | .writeByte _ _ | .writeWord _ _ | .writeLong _ _ | .readByte _ | .readWord _ | .readLong _ => false
  | .cpuGetInterrupt | .setGate _ _ | .getOut _ | .registerChannel _ _ => false
  | .newTimer _ | .update _ _ | .getTime | .timePasses _ | .reset | .portsRequested _ => false

/-- A reply that keeps the contract of R347: admitted calls, and a position of 32 bits. -/
def DeviceReply.conforming (r : DeviceReply) : Bool :=
  r.calls.all deviceMayCall && decide (0 ≤ r.newPosition) && decide (r.newPosition < Config.positionLimit)

/-- Every listed reply of a transfer device keeps its contract. -/
def State.DevicesConform (s : State) : Prop := ∀ r ∈ s.deviceReplies, r.conforming = true

/-- A call that another device may make inside its timer's callback, with operands in range, when `timers` timers
exist (R95, R160, R400). -/
def callbackMayCall (timers : Nat) : Call → Bool
  | .update t change => decide (t < timers) && change.wf
  | .setIrq line level => decide (line ≤ 15) && decide (level ≤ 1)
  | .getTime => true
  | .writeByte _ _ | .writeWord _ _ | .writeLong _ _ | .readByte _ | .readWord _ | .readLong _ => false
  | .cpuGetInterrupt | .setGate _ _ | .getOut _ | .registerChannel _ _ | .getChannelMode _ => false
  | .holdDmaRequest _ | .releaseDmaRequest _ | .readMemory _ _ _ _ _ | .writeMemory _ _ _ _ _ => false
  | .newTimer _ | .timePasses _ | .reset | .portsRequested _ => false

/-- Every listed reply of a timer's callback keeps its contract. -/
def State.CallbacksConform (s : State) : Prop :=
  ∀ reply ∈ s.expiryReplies, ∀ c ∈ reply, callbackMayCall s.timers.length c = true

/-! ## Readings of a PIC element (R406) -/

/-- The rank of a line, `(n - priority_add) mod 8`: 0 is the highest priority (R200, R406). -/
def lineRank (priorityAdd n : Line) : Nat := (n - priorityAdd).toNat

/-- Bit `n` of a register of a PIC element. -/
def lineSet (register : Byte) (n : Line) : Bool := register.getLsbD n.toNat

/-! ## Readings of a DMA channel (R78) -/

/-- The channel's block is complete (R78, R344). -/
def State.channelComplete (s : State) (k : DmaCtl) (i : DmaChan) : Prop :=
  threshold k (s.chan k i) ≤ (s.chan k i).currentWordCount.toNat

/-- The channel is requested and not masked: a pass over its controller runs it (R343). -/
def State.channelRequested (s : State) (k : DmaCtl) (i : DmaChan) : Prop :=
  (s.dma k).status.getLsbD (4 + i.val) = true ∧ (s.dma k).mask.getLsbD i.val = false

/-! ## Frames: what a step leaves as it was -/

/-- Both PIC elements are as before. -/
def State.SamePic (s t : State) : Prop := ∀ e, t.pic e = s.pic e

/-- The PIT is as before. -/
def State.SamePit (s t : State) : Prop := (∀ c, t.pit c = s.pit c) ∧ t.pitNext = s.pitNext

/-- Time, the timers and their queue are as before. -/
def State.SameTime (s t : State) : Prop :=
  t.currentTime = s.currentTime ∧ t.timers = s.timers ∧ t.queue = s.queue

/-- Both DMA controllers are as before. -/
def State.SameDma (s t : State) : Prop := ∀ k, t.dma k = s.dma k

/-- Every byte of memory reads as before. -/
def State.SameMemory (s t : State) : Prop := ∀ a, Memory.read t.memory a = Memory.read s.memory a

/-- The model's own fields but for the events and the result are as before, and the CPU has answered its notifications. -/
def State.SameWorld (s t : State) : Prop :=
  t.calls = s.calls ∧ t.deviceReplies = s.deviceReplies ∧ t.expiryReplies = s.expiryReplies ∧
    t.nested = s.nested ∧ t.freeCount = s.freeCount ∧ s.CpuAnswered t

/-- Nothing but the PIC, the events and the result differs. -/
def State.OnlyPic (s t : State) : Prop :=
  s.SamePit t ∧ s.SameTime t ∧ s.SameDma t ∧ s.SameMemory t ∧ s.SameWorld t

/-- Nothing but the PIT, the events and the result differs. -/
def State.OnlyPit (s t : State) : Prop :=
  s.SamePic t ∧ s.SameTime t ∧ s.SameDma t ∧ s.SameMemory t ∧ s.SameWorld t

/-- Nothing but the DMA controllers, the events and the result differs. -/
def State.OnlyDma (s t : State) : Prop :=
  s.SamePic t ∧ s.SamePit t ∧ s.SameTime t ∧ s.SameMemory t ∧ s.SameWorld t

/-- Nothing but the timers, their queue, the events and the result differs. -/
def State.OnlyTimers (s t : State) : Prop :=
  s.SamePic t ∧ s.SamePit t ∧ t.currentTime = s.currentTime ∧ s.SameDma t ∧ s.SameMemory t ∧ s.SameWorld t

/-- Nothing but the events and the result differs. -/
def State.OnlyAnswer (s t : State) : Prop :=
  s.SamePic t ∧ s.SamePit t ∧ s.SameTime t ∧ s.SameDma t ∧ s.SameMemory t ∧ s.SameWorld t

/-! ## The PIC's rules, line by line -/

/-- `q` is what driving line `n` to `level` makes of `p` (R202): the level is noted; a level-triggered line's request
follows it, an edge-triggered line's request is set when it rises and else kept; nothing else changes. -/
structure PicElement.Driven (p q : PicElement) (n : Line) (level : Bool) : Prop where
  others : ∀ m, m ≠ n → lineSet q.irr m = lineSet p.irr m ∧ lineSet q.lastIrr m = lineSet p.lastIrr m
  noted : lineSet q.lastIrr n = level
  requested : lineSet q.irr n =
    if lineSet p.elcr n then level else lineSet p.irr n || (level && !lineSet p.lastIrr n)
  frame : q = { p with irr := q.irr, lastIrr := q.lastIrr }

/-- `t` is what `update_irq` makes of `s` (R204): a deliverable slave line raises and lowers master line 2, a
deliverable master line then emits `RaiseInterrupt`; nothing else changes. -/
structure State.Recomputed (s t : State) : Prop where
  slave : t.picS = s.picS
  quiet : getIrq .slave s.picS = none → t.picM = s.picM
  pulsed : getIrq .slave s.picS ≠ none →
    ∃ high, s.picM.Driven high Config.cascadeLine true ∧ high.Driven t.picM Config.cascadeLine false
  told : t.trace = s.trace ++ if getIrq .master t.picM = none then [] else [.raiseInterrupt]
  result : t.result = s.result
  frame : s.OnlyPic t

/-- `t` is what `set_irq(line, level)` makes of `s` (R203): lines 0..7 are the master's, 8..15 the slave's. -/
def State.LineDriven (s t : State) (line : Nat) (level : Bool) : Prop :=
  ∃ q, let e : Elem := if line ≤ 7 then .master else .slave
    (s.pic e).Driven q (BitVec.ofNat 3 line) level ∧ (s.setPic e q).Recomputed t

/-- `q` is what the acknowledge of line `n` makes of `p` (R205): in service unless auto-EOI, no longer requested unless
level-triggered, lowest in priority if rotation on auto-EOI applies; nothing else changes. -/
structure PicElement.Acknowledged (p q : PicElement) (n : Line) : Prop where
  inService : ∀ m, lineSet q.isr m = (lineSet p.isr m || (decide (m = n) && !p.autoEoi))
  requested : ∀ m, lineSet q.irr m = (lineSet p.irr m && !(decide (m = n) && !lineSet p.elcr n))
  priority : q.priorityAdd = if p.autoEoi && p.rotateOnAutoEoi then n + 1 else p.priorityAdd
  frame : q = { p with irr := q.irr, isr := q.isr, priorityAdd := q.priorityAdd }

/-- Line `n` is in service and no line in service ranks before it (R211). -/
def PicElement.HighestInService (p : PicElement) (n : Line) : Prop :=
  lineSet p.isr n = true ∧ ∀ m, lineSet p.isr m = true → lineRank p.priorityAdd n ≤ lineRank p.priorityAdd m

/-! ## The timer of PIT channel 0 -/

/-- `t` has channel 0's timer as `arm` or `disarm` leaves it (R152, R153, R155, R266): for a transition time, enabled
and queued behind every other timer of equal or smaller expiry, before every greater one; for none, disabled and not
queued; the other timers keep their records and their order. -/
structure State.PitScheduled (s t : State) (next : Option Nat) : Prop where
  stored : t.pitNext = next
  records : ∀ u, t.timers[u]? = (s.timers[u]?).map fun r =>
    if u = Config.pitTimer then { r with expiry := next.getD r.expiry, enabled := next.isSome } else r
  armed : ∀ x, next = some x → t.queue =
    s.queue.filter (fun u => decide (u ≠ Config.pitTimer) && decide (s.expiryOf u ≤ x)) ++
      Config.pitTimer :: s.queue.filter (fun u => decide (u ≠ Config.pitTimer) && decide (x < s.expiryOf u))
  disarmed : next = none → t.queue = s.queue.filter (· ≠ Config.pitTimer)

/-- `t` is what a restart of channel `c` as `p` makes of `s` (R265, R266, R285): channels 1 and 2 only change; channel 0
also drives PIC line 0 with the level it has then, and schedules its next transition. -/
def State.Restarted (s t : State) (c : PitChan) (p : PitChannel) (level : Bool) (next : Option Nat) : Prop :=
  if c = .c0 then
    ∃ u, (s.setPit .c0 p).LineDriven u Config.pitIrqLine level ∧ u.PitScheduled t next ∧
      t = { u with pitNext := t.pitNext, timers := t.timers, queue := t.queue }
  else t = s.setPit c p

/-- The output level at the start of counting (R262 at d = 0): high in modes 1 and 3. -/
def startLevel : PitMode → Bool
  | .m1 | .m3 => true
  | .m0 | .m2 | .m4 | .m5 => false

/-- The PIT clocks from the start of counting to the first change of the output (R263 at d = 0). -/
def firstFlip (mode : PitMode) (n : Nat) : Option Nat :=
  match mode with
  | .m3 => if n = 1 then none else some ((n + 1) / 2)
  | .m0 | .m1 | .m2 | .m4 | .m5 => some n

/-- The first transition time of a channel that starts counting at `now` (R264): the tick in which its first change
falls, if that is a 64-bit time. -/
def firstTransition (mode : PitMode) (n now : Nat) : Option Nat :=
  (firstFlip mode n).bind fun d =>
    let time := now + scale64 d Config.tickRate Config.pitFreq
    if time < Config.timeLimit then some time else none

/-! ## The timer queue -/

/-- No queued timer is due (R158). -/
def State.NoneDue (s : State) : Prop := ∀ u ∈ s.queue, s.currentTime < s.expiryOf u

/-- A timer that is queued now and due by `now`. -/
def State.dueBy (s : State) (now u : Nat) : Bool := decide (s.expiryOf u ≤ now)

/-! ## A pass over a DMA controller -/

/-- What a pass over a controller leaves (R343, R344, R347): everything but PIC, request bits, positions, memory, the
transfer devices' replies, the values returned to them, the events and the free values. -/
structure State.PassLeaves (s t : State) : Prop where
  pit : s.SamePit t
  time : s.SameTime t
  calls : t.calls = s.calls
  expiryReplies : t.expiryReplies = s.expiryReplies
  result : t.result = s.result
  cpu : s.CpuAnswered t
  controllers : ∀ k, (t.dma k).command = (s.dma k).command ∧ (t.dma k).mask = (s.dma k).mask ∧
    (t.dma k).flipFlop = (s.dma k).flipFlop ∧ (t.dma k).status &&& 0x0F = (s.dma k).status &&& 0x0F
  channels : ∀ k i, t.chan k i = { s.chan k i with currentWordCount := (t.chan k i).currentWordCount }

/-- No listed reply of a transfer device writes memory. -/
def State.NoDeviceWrites (s : State) : Prop :=
  ∀ r ∈ s.deviceReplies, ∀ c ∈ r.calls, ∀ n buf off pos len, c ≠ .writeMemory n buf off pos len

/-- No listed reply of a transfer device drives a request line. -/
def State.NoDeviceLines (s : State) : Prop :=
  ∀ r ∈ s.deviceReplies, ∀ c ∈ r.calls, ∀ line level, c ≠ .setIrq line level

/-- A call whose value its caller gets (R9, R89, R90, R346). -/
def returnsValue : Call → Bool
  | .readMemory _ _ _ _ _ | .writeMemory _ _ _ _ _ | .getChannelMode _ => true
  | .holdDmaRequest _ | .releaseDmaRequest _ | .setIrq _ _ | .newTimer _ | .update _ _ | .getTime => false
  | .writeByte _ _ | .writeWord _ _ | .writeLong _ _ | .readByte _ | .readWord _ | .readLong _ => false
  | .cpuGetInterrupt | .setGate _ _ | .getOut _ | .registerChannel _ _ => false
  | .timePasses _ | .reset | .portsRequested _ => false

/-- The calls that a transfer device makes inside its handler take `s` to `t`: each is an admitted one and runs its own
rule at once, as the same call does from outside (R95, R347); a value it returns goes to the device. -/
inductive DeviceCallsRun : State → List Call → State → Prop
  | done (s : State) : DeviceCallsRun s [] s
  | call (s u t : State) (c : Call) (rest : List Call) (i : Instr) :
    admittedInHandler c = true → decode s.cursors c = .ok i → exec i s = .next u →
    DeviceCallsRun (if returnsValue c then s.returnNested u else u) rest t → DeviceCallsRun s (c :: rest) t

/-- An access or call that runs no device, no timer and no second access: it calls the CPU at most once. -/
def atMostOneNotice : Instr → Bool
  | .dmaRequest _ _ _ | .dmaSingleMask _ _ _ | .dmaClearMasks _ | .dmaWriteMasks _ _ | .dreq _ => false
  | .tick _ | .outwOutl _ _ _ | .inwInl _ _ => false
  | .picIcw1 _ _ | .picOcw3 _ _ _ _ _ _ | .picOcw2RotateAeoiClear _ | .picOcw2Eoi _ | .picOcw2Nop _ => true
  | .picOcw2SpecificEoi _ _ | .picOcw2RotateAeoiSet _ | .picOcw2RotateEoi _ | .picOcw2SetPriority _ _ => true
  | .picOcw2RotateSpecificEoi _ _ | .picOcw1 _ _ | .picIcw2 _ _ | .picIcw3 _ | .picIcw4 _ _ _ => true
  | .picPollRead _ _ | .picIrrRead _ | .picIsrRead _ | .picImrRead _ | .picElcrWrite _ _ | .picElcrRead _ => true
  | .pitLatch _ | .pitControlLsb _ _ _ | .pitControlMsb _ _ _ | .pitControlWord _ _ _ => true
  | .pitReadback _ _ _ _ _ | .pitWriteLsb _ _ | .pitWriteMsb _ _ | .pitWriteWord0 _ _ | .pitWriteWord1 _ _ => true
  | .pitReadStatus _ | .pitReadLatchedLsb _ | .pitReadLatchedMsb _ | .pitReadLatchedWord0 _ => true
  | .pitReadLiveLsb _ | .pitReadLiveMsb _ | .pitReadLiveWord0 _ | .pitReadLiveWord1 _ | .pitControlRead => true
  | .dmaAddrWrite _ _ _ | .dmaCountWrite _ _ _ | .dmaAddrRead _ _ | .dmaCountRead _ _ | .dmaCommand _ _ => true
  | .dmaMode _ _ | .dmaClearFlipFlop _ | .dmaMasterClear _ | .dmaStatusRead _ | .dmaMaskRead _ => true
  | .dmaOtherRead _ _ | .dmaPageLowWrite _ _ _ | .dmaPageHighWrite _ _ _ | .dmaPageRead _ _ _ => true
  | .irq _ _ | .inta | .gate _ _ | .getOut _ | .drel _ | .reg _ _ | .getChannelMode _ => true
  | .readMemory _ _ _ _ _ | .writeMemory _ _ _ _ _ | .newTimer _ | .update _ _ | .getTime => true
  | .reset | .portsRequested _ => true

/-- `i` re-evaluates controller `k`, which it makes `d` first: a request is set or cleared with the terminal-count bit
(R327), a channel is unmasked (R328), the masks are cleared or written (R332, R333), a request is held (R341). -/
def State.Reevaluates (s : State) (k : DmaCtl) (i : Instr) (d : DmaController) : Prop :=
  (∃ ch, i = .dmaRequest k ch true ∧
      d = { s.dma k with status := ((s.dma k).status ||| requestBit ch) &&& ~~~terminalBit ch }) ∨
    (∃ ch, i = .dmaRequest k ch false ∧
      d = { s.dma k with status := ((s.dma k).status &&& ~~~requestBit ch) &&& ~~~terminalBit ch }) ∨
    (∃ ch, i = .dmaSingleMask k ch false ∧ d = { s.dma k with mask := (s.dma k).mask &&& ~~~maskBit ch }) ∨
    (i = .dmaClearMasks k ∧ d = { s.dma k with mask := 0 }) ∨
    (∃ m, i = .dmaWriteMasks k m ∧ d = { s.dma k with mask := m }) ∨
    ∃ ch, i = .dreq (globalChannel k ch) ∧ d = { s.dma k with status := (s.dma k).status ||| requestBit ch }

/-! ## The bytes of a wide access (R83) -/

/-- The number whose bytes these are, the low one first. -/
def littleEndian : List Byte → Nat
  | [] => 0
  | b :: rest => b.toNat + 256 * littleEndian rest

/-- The bytes of a word or of a long. -/
def wideLength (long : Bool) : Nat := if long then 4 else 2

/-- A port is one of a device's. -/
def PortOf (d : PortDevice) (port : Nat) (r : PortReg) : Prop := portReg port = some r ∧ r.device = d

/-- Byte writes of these bytes at the ports of a device from `port` on, each decoded and run whole before the next, take
`s` to `t`. -/
inductive ByteWritesRun (d : PortDevice) : Nat → List Byte → State → State → Prop
  | done (port : Nat) (s : State) : ByteWritesRun d port [] s s
  | byte (port : Nat) (b : Byte) (rest : List Byte) (s u t : State) (r : PortReg) :
    PortOf d port r → exec (decodeWrite s.cursors r b) s = .next u → ByteWritesRun d (port + 1) rest u t →
    ByteWritesRun d port (b :: rest) s t

/-- Byte reads at the ports of a device from `port` on, each decoded and run whole before the next, return these bytes
and take `s` to `t`. -/
inductive ByteReadsRun (d : PortDevice) : Nat → List Byte → State → State → Prop
  | done (port : Nat) (s : State) : ByteReadsRun d port [] s s
  | byte (port : Nat) (b : Byte) (rest : List Byte) (s u t : State) (r : PortReg) :
    PortOf d port r → exec (decodeRead s.cursors r) s = .next u → u.result = .byte b →
    ByteReadsRun d (port + 1) rest u t → ByteReadsRun d port (b :: rest) s t

/-! ## Channels of a pass -/

/-- The channels of a controller that a pass runs, in ascending order (R343). -/
def State.requestedChannels (s : State) (k : DmaCtl) : List DmaChan :=
  ([0, 1, 2, 3] : List DmaChan).filter fun i =>
    (s.dma k).status.getLsbD (4 + i.val) && !(s.dma k).mask.getLsbD i.val

end Sys2Proof.Machine
end

