-- ==== Sys2Proof/Certificates/Slice0/Obligations.lean ====
section
/-! DEFINITION. The statements for the provers: what the numbered rules of spec/ say of decoding, of every instruction,
of a step and of the block as a whole. The vocabulary is Safety.lean's. -/

open Sys2Proof Sys2Proof.Machine

/-! ## Decoding -/

/-- Calls written out from the port map and the tables of 30_encoding.md decode to the instructions they stand for:
`OUTB 0x20, 0x11`, `OUTB 0x20, 0x63`, `OUTB 0x20, 0x0B`, `OUTB 0xA1, 0xFB`, `OUTB 0x43, 0x34`, `OUTB 0x43, 0xE2`,
`OUTB 0x0B, 0x59`, `OUTB 0xD2, 0x05`, `OUTB 0x83, 0x02`, `INB 0x4D1`, `INB 0x40`, `INB 0xC6`. -/
def Obligations.DecodedCalls : Prop :=
  decode .reset (.writeByte 0x20 0x11) = .ok (.picIcw1 .master true) ∧
  decode .reset (.writeByte 0x20 0x63) = .ok (.picOcw2SpecificEoi .master 3) ∧
  decode .reset (.writeByte 0x20 0x0B) = .ok (.picOcw3 .master false false false true true) ∧
  decode .reset (.writeByte 0xA1 0xFB) = .ok (.picOcw1 .slave 0xFB) ∧
  decode .reset (.writeByte 0x43 0x34) = .ok (.pitControlWord .c0 2 false) ∧
  decode .reset (.writeByte 0x43 0xE2) = .ok (.pitReadback false true true false false) ∧
  decode .reset (.writeByte 0x0B 0x59) = .ok (.dmaMode .primary 0x59) ∧
  decode .reset (.writeByte 0xD2 0x05) = .ok (.dmaRequest .secondary 1 true) ∧
  decode .reset (.writeByte 0x83 0x02) = .ok (.dmaPageLowWrite .primary 1 0x02) ∧
  decode .reset (.readByte 0x4D1) = .ok (.picElcrRead .slave) ∧
  decode .reset (.readByte 0x40) = .ok (.pitReadLiveWord0 .c0) ∧
  decode .reset (.readByte 0xC6) = .ok (.dmaCountRead .secondary 1)

/-- Decoding the encoding of a well-formed instruction gives it back, at every state that selects its row and with
every operand at every value (R114, R118, R129, R130). -/
def Obligations.DecodeEncodeRoundTrip : Prop :=
  ∀ (cur : Cursors) (i : Instr), WellFormed i → i.selected cur = true → decode cur (encode i) = .ok i

/-- For every registered port, byte and state exactly one row of the opcode table is selected, and the decoder answers
with that row's instruction, well formed and in the state the row asks for (R130). -/
def Obligations.OneRowForEveryAccess : Prop :=
  ∀ (cur : Cursors) (port : Nat) (r : PortReg), portReg port = some r →
    (∀ b : Byte, ∃ i, decode cur (.writeByte port b.toNat) = .ok i ∧ WellFormed i ∧ i.selected cur = true ∧
      portRows.findIdxs (fun row => row.selects cur true port b) = [i.ctorIdx]) ∧
    ∃ i, decode cur (.readByte port) = .ok i ∧ WellFormed i ∧ i.selected cur = true ∧
      portRows.findIdxs (fun row => row.selects cur false port 0) = [i.ctorIdx]

/-- The ports that reach a device are exactly those it requested (R81); the decoder turns every other 16-bit one
away. -/
def Obligations.RegisteredPorts : Prop :=
  ∀ (port : Nat) (d : PortDevice),
    (port ∈ Config.portsRequested d ↔ ∃ r, portReg port = some r ∧ r.device = d) ∧
    (port < 2 ^ 16 → (∀ d', port ∉ Config.portsRequested d') → ∀ (cur : Cursors),
      (∀ v < 256, decode cur (.writeByte port v) = .error (.unregisteredPort port)) ∧
      decode cur (.readByte port) = .error (.unregisteredPort port))

/-! ## The step -/

/-- A step runs the decoded instruction, on the state with the call taken off the list and no value returned yet (R92). The
list of calls and the returned values are the model's own fields (log entries 1 and 11). -/
def Obligations.StepRunsDecodedInstruction : Prop :=
  ∀ (s : State) (c : Call) (rest : List Action) (i : Instr), s.calls = .call c :: rest → decode s.cursors c = .ok i →
    step s = exec i { s with calls := rest, result := .none, nested := [] }

/-- Without a call nothing happens: time stands still and all state survives (R417). A dump returns the block's state and
changes nothing of it; its reload, in whatever state, gives the block that state again, with the order of the queue and
the registered devices, and leaves what is outside the block (R11; that memory is outside it: log entry 25). CV4 and CV9:
a byte access at a 16-bit port that no device requested, and a byte, word or long access with a port or a value outside
its type, stop the step with the port, or the call, on record (R81, R400). The list of calls is the model's own (log
entry 1), and so is the order of the two checks (log entry 14). -/
def Obligations.StepWithoutInstruction : Prop :=
  (∀ s : State, s.calls = [] → step s = .next s) ∧
  (∀ (s : State) (rest : List Action), s.calls = .dump :: rest →
    step s = .next { s with calls := rest, result := .dump s.dump, nested := [] }) ∧
  (∀ (s u : State) (rest : List Action), u.calls = .reload s.dump :: rest →
    step u = .next { s with
      memory := u.memory, calls := rest, deviceReplies := u.deviceReplies, expiryReplies := u.expiryReplies,
      cpuReplies := u.cpuReplies, trace := u.trace, result := .none, nested := [], freeCount := u.freeCount }) ∧
  ∀ (s : State) (port v : Nat) (rest : List Action),
    (port < 2 ^ 16 → (∀ d, port ∉ Config.portsRequested d) →
      (s.calls = .call (.readByte port) :: rest → step s = .fault (.unregisteredPort port s.trace)) ∧
      (v < 256 → s.calls = .call (.writeByte port v) :: rest → step s = .fault (.unregisteredPort port s.trace))) ∧
    (∀ c, s.calls = .call c :: rest →
      (2 ^ 16 ≤ port ∧ (c = .readByte port ∨ c = .readWord port ∨ c = .readLong port)) ∨
        ((2 ^ 16 ≤ port ∨ 2 ^ 8 ≤ v) ∧ c = .writeByte port v) ∨
        ((2 ^ 16 ≤ port ∨ 2 ^ 16 ≤ v) ∧ c = .writeWord port v) ∨
        ((2 ^ 16 ≤ port ∨ 2 ^ 32 ≤ v) ∧ c = .writeLong port v) →
      step s = .fault (.badArgument c s.trace))

/-! ## Contract violations -/

/-- A call with an operand out of range stops at once, with the operands on record and no event of its own (R400): CV1
`set_irq`, CV2 `set_gate`, CV5 `time_passes`, CV9 `update` of a timer that `new_timer` did not make or to a time that is
not a 64-bit one, and `get_out` of a channel above 2. That these last are CV9 is the model's choice (log entry 14). -/
def Obligations.OperandViolationsFault : Prop :=
  ∀ s : State,
    (∀ line level, 15 < line ∨ 1 < level → exec (.irq line level) s = .fault (.setIrqOperands line level s.trace)) ∧
    (∀ channel level, 2 < channel ∨ 1 < level →
      exec (.gate channel level) s = .fault (.setGateOperands channel level s.trace)) ∧
    (∀ delta : Int, delta < 0 ∨ 2 ^ 32 ≤ delta ∨ 2 ^ 64 ≤ s.currentTime + delta →
      exec (.tick delta) s = .fault (.timePasses delta s.currentTime s.trace)) ∧
    (∀ timer change, s.timers.length ≤ timer →
      exec (.update timer change) s = .fault (.badArgument (.update timer change) s.trace)) ∧
    (∀ timer x, 2 ^ 64 ≤ x →
      exec (.update timer (.arm x)) s = .fault (.badArgument (.update timer (.arm x)) s.trace)) ∧
    ∀ channel, 2 < channel → exec (.getOut channel) s = .fault (.badArgument (.getOut channel) s.trace)

/-- CV3: a DMA call with a channel above 7 stops; CV8: a copy of a channel 0..7 with a buffer range outside the device's
buffer, or a negative number, stops (R89, R90, R400). That CV3 comes before CV8 where a copy breaks both is the model's
reading (log entry 14). -/
def Obligations.DmaCallViolationsFault : Prop :=
  ∀ (s : State) (n : Nat),
    (7 < n →
      exec (.dreq n) s = .fault (.dmaChannel n s.trace) ∧ exec (.drel n) s = .fault (.dmaChannel n s.trace) ∧
      (∀ device, exec (.reg n device) s = .fault (.dmaChannel n s.trace)) ∧
      exec (.getChannelMode n) s = .fault (.dmaChannel n s.trace) ∧
      (∀ buf off pos len, exec (.readMemory n buf off pos len) s = .fault (.dmaChannel n s.trace)) ∧
      ∀ buf off pos len, exec (.writeMemory n buf off pos len) s = .fault (.dmaChannel n s.trace)) ∧
    ∀ (buf : List Byte) (off pos len : Int), n ≤ 7 →
      (off < 0 ∨ pos < 0 ∨ len < 0 ∨ (len ≠ 0 ∧ (buf.length : Int) < off + len)) →
      exec (.readMemory n buf off pos len) s = .fault (.bufferRange n off pos len s.trace) ∧
      exec (.writeMemory n buf off pos len) s = .fault (.bufferRange n off pos len s.trace)

/-! ## Reset -/

/-- The state after reset is what `reset()` makes of the block at construction (R430, R431), whose fields that the reset
writes hold values the model names (log entry 19). -/
def Obligations.ResetOfConstructionIsReset : Prop := exec .reset State.powerOn = .next State.reset

/-- `reset()` of any state (R431 to R436): both elements but for their ELCR, every DMA register, the PIT; channel 0's
output is high, so line 0 is requested and `RaiseInterrupt` emitted, and its timer is armed; time, the other timers
and their order, the ELCRs and memory are kept. The CPU does not call back inside the notification (R95). -/
def Obligations.ResetGivesResetValues : Prop :=
  ∀ s : State, s.Inv → s.CpuConforms → 0 < s.timers.length → s.currentTime + 27462700 < 2 ^ 64 →
    ∃ t, exec .reset s = .next t ∧
      t.picM = { PicElement.reset with irr := 0x01, lastIrr := 0x01, elcr := s.picM.elcr } ∧
      t.picS = { PicElement.reset with elcr := s.picS.elcr } ∧
      (∀ c, t.pit c = { PitChannel.reset (decide (c ≠ .c2)) with countStartTime := s.currentTime }) ∧
      s.PitScheduled t (some (s.currentTime + 27462700)) ∧
      (∀ k, t.dma k = .reset) ∧
      t.currentTime = s.currentTime ∧ t.trace = s.trace ++ [.raiseInterrupt] ∧ t.result = s.result ∧
      s.SameMemory t ∧ s.SameWorld t

/-! ## The invariant -/

/-- The state after reset has the invariant: R26, R35, R40, R60, R61, R62, R66, R67, R70 and the canonical memory; and the
host has no reload to come. -/
def Obligations.ResetHasInvariant : Prop := State.reset.Inv ∧ State.reset.ReloadsSound

/-- Every step keeps the invariant, from every state that has it, when the host reloads only dumps of such states (R11). -/
def Obligations.StepKeepsInvariant : Prop :=
  ∀ s t : State, s.Inv → s.ReloadsSound → step s = .next t → t.Inv ∧ t.ReloadsSound

/-! ## PIC: resolution -/

/-- `get_priority` answers the least rank of a set line, and 8 if there is none (R200). -/
def Obligations.GetPriorityIsLeastRank : Prop :=
  ∀ (priorityAdd : Line) (m : Byte),
    (m = 0 → getPriority priorityAdd m = 8) ∧
    (m ≠ 0 → ∃ n, lineSet m n = true ∧ getPriority priorityAdd m = lineRank priorityAdd n ∧
      ∀ n', lineSet m n' = true → lineRank priorityAdd n ≤ lineRank priorityAdd n')

/-- `get_irq` answers a line exactly when it is requested and not masked, ranks first among such lines, and ranks before
every line in service, where a master in special fully nested mode does not count line 2 (R201, R228). -/
def Obligations.GetIrqIsDeliverableLine : Prop :=
  ∀ (role : Elem) (p : PicElement) (n : Line),
    getIrq role p = some n ↔
      lineSet p.irr n = true ∧ lineSet p.imr n = false ∧
      (∀ m, lineSet p.irr m = true → lineSet p.imr m = false →
        lineRank p.priorityAdd n ≤ lineRank p.priorityAdd m) ∧
      ∀ m, lineSet p.isr m = true → ¬(p.specialFullyNested = true ∧ role = .master ∧ m = 2) →
        lineRank p.priorityAdd n < lineRank p.priorityAdd m

/-! ## PIC: requests and delivery -/

/-- `set_irq` with operands in range drives the line of its element and recomputes (R202, R203, R204), with a CPU that does
not call back inside a notification (R95). -/
def Obligations.SetIrqDrivesLine : Prop :=
  ∀ (s : State) (line level : Nat), s.CpuConforms → line ≤ 15 → level ≤ 1 →
    ∃ t, exec (.irq line level) s = .next t ∧ s.LineDriven t line (level == 1)

/-- The cascade pulse on an edge-triggered master line 2: its request bit is set when the last level was 0, the last
level ends at 0, and `RaiseInterrupt` is emitted once exactly when the master then has a deliverable line (R204). The
CPU does not call back inside a notification (R95). -/
def Obligations.CascadePulseRequestsLineTwo : Prop :=
  ∀ (s : State) (line level : Nat), s.CpuConforms → 7 < line → line ≤ 15 → level ≤ 1 → (s.pic .master).Inv .master →
    ∃ t, exec (.irq line level) s = .next t ∧
      (getIrq .slave t.picS ≠ none →
        (∀ n, lineSet t.picM.irr n = (lineSet s.picM.irr n || (decide (n = 2) && !lineSet s.picM.lastIrr 2))) ∧
        ∀ n, lineSet t.picM.lastIrr n = (lineSet s.picM.lastIrr n && decide (n ≠ 2))) ∧
      (getIrq .slave t.picS = none → t.picM = s.picM) ∧
      t.trace = s.trace ++ if getIrq .master t.picM = none then [] else [.raiseInterrupt]

/-- `cpu_get_interrupt` (R205, R206), by a CPU that does not call back inside a notification: it always completes; a
deliverable master line other than 2 is acknowledged and gives the master's vector; line 2 resolves through the slave, to
a slave line or to the slave's spurious vector; with nothing deliverable the master's spurious vector comes with nothing
acknowledged. A recomputation follows each. -/
def Obligations.AcknowledgeGivesVector : Prop :=
  ∀ s : State, s.CpuConforms →
    (getIrq .master s.picM = none → ∃ t, s.Recomputed t ∧
      exec .inta s = .next { t with result := .byte (s.picM.irqBase + 7) }) ∧
    (∀ m, getIrq .master s.picM = some m → m ≠ 2 → ∃ q t, s.picM.Acknowledged q m ∧
      ({ s with picM := q } : State).Recomputed t ∧
      exec .inta s = .next { t with result := .byte (s.picM.irqBase + m.setWidth 8) }) ∧
    (getIrq .master s.picM = some 2 → ∀ j, getIrq .slave s.picS = some j → ∃ q r t,
      s.picM.Acknowledged q 2 ∧ s.picS.Acknowledged r j ∧
      ({ s with picM := q, picS := r } : State).Recomputed t ∧
      exec .inta s = .next { t with result := .byte (s.picS.irqBase + j.setWidth 8) }) ∧
    (getIrq .master s.picM = some 2 → getIrq .slave s.picS = none → ∃ q t, s.picM.Acknowledged q 2 ∧
      ({ s with picM := q } : State).Recomputed t ∧
      exec .inta s = .next { t with result := .byte (s.picS.irqBase + 7) })

/-- A vector that is not one of the two spurious ones is that of a line that was requested and not masked (R228). -/
def Obligations.VectorIsUnmaskedOrSpurious : Prop :=
  ∀ s t : State, ∀ v : Byte, exec .inta s = .next t → t.result = .byte v →
    (∃ e n, v = (s.pic e).irqBase + n.setWidth 8 ∧ lineSet (s.pic e).irr n = true ∧
      lineSet (s.pic e).imr n = false) ∨
    ∃ e, v = (s.pic e).irqBase + 7

/-- The cascade property (R229): with nothing requested or in service, the slave's line j and the master's line 2
unmasked, raising line 8 + j requests master line 2 and tells the CPU once; the CPU's acknowledge then gives the slave's
vector of j, leaves both lines in service, and pulses line 2 no second time. The CPU does not call back inside a
notification (R95). -/
def Obligations.SlaveLineReachesCpu : Prop :=
  ∀ (s : State) (j : Line), s.CpuConforms → s.picM.irr = 0 → s.picS.irr = 0 → s.picM.isr = 0 → s.picS.isr = 0 →
    lineSet s.picM.imr 2 = false → lineSet s.picS.imr j = false → lineSet s.picM.lastIrr 2 = false →
    lineSet s.picS.lastIrr j = false → s.picM.autoEoi = false → s.picS.autoEoi = false →
    (s.pic .master).Inv .master →
    ∃ t u, exec (.irq (8 + j.toNat) 1) s = .next t ∧ exec .inta t = .next u ∧
      t.trace = s.trace ++ [.raiseInterrupt] ∧ t.picM.irr = setLineBit 0 2 ∧
      u.result = .byte (s.picS.irqBase + j.setWidth 8) ∧ u.trace = t.trace ∧
      u.picM.isr = setLineBit 0 2 ∧ u.picS.isr = setLineBit 0 j ∧ u.picM.irr = 0

/-! ## PIC: the command port -/

/-- ICW1 (R207, R208): the element is reset but for its ELCR, `ClearInterrupt` is emitted, and ICW2 is expected. The CPU
does not call back inside a notification (R95). -/
def Obligations.Icw1StartsInitialization : Prop :=
  ∀ (s : State) (e : Elem) (ic4 : Bool), s.CpuConforms →
    ∃ t, exec (.picIcw1 e ic4) s = .next t ∧
      t.pic e = { PicElement.reset with elcr := (s.pic e).elcr, initState := .icw2, fourByteInit := ic4 } ∧
      (∀ e', e' ≠ e → t.pic e' = s.pic e') ∧ t.trace = s.trace ++ [.clearInterrupt] ∧ t.result = s.result ∧
      s.OnlyPic t

/-- OCW3 (R209), OCW2 commands 0 and 4 (R210, R214): each sets the flags it names and nothing else, with no
recomputation; OCW2 command 2 changes nothing at all (R212). -/
def Obligations.PicFlagCommandsSetFlags : Prop :=
  ∀ (s : State) (e : Elem),
    (∀ esmm smm p rr ris, ∃ t, exec (.picOcw3 e esmm smm p rr ris) s = .next t ∧
      t.pic e = { s.pic e with
        readRegisterSelect := (rr && ris) || (!rr && (s.pic e).readRegisterSelect)
        poll := p || (s.pic e).poll
        specialMask := (esmm && smm) || (!esmm && (s.pic e).specialMask) } ∧
      (∀ e', e' ≠ e → t.pic e' = s.pic e') ∧ t.trace = s.trace ∧ t.result = s.result ∧ s.OnlyPic t) ∧
    (∃ t, exec (.picOcw2RotateAeoiClear e) s = .next t ∧
      t.pic e = { s.pic e with rotateOnAutoEoi := false } ∧
      (∀ e', e' ≠ e → t.pic e' = s.pic e') ∧ t.trace = s.trace ∧ t.result = s.result ∧ s.OnlyPic t) ∧
    (∃ t, exec (.picOcw2RotateAeoiSet e) s = .next t ∧
      t.pic e = { s.pic e with rotateOnAutoEoi := true } ∧
      (∀ e', e' ≠ e → t.pic e' = s.pic e') ∧ t.trace = s.trace ∧ t.result = s.result ∧ s.OnlyPic t) ∧
    exec (.picOcw2Nop e) s = .next s

/-- The non-specific EOI, plain and rotating (R211, R215): the in-service line of the highest priority is ended, made
the lowest by the rotating one, and a recomputation follows; with nothing in service nothing happens at all. The CPU
does not call back inside a notification (R95). -/
def Obligations.NonSpecificEoiEndsHighestLine : Prop :=
  ∀ (s : State) (e : Elem),
    (∀ n, s.CpuConforms → (s.pic e).HighestInService n →
      (∃ t, exec (.picOcw2Eoi e) s = .next t ∧
        (s.setPic e { s.pic e with isr := clearLineBit (s.pic e).isr n }).Recomputed t) ∧
      ∃ t, exec (.picOcw2RotateEoi e) s = .next t ∧
        (s.setPic e { s.pic e with isr := clearLineBit (s.pic e).isr n, priorityAdd := n + 1 }).Recomputed t) ∧
    ((s.pic e).isr = 0 → exec (.picOcw2Eoi e) s = .next s ∧ exec (.picOcw2RotateEoi e) s = .next s)

/-- The specific EOI, set priority, and the rotating specific EOI (R213, R216, R217): line L is ended, or made the
lowest priority, or both, and a recomputation follows. The CPU does not call back inside a notification (R95). -/
def Obligations.SpecificEoiAndRotation : Prop :=
  ∀ (s : State) (e : Elem) (l : Line), s.CpuConforms →
    (∃ t, exec (.picOcw2SpecificEoi e l) s = .next t ∧
      (s.setPic e { s.pic e with isr := clearLineBit (s.pic e).isr l }).Recomputed t) ∧
    (∃ t, exec (.picOcw2SetPriority e l) s = .next t ∧
      (s.setPic e { s.pic e with priorityAdd := l + 1 }).Recomputed t) ∧
    ∃ t, exec (.picOcw2RotateSpecificEoi e l) s = .next t ∧
      (s.setPic e { s.pic e with isr := clearLineBit (s.pic e).isr l, priorityAdd := l + 1 }).Recomputed t

/-! ## PIC: the data port and the reads -/

/-- OCW1 writes the mask and recomputes (R218). The CPU does not call back inside a notification (R95). -/
def Obligations.MaskWriteRecomputes : Prop :=
  ∀ (s : State) (e : Elem) (d : Byte), s.CpuConforms →
    ∃ t, exec (.picOcw1 e d) s = .next t ∧ (s.setPic e { s.pic e with imr := d }).Recomputed t

/-- ICW2, ICW3 and ICW4 (R219, R220, R221): the vector base with its low three bits 0, the cursor, the two flags of
ICW4, and no recomputation. -/
def Obligations.InitializationWordsAdvance : Prop :=
  ∀ (s : State) (e : Elem),
    (∀ base : BitVec 5, ∃ t, exec (.picIcw2 e base) s = .next t ∧
      t.pic e = { s.pic e with irqBase := base ++ (0 : BitVec 3), initState := .icw3 } ∧
      (∀ e', e' ≠ e → t.pic e' = s.pic e') ∧ t.trace = s.trace ∧ t.result = s.result ∧ s.OnlyPic t) ∧
    (∃ t, exec (.picIcw3 e) s = .next t ∧
      t.pic e = { s.pic e with initState := if (s.pic e).fourByteInit = true then .icw4 else .normal } ∧
      (∀ e', e' ≠ e → t.pic e' = s.pic e') ∧ t.trace = s.trace ∧ t.result = s.result ∧ s.OnlyPic t) ∧
    ∀ sfnm aeoi, ∃ t, exec (.picIcw4 e sfnm aeoi) s = .next t ∧
      t.pic e = { s.pic e with specialFullyNested := sfnm, autoEoi := aeoi, initState := .normal } ∧
      (∀ e', e' ≠ e → t.pic e' = s.pic e') ∧ t.trace = s.trace ∧ t.result = s.result ∧ s.OnlyPic t

/-- The IRR, ISR, IMR and ELCR reads return their register and change nothing else (R222, R223, R224, R227); the ELCR
write keeps the bits of its mask, and does not recompute (R226). -/
def Obligations.PicRegisterAccess : Prop :=
  ∀ (s : State) (e : Elem),
    (∃ t, exec (.picIrrRead e) s = .next t ∧ t.result = .byte (s.pic e).irr ∧ t.trace = s.trace ∧ s.OnlyAnswer t) ∧
    (∃ t, exec (.picIsrRead e) s = .next t ∧ t.result = .byte (s.pic e).isr ∧ t.trace = s.trace ∧ s.OnlyAnswer t) ∧
    (∃ t, exec (.picImrRead e) s = .next t ∧ t.result = .byte (s.pic e).imr ∧ t.trace = s.trace ∧ s.OnlyAnswer t) ∧
    (∃ t, exec (.picElcrRead e) s = .next t ∧ t.result = .byte (s.pic e).elcr ∧ t.trace = s.trace ∧ s.OnlyAnswer t) ∧
    ∀ d : Byte, ∃ t, exec (.picElcrWrite e d) s = .next t ∧
      t.pic e = { s.pic e with elcr := d &&& (match e with | .master => 0xF8 | .slave => 0xDE) } ∧
      (∀ e', e' ≠ e → t.pic e' = s.pic e') ∧ t.trace = s.trace ∧ t.result = s.result ∧ s.OnlyPic t

/-- The poll read, through either port (R225): 0x07 with nothing deliverable; else the line, whose request and service
bits are cleared, on the slave with master line 2's; a recomputation follows, but for the master's line 2. The CPU does
not call back inside a notification (R95). -/
def Obligations.PollReadReturnsLine : Prop :=
  ∀ (s : State) (e : Elem) (port : PicPort), s.CpuConforms →
    (getIrq e (s.pic e) = none → ∃ t, (s.setPic e { s.pic e with poll := false }).Recomputed t ∧
      exec (.picPollRead e port) s = .next { t with result := .byte 0x07 }) ∧
    (∀ n, getIrq e (s.pic e) = some n →
      let p : PicElement :=
        { s.pic e with poll := false, irr := clearLineBit (s.pic e).irr n, isr := clearLineBit (s.pic e).isr n }
      (e = .master → n = 2 →
        exec (.picPollRead e port) s = .next { s with picM := p, result := .byte 2 }) ∧
      (e = .master → n ≠ 2 → ∃ t, ({ s with picM := p } : State).Recomputed t ∧
        exec (.picPollRead e port) s = .next { t with result := .byte (n.setWidth 8) }) ∧
      (e = .slave → ∃ t,
        ({ s with
          picS := p
          picM := { s.picM with irr := clearLineBit s.picM.irr 2, isr := clearLineBit s.picM.isr 2 } } : State).Recomputed
            t ∧
        exec (.picPollRead e port) s = .next { t with result := .byte (n.setWidth 8) }))

/-! ## PIT: counting -/

/-- The live count and the output of a channel `d` PIT clocks after its start (R261, R262): in modes 0, 1, 4 and 5 the
count goes down by one a clock and wraps past zero, in mode 2 it starts again every N clocks, in mode 3 it goes down
by two; all mod 2^16. The output by mode is that of R262. -/
def Obligations.CountAndOutputByMode : Prop :=
  ∀ (c : PitChannel) (now : Nat), 1 ≤ c.countValue →
    let d := (now - c.countStartTime) * 1193182 / 1000000000
    let n := c.countValue
    ((getCount c now).toNat : Int) =
      (match c.mode with
        | .m0 | .m1 | .m4 | .m5 => (n - d : Int) % 65536
        | .m3 => (n - (2 * d % n : Nat) : Int) % 65536
        | .m2 => (n - (d % n : Nat) : Int) % 65536) ∧
    (c.outAt now = true ↔
      match c.mode with
        | .m0 => n ≤ d
        | .m1 => d < n
        | .m2 => 0 < d ∧ n ∣ d
        | .m3 => d % n < (n + 1) / 2
        | .m4 | .m5 => d = n)

/-- `next_flip` is the least later PIT clock at which the output differs from now's; it is none exactly when there is no
such clock (R263). -/
def Obligations.NextFlipIsFirstChange : Prop :=
  ∀ (mode : PitMode) (n d : Nat), 1 ≤ n →
    (∀ d', nextFlip mode n d = some d' → d < d' ∧ outAfter mode n d' ≠ outAfter mode n d ∧
      ∀ x, d < x → x < d' → outAfter mode n x = outAfter mode n d) ∧
    (nextFlip mode n d = none → ∀ x, d < x → outAfter mode n x = outAfter mode n d)

/-- The next transition time lies strictly after the time it is computed at and below 2^64; the output does not change
before it, and has changed at it or one tick later, the rounding of R441; where there is none the output does not change
at any later 64-bit time (R264, R287). -/
def Obligations.NextTransitionIsFirstChange : Prop :=
  ∀ (c : PitChannel) (t : Nat), 1 ≤ c.countValue → c.countStartTime ≤ t →
    (∀ u, nextTransition c t = some u →
      t < u ∧ u < 2 ^ 64 ∧ (∀ x, t ≤ x → x < u → c.outAt x = c.outAt t) ∧
      (c.outAt u ≠ c.outAt t ∨ c.outAt (u + 1) ≠ c.outAt t)) ∧
    (nextTransition c t = none → ∀ x, t ≤ x → x < 2 ^ 64 → c.outAt x = c.outAt t)

/-! ## PIT: loading and scheduling -/

/-- The four counter writes (R265, R266, R272 to R275): an LSB-only byte b loads b, an MSB-only byte b << 8, the second
byte of a pair both bytes, and 0 loads 0x10000; counting starts now; channel 0 drives PIC line 0 with its level and
schedules its first transition. The first byte of a pair is only held. The CPU does not call back inside a notification
(R95). -/
def Obligations.CounterWritesLoadCount : Prop :=
  ∀ (s : State) (c : PitChan) (b : Byte), s.QueueInv → s.CpuConforms → 0 < s.timers.length →
    let load (n : Nat) : PitChannel := { s.pit c with countValue := n, countStartTime := s.currentTime }
    let restart (t : State) (n : Nat) : Prop :=
      s.Restarted t c (load n) (startLevel (s.pit c).mode) (firstTransition (s.pit c).mode n s.currentTime)
    (∃ t, exec (.pitWriteLsb c b) s = .next t ∧ restart t (if b = 0 then 0x10000 else b.toNat)) ∧
    (∃ t, exec (.pitWriteMsb c b) s = .next t ∧ restart t (if b = 0 then 0x10000 else 256 * b.toNat)) ∧
    (∃ t, exec (.pitWriteWord0 c b) s = .next t ∧
      t.pit c = { s.pit c with inputLatch := b, writeState := .word1 } ∧ (∀ c', c' ≠ c → t.pit c' = s.pit c') ∧
      t.pitNext = s.pitNext ∧ t.trace = s.trace ∧ t.result = s.result ∧ s.OnlyPit t) ∧
    ∃ t, restart t (if b = 0 ∧ (s.pit c).inputLatch = 0 then 0x10000
        else (s.pit c).inputLatch.toNat + 256 * b.toNat) ∧
      exec (.pitWriteWord1 c b) s = .next (t.setPit c { t.pit c with writeState := .word0 })

/-- `set_gate` (R285): a rising edge in modes 1, 2, 3 and 5 restarts counting with the count it has; in every other case
only the level is stored. The CPU does not call back inside a notification (R95). -/
def Obligations.GateEdgeRestartsCounting : Prop :=
  ∀ (s : State) (c : PitChan) (channel level : Nat), s.QueueInv → s.CpuConforms → 0 < s.timers.length →
    1 ≤ (s.pit c).countValue → pitChan? channel = some c → level ≤ 1 →
    let rising := ((s.pit c).mode ≠ .m0 ∧ (s.pit c).mode ≠ .m4) ∧ (s.pit c).gate = false ∧ level = 1
    (rising → ∃ t, s.Restarted t c { s.pit c with countStartTime := s.currentTime } (startLevel (s.pit c).mode)
        (firstTransition (s.pit c).mode (s.pit c).countValue s.currentTime) ∧
      exec (.gate channel level) s = .next (t.setPit c { t.pit c with gate := true })) ∧
    (¬rising → exec (.gate channel level) s = .next (s.setPit c { s.pit c with gate := level == 1 }))

/-! ## PIT: the control port and the reads -/

/-- A control word sets the access mode, both byte states, the counting mode (6 and 7 are 2 and 3) and BCD, and nothing
else: no load, no restart, no latch is touched (R268, C6). -/
def Obligations.ControlWordSetsModes : Prop :=
  ∀ (s : State) (c : PitChan) (m : BitVec 3) (bcd : Bool) (rw : RwMode) (b : ByteState) (i : Instr),
    (rw = .lsb ∧ b = .lsb ∧ i = .pitControlLsb c m bcd) ∨ (rw = .msb ∧ b = .msb ∧ i = .pitControlMsb c m bcd) ∨
      (rw = .word ∧ b = .word0 ∧ i = .pitControlWord c m bcd) →
    ∃ t, exec i s = .next t ∧
      t.pit c = { s.pit c with
        rwMode := rw, readState := b, writeState := b, bcd := bcd
        mode := if m = 0 then .m0 else if m = 1 then .m1 else if m = 2 ∨ m = 6 then .m2
          else if m = 3 ∨ m = 7 then .m3 else if m = 4 then .m4 else .m5 } ∧
      (∀ c', c' ≠ c → t.pit c' = s.pit c') ∧ t.pitNext = s.pitNext ∧ t.trace = s.trace ∧ t.result = s.result ∧
      s.OnlyPit t

/-- The counter latch command and the readback command (R269, R270, R271): a selected channel without a pending latched
count latches the live count under its access mode, and without a pending status latches the status byte, all at the
same time; what is pending is kept; nothing else changes. -/
def Obligations.LatchCommandsLatch : Prop :=
  ∀ s : State,
    let count (p : PitChannel) : PitChannel :=
      if p.countLatched = .none then
        { p with
          outputLatch := getCount p s.currentTime
          countLatched := match p.rwMode with | .lsb => .lsb | .msb => .msb | .word => .word0 }
      else p
    let status (p : PitChannel) : PitChannel :=
      if p.statusLatched = true then p
      else { p with status := statusByte p s.currentTime, statusLatched := true }
    (∀ c, ∃ t, exec (.pitLatch c) s = .next t ∧ t.pit c = count (s.pit c) ∧ (∀ c', c' ≠ c → t.pit c' = s.pit c') ∧
      t.pitNext = s.pitNext ∧ t.trace = s.trace ∧ t.result = s.result ∧ s.OnlyPit t) ∧
    ∀ (cnt st : Bool) (sel : PitChan → Bool),
      ∃ t, exec (.pitReadback cnt st (sel .c0) (sel .c1) (sel .c2)) s = .next t ∧
        (∀ c, t.pit c =
          let counted := if cnt then count (s.pit c) else s.pit c
          if sel c then (if st then status counted else counted) else s.pit c) ∧
        t.pitNext = s.pitNext ∧ t.trace = s.trace ∧ t.result = s.result ∧ s.OnlyPit t

/-- The bits of a status byte (R117): the output at the time, null count 0, the access mode, the counting mode, BCD. -/
def Obligations.StatusByteFields : Prop :=
  ∀ (c : PitChannel) (now : Nat),
    (statusByte c now).getLsbD 7 = c.outAt now ∧ (statusByte c now).getLsbD 6 = false ∧
    ((statusByte c now).extractLsb' 4 2).toNat = (match c.rwMode with | .lsb => 1 | .msb => 2 | .word => 3) ∧
    ((statusByte c now).extractLsb' 1 3).toNat =
      (match c.mode with | .m0 => 0 | .m1 => 1 | .m2 => 2 | .m3 => 3 | .m4 => 4 | .m5 => 5) ∧
    (statusByte c now).getLsbD 0 = c.bcd

/-- Reads of what is latched (R276 to R279): the status byte first, then the latched count by its latch mode, low byte
before high byte; each consumes what it returns and changes nothing else. -/
def Obligations.LatchedReadsConsume : Prop :=
  ∀ (s : State) (c : PitChan) (i : Instr) (v : Byte) (p : PitChannel),
    let o := s.pit c
    (i = .pitReadStatus c ∧ v = o.status ∧ p = { o with statusLatched := false }) ∨
      (i = .pitReadLatchedLsb c ∧ v = o.outputLatch.extractLsb' 0 8 ∧ p = { o with countLatched := .none }) ∨
      (i = .pitReadLatchedMsb c ∧ v = o.outputLatch.extractLsb' 8 8 ∧ p = { o with countLatched := .none }) ∨
      (i = .pitReadLatchedWord0 c ∧ v = o.outputLatch.extractLsb' 0 8 ∧ p = { o with countLatched := .msb }) →
    ∃ t, exec i s = .next t ∧ t.result = .byte v ∧ t.pit c = p ∧ (∀ c', c' ≠ c → t.pit c' = s.pit c') ∧
      t.pitNext = s.pitNext ∧ t.trace = s.trace ∧ s.OnlyPit t

/-- Live reads (R280 to R283): the low or the high byte of the count at this read's time; in the word states the read
state alternates; nothing else changes. -/
def Obligations.LiveReadsReturnCount : Prop :=
  ∀ (s : State) (c : PitChan) (i : Instr) (v : Byte) (p : PitChannel),
    let n := getCount (s.pit c) s.currentTime
    (i = .pitReadLiveLsb c ∧ v = n.extractLsb' 0 8 ∧ p = s.pit c) ∨
      (i = .pitReadLiveMsb c ∧ v = n.extractLsb' 8 8 ∧ p = s.pit c) ∨
      (i = .pitReadLiveWord0 c ∧ v = n.extractLsb' 0 8 ∧ p = { s.pit c with readState := .word1 }) ∨
      (i = .pitReadLiveWord1 c ∧ v = n.extractLsb' 8 8 ∧ p = { s.pit c with readState := .word0 }) →
    ∃ t, exec i s = .next t ∧ t.result = .byte v ∧ t.pit c = p ∧ (∀ c', c' ≠ c → t.pit c' = s.pit c') ∧
      t.pitNext = s.pitNext ∧ t.trace = s.trace ∧ s.OnlyPit t

/-- A read of the control port returns some byte and changes no state of the block (R284); `get_out` returns the output
level now and changes nothing (R286). At the control port only the model's count of free values moves (log entry 8). -/
def Obligations.ControlReadAndOutputQuery : Prop :=
  ∀ s : State,
    (∃ t v, exec .pitControlRead s = .next t ∧ t.result = .byte v ∧ t.trace = s.trace ∧ s.SamePic t ∧ s.SamePit t ∧
      s.SameTime t ∧ s.SameDma t ∧ s.SameMemory t ∧ t.calls = s.calls ∧ t.deviceReplies = s.deviceReplies ∧
      t.expiryReplies = s.expiryReplies) ∧
    ∀ c channel, pitChan? channel = some c → ∃ t, exec (.getOut channel) s = .next t ∧
      t.result = .level ((s.pit c).outAt s.currentTime) ∧ t.trace = s.trace ∧ s.OnlyAnswer t

/-! ## Time -/

/-- `time_passes` completes when the callbacks and the CPU keep their contract: time moves by delta, every timer left in
the queue is in the future, and the counts of the PIT, the DMA controllers and memory are as before (R158, R160). What the callbacks
call stands in the model's list of replies (log entry 7). -/
def Obligations.TimePassesDrains : Prop :=
  ∀ (s : State) (delta : Int), 0 ≤ delta → delta < 2 ^ 32 → s.currentTime + delta < 2 ^ 64 → s.QueueInv →
    s.CallbacksConform → s.CpuConforms →
    ∃ t, exec (.tick delta) s = .next t ∧ (t.currentTime : Int) = s.currentTime + delta ∧ t.NoneDue ∧ t.QueueInv ∧
      (∀ c, t.pit c = s.pit c) ∧ s.SameDma t ∧ s.SameMemory t ∧ t.calls = s.calls ∧
      t.deviceReplies = s.deviceReplies ∧ t.freeCount = s.freeCount ∧ t.result = s.result ∧ s.CpuAnswered t

/-- Timers fire in the order of the queue, ascending expiry with ties in the order of their offers (R159, R161): when
every due timer is another device's and no callback calls in, the due ones at the front are told in order, disabled and
gone from the queue, and the others stay. What the callbacks call stands in the model's list of replies (log entry 7).
The PIT's own timer (R267): its callback drives PIC line 0 with the level at the stored transition time, not at the
current one, and schedules the transition after that time; here no other timer is due, and the new one is not. The CPU
does not call back inside a notification (R95). -/
def Obligations.TimersFireInQueueOrder : Prop :=
  ∀ (s : State) (delta : Int), 0 ≤ delta → delta < 2 ^ 32 → s.currentTime + delta < 2 ^ 64 → s.QueueInv →
    let now := s.currentTime + delta.toNat
    (s.expiryReplies = [] →
      (∀ u ∈ s.queue, s.expiryOf u ≤ now → ∃ r d, s.timers[u]? = some r ∧ r.target = .device d) →
      let fired := s.queue.takeWhile (s.dueBy now)
      ∃ t, exec (.tick delta) s = .next t ∧
        t.trace = s.trace ++ fired.map .expiry ∧ t.queue = s.queue.dropWhile (s.dueBy now) ∧
        (∀ u, t.timers[u]? = (s.timers[u]?).map fun r => if u ∈ fired then { r with enabled := false } else r) ∧
        s.SamePic t ∧ s.SamePit t) ∧
    ∀ (rest : List Nat) (r : Timer) (time : Nat), s.CpuConforms → s.queue = Config.pitTimer :: rest →
      s.timers[Config.pitTimer]? = some r → r.target = .pit0 → r.expiry ≤ now → (∀ u ∈ rest, now < s.expiryOf u) →
      s.pitNext = some time → (∀ x, nextTransition s.pit0 time = some x → now < x) →
      ∃ u t, ({ s with currentTime := now } : State).LineDriven u Config.pitIrqLine (s.pit0.outAt time) ∧
        u.PitScheduled t (nextTransition s.pit0 time) ∧ exec (.tick delta) s = .next t ∧
        t = { u with pitNext := t.pitNext, timers := t.timers, queue := t.queue }

/-- `update` with the mutation it goes with (R152 to R156): a re-armed timer stands behind every other one of equal or
smaller expiry and before every greater one; a disabled one leaves the queue; an unchanged one is offered again; the
other timers keep their records and their order. That the mutation is an operand of the call is the model's form (log
entry 13). -/
def Obligations.UpdatePlacesTimer : Prop :=
  ∀ (s : State) (timer : Nat), s.QueueInv → timer < s.timers.length →
    let placed (x : Nat) : List Nat :=
      s.queue.filter (fun u => decide (u ≠ timer) && decide (s.expiryOf u ≤ x)) ++
        timer :: s.queue.filter (fun u => decide (u ≠ timer) && decide (x < s.expiryOf u))
    (∀ x, x < 2 ^ 64 → ∃ t, exec (.update timer (.arm x)) s = .next t ∧ t.queue = placed x ∧
      (∀ u, t.timers[u]? = (s.timers[u]?).map fun r =>
        if u = timer then { r with expiry := x, enabled := true } else r) ∧
      t.trace = s.trace ∧ t.result = s.result ∧ s.OnlyTimers t) ∧
    (∃ t, exec (.update timer .disarm) s = .next t ∧ t.queue = s.queue.filter (· ≠ timer) ∧
      (∀ u, t.timers[u]? = (s.timers[u]?).map fun r => if u = timer then { r with enabled := false } else r) ∧
      t.trace = s.trace ∧ t.result = s.result ∧ s.OnlyTimers t) ∧
    ∃ t, exec (.update timer .keep) s = .next t ∧
      t.queue = (if s.timerEnabled timer = true then placed (s.expiryOf timer) else s.queue) ∧
      t.timers = s.timers ∧ t.trace = s.trace ∧ t.result = s.result ∧ s.OnlyTimers t

/-- `new_timer` makes a fresh timer, disabled, at expiry 0 and not queued, and returns it (R151); `get_time` returns the
time and changes nothing (R150); `ports_requested` returns the device's ports and changes nothing (R81). That a timer's
identity is its place in the list is the model's choice (log entry 20). -/
def Obligations.TimerAndQueryCalls : Prop :=
  ∀ s : State,
    (∀ target, ∃ t, exec (.newTimer target) s = .next t ∧ t.result = .timer s.timers.length ∧
      t.timers = s.timers ++ [{ target := target, expiry := 0, enabled := false }] ∧ t.queue = s.queue ∧
      t.trace = s.trace ∧ s.OnlyTimers t) ∧
    (∃ t, exec .getTime s = .next t ∧ t.result = .time s.currentTime ∧ t.trace = s.trace ∧ s.OnlyAnswer t) ∧
    ∀ d, ∃ t ps, exec (.portsRequested d) s = .next t ∧ t.result = .ports ps ∧ t.trace = s.trace ∧ s.OnlyAnswer t ∧
      ∀ p, p ∈ ps ↔ ∃ r, portReg p = some r ∧ r.device = d

/-- Only `time_passes` moves time (R412): every other instruction that completes leaves it, and `time_passes` moves it by
its delta. -/
def Obligations.OnlyTimePassesMovesTime : Prop :=
  ∀ (s t : State) (i : Instr), exec i s = .next t →
    (t.currentTime : Int) = s.currentTime + match i with
      | .tick delta => delta
      | _ => 0

/-! ## DMA: registers -/

/-- Base address and base count writes (R322, R323, R321): the byte the flip-flop selects is replaced; after the high
byte the block starts again, at the base address shifted by the controller's index and position 0; the flip-flop
toggles; no channel runs and nothing else changes. -/
def Obligations.DmaBaseWritesThroughFlipFlop : Prop :=
  ∀ (s : State) (k : DmaCtl) (i : DmaChan) (b : Byte),
    let ff := (s.dma k).flipFlop
    let put (h : Half) : Half := if ff then b ++ h.extractLsb' 0 8 else h.extractLsb' 8 8 ++ b
    let start (ch : DmaChannel) : DmaChannel :=
      if ff then
        { ch with
          currentAddress := BitVec.ofNat 32 (ch.baseAddress.toNat * 2 ^ Config.dShift k), currentWordCount := 0 }
      else ch
    (∃ t, exec (.dmaAddrWrite k i b) s = .next t ∧
      t.dma k = { (s.dma k).setCh i
        (start { s.chan k i with baseAddress := put (s.chan k i).baseAddress }) with flipFlop := !ff } ∧
      (∀ k', k' ≠ k → t.dma k' = s.dma k') ∧ t.trace = s.trace ∧ t.result = s.result ∧ s.OnlyDma t) ∧
    ∃ t, exec (.dmaCountWrite k i b) s = .next t ∧
      t.dma k = { (s.dma k).setCh i
        (start { s.chan k i with baseWordCount := put (s.chan k i).baseWordCount }) with flipFlop := !ff } ∧
      (∀ k', k' ≠ k → t.dma k' = s.dma k') ∧ t.trace = s.trace ∧ t.result = s.result ∧ s.OnlyDma t

/-- Current address and count reads (R324, R325): the address the transfer has reached and what is left of the count,
mod 2^32, in the controller's units, the byte the flip-flop selects; the flip-flop toggles and nothing else changes. -/
def Obligations.DmaCurrentReadsThroughFlipFlop : Prop :=
  ∀ (s : State) (k : DmaCtl) (i : DmaChan),
    let ff := (s.dma k).flipFlop
    let ch := s.chan k i
    let byteOf (v : Int) : Byte :=
      BitVec.ofNat 8 ((v % 2 ^ 32).toNat / 2 ^ (Config.dShift k + if ff then 8 else 0))
    (∃ t, exec (.dmaAddrRead k i) s = .next t ∧
      t.result = .byte (byteOf (if ch.mode.getLsbD 5 then ch.currentAddress.toNat - ch.currentWordCount.toNat
        else ch.currentAddress.toNat + ch.currentWordCount.toNat)) ∧
      t.dma k = { s.dma k with flipFlop := !ff } ∧ (∀ k', k' ≠ k → t.dma k' = s.dma k') ∧
      t.trace = s.trace ∧ s.OnlyDma t) ∧
    ∃ t, exec (.dmaCountRead k i) s = .next t ∧
      t.result = .byte (byteOf (ch.baseWordCount.toNat * 2 ^ Config.dShift k - ch.currentWordCount.toNat)) ∧
      t.dma k = { s.dma k with flipFlop := !ff } ∧ (∀ k', k' ≠ k → t.dma k' = s.dma k') ∧
      t.trace = s.trace ∧ s.OnlyDma t

/-- The controller writes that run no channel (R326, R328, R329, R330, R331): 0x00 and 0x04 are stored as the command and
any other value is ignored; a mask bit is set; the mode byte goes to the channel it selects; the flip-flop is cleared;
master clear gives flip-flop 0, mask 0x0F, status 0x00 and command 0x00. Nothing else changes. -/
def Obligations.DmaControlWrites : Prop :=
  ∀ (s : State) (k : DmaCtl) (i : Instr) (d : DmaController),
    (∃ v, i = .dmaCommand k v ∧ d = if v = 0x00 ∨ v = 0x04 then { s.dma k with command := v } else s.dma k) ∨
      (∃ ch, i = .dmaSingleMask k ch true ∧
        d = { s.dma k with mask := d.mask } ∧
        ∀ j : DmaChan, d.mask.getLsbD j.val = ((s.dma k).mask.getLsbD j.val || decide (j = ch))) ∨
      (∃ (v : Byte) (ch : DmaChan), i = .dmaMode k v ∧ ch.val = v.toNat % 4 ∧
        d = (s.dma k).setCh ch { s.chan k ch with mode := v }) ∨
      (i = .dmaClearFlipFlop k ∧ d = { s.dma k with flipFlop := false }) ∨
      (i = .dmaMasterClear k ∧ d = { s.dma k with flipFlop := false, mask := 0xF, status := 0x00, command := 0x00 }) →
    ∃ t, exec i s = .next t ∧ t.dma k = d ∧ (∀ k', k' ≠ k → t.dma k' = s.dma k') ∧ t.trace = s.trace ∧
      t.result = s.result ∧ s.OnlyDma t

/-- The controller reads (R334, R335, R336): the status, whose terminal-count bits are cleared; the mask; 0x00 from the
registers 9 to 14. Nothing else changes. -/
def Obligations.DmaControlReads : Prop :=
  ∀ (s : State) (k : DmaCtl),
    (∃ t, exec (.dmaStatusRead k) s = .next t ∧ t.result = .byte (s.dma k).status ∧
      t.dma k = { s.dma k with status := (s.dma k).status &&& 0xF0 } ∧ (∀ k', k' ≠ k → t.dma k' = s.dma k') ∧
      t.trace = s.trace ∧ s.OnlyDma t) ∧
    (∃ t, exec (.dmaMaskRead k) s = .next t ∧ t.result = .byte ((0 : BitVec 4) ++ (s.dma k).mask) ∧
      t.trace = s.trace ∧ s.OnlyAnswer t) ∧
    ∀ r, ∃ t, exec (.dmaOtherRead k r) s = .next t ∧ t.result = .byte 0x00 ∧ t.trace = s.trace ∧ s.OnlyAnswer t

/-- The page registers are stored and returned, and drive nothing (R338, R339, R340). -/
def Obligations.DmaPageRegisters : Prop :=
  ∀ (s : State) (k : DmaCtl) (i : DmaChan) (b : Byte),
    (∃ t, exec (.dmaPageLowWrite k i b) s = .next t ∧
      t.dma k = (s.dma k).setCh i { s.chan k i with pageLow := b } ∧ (∀ k', k' ≠ k → t.dma k' = s.dma k') ∧
      t.trace = s.trace ∧ t.result = s.result ∧ s.OnlyDma t) ∧
    (∃ t, exec (.dmaPageHighWrite k i b) s = .next t ∧
      t.dma k = (s.dma k).setCh i { s.chan k i with pageHigh := b } ∧ (∀ k', k' ≠ k → t.dma k' = s.dma k') ∧
      t.trace = s.trace ∧ t.result = s.result ∧ s.OnlyDma t) ∧
    (∃ t, exec (.dmaPageRead k .low i) s = .next t ∧ t.result = .byte (s.chan k i).pageLow ∧ t.trace = s.trace ∧
      s.OnlyAnswer t) ∧
    ∃ t, exec (.dmaPageRead k .high i) s = .next t ∧ t.result = .byte (s.chan k i).pageHigh ∧ t.trace = s.trace ∧
      s.OnlyAnswer t

/-- `release_dma_request`, `register_channel` and `get_channel_mode` of a channel 0..7 (R342, R345, R346): the request
bit is cleared, the device is stored, the mode byte is returned, and nothing else changes. -/
def Obligations.DmaChannelCalls : Prop :=
  ∀ (s : State) (k : DmaCtl) (i : DmaChan) (n : Nat), n = 4 * Config.dShift k + i.val →
    (∃ t, exec (.drel n) s = .next t ∧ t.dma k = { s.dma k with status := (t.dma k).status } ∧
      (∀ j, j < 8 → (t.dma k).status.getLsbD j = ((s.dma k).status.getLsbD j && decide (j ≠ 4 + i.val))) ∧
      (∀ k', k' ≠ k → t.dma k' = s.dma k') ∧ t.trace = s.trace ∧ t.result = s.result ∧ s.OnlyDma t) ∧
    (∀ device, ∃ t, exec (.reg n device) s = .next t ∧
      t.dma k = (s.dma k).setCh i { s.chan k i with device := some device } ∧
      (∀ k', k' ≠ k → t.dma k' = s.dma k') ∧ t.trace = s.trace ∧ t.result = s.result ∧ s.OnlyDma t) ∧
    ∃ t, exec (.getChannelMode n) s = .next t ∧ t.result = .byte (s.chan k i).mode ∧ t.trace = s.trace ∧
      s.OnlyAnswer t

/-! ## DMA: transfers -/

/-- The writes and the call that re-evaluate a controller complete when the transfer devices and the CPU keep their
contract (R327, R328, R332, R333, R341, R343, R347): the request and mask bits are set first; the pass then leaves the PIT, time, the
timers and every register but request bits and positions, leaves the PIC when no device drives a line, and leaves every
byte of memory when no device writes it. What the devices do stands in the model's list of replies (log entry 6). -/
def Obligations.DmaPassCompletes : Prop :=
  ∀ (s : State) (k : DmaCtl) (i : Instr) (d : DmaController), s.DevicesConform → s.CpuConforms → s.Reevaluates k i d →
    ∃ t, exec i s = .next t ∧ t.DevicesConform ∧ t.CpuConforms ∧ (s.setDma k d).PassLeaves t ∧
      ((s.setDma k d).requestedChannels k = [] → t = s.setDma k d) ∧
      (s.NoDeviceWrites → s.SameMemory t) ∧ (s.NoDeviceLines → s.SamePic t)

/-- One run of a channel (R344, R347, R348): a request whose controller has no other channel to run. Incomplete, it calls
its device at its position with its threshold; the calls that the device makes each run their own rule at once, whatever
channel a copy names (log entry 27); then the position returned is stored, or 0 if that completes an auto-initialize
block. Complete, it wraps to 0 in auto-initialize mode and is else skipped, the device not called; without a device it is
skipped. What the device does stands in the model's list of replies (log entry 6), what its calls return in the model's
own field (log entry 11), and the place of the event is the model's reading (log entry 15). -/
def Obligations.DmaChannelRun : Prop :=
  ∀ (s : State) (k : DmaCtl) (ch : DmaChan),
    let held := s.setDma k { s.dma k with status := (s.dma k).status ||| requestBit ch }
    let size := ((s.chan k ch).baseWordCount.toNat + 1) * 2 ^ Config.dShift k
    let position := (s.chan k ch).currentWordCount.toNat
    let n := 4 * Config.dShift k + ch.val
    held.requestedChannels k = [ch] →
    (position < size → ∀ device calls p rest u, (s.chan k ch).device = some device →
      s.deviceReplies = { calls := calls, newPosition := p } :: rest →
      DeviceCallsRun { held with deviceReplies := rest } calls u →
      let told : State := { u with trace := u.trace ++ [.handleTransfer n position size p] }
      (0 ≤ p → p < 2 ^ 32 → ∀ w : Long,
        w.toNat = (if (size : Int) ≤ p ∧ (u.chan k ch).mode.getLsbD 4 = true then 0 else p.toNat) →
        exec (.dreq n) s = .next (told.setChan k ch { u.chan k ch with currentWordCount := w })) ∧
      (p < 0 ∨ 2 ^ 32 ≤ p → exec (.dreq n) s = .fault (.transferPosition n p told.trace))) ∧
    (size ≤ position → (s.chan k ch).mode.getLsbD 4 = true →
      exec (.dreq n) s = .next (held.setChan k ch { s.chan k ch with currentWordCount := 0 })) ∧
    (size ≤ position → (s.chan k ch).mode.getLsbD 4 = false → exec (.dreq n) s = .next held) ∧
    (position < size → (s.chan k ch).device = none → exec (.dreq n) s = .next held)

/-- A pass runs the requested channels in ascending order (R343, R408), whichever write or call brought it (R327, R328,
R332, R333, R341): with every one of them incomplete and its device answering without calls, the events are those of the
channels in that order, each with its own position and threshold. The answers stand in the model's list of replies (log
entry 6). -/
def Obligations.DmaPassAscends : Prop :=
  ∀ (s : State) (k : DmaCtl) (i : Instr) (d : DmaController) (replies rest : List DeviceReply), s.Reevaluates k i d →
    let order := (s.setDma k d).requestedChannels k
    s.deviceReplies = replies ++ rest → replies.length = order.length →
    (∀ r ∈ replies, r.calls = [] ∧ 0 ≤ r.newPosition ∧ r.newPosition < 2 ^ 32) →
    (∀ ch ∈ order, (s.chan k ch).device ≠ none ∧ ¬s.channelComplete k ch) →
    ∃ t, exec i s = .next t ∧ t.deviceReplies = rest ∧
      t.trace = s.trace ++ List.zipWith (fun ch r => Event.handleTransfer (globalChannel k ch)
        (s.chan k ch).currentWordCount.toNat (threshold k (s.chan k ch)) r.newPosition) order replies

/-- A call made where it is not admitted stops the step, with the events before it on record (R95, CV6): any call but the
six of R347, in a transfer device's handler, after the calls it may have made before; any call but the three that the
model admits in another device's timer callback (log entry 7); and any call of the CPU inside a notification, in whatever
access or call that runs no device, no timer and no second access (log entry 18). What the devices, the callbacks and the
CPU do stands in the model's lists (log entries 6, 7 and 18), and that the event of an expiry comes before what its
callback calls is the model's reading (log entry 15). That the record of the stop keeps no value returned to the calls
made before is the model's choice (log entry 11). -/
def Obligations.NotAdmittedCallsFault : Prop :=
  ∀ (s : State) (c : Call),
    (∀ (k : DmaCtl) (ch : DmaChan) (device : Nat) (before after : List Call) (p : Int) (rest : List DeviceReply)
      (u : State),
      let held := s.setDma k { s.dma k with status := (s.dma k).status ||| requestBit ch }
      held.requestedChannels k = [ch] → (s.chan k ch).device = some device → ¬s.channelComplete k ch →
      s.deviceReplies = { calls := before ++ c :: after, newPosition := p } :: rest →
      DeviceCallsRun { held with deviceReplies := rest } before u → admittedInHandler c = false →
      exec (.dreq (globalChannel k ch)) s = .fault (.reentrantCall c u.trace)) ∧
    (∀ (delta : Int) (h device : Nat) (queue : List Nat) (r : Timer) (more : List Call) (rest : List (List Call)),
      0 ≤ delta → delta < 2 ^ 32 → s.currentTime + delta < 2 ^ 64 → s.queue = h :: queue →
      s.timers[h]? = some r → r.target = .device device → r.expiry ≤ s.currentTime + delta →
      s.expiryReplies = (c :: more) :: rest → admittedInCallback c = false →
      exec (.tick delta) s = .fault (.reentrantCall c (s.trace ++ [.expiry h]))) ∧
    ∀ (i : Instr) (t : State) (e : Event) (rest : List (Option Call)), atMostOneNotice i = true →
      s.cpuReplies = some c :: rest → exec i { s with cpuReplies := [] } = .next t → t.trace = s.trace ++ [e] →
      e.isNotice = true → exec i s = .fault (.reentrantCall c t.trace)

/-- The physical address of a copy (R88, R89, R90): the bitwise or of the page registers and the current address, plus
the position, or in decrement mode minus the position and the length, mod 2^32. -/
def Obligations.CopyAddressFromPages : Prop :=
  ∀ (ch : DmaChannel) (pos len : Int),
    let base : Nat := (ch.pageHigh.toNat * 2 ^ 24) ||| (ch.pageLow.toNat * 2 ^ 16) ||| ch.currentAddress.toNat
    (ch.mode.getLsbD 5 = false → (copyAddress ch pos len : Int) = (base + pos) % 2 ^ 32) ∧
    (ch.mode.getLsbD 5 = true → (copyAddress ch pos len : Int) = (base - pos - len) % 2 ^ 32)

/-- `write_memory` (R90): the bytes of the buffer's range, reversed in decrement mode, stand in memory from the copy's
address on; every other byte of memory reads as before; the buffer keeps its other bytes, and its range is left as
copied; the event and the length are given; nothing else changes. The model passes the buffer by value (log entry 10),
writes nothing past the last address (log entry 4), takes every address below 2^32 as a plain byte that reads what was
last written (log entry 5), and emits the event of a copy of no bytes too (log entry 15). -/
def Obligations.WriteMemoryStoresBuffer : Prop :=
  ∀ (s : State) (k : DmaCtl) (i : DmaChan) (buf : List Byte) (off pos len : Int),
    bufferRangeOk buf off pos len = true → Memory.wf s.memory = true →
    let addr := copyAddress (s.chan k i) pos len
    let range := (buf.drop off.toNat).take len.toNat
    let bytes := if (s.chan k i).mode.getLsbD 5 then range.reverse else range
    ∃ t buf', exec (.writeMemory (globalChannel k i) buf off pos len) s = .next t ∧
      t.result = .transfer len buf' ∧ t.trace = s.trace ++ [.memWrite addr bytes] ∧
      (∀ j b, bytes[j]? = some b → addr + j < 2 ^ 32 → Memory.read t.memory (addr + j) = b) ∧
      (∀ a, (a < addr ∨ addr + len.toNat ≤ a) → Memory.read t.memory a = Memory.read s.memory a) ∧
      (∀ j, buf'[j]? = if off.toNat ≤ j ∧ j < off.toNat + len.toNat then bytes[j - off.toNat]? else buf[j]?) ∧
      s.SamePic t ∧ s.SamePit t ∧ s.SameTime t ∧ s.SameDma t ∧ s.SameWorld t

/-- `read_memory` (R89): the bytes of memory from the copy's address on, reversed in decrement mode, stand in the
buffer's range; its other bytes are kept; every byte of memory reads as before; the event and the length are given. A
byte past the last address is a free value (log entry 4), so the range is taken to end below 2^32; every address below
it is a plain byte (log entry 5), the buffer is passed by value (log entry 10), and a copy of no bytes has its event too
(log entry 15). -/
def Obligations.ReadMemoryFillsBuffer : Prop :=
  ∀ (s : State) (k : DmaCtl) (i : DmaChan) (buf : List Byte) (off pos len : Int),
    bufferRangeOk buf off pos len = true →
    let addr := copyAddress (s.chan k i) pos len
    addr + len.toNat ≤ 2 ^ 32 →
    let range := (List.range len.toNat).map fun j => Memory.read s.memory (addr + j)
    let bytes := if (s.chan k i).mode.getLsbD 5 then range.reverse else range
    ∃ t buf', exec (.readMemory (globalChannel k i) buf off pos len) s = .next t ∧
      t.result = .transfer len buf' ∧ t.trace = s.trace ++ [.memRead addr range] ∧
      (∀ j, buf'[j]? = if off.toNat ≤ j ∧ j < off.toNat + len.toNat then bytes[j - off.toNat]? else buf[j]?) ∧
      s.SamePic t ∧ s.SamePit t ∧ s.SameTime t ∧ s.SameDma t ∧ s.SameMemory t ∧ s.SameWorld t

/-! ## Wide port accesses -/

/-- Every byte access of a registered port completes, and a read returns a byte, when the transfer devices and the CPU
keep their contract; so does every word and long access whose ports belong to one device (R83, R401). -/
def Obligations.PortAccessesComplete : Prop :=
  ∀ (s : State) (port : Nat) (r : PortReg), s.DevicesConform → s.CpuConforms → portReg port = some r →
    (∀ b : Byte, ∃ t, exec (decodeWrite s.cursors r b) s = .next t ∧ t.DevicesConform ∧ t.CpuConforms) ∧
    (∃ t b, exec (decodeRead s.cursors r) s = .next t ∧ t.result = .byte b ∧ t.DevicesConform ∧ t.CpuConforms) ∧
    ∀ long : Bool, (∀ j, j < wideLength long → ∃ q, PortOf r.device (port + j) q) →
      (∀ value, ∃ t, exec (.outwOutl long port value) s = .next t ∧ t.DevicesConform ∧ t.CpuConforms) ∧
      ∃ t, exec (.inwInl long port) s = .next t ∧
        if long then ∃ w, t.result = .long w else ∃ w, t.result = .word w

/-- A word or long access is two or four byte accesses at ascending ports of one device, low byte first, each run whole
before the next is decoded (R83, R84): a write ends as its last byte does, or stops where a byte stops; a read returns
the bytes as one number, or stops where a byte stops. -/
def Obligations.WideAccessIsByteAccesses : Prop :=
  ∀ (s t : State) (long : Bool) (d : PortDevice) (port : Nat) (front : List Byte) (r : PortReg),
    (∀ (b : Byte) (back : List Byte), ByteWritesRun d port front s t → PortOf d (port + front.length) r →
      (front ++ b :: back).length = wideLength long →
      (back = [] → exec (.outwOutl long port (littleEndian (front ++ b :: back))) s = exec (decodeWrite t.cursors r b) t) ∧
      ∀ f, exec (decodeWrite t.cursors r b) t = .fault f →
        exec (.outwOutl long port (littleEndian (front ++ b :: back))) s = .fault f) ∧
    (ByteReadsRun d port front s t → front.length = wideLength long →
      exec (.inwInl long port) s = .next { t with
        result := if long then .long (BitVec.ofNat 32 (littleEndian front))
          else .word (BitVec.ofNat 16 (littleEndian front)) }) ∧
    (ByteReadsRun d port front s t → front.length < wideLength long → PortOf d (port + front.length) r →
      ∀ f, exec (decodeRead t.cursors r) t = .fault f → exec (.inwInl long port) s = .fault f)

/-- CV4: a wide access at a port no device requested stops at once, and one whose bytes leave the device's ports stops
at the first such port, be it the second, the third or the fourth, after the bytes before it (R81, R83, R400). -/
def Obligations.WideAccessOutsideDeviceFaults : Prop :=
  ∀ (s : State) (long : Bool) (port : Nat),
    (portReg port = none →
      (∀ value, exec (.outwOutl long port value) s = .fault (.unregisteredPort port s.trace)) ∧
      exec (.inwInl long port) s = .fault (.unregisteredPort port s.trace)) ∧
    ∀ (t : State) (d : PortDevice) (front : List Byte), front ≠ [] → (∀ q, ¬PortOf d (port + front.length) q) →
      (∀ (b : Byte) (back : List Byte), ByteWritesRun d port front s t →
        (front ++ b :: back).length = wideLength long →
        exec (.outwOutl long port (littleEndian (front ++ b :: back))) s =
          .fault (.unregisteredPort (port + front.length) t.trace)) ∧
      (ByteReadsRun d port front s t → front.length < wideLength long →
        exec (.inwInl long port) s = .fault (.unregisteredPort (port + front.length) t.trace))

/-! ## The block as a whole -/

/-- Who tells the CPU what (R404): `ClearInterrupt` is emitted by ICW1 alone (a wide write may hold one), and a completed
instruction never takes an event back. -/
def Obligations.OnlyIcw1ClearsInterrupt : Prop :=
  ∀ (s t : State) (i : Instr), exec i s = .next t →
    ∃ events, t.trace = s.trace ++ events ∧
      (.clearInterrupt ∈ events → (∃ e ic4, i = .picIcw1 e ic4) ∨ ∃ long port value, i = .outwOutl long port value)
end

