-- ==== Sys2Proof/Laws/Decode.lean ====
section
/-! SUPPORT. The port map read both ways (R100 to R105), and the decoding of an access to a register at its own
port. -/

namespace Sys2Proof

/-- A register that a port has: the numbers 0..7 of a DMA controller are its channels' (R103). -/
def PortReg.mapped : PortReg → Bool
  | .dmaControl _ r => decide (8 ≤ r.toNat)
  | .picCommand _ | .picData _ | .elcr _ | .pitData _ | .pitControl | .dmaAddress _ _ | .dmaCount _ _ | .page _ _ _ =>
    true

/-- The register at the port of a register is that register. -/
theorem portReg_portOf {r : PortReg} (h : r.mapped = true) : portReg (portOf r) = some r := by
  cases r with
  | picCommand e => cases e <;> decide
  | picData e => cases e <;> decide
  | elcr e => cases e <;> decide
  | pitData c => cases c <;> decide
  | pitControl => decide
  | dmaAddress k i => revert i; cases k <;> decide
  | dmaCount k i => revert i; cases k <;> decide
  | dmaControl k r => revert r; cases k <;> decide
  | page k h i => revert i; cases k <;> cases h <;> decide

/-- Every port of a register is a 16-bit number. -/
theorem portOf_lt (r : PortReg) : portOf r < Config.portLimit := by
  cases r with
  | picCommand e => cases e <;> decide
  | picData e => cases e <;> decide
  | elcr e => cases e <;> decide
  | pitData c => cases c <;> decide
  | pitControl => decide
  | dmaAddress k i => revert i; cases k <;> decide
  | dmaCount k i => revert i; cases k <;> decide
  | dmaControl k r => revert r; cases k <;> decide
  | page k h i => revert i; cases k <;> cases h <;> decide

/-- A byte write at the port of a register decodes to the row of that register. -/
theorem decode_writeTo (cur : Cursors) {r : PortReg} (h : r.mapped = true) (d : Byte) :
    decode cur (writeTo r d) = .ok (decodeWrite cur r d) := by
  have hp := portOf_lt r
  have hd : d.toNat < 2 ^ 8 := d.isLt
  simp only [decode, writeTo, decodeByteWrite]
  rw [if_neg (by omega), portReg_portOf h, BitVec.ofNat_toNat]
  rfl

/-- A byte read at the port of a register decodes to the row of that register. -/
theorem decode_readOf (cur : Cursors) {r : PortReg} (h : r.mapped = true) :
    decode cur (readOf r) = .ok (decodeRead cur r) := by
  have hp := portOf_lt r
  simp only [decode, readOf, decodeByteRead]
  rw [if_neg (by omega), portReg_portOf h]

end Sys2Proof
end

