-- ==== Sys2Proof/Laws/State.lean ====
section
/-! SUPPORT. The state's small lemmas: for each update, what each field and each accessor reads afterwards. All are
true by computation, and all are simp lemmas, so that no later proof unfolds an update. -/

namespace Sys2Proof.Machine

/-! ## Parts read back -/

@[simp] theorem State.setPic_pic (s : State) (e e' : Elem) (p : PicElement) :
    (s.setPic e p).pic e' = if e' = e then p else s.pic e' := by cases e <;> cases e' <;> rfl

@[simp] theorem State.setPit_pit (s : State) (c c' : PitChan) (p : PitChannel) :
    (s.setPit c p).pit c' = if c' = c then p else s.pit c' := by cases c <;> cases c' <;> rfl

@[simp] theorem State.setDma_dma (s : State) (k k' : DmaCtl) (d : DmaController) :
    (s.setDma k d).dma k' = if k' = k then d else s.dma k' := by cases k <;> cases k' <;> rfl

@[simp] theorem DmaController.setCh_ch (d : DmaController) (i i' : DmaChan) (c : DmaChannel) :
    (d.setCh i c).ch i' = if i' = i then c else d.ch i' := by
  fin_cases i <;> fin_cases i' <;> rfl

@[simp] theorem DmaController.setCh_status (d : DmaController) (i : DmaChan) (c : DmaChannel) :
    (d.setCh i c).status = d.status := by fin_cases i <;> rfl

@[simp] theorem DmaController.setCh_command (d : DmaController) (i : DmaChan) (c : DmaChannel) :
    (d.setCh i c).command = d.command := by fin_cases i <;> rfl

@[simp] theorem DmaController.setCh_mask (d : DmaController) (i : DmaChan) (c : DmaChannel) :
    (d.setCh i c).mask = d.mask := by fin_cases i <;> rfl

@[simp] theorem DmaController.setCh_flipFlop (d : DmaController) (i : DmaChan) (c : DmaChannel) :
    (d.setCh i c).flipFlop = d.flipFlop := by fin_cases i <;> rfl

@[simp] theorem State.setChan_chan (s : State) (k k' : DmaCtl) (i i' : DmaChan) (c : DmaChannel) :
    (s.setChan k i c).chan k' i' = if k' = k ∧ i' = i then c else s.chan k' i' := by
  simp only [State.setChan, State.chan, State.setDma_dma]
  by_cases hk : k' = k
  · subst hk; simp
  · simp [hk]

@[simp] theorem State.setChan_dma_status (s : State) (k k' : DmaCtl) (i : DmaChan) (c : DmaChannel) :
    ((s.setChan k i c).dma k').status = (s.dma k').status := by
  simp only [State.setChan, State.setDma_dma]; split <;> simp_all

@[simp] theorem State.setChan_dma_mask (s : State) (k k' : DmaCtl) (i : DmaChan) (c : DmaChannel) :
    ((s.setChan k i c).dma k').mask = (s.dma k').mask := by
  simp only [State.setChan, State.setDma_dma]; split <;> simp_all

@[simp] theorem State.setChan_dma_command (s : State) (k k' : DmaCtl) (i : DmaChan) (c : DmaChannel) :
    ((s.setChan k i c).dma k').command = (s.dma k').command := by
  simp only [State.setChan, State.setDma_dma]; split <;> simp_all

@[simp] theorem State.emit_trace (s : State) (ev : Event) : (s.emit ev).trace = s.trace ++ [ev] := rfl

@[simp] theorem State.answer_result (s : State) (r : Result) : (s.answer r).result = r := rfl

@[simp] theorem State.fetched_calls (s : State) (rest : List Action) : (s.fetched rest).calls = rest := rfl

@[simp] theorem State.fetched_result (s : State) (rest : List Action) : (s.fetched rest).result = .none := rfl

@[simp] theorem State.fetched_nested (s : State) (rest : List Action) : (s.fetched rest).nested = [] := rfl

@[simp] theorem State.notify_trace (s : State) (ev : Event) : (s.notify ev).trace = s.trace ++ [ev] := rfl

@[simp] theorem State.notify_cpuReplies (s : State) (ev : Event) : (s.notify ev).cpuReplies = s.cpuReplies.tail := rfl

@[simp] theorem State.returnNested_result (s u : State) : (s.returnNested u).result = s.result := rfl

@[simp] theorem State.returnNested_nested (s u : State) : (s.returnNested u).nested = u.nested ++ [u.result] := rfl

@[simp] theorem State.memWrite_memory (s : State) (addr : Nat) (bytes : List Byte) :
    (s.memWrite addr bytes).memory = Memory.writeBytes s.memory addr bytes := rfl

@[simp] theorem State.memRead_trace (s : State) (addr len : Nat) :
    (s.memRead addr len).trace = s.trace ++ [.memRead addr (s.bytesAt addr len)] := rfl

@[simp] theorem State.memWrite_trace (s : State) (addr : Nat) (bytes : List Byte) :
    (s.memWrite addr bytes).trace = s.trace ++ [.memWrite addr bytes] := rfl

@[simp] theorem thenDo_next (s : State) (f : State → Outcome) : thenDo (.next s) f = f s := rfl

/-! ## What `setPic` leaves -/

@[simp] theorem State.setPic_pit0 (s : State) (e : Elem) (p : PicElement) : (s.setPic e p).pit0 = s.pit0 :=
  by cases e <;> rfl
@[simp] theorem State.setPic_pit1 (s : State) (e : Elem) (p : PicElement) : (s.setPic e p).pit1 = s.pit1 :=
  by cases e <;> rfl
@[simp] theorem State.setPic_pit2 (s : State) (e : Elem) (p : PicElement) : (s.setPic e p).pit2 = s.pit2 :=
  by cases e <;> rfl
@[simp] theorem State.setPic_pitNext (s : State) (e : Elem) (p : PicElement) : (s.setPic e p).pitNext = s.pitNext :=
  by cases e <;> rfl
@[simp] theorem State.setPic_currentTime (s : State) (e : Elem) (p : PicElement) : (s.setPic e p).currentTime = s.currentTime :=
  by cases e <;> rfl
@[simp] theorem State.setPic_timers (s : State) (e : Elem) (p : PicElement) : (s.setPic e p).timers = s.timers :=
  by cases e <;> rfl
@[simp] theorem State.setPic_queue (s : State) (e : Elem) (p : PicElement) : (s.setPic e p).queue = s.queue :=
  by cases e <;> rfl
@[simp] theorem State.setPic_dma0 (s : State) (e : Elem) (p : PicElement) : (s.setPic e p).dma0 = s.dma0 :=
  by cases e <;> rfl
@[simp] theorem State.setPic_dma1 (s : State) (e : Elem) (p : PicElement) : (s.setPic e p).dma1 = s.dma1 :=
  by cases e <;> rfl
@[simp] theorem State.setPic_memory (s : State) (e : Elem) (p : PicElement) : (s.setPic e p).memory = s.memory :=
  by cases e <;> rfl
@[simp] theorem State.setPic_calls (s : State) (e : Elem) (p : PicElement) : (s.setPic e p).calls = s.calls :=
  by cases e <;> rfl
@[simp] theorem State.setPic_deviceReplies (s : State) (e : Elem) (p : PicElement) : (s.setPic e p).deviceReplies = s.deviceReplies :=
  by cases e <;> rfl
@[simp] theorem State.setPic_expiryReplies (s : State) (e : Elem) (p : PicElement) : (s.setPic e p).expiryReplies = s.expiryReplies :=
  by cases e <;> rfl
@[simp] theorem State.setPic_cpuReplies (s : State) (e : Elem) (p : PicElement) : (s.setPic e p).cpuReplies = s.cpuReplies :=
  by cases e <;> rfl
@[simp] theorem State.setPic_trace (s : State) (e : Elem) (p : PicElement) : (s.setPic e p).trace = s.trace :=
  by cases e <;> rfl
@[simp] theorem State.setPic_result (s : State) (e : Elem) (p : PicElement) : (s.setPic e p).result = s.result :=
  by cases e <;> rfl
@[simp] theorem State.setPic_nested (s : State) (e : Elem) (p : PicElement) : (s.setPic e p).nested = s.nested :=
  by cases e <;> rfl
@[simp] theorem State.setPic_freeCount (s : State) (e : Elem) (p : PicElement) : (s.setPic e p).freeCount = s.freeCount :=
  by cases e <;> rfl
@[simp] theorem State.setPic_pit (s : State) (e : Elem) (p : PicElement) (c' : PitChan) : (s.setPic e p).pit c' = s.pit c' := by
  cases e <;> cases c' <;> rfl
@[simp] theorem State.setPic_dma (s : State) (e : Elem) (p : PicElement) (k' : DmaCtl) : (s.setPic e p).dma k' = s.dma k' := by
  cases e <;> cases k' <;> rfl
@[simp] theorem State.setPic_expiryOf (s : State) (e : Elem) (p : PicElement) (t : Nat) : (s.setPic e p).expiryOf t = s.expiryOf t := by
  cases e <;> rfl
@[simp] theorem State.setPic_timerEnabled (s : State) (e : Elem) (p : PicElement) (t : Nat) : (s.setPic e p).timerEnabled t = s.timerEnabled t := by
  cases e <;> rfl
@[simp] theorem State.setPic_byteAt (s : State) (e : Elem) (p : PicElement) (a : Nat) : (s.setPic e p).byteAt a = s.byteAt a := by
  simp only [State.byteAt, State.setPic_memory, State.setPic_freeCount]
@[simp] theorem State.setPic_chan (s : State) (e : Elem) (p : PicElement) (k' : DmaCtl) (i' : DmaChan) :
    (s.setPic e p).chan k' i' = s.chan k' i' := by
  simp only [State.chan, State.setPic_dma]

/-! ## What `setPit` leaves -/

@[simp] theorem State.setPit_picM (s : State) (c : PitChan) (p : PitChannel) : (s.setPit c p).picM = s.picM :=
  by cases c <;> rfl
@[simp] theorem State.setPit_picS (s : State) (c : PitChan) (p : PitChannel) : (s.setPit c p).picS = s.picS :=
  by cases c <;> rfl
@[simp] theorem State.setPit_pitNext (s : State) (c : PitChan) (p : PitChannel) : (s.setPit c p).pitNext = s.pitNext :=
  by cases c <;> rfl
@[simp] theorem State.setPit_currentTime (s : State) (c : PitChan) (p : PitChannel) : (s.setPit c p).currentTime = s.currentTime :=
  by cases c <;> rfl
@[simp] theorem State.setPit_timers (s : State) (c : PitChan) (p : PitChannel) : (s.setPit c p).timers = s.timers :=
  by cases c <;> rfl
@[simp] theorem State.setPit_queue (s : State) (c : PitChan) (p : PitChannel) : (s.setPit c p).queue = s.queue :=
  by cases c <;> rfl
@[simp] theorem State.setPit_dma0 (s : State) (c : PitChan) (p : PitChannel) : (s.setPit c p).dma0 = s.dma0 :=
  by cases c <;> rfl
@[simp] theorem State.setPit_dma1 (s : State) (c : PitChan) (p : PitChannel) : (s.setPit c p).dma1 = s.dma1 :=
  by cases c <;> rfl
@[simp] theorem State.setPit_memory (s : State) (c : PitChan) (p : PitChannel) : (s.setPit c p).memory = s.memory :=
  by cases c <;> rfl
@[simp] theorem State.setPit_calls (s : State) (c : PitChan) (p : PitChannel) : (s.setPit c p).calls = s.calls :=
  by cases c <;> rfl
@[simp] theorem State.setPit_deviceReplies (s : State) (c : PitChan) (p : PitChannel) : (s.setPit c p).deviceReplies = s.deviceReplies :=
  by cases c <;> rfl
@[simp] theorem State.setPit_expiryReplies (s : State) (c : PitChan) (p : PitChannel) : (s.setPit c p).expiryReplies = s.expiryReplies :=
  by cases c <;> rfl
@[simp] theorem State.setPit_cpuReplies (s : State) (c : PitChan) (p : PitChannel) : (s.setPit c p).cpuReplies = s.cpuReplies :=
  by cases c <;> rfl
@[simp] theorem State.setPit_trace (s : State) (c : PitChan) (p : PitChannel) : (s.setPit c p).trace = s.trace :=
  by cases c <;> rfl
@[simp] theorem State.setPit_result (s : State) (c : PitChan) (p : PitChannel) : (s.setPit c p).result = s.result :=
  by cases c <;> rfl
@[simp] theorem State.setPit_nested (s : State) (c : PitChan) (p : PitChannel) : (s.setPit c p).nested = s.nested :=
  by cases c <;> rfl
@[simp] theorem State.setPit_freeCount (s : State) (c : PitChan) (p : PitChannel) : (s.setPit c p).freeCount = s.freeCount :=
  by cases c <;> rfl
@[simp] theorem State.setPit_pic (s : State) (c : PitChan) (p : PitChannel) (e' : Elem) : (s.setPit c p).pic e' = s.pic e' := by
  cases c <;> cases e' <;> rfl
@[simp] theorem State.setPit_dma (s : State) (c : PitChan) (p : PitChannel) (k' : DmaCtl) : (s.setPit c p).dma k' = s.dma k' := by
  cases c <;> cases k' <;> rfl
@[simp] theorem State.setPit_expiryOf (s : State) (c : PitChan) (p : PitChannel) (t : Nat) : (s.setPit c p).expiryOf t = s.expiryOf t := by
  cases c <;> rfl
@[simp] theorem State.setPit_timerEnabled (s : State) (c : PitChan) (p : PitChannel) (t : Nat) : (s.setPit c p).timerEnabled t = s.timerEnabled t := by
  cases c <;> rfl
@[simp] theorem State.setPit_byteAt (s : State) (c : PitChan) (p : PitChannel) (a : Nat) : (s.setPit c p).byteAt a = s.byteAt a := by
  simp only [State.byteAt, State.setPit_memory, State.setPit_freeCount]
@[simp] theorem State.setPit_chan (s : State) (c : PitChan) (p : PitChannel) (k' : DmaCtl) (i' : DmaChan) :
    (s.setPit c p).chan k' i' = s.chan k' i' := by
  simp only [State.chan, State.setPit_dma]

/-! ## What `setDma` leaves -/

@[simp] theorem State.setDma_picM (s : State) (k : DmaCtl) (d : DmaController) : (s.setDma k d).picM = s.picM :=
  by cases k <;> rfl
@[simp] theorem State.setDma_picS (s : State) (k : DmaCtl) (d : DmaController) : (s.setDma k d).picS = s.picS :=
  by cases k <;> rfl
@[simp] theorem State.setDma_pit0 (s : State) (k : DmaCtl) (d : DmaController) : (s.setDma k d).pit0 = s.pit0 :=
  by cases k <;> rfl
@[simp] theorem State.setDma_pit1 (s : State) (k : DmaCtl) (d : DmaController) : (s.setDma k d).pit1 = s.pit1 :=
  by cases k <;> rfl
@[simp] theorem State.setDma_pit2 (s : State) (k : DmaCtl) (d : DmaController) : (s.setDma k d).pit2 = s.pit2 :=
  by cases k <;> rfl
@[simp] theorem State.setDma_pitNext (s : State) (k : DmaCtl) (d : DmaController) : (s.setDma k d).pitNext = s.pitNext :=
  by cases k <;> rfl
@[simp] theorem State.setDma_currentTime (s : State) (k : DmaCtl) (d : DmaController) : (s.setDma k d).currentTime = s.currentTime :=
  by cases k <;> rfl
@[simp] theorem State.setDma_timers (s : State) (k : DmaCtl) (d : DmaController) : (s.setDma k d).timers = s.timers :=
  by cases k <;> rfl
@[simp] theorem State.setDma_queue (s : State) (k : DmaCtl) (d : DmaController) : (s.setDma k d).queue = s.queue :=
  by cases k <;> rfl
@[simp] theorem State.setDma_memory (s : State) (k : DmaCtl) (d : DmaController) : (s.setDma k d).memory = s.memory :=
  by cases k <;> rfl
@[simp] theorem State.setDma_calls (s : State) (k : DmaCtl) (d : DmaController) : (s.setDma k d).calls = s.calls :=
  by cases k <;> rfl
@[simp] theorem State.setDma_deviceReplies (s : State) (k : DmaCtl) (d : DmaController) : (s.setDma k d).deviceReplies = s.deviceReplies :=
  by cases k <;> rfl
@[simp] theorem State.setDma_expiryReplies (s : State) (k : DmaCtl) (d : DmaController) : (s.setDma k d).expiryReplies = s.expiryReplies :=
  by cases k <;> rfl
@[simp] theorem State.setDma_cpuReplies (s : State) (k : DmaCtl) (d : DmaController) : (s.setDma k d).cpuReplies = s.cpuReplies :=
  by cases k <;> rfl
@[simp] theorem State.setDma_trace (s : State) (k : DmaCtl) (d : DmaController) : (s.setDma k d).trace = s.trace :=
  by cases k <;> rfl
@[simp] theorem State.setDma_result (s : State) (k : DmaCtl) (d : DmaController) : (s.setDma k d).result = s.result :=
  by cases k <;> rfl
@[simp] theorem State.setDma_nested (s : State) (k : DmaCtl) (d : DmaController) : (s.setDma k d).nested = s.nested :=
  by cases k <;> rfl
@[simp] theorem State.setDma_freeCount (s : State) (k : DmaCtl) (d : DmaController) : (s.setDma k d).freeCount = s.freeCount :=
  by cases k <;> rfl
@[simp] theorem State.setDma_pic (s : State) (k : DmaCtl) (d : DmaController) (e' : Elem) : (s.setDma k d).pic e' = s.pic e' := by
  cases k <;> cases e' <;> rfl
@[simp] theorem State.setDma_pit (s : State) (k : DmaCtl) (d : DmaController) (c' : PitChan) : (s.setDma k d).pit c' = s.pit c' := by
  cases k <;> cases c' <;> rfl
@[simp] theorem State.setDma_expiryOf (s : State) (k : DmaCtl) (d : DmaController) (t : Nat) : (s.setDma k d).expiryOf t = s.expiryOf t := by
  cases k <;> rfl
@[simp] theorem State.setDma_timerEnabled (s : State) (k : DmaCtl) (d : DmaController) (t : Nat) : (s.setDma k d).timerEnabled t = s.timerEnabled t := by
  cases k <;> rfl
@[simp] theorem State.setDma_byteAt (s : State) (k : DmaCtl) (d : DmaController) (a : Nat) : (s.setDma k d).byteAt a = s.byteAt a := by
  simp only [State.byteAt, State.setDma_memory, State.setDma_freeCount]

/-! ## What `setChan` leaves -/

@[simp] theorem State.setChan_picM (s : State) (k : DmaCtl) (i : DmaChan) (ch : DmaChannel) : (s.setChan k i ch).picM = s.picM :=
  by cases k <;> rfl
@[simp] theorem State.setChan_picS (s : State) (k : DmaCtl) (i : DmaChan) (ch : DmaChannel) : (s.setChan k i ch).picS = s.picS :=
  by cases k <;> rfl
@[simp] theorem State.setChan_pit0 (s : State) (k : DmaCtl) (i : DmaChan) (ch : DmaChannel) : (s.setChan k i ch).pit0 = s.pit0 :=
  by cases k <;> rfl
@[simp] theorem State.setChan_pit1 (s : State) (k : DmaCtl) (i : DmaChan) (ch : DmaChannel) : (s.setChan k i ch).pit1 = s.pit1 :=
  by cases k <;> rfl
@[simp] theorem State.setChan_pit2 (s : State) (k : DmaCtl) (i : DmaChan) (ch : DmaChannel) : (s.setChan k i ch).pit2 = s.pit2 :=
  by cases k <;> rfl
@[simp] theorem State.setChan_pitNext (s : State) (k : DmaCtl) (i : DmaChan) (ch : DmaChannel) : (s.setChan k i ch).pitNext = s.pitNext :=
  by cases k <;> rfl
@[simp] theorem State.setChan_currentTime (s : State) (k : DmaCtl) (i : DmaChan) (ch : DmaChannel) : (s.setChan k i ch).currentTime = s.currentTime :=
  by cases k <;> rfl
@[simp] theorem State.setChan_timers (s : State) (k : DmaCtl) (i : DmaChan) (ch : DmaChannel) : (s.setChan k i ch).timers = s.timers :=
  by cases k <;> rfl
@[simp] theorem State.setChan_queue (s : State) (k : DmaCtl) (i : DmaChan) (ch : DmaChannel) : (s.setChan k i ch).queue = s.queue :=
  by cases k <;> rfl
@[simp] theorem State.setChan_memory (s : State) (k : DmaCtl) (i : DmaChan) (ch : DmaChannel) : (s.setChan k i ch).memory = s.memory :=
  by cases k <;> rfl
@[simp] theorem State.setChan_calls (s : State) (k : DmaCtl) (i : DmaChan) (ch : DmaChannel) : (s.setChan k i ch).calls = s.calls :=
  by cases k <;> rfl
@[simp] theorem State.setChan_deviceReplies (s : State) (k : DmaCtl) (i : DmaChan) (ch : DmaChannel) : (s.setChan k i ch).deviceReplies = s.deviceReplies :=
  by cases k <;> rfl
@[simp] theorem State.setChan_expiryReplies (s : State) (k : DmaCtl) (i : DmaChan) (ch : DmaChannel) : (s.setChan k i ch).expiryReplies = s.expiryReplies :=
  by cases k <;> rfl
@[simp] theorem State.setChan_cpuReplies (s : State) (k : DmaCtl) (i : DmaChan) (ch : DmaChannel) : (s.setChan k i ch).cpuReplies = s.cpuReplies :=
  by cases k <;> rfl
@[simp] theorem State.setChan_trace (s : State) (k : DmaCtl) (i : DmaChan) (ch : DmaChannel) : (s.setChan k i ch).trace = s.trace :=
  by cases k <;> rfl
@[simp] theorem State.setChan_result (s : State) (k : DmaCtl) (i : DmaChan) (ch : DmaChannel) : (s.setChan k i ch).result = s.result :=
  by cases k <;> rfl
@[simp] theorem State.setChan_nested (s : State) (k : DmaCtl) (i : DmaChan) (ch : DmaChannel) : (s.setChan k i ch).nested = s.nested :=
  by cases k <;> rfl
@[simp] theorem State.setChan_freeCount (s : State) (k : DmaCtl) (i : DmaChan) (ch : DmaChannel) : (s.setChan k i ch).freeCount = s.freeCount :=
  by cases k <;> rfl
@[simp] theorem State.setChan_pic (s : State) (k : DmaCtl) (i : DmaChan) (ch : DmaChannel) (e' : Elem) : (s.setChan k i ch).pic e' = s.pic e' := by
  cases k <;> cases e' <;> rfl
@[simp] theorem State.setChan_pit (s : State) (k : DmaCtl) (i : DmaChan) (ch : DmaChannel) (c' : PitChan) : (s.setChan k i ch).pit c' = s.pit c' := by
  cases k <;> cases c' <;> rfl
@[simp] theorem State.setChan_expiryOf (s : State) (k : DmaCtl) (i : DmaChan) (ch : DmaChannel) (t : Nat) : (s.setChan k i ch).expiryOf t = s.expiryOf t := by
  cases k <;> rfl
@[simp] theorem State.setChan_timerEnabled (s : State) (k : DmaCtl) (i : DmaChan) (ch : DmaChannel) (t : Nat) : (s.setChan k i ch).timerEnabled t = s.timerEnabled t := by
  cases k <;> rfl
@[simp] theorem State.setChan_byteAt (s : State) (k : DmaCtl) (i : DmaChan) (ch : DmaChannel) (a : Nat) : (s.setChan k i ch).byteAt a = s.byteAt a := by
  simp only [State.byteAt, State.setChan_memory, State.setChan_freeCount]

/-! ## What `emit` leaves -/

@[simp] theorem State.emit_picM (s : State) (ev : Event) : (s.emit ev).picM = s.picM := rfl
@[simp] theorem State.emit_picS (s : State) (ev : Event) : (s.emit ev).picS = s.picS := rfl
@[simp] theorem State.emit_pit0 (s : State) (ev : Event) : (s.emit ev).pit0 = s.pit0 := rfl
@[simp] theorem State.emit_pit1 (s : State) (ev : Event) : (s.emit ev).pit1 = s.pit1 := rfl
@[simp] theorem State.emit_pit2 (s : State) (ev : Event) : (s.emit ev).pit2 = s.pit2 := rfl
@[simp] theorem State.emit_pitNext (s : State) (ev : Event) : (s.emit ev).pitNext = s.pitNext := rfl
@[simp] theorem State.emit_currentTime (s : State) (ev : Event) : (s.emit ev).currentTime = s.currentTime := rfl
@[simp] theorem State.emit_timers (s : State) (ev : Event) : (s.emit ev).timers = s.timers := rfl
@[simp] theorem State.emit_queue (s : State) (ev : Event) : (s.emit ev).queue = s.queue := rfl
@[simp] theorem State.emit_dma0 (s : State) (ev : Event) : (s.emit ev).dma0 = s.dma0 := rfl
@[simp] theorem State.emit_dma1 (s : State) (ev : Event) : (s.emit ev).dma1 = s.dma1 := rfl
@[simp] theorem State.emit_memory (s : State) (ev : Event) : (s.emit ev).memory = s.memory := rfl
@[simp] theorem State.emit_calls (s : State) (ev : Event) : (s.emit ev).calls = s.calls := rfl
@[simp] theorem State.emit_deviceReplies (s : State) (ev : Event) : (s.emit ev).deviceReplies = s.deviceReplies := rfl
@[simp] theorem State.emit_expiryReplies (s : State) (ev : Event) : (s.emit ev).expiryReplies = s.expiryReplies := rfl
@[simp] theorem State.emit_cpuReplies (s : State) (ev : Event) : (s.emit ev).cpuReplies = s.cpuReplies := rfl
@[simp] theorem State.emit_result (s : State) (ev : Event) : (s.emit ev).result = s.result := rfl
@[simp] theorem State.emit_nested (s : State) (ev : Event) : (s.emit ev).nested = s.nested := rfl
@[simp] theorem State.emit_freeCount (s : State) (ev : Event) : (s.emit ev).freeCount = s.freeCount := rfl
@[simp] theorem State.emit_pic (s : State) (ev : Event) (e' : Elem) : (s.emit ev).pic e' = s.pic e' := by
  cases e' <;> rfl
@[simp] theorem State.emit_pit (s : State) (ev : Event) (c' : PitChan) : (s.emit ev).pit c' = s.pit c' := by
  cases c' <;> rfl
@[simp] theorem State.emit_dma (s : State) (ev : Event) (k' : DmaCtl) : (s.emit ev).dma k' = s.dma k' := by
  cases k' <;> rfl
@[simp] theorem State.emit_expiryOf (s : State) (ev : Event) (t : Nat) : (s.emit ev).expiryOf t = s.expiryOf t := by
  rfl
@[simp] theorem State.emit_timerEnabled (s : State) (ev : Event) (t : Nat) : (s.emit ev).timerEnabled t = s.timerEnabled t := by
  rfl
@[simp] theorem State.emit_byteAt (s : State) (ev : Event) (a : Nat) : (s.emit ev).byteAt a = s.byteAt a := by
  simp only [State.byteAt, State.emit_memory, State.emit_freeCount]
@[simp] theorem State.emit_chan (s : State) (ev : Event) (k' : DmaCtl) (i' : DmaChan) :
    (s.emit ev).chan k' i' = s.chan k' i' := by
  simp only [State.chan, State.emit_dma]

/-! ## What `answer` leaves -/

@[simp] theorem State.answer_picM (s : State) (r : Result) : (s.answer r).picM = s.picM := rfl
@[simp] theorem State.answer_picS (s : State) (r : Result) : (s.answer r).picS = s.picS := rfl
@[simp] theorem State.answer_pit0 (s : State) (r : Result) : (s.answer r).pit0 = s.pit0 := rfl
@[simp] theorem State.answer_pit1 (s : State) (r : Result) : (s.answer r).pit1 = s.pit1 := rfl
@[simp] theorem State.answer_pit2 (s : State) (r : Result) : (s.answer r).pit2 = s.pit2 := rfl
@[simp] theorem State.answer_pitNext (s : State) (r : Result) : (s.answer r).pitNext = s.pitNext := rfl
@[simp] theorem State.answer_currentTime (s : State) (r : Result) : (s.answer r).currentTime = s.currentTime := rfl
@[simp] theorem State.answer_timers (s : State) (r : Result) : (s.answer r).timers = s.timers := rfl
@[simp] theorem State.answer_queue (s : State) (r : Result) : (s.answer r).queue = s.queue := rfl
@[simp] theorem State.answer_dma0 (s : State) (r : Result) : (s.answer r).dma0 = s.dma0 := rfl
@[simp] theorem State.answer_dma1 (s : State) (r : Result) : (s.answer r).dma1 = s.dma1 := rfl
@[simp] theorem State.answer_memory (s : State) (r : Result) : (s.answer r).memory = s.memory := rfl
@[simp] theorem State.answer_calls (s : State) (r : Result) : (s.answer r).calls = s.calls := rfl
@[simp] theorem State.answer_deviceReplies (s : State) (r : Result) : (s.answer r).deviceReplies = s.deviceReplies :=
  rfl
@[simp] theorem State.answer_expiryReplies (s : State) (r : Result) : (s.answer r).expiryReplies = s.expiryReplies :=
  rfl
@[simp] theorem State.answer_cpuReplies (s : State) (r : Result) : (s.answer r).cpuReplies = s.cpuReplies := rfl
@[simp] theorem State.answer_trace (s : State) (r : Result) : (s.answer r).trace = s.trace := rfl
@[simp] theorem State.answer_nested (s : State) (r : Result) : (s.answer r).nested = s.nested := rfl
@[simp] theorem State.answer_freeCount (s : State) (r : Result) : (s.answer r).freeCount = s.freeCount := rfl
@[simp] theorem State.answer_pic (s : State) (r : Result) (e' : Elem) : (s.answer r).pic e' = s.pic e' := by
  cases e' <;> rfl
@[simp] theorem State.answer_pit (s : State) (r : Result) (c' : PitChan) : (s.answer r).pit c' = s.pit c' := by
  cases c' <;> rfl
@[simp] theorem State.answer_dma (s : State) (r : Result) (k' : DmaCtl) : (s.answer r).dma k' = s.dma k' := by
  cases k' <;> rfl
@[simp] theorem State.answer_expiryOf (s : State) (r : Result) (t : Nat) : (s.answer r).expiryOf t = s.expiryOf t := by
  rfl
@[simp] theorem State.answer_timerEnabled (s : State) (r : Result) (t : Nat) : (s.answer r).timerEnabled t = s.timerEnabled t := by
  rfl
@[simp] theorem State.answer_byteAt (s : State) (r : Result) (a : Nat) : (s.answer r).byteAt a = s.byteAt a := by
  simp only [State.byteAt, State.answer_memory, State.answer_freeCount]
@[simp] theorem State.answer_chan (s : State) (r : Result) (k' : DmaCtl) (i' : DmaChan) :
    (s.answer r).chan k' i' = s.chan k' i' := by
  simp only [State.chan, State.answer_dma]

/-! ## What `fetched` leaves -/

@[simp] theorem State.fetched_picM (s : State) (rest : List Action) : (s.fetched rest).picM = s.picM := rfl
@[simp] theorem State.fetched_picS (s : State) (rest : List Action) : (s.fetched rest).picS = s.picS := rfl
@[simp] theorem State.fetched_pit0 (s : State) (rest : List Action) : (s.fetched rest).pit0 = s.pit0 := rfl
@[simp] theorem State.fetched_pit1 (s : State) (rest : List Action) : (s.fetched rest).pit1 = s.pit1 := rfl
@[simp] theorem State.fetched_pit2 (s : State) (rest : List Action) : (s.fetched rest).pit2 = s.pit2 := rfl
@[simp] theorem State.fetched_pitNext (s : State) (rest : List Action) : (s.fetched rest).pitNext = s.pitNext := rfl
@[simp] theorem State.fetched_currentTime (s : State) (rest : List Action) : (s.fetched rest).currentTime = s.currentTime :=
  rfl
@[simp] theorem State.fetched_timers (s : State) (rest : List Action) : (s.fetched rest).timers = s.timers := rfl
@[simp] theorem State.fetched_queue (s : State) (rest : List Action) : (s.fetched rest).queue = s.queue := rfl
@[simp] theorem State.fetched_dma0 (s : State) (rest : List Action) : (s.fetched rest).dma0 = s.dma0 := rfl
@[simp] theorem State.fetched_dma1 (s : State) (rest : List Action) : (s.fetched rest).dma1 = s.dma1 := rfl
@[simp] theorem State.fetched_memory (s : State) (rest : List Action) : (s.fetched rest).memory = s.memory := rfl
@[simp] theorem State.fetched_deviceReplies (s : State) (rest : List Action) : (s.fetched rest).deviceReplies = s.deviceReplies :=
  rfl
@[simp] theorem State.fetched_expiryReplies (s : State) (rest : List Action) : (s.fetched rest).expiryReplies = s.expiryReplies :=
  rfl
@[simp] theorem State.fetched_cpuReplies (s : State) (rest : List Action) : (s.fetched rest).cpuReplies = s.cpuReplies :=
  rfl
@[simp] theorem State.fetched_trace (s : State) (rest : List Action) : (s.fetched rest).trace = s.trace := rfl
@[simp] theorem State.fetched_freeCount (s : State) (rest : List Action) : (s.fetched rest).freeCount = s.freeCount :=
  rfl
@[simp] theorem State.fetched_pic (s : State) (rest : List Action) (e' : Elem) : (s.fetched rest).pic e' = s.pic e' := by
  cases e' <;> rfl
@[simp] theorem State.fetched_pit (s : State) (rest : List Action) (c' : PitChan) : (s.fetched rest).pit c' = s.pit c' := by
  cases c' <;> rfl
@[simp] theorem State.fetched_dma (s : State) (rest : List Action) (k' : DmaCtl) : (s.fetched rest).dma k' = s.dma k' := by
  cases k' <;> rfl
@[simp] theorem State.fetched_expiryOf (s : State) (rest : List Action) (t : Nat) : (s.fetched rest).expiryOf t = s.expiryOf t := by
  rfl
@[simp] theorem State.fetched_timerEnabled (s : State) (rest : List Action) (t : Nat) : (s.fetched rest).timerEnabled t = s.timerEnabled t := by
  rfl
@[simp] theorem State.fetched_byteAt (s : State) (rest : List Action) (a : Nat) : (s.fetched rest).byteAt a = s.byteAt a := by
  simp only [State.byteAt, State.fetched_memory, State.fetched_freeCount]
@[simp] theorem State.fetched_chan (s : State) (rest : List Action) (k' : DmaCtl) (i' : DmaChan) :
    (s.fetched rest).chan k' i' = s.chan k' i' := by
  simp only [State.chan, State.fetched_dma]

/-! ## What `notify` leaves -/

@[simp] theorem State.notify_picM (s : State) (ev : Event) : (s.notify ev).picM = s.picM := rfl
@[simp] theorem State.notify_picS (s : State) (ev : Event) : (s.notify ev).picS = s.picS := rfl
@[simp] theorem State.notify_pit0 (s : State) (ev : Event) : (s.notify ev).pit0 = s.pit0 := rfl
@[simp] theorem State.notify_pit1 (s : State) (ev : Event) : (s.notify ev).pit1 = s.pit1 := rfl
@[simp] theorem State.notify_pit2 (s : State) (ev : Event) : (s.notify ev).pit2 = s.pit2 := rfl
@[simp] theorem State.notify_pitNext (s : State) (ev : Event) : (s.notify ev).pitNext = s.pitNext := rfl
@[simp] theorem State.notify_currentTime (s : State) (ev : Event) : (s.notify ev).currentTime = s.currentTime := rfl
@[simp] theorem State.notify_timers (s : State) (ev : Event) : (s.notify ev).timers = s.timers := rfl
@[simp] theorem State.notify_queue (s : State) (ev : Event) : (s.notify ev).queue = s.queue := rfl
@[simp] theorem State.notify_dma0 (s : State) (ev : Event) : (s.notify ev).dma0 = s.dma0 := rfl
@[simp] theorem State.notify_dma1 (s : State) (ev : Event) : (s.notify ev).dma1 = s.dma1 := rfl
@[simp] theorem State.notify_memory (s : State) (ev : Event) : (s.notify ev).memory = s.memory := rfl
@[simp] theorem State.notify_calls (s : State) (ev : Event) : (s.notify ev).calls = s.calls := rfl
@[simp] theorem State.notify_deviceReplies (s : State) (ev : Event) : (s.notify ev).deviceReplies = s.deviceReplies :=
  rfl
@[simp] theorem State.notify_expiryReplies (s : State) (ev : Event) : (s.notify ev).expiryReplies = s.expiryReplies :=
  rfl
@[simp] theorem State.notify_result (s : State) (ev : Event) : (s.notify ev).result = s.result := rfl
@[simp] theorem State.notify_nested (s : State) (ev : Event) : (s.notify ev).nested = s.nested := rfl
@[simp] theorem State.notify_freeCount (s : State) (ev : Event) : (s.notify ev).freeCount = s.freeCount := rfl
@[simp] theorem State.notify_pic (s : State) (ev : Event) (e' : Elem) : (s.notify ev).pic e' = s.pic e' := by
  cases e' <;> rfl
@[simp] theorem State.notify_pit (s : State) (ev : Event) (c' : PitChan) : (s.notify ev).pit c' = s.pit c' := by
  cases c' <;> rfl
@[simp] theorem State.notify_dma (s : State) (ev : Event) (k' : DmaCtl) : (s.notify ev).dma k' = s.dma k' := by
  cases k' <;> rfl
@[simp] theorem State.notify_expiryOf (s : State) (ev : Event) (t : Nat) : (s.notify ev).expiryOf t = s.expiryOf t := by
  rfl
@[simp] theorem State.notify_timerEnabled (s : State) (ev : Event) (t : Nat) : (s.notify ev).timerEnabled t = s.timerEnabled t := by
  rfl
@[simp] theorem State.notify_byteAt (s : State) (ev : Event) (a : Nat) : (s.notify ev).byteAt a = s.byteAt a := by
  simp only [State.byteAt, State.notify_memory, State.notify_freeCount]
@[simp] theorem State.notify_chan (s : State) (ev : Event) (k' : DmaCtl) (i' : DmaChan) :
    (s.notify ev).chan k' i' = s.chan k' i' := by
  simp only [State.chan, State.notify_dma]

/-! ## What `memRead` leaves -/

@[simp] theorem State.memRead_picM (s : State) (addr len : Nat) : (s.memRead addr len).picM = s.picM := rfl
@[simp] theorem State.memRead_picS (s : State) (addr len : Nat) : (s.memRead addr len).picS = s.picS := rfl
@[simp] theorem State.memRead_pit0 (s : State) (addr len : Nat) : (s.memRead addr len).pit0 = s.pit0 := rfl
@[simp] theorem State.memRead_pit1 (s : State) (addr len : Nat) : (s.memRead addr len).pit1 = s.pit1 := rfl
@[simp] theorem State.memRead_pit2 (s : State) (addr len : Nat) : (s.memRead addr len).pit2 = s.pit2 := rfl
@[simp] theorem State.memRead_pitNext (s : State) (addr len : Nat) : (s.memRead addr len).pitNext = s.pitNext := rfl
@[simp] theorem State.memRead_currentTime (s : State) (addr len : Nat) : (s.memRead addr len).currentTime = s.currentTime :=
  rfl
@[simp] theorem State.memRead_timers (s : State) (addr len : Nat) : (s.memRead addr len).timers = s.timers := rfl
@[simp] theorem State.memRead_queue (s : State) (addr len : Nat) : (s.memRead addr len).queue = s.queue := rfl
@[simp] theorem State.memRead_dma0 (s : State) (addr len : Nat) : (s.memRead addr len).dma0 = s.dma0 := rfl
@[simp] theorem State.memRead_dma1 (s : State) (addr len : Nat) : (s.memRead addr len).dma1 = s.dma1 := rfl
@[simp] theorem State.memRead_memory (s : State) (addr len : Nat) : (s.memRead addr len).memory = s.memory := rfl
@[simp] theorem State.memRead_calls (s : State) (addr len : Nat) : (s.memRead addr len).calls = s.calls := rfl
@[simp] theorem State.memRead_deviceReplies (s : State) (addr len : Nat) : (s.memRead addr len).deviceReplies = s.deviceReplies :=
  rfl
@[simp] theorem State.memRead_expiryReplies (s : State) (addr len : Nat) : (s.memRead addr len).expiryReplies = s.expiryReplies :=
  rfl
@[simp] theorem State.memRead_cpuReplies (s : State) (addr len : Nat) : (s.memRead addr len).cpuReplies = s.cpuReplies :=
  rfl
@[simp] theorem State.memRead_result (s : State) (addr len : Nat) : (s.memRead addr len).result = s.result := rfl
@[simp] theorem State.memRead_nested (s : State) (addr len : Nat) : (s.memRead addr len).nested = s.nested := rfl
@[simp] theorem State.memRead_pic (s : State) (addr len : Nat) (e' : Elem) : (s.memRead addr len).pic e' = s.pic e' := by
  cases e' <;> rfl
@[simp] theorem State.memRead_pit (s : State) (addr len : Nat) (c' : PitChan) : (s.memRead addr len).pit c' = s.pit c' := by
  cases c' <;> rfl
@[simp] theorem State.memRead_dma (s : State) (addr len : Nat) (k' : DmaCtl) : (s.memRead addr len).dma k' = s.dma k' := by
  cases k' <;> rfl
@[simp] theorem State.memRead_expiryOf (s : State) (addr len : Nat) (t : Nat) : (s.memRead addr len).expiryOf t = s.expiryOf t := by
  rfl
@[simp] theorem State.memRead_timerEnabled (s : State) (addr len : Nat) (t : Nat) : (s.memRead addr len).timerEnabled t = s.timerEnabled t := by
  rfl
@[simp] theorem State.memRead_chan (s : State) (addr len : Nat) (k' : DmaCtl) (i' : DmaChan) :
    (s.memRead addr len).chan k' i' = s.chan k' i' := by
  simp only [State.chan, State.memRead_dma]

/-! ## What `memWrite` leaves -/

@[simp] theorem State.memWrite_picM (s : State) (addr : Nat) (bytes : List Byte) : (s.memWrite addr bytes).picM = s.picM :=
  rfl
@[simp] theorem State.memWrite_picS (s : State) (addr : Nat) (bytes : List Byte) : (s.memWrite addr bytes).picS = s.picS :=
  rfl
@[simp] theorem State.memWrite_pit0 (s : State) (addr : Nat) (bytes : List Byte) : (s.memWrite addr bytes).pit0 = s.pit0 :=
  rfl
@[simp] theorem State.memWrite_pit1 (s : State) (addr : Nat) (bytes : List Byte) : (s.memWrite addr bytes).pit1 = s.pit1 :=
  rfl
@[simp] theorem State.memWrite_pit2 (s : State) (addr : Nat) (bytes : List Byte) : (s.memWrite addr bytes).pit2 = s.pit2 :=
  rfl
@[simp] theorem State.memWrite_pitNext (s : State) (addr : Nat) (bytes : List Byte) : (s.memWrite addr bytes).pitNext = s.pitNext :=
  rfl
@[simp] theorem State.memWrite_currentTime (s : State) (addr : Nat) (bytes : List Byte) : (s.memWrite addr bytes).currentTime = s.currentTime :=
  rfl
@[simp] theorem State.memWrite_timers (s : State) (addr : Nat) (bytes : List Byte) : (s.memWrite addr bytes).timers = s.timers :=
  rfl
@[simp] theorem State.memWrite_queue (s : State) (addr : Nat) (bytes : List Byte) : (s.memWrite addr bytes).queue = s.queue :=
  rfl
@[simp] theorem State.memWrite_dma0 (s : State) (addr : Nat) (bytes : List Byte) : (s.memWrite addr bytes).dma0 = s.dma0 :=
  rfl
@[simp] theorem State.memWrite_dma1 (s : State) (addr : Nat) (bytes : List Byte) : (s.memWrite addr bytes).dma1 = s.dma1 :=
  rfl
@[simp] theorem State.memWrite_calls (s : State) (addr : Nat) (bytes : List Byte) : (s.memWrite addr bytes).calls = s.calls :=
  rfl
@[simp] theorem State.memWrite_deviceReplies (s : State) (addr : Nat) (bytes : List Byte) : (s.memWrite addr bytes).deviceReplies = s.deviceReplies :=
  rfl
@[simp] theorem State.memWrite_expiryReplies (s : State) (addr : Nat) (bytes : List Byte) : (s.memWrite addr bytes).expiryReplies = s.expiryReplies :=
  rfl
@[simp] theorem State.memWrite_cpuReplies (s : State) (addr : Nat) (bytes : List Byte) : (s.memWrite addr bytes).cpuReplies = s.cpuReplies :=
  rfl
@[simp] theorem State.memWrite_result (s : State) (addr : Nat) (bytes : List Byte) : (s.memWrite addr bytes).result = s.result :=
  rfl
@[simp] theorem State.memWrite_nested (s : State) (addr : Nat) (bytes : List Byte) : (s.memWrite addr bytes).nested = s.nested :=
  rfl
@[simp] theorem State.memWrite_freeCount (s : State) (addr : Nat) (bytes : List Byte) : (s.memWrite addr bytes).freeCount = s.freeCount :=
  rfl
@[simp] theorem State.memWrite_pic (s : State) (addr : Nat) (bytes : List Byte) (e' : Elem) : (s.memWrite addr bytes).pic e' = s.pic e' := by
  cases e' <;> rfl
@[simp] theorem State.memWrite_pit (s : State) (addr : Nat) (bytes : List Byte) (c' : PitChan) : (s.memWrite addr bytes).pit c' = s.pit c' := by
  cases c' <;> rfl
@[simp] theorem State.memWrite_dma (s : State) (addr : Nat) (bytes : List Byte) (k' : DmaCtl) : (s.memWrite addr bytes).dma k' = s.dma k' := by
  cases k' <;> rfl
@[simp] theorem State.memWrite_expiryOf (s : State) (addr : Nat) (bytes : List Byte) (t : Nat) : (s.memWrite addr bytes).expiryOf t = s.expiryOf t := by
  rfl
@[simp] theorem State.memWrite_timerEnabled (s : State) (addr : Nat) (bytes : List Byte) (t : Nat) : (s.memWrite addr bytes).timerEnabled t = s.timerEnabled t := by
  rfl
@[simp] theorem State.memWrite_chan (s : State) (addr : Nat) (bytes : List Byte) (k' : DmaCtl) (i' : DmaChan) :
    (s.memWrite addr bytes).chan k' i' = s.chan k' i' := by
  simp only [State.chan, State.memWrite_dma]

/-! ## What `offer` leaves -/

@[simp] theorem State.offer_picM (s : State) (tm : Nat) : (s.offer tm).picM = s.picM := rfl
@[simp] theorem State.offer_picS (s : State) (tm : Nat) : (s.offer tm).picS = s.picS := rfl
@[simp] theorem State.offer_pit0 (s : State) (tm : Nat) : (s.offer tm).pit0 = s.pit0 := rfl
@[simp] theorem State.offer_pit1 (s : State) (tm : Nat) : (s.offer tm).pit1 = s.pit1 := rfl
@[simp] theorem State.offer_pit2 (s : State) (tm : Nat) : (s.offer tm).pit2 = s.pit2 := rfl
@[simp] theorem State.offer_pitNext (s : State) (tm : Nat) : (s.offer tm).pitNext = s.pitNext := rfl
@[simp] theorem State.offer_currentTime (s : State) (tm : Nat) : (s.offer tm).currentTime = s.currentTime := rfl
@[simp] theorem State.offer_timers (s : State) (tm : Nat) : (s.offer tm).timers = s.timers := rfl
@[simp] theorem State.offer_dma0 (s : State) (tm : Nat) : (s.offer tm).dma0 = s.dma0 := rfl
@[simp] theorem State.offer_dma1 (s : State) (tm : Nat) : (s.offer tm).dma1 = s.dma1 := rfl
@[simp] theorem State.offer_memory (s : State) (tm : Nat) : (s.offer tm).memory = s.memory := rfl
@[simp] theorem State.offer_calls (s : State) (tm : Nat) : (s.offer tm).calls = s.calls := rfl
@[simp] theorem State.offer_deviceReplies (s : State) (tm : Nat) : (s.offer tm).deviceReplies = s.deviceReplies := rfl
@[simp] theorem State.offer_expiryReplies (s : State) (tm : Nat) : (s.offer tm).expiryReplies = s.expiryReplies := rfl
@[simp] theorem State.offer_cpuReplies (s : State) (tm : Nat) : (s.offer tm).cpuReplies = s.cpuReplies := rfl
@[simp] theorem State.offer_trace (s : State) (tm : Nat) : (s.offer tm).trace = s.trace := rfl
@[simp] theorem State.offer_result (s : State) (tm : Nat) : (s.offer tm).result = s.result := rfl
@[simp] theorem State.offer_nested (s : State) (tm : Nat) : (s.offer tm).nested = s.nested := rfl
@[simp] theorem State.offer_freeCount (s : State) (tm : Nat) : (s.offer tm).freeCount = s.freeCount := rfl
@[simp] theorem State.offer_pic (s : State) (tm : Nat) (e' : Elem) : (s.offer tm).pic e' = s.pic e' := by
  cases e' <;> rfl
@[simp] theorem State.offer_pit (s : State) (tm : Nat) (c' : PitChan) : (s.offer tm).pit c' = s.pit c' := by
  cases c' <;> rfl
@[simp] theorem State.offer_dma (s : State) (tm : Nat) (k' : DmaCtl) : (s.offer tm).dma k' = s.dma k' := by
  cases k' <;> rfl
@[simp] theorem State.offer_expiryOf (s : State) (tm : Nat) (t : Nat) : (s.offer tm).expiryOf t = s.expiryOf t := by
  rfl
@[simp] theorem State.offer_timerEnabled (s : State) (tm : Nat) (t : Nat) : (s.offer tm).timerEnabled t = s.timerEnabled t := by
  rfl
@[simp] theorem State.offer_byteAt (s : State) (tm : Nat) (a : Nat) : (s.offer tm).byteAt a = s.byteAt a := by
  simp only [State.byteAt, State.offer_memory, State.offer_freeCount]
@[simp] theorem State.offer_chan (s : State) (tm : Nat) (k' : DmaCtl) (i' : DmaChan) :
    (s.offer tm).chan k' i' = s.chan k' i' := by
  simp only [State.chan, State.offer_dma]

/-! ## What `remove` leaves -/

@[simp] theorem State.remove_picM (s : State) (tm : Nat) : (s.remove tm).picM = s.picM := rfl
@[simp] theorem State.remove_picS (s : State) (tm : Nat) : (s.remove tm).picS = s.picS := rfl
@[simp] theorem State.remove_pit0 (s : State) (tm : Nat) : (s.remove tm).pit0 = s.pit0 := rfl
@[simp] theorem State.remove_pit1 (s : State) (tm : Nat) : (s.remove tm).pit1 = s.pit1 := rfl
@[simp] theorem State.remove_pit2 (s : State) (tm : Nat) : (s.remove tm).pit2 = s.pit2 := rfl
@[simp] theorem State.remove_pitNext (s : State) (tm : Nat) : (s.remove tm).pitNext = s.pitNext := rfl
@[simp] theorem State.remove_currentTime (s : State) (tm : Nat) : (s.remove tm).currentTime = s.currentTime := rfl
@[simp] theorem State.remove_timers (s : State) (tm : Nat) : (s.remove tm).timers = s.timers := rfl
@[simp] theorem State.remove_dma0 (s : State) (tm : Nat) : (s.remove tm).dma0 = s.dma0 := rfl
@[simp] theorem State.remove_dma1 (s : State) (tm : Nat) : (s.remove tm).dma1 = s.dma1 := rfl
@[simp] theorem State.remove_memory (s : State) (tm : Nat) : (s.remove tm).memory = s.memory := rfl
@[simp] theorem State.remove_calls (s : State) (tm : Nat) : (s.remove tm).calls = s.calls := rfl
@[simp] theorem State.remove_deviceReplies (s : State) (tm : Nat) : (s.remove tm).deviceReplies = s.deviceReplies :=
  rfl
@[simp] theorem State.remove_expiryReplies (s : State) (tm : Nat) : (s.remove tm).expiryReplies = s.expiryReplies :=
  rfl
@[simp] theorem State.remove_cpuReplies (s : State) (tm : Nat) : (s.remove tm).cpuReplies = s.cpuReplies := rfl
@[simp] theorem State.remove_trace (s : State) (tm : Nat) : (s.remove tm).trace = s.trace := rfl
@[simp] theorem State.remove_result (s : State) (tm : Nat) : (s.remove tm).result = s.result := rfl
@[simp] theorem State.remove_nested (s : State) (tm : Nat) : (s.remove tm).nested = s.nested := rfl
@[simp] theorem State.remove_freeCount (s : State) (tm : Nat) : (s.remove tm).freeCount = s.freeCount := rfl
@[simp] theorem State.remove_pic (s : State) (tm : Nat) (e' : Elem) : (s.remove tm).pic e' = s.pic e' := by
  cases e' <;> rfl
@[simp] theorem State.remove_pit (s : State) (tm : Nat) (c' : PitChan) : (s.remove tm).pit c' = s.pit c' := by
  cases c' <;> rfl
@[simp] theorem State.remove_dma (s : State) (tm : Nat) (k' : DmaCtl) : (s.remove tm).dma k' = s.dma k' := by
  cases k' <;> rfl
@[simp] theorem State.remove_expiryOf (s : State) (tm : Nat) (t : Nat) : (s.remove tm).expiryOf t = s.expiryOf t := by
  rfl
@[simp] theorem State.remove_timerEnabled (s : State) (tm : Nat) (t : Nat) : (s.remove tm).timerEnabled t = s.timerEnabled t := by
  rfl
@[simp] theorem State.remove_byteAt (s : State) (tm : Nat) (a : Nat) : (s.remove tm).byteAt a = s.byteAt a := by
  simp only [State.byteAt, State.remove_memory, State.remove_freeCount]
@[simp] theorem State.remove_chan (s : State) (tm : Nat) (k' : DmaCtl) (i' : DmaChan) :
    (s.remove tm).chan k' i' = s.chan k' i' := by
  simp only [State.chan, State.remove_dma]

/-! ## What `update` leaves -/

@[simp] theorem State.update_picM (s : State) (tm : Nat) : (s.update tm).picM = s.picM :=
  by simp only [State.update]; split <;> rfl
@[simp] theorem State.update_picS (s : State) (tm : Nat) : (s.update tm).picS = s.picS :=
  by simp only [State.update]; split <;> rfl
@[simp] theorem State.update_pit0 (s : State) (tm : Nat) : (s.update tm).pit0 = s.pit0 :=
  by simp only [State.update]; split <;> rfl
@[simp] theorem State.update_pit1 (s : State) (tm : Nat) : (s.update tm).pit1 = s.pit1 :=
  by simp only [State.update]; split <;> rfl
@[simp] theorem State.update_pit2 (s : State) (tm : Nat) : (s.update tm).pit2 = s.pit2 :=
  by simp only [State.update]; split <;> rfl
@[simp] theorem State.update_pitNext (s : State) (tm : Nat) : (s.update tm).pitNext = s.pitNext :=
  by simp only [State.update]; split <;> rfl
@[simp] theorem State.update_currentTime (s : State) (tm : Nat) : (s.update tm).currentTime = s.currentTime :=
  by simp only [State.update]; split <;> rfl
@[simp] theorem State.update_timers (s : State) (tm : Nat) : (s.update tm).timers = s.timers :=
  by simp only [State.update]; split <;> rfl
@[simp] theorem State.update_dma0 (s : State) (tm : Nat) : (s.update tm).dma0 = s.dma0 :=
  by simp only [State.update]; split <;> rfl
@[simp] theorem State.update_dma1 (s : State) (tm : Nat) : (s.update tm).dma1 = s.dma1 :=
  by simp only [State.update]; split <;> rfl
@[simp] theorem State.update_memory (s : State) (tm : Nat) : (s.update tm).memory = s.memory :=
  by simp only [State.update]; split <;> rfl
@[simp] theorem State.update_calls (s : State) (tm : Nat) : (s.update tm).calls = s.calls :=
  by simp only [State.update]; split <;> rfl
@[simp] theorem State.update_deviceReplies (s : State) (tm : Nat) : (s.update tm).deviceReplies = s.deviceReplies :=
  by simp only [State.update]; split <;> rfl
@[simp] theorem State.update_expiryReplies (s : State) (tm : Nat) : (s.update tm).expiryReplies = s.expiryReplies :=
  by simp only [State.update]; split <;> rfl
@[simp] theorem State.update_cpuReplies (s : State) (tm : Nat) : (s.update tm).cpuReplies = s.cpuReplies :=
  by simp only [State.update]; split <;> rfl
@[simp] theorem State.update_trace (s : State) (tm : Nat) : (s.update tm).trace = s.trace :=
  by simp only [State.update]; split <;> rfl
@[simp] theorem State.update_result (s : State) (tm : Nat) : (s.update tm).result = s.result :=
  by simp only [State.update]; split <;> rfl
@[simp] theorem State.update_nested (s : State) (tm : Nat) : (s.update tm).nested = s.nested :=
  by simp only [State.update]; split <;> rfl
@[simp] theorem State.update_freeCount (s : State) (tm : Nat) : (s.update tm).freeCount = s.freeCount :=
  by simp only [State.update]; split <;> rfl
@[simp] theorem State.update_pic (s : State) (tm : Nat) (e' : Elem) : (s.update tm).pic e' = s.pic e' := by
  cases e' <;> simp [State.pic]
@[simp] theorem State.update_pit (s : State) (tm : Nat) (c' : PitChan) : (s.update tm).pit c' = s.pit c' := by
  cases c' <;> simp [State.pit]
@[simp] theorem State.update_dma (s : State) (tm : Nat) (k' : DmaCtl) : (s.update tm).dma k' = s.dma k' := by
  cases k' <;> simp [State.dma]
@[simp] theorem State.update_expiryOf (s : State) (tm : Nat) (t : Nat) : (s.update tm).expiryOf t = s.expiryOf t := by
  simp [State.expiryOf]
@[simp] theorem State.update_timerEnabled (s : State) (tm : Nat) (t : Nat) : (s.update tm).timerEnabled t = s.timerEnabled t := by
  simp [State.timerEnabled]
@[simp] theorem State.update_byteAt (s : State) (tm : Nat) (a : Nat) : (s.update tm).byteAt a = s.byteAt a := by
  simp only [State.byteAt, State.update_memory, State.update_freeCount]
@[simp] theorem State.update_chan (s : State) (tm : Nat) (k' : DmaCtl) (i' : DmaChan) :
    (s.update tm).chan k' i' = s.chan k' i' := by
  simp only [State.chan, State.update_dma]

/-! ## What `modifyTimer` leaves -/

@[simp] theorem State.modifyTimer_picM (s : State) (tm : Nat) (f : Timer → Timer) : (s.modifyTimer tm f).picM = s.picM :=
  rfl
@[simp] theorem State.modifyTimer_picS (s : State) (tm : Nat) (f : Timer → Timer) : (s.modifyTimer tm f).picS = s.picS :=
  rfl
@[simp] theorem State.modifyTimer_pit0 (s : State) (tm : Nat) (f : Timer → Timer) : (s.modifyTimer tm f).pit0 = s.pit0 :=
  rfl
@[simp] theorem State.modifyTimer_pit1 (s : State) (tm : Nat) (f : Timer → Timer) : (s.modifyTimer tm f).pit1 = s.pit1 :=
  rfl
@[simp] theorem State.modifyTimer_pit2 (s : State) (tm : Nat) (f : Timer → Timer) : (s.modifyTimer tm f).pit2 = s.pit2 :=
  rfl
@[simp] theorem State.modifyTimer_pitNext (s : State) (tm : Nat) (f : Timer → Timer) : (s.modifyTimer tm f).pitNext = s.pitNext :=
  rfl
@[simp] theorem State.modifyTimer_currentTime (s : State) (tm : Nat) (f : Timer → Timer) : (s.modifyTimer tm f).currentTime = s.currentTime :=
  rfl
@[simp] theorem State.modifyTimer_queue (s : State) (tm : Nat) (f : Timer → Timer) : (s.modifyTimer tm f).queue = s.queue :=
  rfl
@[simp] theorem State.modifyTimer_dma0 (s : State) (tm : Nat) (f : Timer → Timer) : (s.modifyTimer tm f).dma0 = s.dma0 :=
  rfl
@[simp] theorem State.modifyTimer_dma1 (s : State) (tm : Nat) (f : Timer → Timer) : (s.modifyTimer tm f).dma1 = s.dma1 :=
  rfl
@[simp] theorem State.modifyTimer_memory (s : State) (tm : Nat) (f : Timer → Timer) : (s.modifyTimer tm f).memory = s.memory :=
  rfl
@[simp] theorem State.modifyTimer_calls (s : State) (tm : Nat) (f : Timer → Timer) : (s.modifyTimer tm f).calls = s.calls :=
  rfl
@[simp] theorem State.modifyTimer_deviceReplies (s : State) (tm : Nat) (f : Timer → Timer) : (s.modifyTimer tm f).deviceReplies = s.deviceReplies :=
  rfl
@[simp] theorem State.modifyTimer_expiryReplies (s : State) (tm : Nat) (f : Timer → Timer) : (s.modifyTimer tm f).expiryReplies = s.expiryReplies :=
  rfl
@[simp] theorem State.modifyTimer_cpuReplies (s : State) (tm : Nat) (f : Timer → Timer) : (s.modifyTimer tm f).cpuReplies = s.cpuReplies :=
  rfl
@[simp] theorem State.modifyTimer_trace (s : State) (tm : Nat) (f : Timer → Timer) : (s.modifyTimer tm f).trace = s.trace :=
  rfl
@[simp] theorem State.modifyTimer_result (s : State) (tm : Nat) (f : Timer → Timer) : (s.modifyTimer tm f).result = s.result :=
  rfl
@[simp] theorem State.modifyTimer_nested (s : State) (tm : Nat) (f : Timer → Timer) : (s.modifyTimer tm f).nested = s.nested :=
  rfl
@[simp] theorem State.modifyTimer_freeCount (s : State) (tm : Nat) (f : Timer → Timer) : (s.modifyTimer tm f).freeCount = s.freeCount :=
  rfl
@[simp] theorem State.modifyTimer_pic (s : State) (tm : Nat) (f : Timer → Timer) (e' : Elem) : (s.modifyTimer tm f).pic e' = s.pic e' := by
  cases e' <;> rfl
@[simp] theorem State.modifyTimer_pit (s : State) (tm : Nat) (f : Timer → Timer) (c' : PitChan) : (s.modifyTimer tm f).pit c' = s.pit c' := by
  cases c' <;> rfl
@[simp] theorem State.modifyTimer_dma (s : State) (tm : Nat) (f : Timer → Timer) (k' : DmaCtl) : (s.modifyTimer tm f).dma k' = s.dma k' := by
  cases k' <;> rfl
@[simp] theorem State.modifyTimer_byteAt (s : State) (tm : Nat) (f : Timer → Timer) (a : Nat) : (s.modifyTimer tm f).byteAt a = s.byteAt a := by
  simp only [State.byteAt, State.modifyTimer_memory, State.modifyTimer_freeCount]
@[simp] theorem State.modifyTimer_chan (s : State) (tm : Nat) (f : Timer → Timer) (k' : DmaCtl) (i' : DmaChan) :
    (s.modifyTimer tm f).chan k' i' = s.chan k' i' := by
  simp only [State.chan, State.modifyTimer_dma]

/-! ## What `popTimer` leaves -/

@[simp] theorem State.popTimer_picM (s : State) (tm : Nat) : (s.popTimer tm).picM = s.picM := rfl
@[simp] theorem State.popTimer_picS (s : State) (tm : Nat) : (s.popTimer tm).picS = s.picS := rfl
@[simp] theorem State.popTimer_pit0 (s : State) (tm : Nat) : (s.popTimer tm).pit0 = s.pit0 := rfl
@[simp] theorem State.popTimer_pit1 (s : State) (tm : Nat) : (s.popTimer tm).pit1 = s.pit1 := rfl
@[simp] theorem State.popTimer_pit2 (s : State) (tm : Nat) : (s.popTimer tm).pit2 = s.pit2 := rfl
@[simp] theorem State.popTimer_pitNext (s : State) (tm : Nat) : (s.popTimer tm).pitNext = s.pitNext := rfl
@[simp] theorem State.popTimer_currentTime (s : State) (tm : Nat) : (s.popTimer tm).currentTime = s.currentTime := rfl
@[simp] theorem State.popTimer_dma0 (s : State) (tm : Nat) : (s.popTimer tm).dma0 = s.dma0 := rfl
@[simp] theorem State.popTimer_dma1 (s : State) (tm : Nat) : (s.popTimer tm).dma1 = s.dma1 := rfl
@[simp] theorem State.popTimer_memory (s : State) (tm : Nat) : (s.popTimer tm).memory = s.memory := rfl
@[simp] theorem State.popTimer_calls (s : State) (tm : Nat) : (s.popTimer tm).calls = s.calls := rfl
@[simp] theorem State.popTimer_deviceReplies (s : State) (tm : Nat) : (s.popTimer tm).deviceReplies = s.deviceReplies :=
  rfl
@[simp] theorem State.popTimer_expiryReplies (s : State) (tm : Nat) : (s.popTimer tm).expiryReplies = s.expiryReplies :=
  rfl
@[simp] theorem State.popTimer_cpuReplies (s : State) (tm : Nat) : (s.popTimer tm).cpuReplies = s.cpuReplies := rfl
@[simp] theorem State.popTimer_trace (s : State) (tm : Nat) : (s.popTimer tm).trace = s.trace := rfl
@[simp] theorem State.popTimer_result (s : State) (tm : Nat) : (s.popTimer tm).result = s.result := rfl
@[simp] theorem State.popTimer_nested (s : State) (tm : Nat) : (s.popTimer tm).nested = s.nested := rfl
@[simp] theorem State.popTimer_freeCount (s : State) (tm : Nat) : (s.popTimer tm).freeCount = s.freeCount := rfl
@[simp] theorem State.popTimer_pic (s : State) (tm : Nat) (e' : Elem) : (s.popTimer tm).pic e' = s.pic e' := by
  cases e' <;> rfl
@[simp] theorem State.popTimer_pit (s : State) (tm : Nat) (c' : PitChan) : (s.popTimer tm).pit c' = s.pit c' := by
  cases c' <;> rfl
@[simp] theorem State.popTimer_dma (s : State) (tm : Nat) (k' : DmaCtl) : (s.popTimer tm).dma k' = s.dma k' := by
  cases k' <;> rfl
@[simp] theorem State.popTimer_byteAt (s : State) (tm : Nat) (a : Nat) : (s.popTimer tm).byteAt a = s.byteAt a := by
  simp only [State.byteAt, State.popTimer_memory, State.popTimer_freeCount]
@[simp] theorem State.popTimer_chan (s : State) (tm : Nat) (k' : DmaCtl) (i' : DmaChan) :
    (s.popTimer tm).chan k' i' = s.chan k' i' := by
  simp only [State.chan, State.popTimer_dma]

/-! ## What `arm` leaves -/

@[simp] theorem State.arm_picM (s : State) (tm x : Nat) : (s.arm tm x).picM = s.picM := by simp [State.arm]
@[simp] theorem State.arm_picS (s : State) (tm x : Nat) : (s.arm tm x).picS = s.picS := by simp [State.arm]
@[simp] theorem State.arm_pit0 (s : State) (tm x : Nat) : (s.arm tm x).pit0 = s.pit0 := by simp [State.arm]
@[simp] theorem State.arm_pit1 (s : State) (tm x : Nat) : (s.arm tm x).pit1 = s.pit1 := by simp [State.arm]
@[simp] theorem State.arm_pit2 (s : State) (tm x : Nat) : (s.arm tm x).pit2 = s.pit2 := by simp [State.arm]
@[simp] theorem State.arm_pitNext (s : State) (tm x : Nat) : (s.arm tm x).pitNext = s.pitNext := by simp [State.arm]
@[simp] theorem State.arm_currentTime (s : State) (tm x : Nat) : (s.arm tm x).currentTime = s.currentTime :=
  by simp [State.arm]
@[simp] theorem State.arm_dma0 (s : State) (tm x : Nat) : (s.arm tm x).dma0 = s.dma0 := by simp [State.arm]
@[simp] theorem State.arm_dma1 (s : State) (tm x : Nat) : (s.arm tm x).dma1 = s.dma1 := by simp [State.arm]
@[simp] theorem State.arm_memory (s : State) (tm x : Nat) : (s.arm tm x).memory = s.memory := by simp [State.arm]
@[simp] theorem State.arm_calls (s : State) (tm x : Nat) : (s.arm tm x).calls = s.calls := by simp [State.arm]
@[simp] theorem State.arm_deviceReplies (s : State) (tm x : Nat) : (s.arm tm x).deviceReplies = s.deviceReplies :=
  by simp [State.arm]
@[simp] theorem State.arm_expiryReplies (s : State) (tm x : Nat) : (s.arm tm x).expiryReplies = s.expiryReplies :=
  by simp [State.arm]
@[simp] theorem State.arm_cpuReplies (s : State) (tm x : Nat) : (s.arm tm x).cpuReplies = s.cpuReplies :=
  by simp [State.arm]
@[simp] theorem State.arm_trace (s : State) (tm x : Nat) : (s.arm tm x).trace = s.trace := by simp [State.arm]
@[simp] theorem State.arm_result (s : State) (tm x : Nat) : (s.arm tm x).result = s.result := by simp [State.arm]
@[simp] theorem State.arm_nested (s : State) (tm x : Nat) : (s.arm tm x).nested = s.nested := by simp [State.arm]
@[simp] theorem State.arm_freeCount (s : State) (tm x : Nat) : (s.arm tm x).freeCount = s.freeCount :=
  by simp [State.arm]
@[simp] theorem State.arm_pic (s : State) (tm x : Nat) (e' : Elem) : (s.arm tm x).pic e' = s.pic e' := by
  simp [State.arm]
@[simp] theorem State.arm_pit (s : State) (tm x : Nat) (c' : PitChan) : (s.arm tm x).pit c' = s.pit c' := by
  simp [State.arm]
@[simp] theorem State.arm_dma (s : State) (tm x : Nat) (k' : DmaCtl) : (s.arm tm x).dma k' = s.dma k' := by
  simp [State.arm]
@[simp] theorem State.arm_byteAt (s : State) (tm x : Nat) (a : Nat) : (s.arm tm x).byteAt a = s.byteAt a := by
  simp only [State.byteAt, State.arm_memory, State.arm_freeCount]
@[simp] theorem State.arm_chan (s : State) (tm x : Nat) (k' : DmaCtl) (i' : DmaChan) :
    (s.arm tm x).chan k' i' = s.chan k' i' := by
  simp only [State.chan, State.arm_dma]

/-! ## What `disarm` leaves -/

@[simp] theorem State.disarm_picM (s : State) (tm : Nat) : (s.disarm tm).picM = s.picM := by simp [State.disarm]
@[simp] theorem State.disarm_picS (s : State) (tm : Nat) : (s.disarm tm).picS = s.picS := by simp [State.disarm]
@[simp] theorem State.disarm_pit0 (s : State) (tm : Nat) : (s.disarm tm).pit0 = s.pit0 := by simp [State.disarm]
@[simp] theorem State.disarm_pit1 (s : State) (tm : Nat) : (s.disarm tm).pit1 = s.pit1 := by simp [State.disarm]
@[simp] theorem State.disarm_pit2 (s : State) (tm : Nat) : (s.disarm tm).pit2 = s.pit2 := by simp [State.disarm]
@[simp] theorem State.disarm_pitNext (s : State) (tm : Nat) : (s.disarm tm).pitNext = s.pitNext :=
  by simp [State.disarm]
@[simp] theorem State.disarm_currentTime (s : State) (tm : Nat) : (s.disarm tm).currentTime = s.currentTime :=
  by simp [State.disarm]
@[simp] theorem State.disarm_dma0 (s : State) (tm : Nat) : (s.disarm tm).dma0 = s.dma0 := by simp [State.disarm]
@[simp] theorem State.disarm_dma1 (s : State) (tm : Nat) : (s.disarm tm).dma1 = s.dma1 := by simp [State.disarm]
@[simp] theorem State.disarm_memory (s : State) (tm : Nat) : (s.disarm tm).memory = s.memory := by simp [State.disarm]
@[simp] theorem State.disarm_calls (s : State) (tm : Nat) : (s.disarm tm).calls = s.calls := by simp [State.disarm]
@[simp] theorem State.disarm_deviceReplies (s : State) (tm : Nat) : (s.disarm tm).deviceReplies = s.deviceReplies :=
  by simp [State.disarm]
@[simp] theorem State.disarm_expiryReplies (s : State) (tm : Nat) : (s.disarm tm).expiryReplies = s.expiryReplies :=
  by simp [State.disarm]
@[simp] theorem State.disarm_cpuReplies (s : State) (tm : Nat) : (s.disarm tm).cpuReplies = s.cpuReplies :=
  by simp [State.disarm]
@[simp] theorem State.disarm_trace (s : State) (tm : Nat) : (s.disarm tm).trace = s.trace := by simp [State.disarm]
@[simp] theorem State.disarm_result (s : State) (tm : Nat) : (s.disarm tm).result = s.result := by simp [State.disarm]
@[simp] theorem State.disarm_nested (s : State) (tm : Nat) : (s.disarm tm).nested = s.nested := by simp [State.disarm]
@[simp] theorem State.disarm_freeCount (s : State) (tm : Nat) : (s.disarm tm).freeCount = s.freeCount :=
  by simp [State.disarm]
@[simp] theorem State.disarm_pic (s : State) (tm : Nat) (e' : Elem) : (s.disarm tm).pic e' = s.pic e' := by
  simp [State.disarm]
@[simp] theorem State.disarm_pit (s : State) (tm : Nat) (c' : PitChan) : (s.disarm tm).pit c' = s.pit c' := by
  simp [State.disarm]
@[simp] theorem State.disarm_dma (s : State) (tm : Nat) (k' : DmaCtl) : (s.disarm tm).dma k' = s.dma k' := by
  simp [State.disarm]
@[simp] theorem State.disarm_byteAt (s : State) (tm : Nat) (a : Nat) : (s.disarm tm).byteAt a = s.byteAt a := by
  simp only [State.byteAt, State.disarm_memory, State.disarm_freeCount]
@[simp] theorem State.disarm_chan (s : State) (tm : Nat) (k' : DmaCtl) (i' : DmaChan) :
    (s.disarm tm).chan k' i' = s.chan k' i' := by
  simp only [State.chan, State.disarm_dma]

/-! ## What `changeTimer` leaves -/

@[simp] theorem State.changeTimer_picM (s : State) (tm : Nat) (m : TimerChange) : (s.changeTimer tm m).picM = s.picM :=
  by cases m <;> simp [State.changeTimer]
@[simp] theorem State.changeTimer_picS (s : State) (tm : Nat) (m : TimerChange) : (s.changeTimer tm m).picS = s.picS :=
  by cases m <;> simp [State.changeTimer]
@[simp] theorem State.changeTimer_pit0 (s : State) (tm : Nat) (m : TimerChange) : (s.changeTimer tm m).pit0 = s.pit0 :=
  by cases m <;> simp [State.changeTimer]
@[simp] theorem State.changeTimer_pit1 (s : State) (tm : Nat) (m : TimerChange) : (s.changeTimer tm m).pit1 = s.pit1 :=
  by cases m <;> simp [State.changeTimer]
@[simp] theorem State.changeTimer_pit2 (s : State) (tm : Nat) (m : TimerChange) : (s.changeTimer tm m).pit2 = s.pit2 :=
  by cases m <;> simp [State.changeTimer]
@[simp] theorem State.changeTimer_pitNext (s : State) (tm : Nat) (m : TimerChange) : (s.changeTimer tm m).pitNext = s.pitNext :=
  by cases m <;> simp [State.changeTimer]
@[simp] theorem State.changeTimer_currentTime (s : State) (tm : Nat) (m : TimerChange) : (s.changeTimer tm m).currentTime = s.currentTime :=
  by cases m <;> simp [State.changeTimer]
@[simp] theorem State.changeTimer_dma0 (s : State) (tm : Nat) (m : TimerChange) : (s.changeTimer tm m).dma0 = s.dma0 :=
  by cases m <;> simp [State.changeTimer]
@[simp] theorem State.changeTimer_dma1 (s : State) (tm : Nat) (m : TimerChange) : (s.changeTimer tm m).dma1 = s.dma1 :=
  by cases m <;> simp [State.changeTimer]
@[simp] theorem State.changeTimer_memory (s : State) (tm : Nat) (m : TimerChange) : (s.changeTimer tm m).memory = s.memory :=
  by cases m <;> simp [State.changeTimer]
@[simp] theorem State.changeTimer_calls (s : State) (tm : Nat) (m : TimerChange) : (s.changeTimer tm m).calls = s.calls :=
  by cases m <;> simp [State.changeTimer]
@[simp] theorem State.changeTimer_deviceReplies (s : State) (tm : Nat) (m : TimerChange) : (s.changeTimer tm m).deviceReplies = s.deviceReplies :=
  by cases m <;> simp [State.changeTimer]
@[simp] theorem State.changeTimer_expiryReplies (s : State) (tm : Nat) (m : TimerChange) : (s.changeTimer tm m).expiryReplies = s.expiryReplies :=
  by cases m <;> simp [State.changeTimer]
@[simp] theorem State.changeTimer_cpuReplies (s : State) (tm : Nat) (m : TimerChange) : (s.changeTimer tm m).cpuReplies = s.cpuReplies :=
  by cases m <;> simp [State.changeTimer]
@[simp] theorem State.changeTimer_trace (s : State) (tm : Nat) (m : TimerChange) : (s.changeTimer tm m).trace = s.trace :=
  by cases m <;> simp [State.changeTimer]
@[simp] theorem State.changeTimer_result (s : State) (tm : Nat) (m : TimerChange) : (s.changeTimer tm m).result = s.result :=
  by cases m <;> simp [State.changeTimer]
@[simp] theorem State.changeTimer_nested (s : State) (tm : Nat) (m : TimerChange) : (s.changeTimer tm m).nested = s.nested :=
  by cases m <;> simp [State.changeTimer]
@[simp] theorem State.changeTimer_freeCount (s : State) (tm : Nat) (m : TimerChange) : (s.changeTimer tm m).freeCount = s.freeCount :=
  by cases m <;> simp [State.changeTimer]
@[simp] theorem State.changeTimer_pic (s : State) (tm : Nat) (m : TimerChange) (e' : Elem) : (s.changeTimer tm m).pic e' = s.pic e' := by
  cases e' <;> simp [State.pic]
@[simp] theorem State.changeTimer_pit (s : State) (tm : Nat) (m : TimerChange) (c' : PitChan) : (s.changeTimer tm m).pit c' = s.pit c' := by
  cases c' <;> simp [State.pit]
@[simp] theorem State.changeTimer_dma (s : State) (tm : Nat) (m : TimerChange) (k' : DmaCtl) : (s.changeTimer tm m).dma k' = s.dma k' := by
  cases k' <;> simp [State.dma]
@[simp] theorem State.changeTimer_byteAt (s : State) (tm : Nat) (m : TimerChange) (a : Nat) : (s.changeTimer tm m).byteAt a = s.byteAt a := by
  simp only [State.byteAt, State.changeTimer_memory, State.changeTimer_freeCount]
@[simp] theorem State.changeTimer_chan (s : State) (tm : Nat) (m : TimerChange) (k' : DmaCtl) (i' : DmaChan) :
    (s.changeTimer tm m).chan k' i' = s.chan k' i' := by
  simp only [State.chan, State.changeTimer_dma]

/-! ## What `updateIrq` leaves -/

@[simp] theorem State.updateIrq_picS (s : State) : s.updateIrq.picS = s.picS :=
  by simp only [State.updateIrq]; split <;> split <;> rfl
@[simp] theorem State.updateIrq_pit0 (s : State) : s.updateIrq.pit0 = s.pit0 :=
  by simp only [State.updateIrq]; split <;> split <;> rfl
@[simp] theorem State.updateIrq_pit1 (s : State) : s.updateIrq.pit1 = s.pit1 :=
  by simp only [State.updateIrq]; split <;> split <;> rfl
@[simp] theorem State.updateIrq_pit2 (s : State) : s.updateIrq.pit2 = s.pit2 :=
  by simp only [State.updateIrq]; split <;> split <;> rfl
@[simp] theorem State.updateIrq_pitNext (s : State) : s.updateIrq.pitNext = s.pitNext :=
  by simp only [State.updateIrq]; split <;> split <;> rfl
@[simp] theorem State.updateIrq_currentTime (s : State) : s.updateIrq.currentTime = s.currentTime :=
  by simp only [State.updateIrq]; split <;> split <;> rfl
@[simp] theorem State.updateIrq_timers (s : State) : s.updateIrq.timers = s.timers :=
  by simp only [State.updateIrq]; split <;> split <;> rfl
@[simp] theorem State.updateIrq_queue (s : State) : s.updateIrq.queue = s.queue :=
  by simp only [State.updateIrq]; split <;> split <;> rfl
@[simp] theorem State.updateIrq_dma0 (s : State) : s.updateIrq.dma0 = s.dma0 :=
  by simp only [State.updateIrq]; split <;> split <;> rfl
@[simp] theorem State.updateIrq_dma1 (s : State) : s.updateIrq.dma1 = s.dma1 :=
  by simp only [State.updateIrq]; split <;> split <;> rfl
@[simp] theorem State.updateIrq_memory (s : State) : s.updateIrq.memory = s.memory :=
  by simp only [State.updateIrq]; split <;> split <;> rfl
@[simp] theorem State.updateIrq_calls (s : State) : s.updateIrq.calls = s.calls :=
  by simp only [State.updateIrq]; split <;> split <;> rfl
@[simp] theorem State.updateIrq_deviceReplies (s : State) : s.updateIrq.deviceReplies = s.deviceReplies :=
  by simp only [State.updateIrq]; split <;> split <;> rfl
@[simp] theorem State.updateIrq_expiryReplies (s : State) : s.updateIrq.expiryReplies = s.expiryReplies :=
  by simp only [State.updateIrq]; split <;> split <;> rfl
@[simp] theorem State.updateIrq_result (s : State) : s.updateIrq.result = s.result :=
  by simp only [State.updateIrq]; split <;> split <;> rfl
@[simp] theorem State.updateIrq_nested (s : State) : s.updateIrq.nested = s.nested :=
  by simp only [State.updateIrq]; split <;> split <;> rfl
@[simp] theorem State.updateIrq_freeCount (s : State) : s.updateIrq.freeCount = s.freeCount :=
  by simp only [State.updateIrq]; split <;> split <;> rfl
@[simp] theorem State.updateIrq_pit (s : State) (c' : PitChan) : s.updateIrq.pit c' = s.pit c' := by
  cases c' <;> simp [State.pit]
@[simp] theorem State.updateIrq_dma (s : State) (k' : DmaCtl) : s.updateIrq.dma k' = s.dma k' := by
  cases k' <;> simp [State.dma]
@[simp] theorem State.updateIrq_expiryOf (s : State) (t : Nat) : s.updateIrq.expiryOf t = s.expiryOf t := by
  simp [State.expiryOf]
@[simp] theorem State.updateIrq_timerEnabled (s : State) (t : Nat) : s.updateIrq.timerEnabled t = s.timerEnabled t := by
  simp [State.timerEnabled]
@[simp] theorem State.updateIrq_byteAt (s : State) (a : Nat) : s.updateIrq.byteAt a = s.byteAt a := by
  simp only [State.byteAt, State.updateIrq_memory, State.updateIrq_freeCount]
@[simp] theorem State.updateIrq_chan (s : State) (k' : DmaCtl) (i' : DmaChan) :
    s.updateIrq.chan k' i' = s.chan k' i' := by
  simp only [State.chan, State.updateIrq_dma]

/-! ## What `setIrq` leaves -/

@[simp] theorem State.setIrq_pit0 (s : State) (line : Nat) (l : Bool) : (s.setIrq line l).pit0 = s.pit0 :=
  by simp [State.setIrq]
@[simp] theorem State.setIrq_pit1 (s : State) (line : Nat) (l : Bool) : (s.setIrq line l).pit1 = s.pit1 :=
  by simp [State.setIrq]
@[simp] theorem State.setIrq_pit2 (s : State) (line : Nat) (l : Bool) : (s.setIrq line l).pit2 = s.pit2 :=
  by simp [State.setIrq]
@[simp] theorem State.setIrq_pitNext (s : State) (line : Nat) (l : Bool) : (s.setIrq line l).pitNext = s.pitNext :=
  by simp [State.setIrq]
@[simp] theorem State.setIrq_currentTime (s : State) (line : Nat) (l : Bool) : (s.setIrq line l).currentTime = s.currentTime :=
  by simp [State.setIrq]
@[simp] theorem State.setIrq_timers (s : State) (line : Nat) (l : Bool) : (s.setIrq line l).timers = s.timers :=
  by simp [State.setIrq]
@[simp] theorem State.setIrq_queue (s : State) (line : Nat) (l : Bool) : (s.setIrq line l).queue = s.queue :=
  by simp [State.setIrq]
@[simp] theorem State.setIrq_dma0 (s : State) (line : Nat) (l : Bool) : (s.setIrq line l).dma0 = s.dma0 :=
  by simp [State.setIrq]
@[simp] theorem State.setIrq_dma1 (s : State) (line : Nat) (l : Bool) : (s.setIrq line l).dma1 = s.dma1 :=
  by simp [State.setIrq]
@[simp] theorem State.setIrq_memory (s : State) (line : Nat) (l : Bool) : (s.setIrq line l).memory = s.memory :=
  by simp [State.setIrq]
@[simp] theorem State.setIrq_calls (s : State) (line : Nat) (l : Bool) : (s.setIrq line l).calls = s.calls :=
  by simp [State.setIrq]
@[simp] theorem State.setIrq_deviceReplies (s : State) (line : Nat) (l : Bool) : (s.setIrq line l).deviceReplies = s.deviceReplies :=
  by simp [State.setIrq]
@[simp] theorem State.setIrq_expiryReplies (s : State) (line : Nat) (l : Bool) : (s.setIrq line l).expiryReplies = s.expiryReplies :=
  by simp [State.setIrq]
@[simp] theorem State.setIrq_result (s : State) (line : Nat) (l : Bool) : (s.setIrq line l).result = s.result :=
  by simp [State.setIrq]
@[simp] theorem State.setIrq_nested (s : State) (line : Nat) (l : Bool) : (s.setIrq line l).nested = s.nested :=
  by simp [State.setIrq]
@[simp] theorem State.setIrq_freeCount (s : State) (line : Nat) (l : Bool) : (s.setIrq line l).freeCount = s.freeCount :=
  by simp [State.setIrq]
@[simp] theorem State.setIrq_pit (s : State) (line : Nat) (l : Bool) (c' : PitChan) : (s.setIrq line l).pit c' = s.pit c' := by
  simp [State.setIrq]
@[simp] theorem State.setIrq_dma (s : State) (line : Nat) (l : Bool) (k' : DmaCtl) : (s.setIrq line l).dma k' = s.dma k' := by
  simp [State.setIrq]
@[simp] theorem State.setIrq_expiryOf (s : State) (line : Nat) (l : Bool) (t : Nat) : (s.setIrq line l).expiryOf t = s.expiryOf t := by
  simp [State.setIrq]
@[simp] theorem State.setIrq_timerEnabled (s : State) (line : Nat) (l : Bool) (t : Nat) : (s.setIrq line l).timerEnabled t = s.timerEnabled t := by
  simp [State.setIrq]
@[simp] theorem State.setIrq_byteAt (s : State) (line : Nat) (l : Bool) (a : Nat) : (s.setIrq line l).byteAt a = s.byteAt a := by
  simp only [State.byteAt, State.setIrq_memory, State.setIrq_freeCount]
@[simp] theorem State.setIrq_chan (s : State) (line : Nat) (l : Bool) (k' : DmaCtl) (i' : DmaChan) :
    (s.setIrq line l).chan k' i' = s.chan k' i' := by
  simp only [State.chan, State.setIrq_dma]

/-! ## What `irqTimerUpdate` leaves -/

@[simp] theorem State.irqTimerUpdate_pit0 (s : State) (ch : PitChan) (now : Nat) : (s.irqTimerUpdate ch now).pit0 = s.pit0 :=
  by cases ch <;> first | rfl | (simp only [State.irqTimerUpdate]; split <;> simp)
@[simp] theorem State.irqTimerUpdate_pit1 (s : State) (ch : PitChan) (now : Nat) : (s.irqTimerUpdate ch now).pit1 = s.pit1 :=
  by cases ch <;> first | rfl | (simp only [State.irqTimerUpdate]; split <;> simp)
@[simp] theorem State.irqTimerUpdate_pit2 (s : State) (ch : PitChan) (now : Nat) : (s.irqTimerUpdate ch now).pit2 = s.pit2 :=
  by cases ch <;> first | rfl | (simp only [State.irqTimerUpdate]; split <;> simp)
@[simp] theorem State.irqTimerUpdate_currentTime (s : State) (ch : PitChan) (now : Nat) : (s.irqTimerUpdate ch now).currentTime = s.currentTime :=
  by cases ch <;> first | rfl | (simp only [State.irqTimerUpdate]; split <;> simp)
@[simp] theorem State.irqTimerUpdate_dma0 (s : State) (ch : PitChan) (now : Nat) : (s.irqTimerUpdate ch now).dma0 = s.dma0 :=
  by cases ch <;> first | rfl | (simp only [State.irqTimerUpdate]; split <;> simp)
@[simp] theorem State.irqTimerUpdate_dma1 (s : State) (ch : PitChan) (now : Nat) : (s.irqTimerUpdate ch now).dma1 = s.dma1 :=
  by cases ch <;> first | rfl | (simp only [State.irqTimerUpdate]; split <;> simp)
@[simp] theorem State.irqTimerUpdate_memory (s : State) (ch : PitChan) (now : Nat) : (s.irqTimerUpdate ch now).memory = s.memory :=
  by cases ch <;> first | rfl | (simp only [State.irqTimerUpdate]; split <;> simp)
@[simp] theorem State.irqTimerUpdate_calls (s : State) (ch : PitChan) (now : Nat) : (s.irqTimerUpdate ch now).calls = s.calls :=
  by cases ch <;> first | rfl | (simp only [State.irqTimerUpdate]; split <;> simp)
@[simp] theorem State.irqTimerUpdate_deviceReplies (s : State) (ch : PitChan) (now : Nat) : (s.irqTimerUpdate ch now).deviceReplies = s.deviceReplies :=
  by cases ch <;> first | rfl | (simp only [State.irqTimerUpdate]; split <;> simp)
@[simp] theorem State.irqTimerUpdate_expiryReplies (s : State) (ch : PitChan) (now : Nat) : (s.irqTimerUpdate ch now).expiryReplies = s.expiryReplies :=
  by cases ch <;> first | rfl | (simp only [State.irqTimerUpdate]; split <;> simp)
@[simp] theorem State.irqTimerUpdate_result (s : State) (ch : PitChan) (now : Nat) : (s.irqTimerUpdate ch now).result = s.result :=
  by cases ch <;> first | rfl | (simp only [State.irqTimerUpdate]; split <;> simp)
@[simp] theorem State.irqTimerUpdate_nested (s : State) (ch : PitChan) (now : Nat) : (s.irqTimerUpdate ch now).nested = s.nested :=
  by cases ch <;> first | rfl | (simp only [State.irqTimerUpdate]; split <;> simp)
@[simp] theorem State.irqTimerUpdate_freeCount (s : State) (ch : PitChan) (now : Nat) : (s.irqTimerUpdate ch now).freeCount = s.freeCount :=
  by cases ch <;> first | rfl | (simp only [State.irqTimerUpdate]; split <;> simp)
@[simp] theorem State.irqTimerUpdate_pit (s : State) (ch : PitChan) (now : Nat) (c' : PitChan) : (s.irqTimerUpdate ch now).pit c' = s.pit c' := by
  cases c' <;> simp [State.pit]
@[simp] theorem State.irqTimerUpdate_dma (s : State) (ch : PitChan) (now : Nat) (k' : DmaCtl) : (s.irqTimerUpdate ch now).dma k' = s.dma k' := by
  cases k' <;> simp [State.dma]
@[simp] theorem State.irqTimerUpdate_byteAt (s : State) (ch : PitChan) (now : Nat) (a : Nat) : (s.irqTimerUpdate ch now).byteAt a = s.byteAt a := by
  simp only [State.byteAt, State.irqTimerUpdate_memory, State.irqTimerUpdate_freeCount]
@[simp] theorem State.irqTimerUpdate_chan (s : State) (ch : PitChan) (now : Nat) (k' : DmaCtl) (i' : DmaChan) :
    (s.irqTimerUpdate ch now).chan k' i' = s.chan k' i' := by
  simp only [State.chan, State.irqTimerUpdate_dma]

/-! ## What `pitOnExpiry` leaves -/

@[simp] theorem State.pitOnExpiry_pit0 (s : State) : s.pitOnExpiry.pit0 = s.pit0 :=
  by simp only [State.pitOnExpiry]; split <;> simp
@[simp] theorem State.pitOnExpiry_pit1 (s : State) : s.pitOnExpiry.pit1 = s.pit1 :=
  by simp only [State.pitOnExpiry]; split <;> simp
@[simp] theorem State.pitOnExpiry_pit2 (s : State) : s.pitOnExpiry.pit2 = s.pit2 :=
  by simp only [State.pitOnExpiry]; split <;> simp
@[simp] theorem State.pitOnExpiry_currentTime (s : State) : s.pitOnExpiry.currentTime = s.currentTime :=
  by simp only [State.pitOnExpiry]; split <;> simp
@[simp] theorem State.pitOnExpiry_dma0 (s : State) : s.pitOnExpiry.dma0 = s.dma0 :=
  by simp only [State.pitOnExpiry]; split <;> simp
@[simp] theorem State.pitOnExpiry_dma1 (s : State) : s.pitOnExpiry.dma1 = s.dma1 :=
  by simp only [State.pitOnExpiry]; split <;> simp
@[simp] theorem State.pitOnExpiry_memory (s : State) : s.pitOnExpiry.memory = s.memory :=
  by simp only [State.pitOnExpiry]; split <;> simp
@[simp] theorem State.pitOnExpiry_calls (s : State) : s.pitOnExpiry.calls = s.calls :=
  by simp only [State.pitOnExpiry]; split <;> simp
@[simp] theorem State.pitOnExpiry_deviceReplies (s : State) : s.pitOnExpiry.deviceReplies = s.deviceReplies :=
  by simp only [State.pitOnExpiry]; split <;> simp
@[simp] theorem State.pitOnExpiry_expiryReplies (s : State) : s.pitOnExpiry.expiryReplies = s.expiryReplies :=
  by simp only [State.pitOnExpiry]; split <;> simp
@[simp] theorem State.pitOnExpiry_result (s : State) : s.pitOnExpiry.result = s.result :=
  by simp only [State.pitOnExpiry]; split <;> simp
@[simp] theorem State.pitOnExpiry_nested (s : State) : s.pitOnExpiry.nested = s.nested :=
  by simp only [State.pitOnExpiry]; split <;> simp
@[simp] theorem State.pitOnExpiry_freeCount (s : State) : s.pitOnExpiry.freeCount = s.freeCount :=
  by simp only [State.pitOnExpiry]; split <;> simp
@[simp] theorem State.pitOnExpiry_pit (s : State) (c' : PitChan) : s.pitOnExpiry.pit c' = s.pit c' := by
  cases c' <;> simp [State.pit]
@[simp] theorem State.pitOnExpiry_dma (s : State) (k' : DmaCtl) : s.pitOnExpiry.dma k' = s.dma k' := by
  cases k' <;> simp [State.dma]
@[simp] theorem State.pitOnExpiry_byteAt (s : State) (a : Nat) : s.pitOnExpiry.byteAt a = s.byteAt a := by
  simp only [State.byteAt, State.pitOnExpiry_memory, State.pitOnExpiry_freeCount]
@[simp] theorem State.pitOnExpiry_chan (s : State) (k' : DmaCtl) (i' : DmaChan) :
    s.pitOnExpiry.chan k' i' = s.chan k' i' := by
  simp only [State.chan, State.pitOnExpiry_dma]

/-! ## What `loadCount` leaves -/

@[simp] theorem State.loadCount_currentTime (s : State) (ch : PitChan) (v : Half) : (s.loadCount ch v).currentTime = s.currentTime :=
  by simp [State.loadCount]
@[simp] theorem State.loadCount_dma0 (s : State) (ch : PitChan) (v : Half) : (s.loadCount ch v).dma0 = s.dma0 :=
  by simp [State.loadCount]
@[simp] theorem State.loadCount_dma1 (s : State) (ch : PitChan) (v : Half) : (s.loadCount ch v).dma1 = s.dma1 :=
  by simp [State.loadCount]
@[simp] theorem State.loadCount_memory (s : State) (ch : PitChan) (v : Half) : (s.loadCount ch v).memory = s.memory :=
  by simp [State.loadCount]
@[simp] theorem State.loadCount_calls (s : State) (ch : PitChan) (v : Half) : (s.loadCount ch v).calls = s.calls :=
  by simp [State.loadCount]
@[simp] theorem State.loadCount_deviceReplies (s : State) (ch : PitChan) (v : Half) : (s.loadCount ch v).deviceReplies = s.deviceReplies :=
  by simp [State.loadCount]
@[simp] theorem State.loadCount_expiryReplies (s : State) (ch : PitChan) (v : Half) : (s.loadCount ch v).expiryReplies = s.expiryReplies :=
  by simp [State.loadCount]
@[simp] theorem State.loadCount_result (s : State) (ch : PitChan) (v : Half) : (s.loadCount ch v).result = s.result :=
  by simp [State.loadCount]
@[simp] theorem State.loadCount_nested (s : State) (ch : PitChan) (v : Half) : (s.loadCount ch v).nested = s.nested :=
  by simp [State.loadCount]
@[simp] theorem State.loadCount_freeCount (s : State) (ch : PitChan) (v : Half) : (s.loadCount ch v).freeCount = s.freeCount :=
  by simp [State.loadCount]
@[simp] theorem State.loadCount_dma (s : State) (ch : PitChan) (v : Half) (k' : DmaCtl) : (s.loadCount ch v).dma k' = s.dma k' := by
  simp [State.loadCount]
@[simp] theorem State.loadCount_byteAt (s : State) (ch : PitChan) (v : Half) (a : Nat) : (s.loadCount ch v).byteAt a = s.byteAt a := by
  simp only [State.byteAt, State.loadCount_memory, State.loadCount_freeCount]
@[simp] theorem State.loadCount_chan (s : State) (ch : PitChan) (v : Half) (k' : DmaCtl) (i' : DmaChan) :
    (s.loadCount ch v).chan k' i' = s.chan k' i' := by
  simp only [State.chan, State.loadCount_dma]

/-! ## What `pitChannelReset` leaves -/

@[simp] theorem State.pitChannelReset_currentTime (s : State) (ch : PitChan) : (s.pitChannelReset ch).currentTime = s.currentTime :=
  by simp [State.pitChannelReset]
@[simp] theorem State.pitChannelReset_dma0 (s : State) (ch : PitChan) : (s.pitChannelReset ch).dma0 = s.dma0 :=
  by simp [State.pitChannelReset]
@[simp] theorem State.pitChannelReset_dma1 (s : State) (ch : PitChan) : (s.pitChannelReset ch).dma1 = s.dma1 :=
  by simp [State.pitChannelReset]
@[simp] theorem State.pitChannelReset_memory (s : State) (ch : PitChan) : (s.pitChannelReset ch).memory = s.memory :=
  by simp [State.pitChannelReset]
@[simp] theorem State.pitChannelReset_calls (s : State) (ch : PitChan) : (s.pitChannelReset ch).calls = s.calls :=
  by simp [State.pitChannelReset]
@[simp] theorem State.pitChannelReset_deviceReplies (s : State) (ch : PitChan) : (s.pitChannelReset ch).deviceReplies = s.deviceReplies :=
  by simp [State.pitChannelReset]
@[simp] theorem State.pitChannelReset_expiryReplies (s : State) (ch : PitChan) : (s.pitChannelReset ch).expiryReplies = s.expiryReplies :=
  by simp [State.pitChannelReset]
@[simp] theorem State.pitChannelReset_result (s : State) (ch : PitChan) : (s.pitChannelReset ch).result = s.result :=
  by simp [State.pitChannelReset]
@[simp] theorem State.pitChannelReset_nested (s : State) (ch : PitChan) : (s.pitChannelReset ch).nested = s.nested :=
  by simp [State.pitChannelReset]
@[simp] theorem State.pitChannelReset_freeCount (s : State) (ch : PitChan) : (s.pitChannelReset ch).freeCount = s.freeCount :=
  by simp [State.pitChannelReset]
@[simp] theorem State.pitChannelReset_dma (s : State) (ch : PitChan) (k' : DmaCtl) : (s.pitChannelReset ch).dma k' = s.dma k' := by
  simp [State.pitChannelReset]
@[simp] theorem State.pitChannelReset_byteAt (s : State) (ch : PitChan) (a : Nat) : (s.pitChannelReset ch).byteAt a = s.byteAt a := by
  simp only [State.byteAt, State.pitChannelReset_memory, State.pitChannelReset_freeCount]
@[simp] theorem State.pitChannelReset_chan (s : State) (ch : PitChan) (k' : DmaCtl) (i' : DmaChan) :
    (s.pitChannelReset ch).chan k' i' = s.chan k' i' := by
  simp only [State.chan, State.pitChannelReset_dma]

/-! ## What `setGate` leaves -/

@[simp] theorem State.setGate_currentTime (s : State) (ch : PitChan) (l : Bool) : (s.setGate ch l).currentTime = s.currentTime :=
  by simp only [State.setGate]; split <;> simp
@[simp] theorem State.setGate_dma0 (s : State) (ch : PitChan) (l : Bool) : (s.setGate ch l).dma0 = s.dma0 :=
  by simp only [State.setGate]; split <;> simp
@[simp] theorem State.setGate_dma1 (s : State) (ch : PitChan) (l : Bool) : (s.setGate ch l).dma1 = s.dma1 :=
  by simp only [State.setGate]; split <;> simp
@[simp] theorem State.setGate_memory (s : State) (ch : PitChan) (l : Bool) : (s.setGate ch l).memory = s.memory :=
  by simp only [State.setGate]; split <;> simp
@[simp] theorem State.setGate_calls (s : State) (ch : PitChan) (l : Bool) : (s.setGate ch l).calls = s.calls :=
  by simp only [State.setGate]; split <;> simp
@[simp] theorem State.setGate_deviceReplies (s : State) (ch : PitChan) (l : Bool) : (s.setGate ch l).deviceReplies = s.deviceReplies :=
  by simp only [State.setGate]; split <;> simp
@[simp] theorem State.setGate_expiryReplies (s : State) (ch : PitChan) (l : Bool) : (s.setGate ch l).expiryReplies = s.expiryReplies :=
  by simp only [State.setGate]; split <;> simp
@[simp] theorem State.setGate_result (s : State) (ch : PitChan) (l : Bool) : (s.setGate ch l).result = s.result :=
  by simp only [State.setGate]; split <;> simp
@[simp] theorem State.setGate_nested (s : State) (ch : PitChan) (l : Bool) : (s.setGate ch l).nested = s.nested :=
  by simp only [State.setGate]; split <;> simp
@[simp] theorem State.setGate_freeCount (s : State) (ch : PitChan) (l : Bool) : (s.setGate ch l).freeCount = s.freeCount :=
  by simp only [State.setGate]; split <;> simp
@[simp] theorem State.setGate_dma (s : State) (ch : PitChan) (l : Bool) (k' : DmaCtl) : (s.setGate ch l).dma k' = s.dma k' := by
  cases k' <;> simp [State.dma]
@[simp] theorem State.setGate_byteAt (s : State) (ch : PitChan) (l : Bool) (a : Nat) : (s.setGate ch l).byteAt a = s.byteAt a := by
  simp only [State.byteAt, State.setGate_memory, State.setGate_freeCount]
@[simp] theorem State.setGate_chan (s : State) (ch : PitChan) (l : Bool) (k' : DmaCtl) (i' : DmaChan) :
    (s.setGate ch l).chan k' i' = s.chan k' i' := by
  simp only [State.chan, State.setGate_dma]

/-! ## What `picReset` leaves -/

@[simp] theorem State.picReset_pit0 (s : State) : s.picReset.pit0 = s.pit0 := rfl
@[simp] theorem State.picReset_pit1 (s : State) : s.picReset.pit1 = s.pit1 := rfl
@[simp] theorem State.picReset_pit2 (s : State) : s.picReset.pit2 = s.pit2 := rfl
@[simp] theorem State.picReset_pitNext (s : State) : s.picReset.pitNext = s.pitNext := rfl
@[simp] theorem State.picReset_currentTime (s : State) : s.picReset.currentTime = s.currentTime := rfl
@[simp] theorem State.picReset_timers (s : State) : s.picReset.timers = s.timers := rfl
@[simp] theorem State.picReset_queue (s : State) : s.picReset.queue = s.queue := rfl
@[simp] theorem State.picReset_dma0 (s : State) : s.picReset.dma0 = s.dma0 := rfl
@[simp] theorem State.picReset_dma1 (s : State) : s.picReset.dma1 = s.dma1 := rfl
@[simp] theorem State.picReset_memory (s : State) : s.picReset.memory = s.memory := rfl
@[simp] theorem State.picReset_calls (s : State) : s.picReset.calls = s.calls := rfl
@[simp] theorem State.picReset_deviceReplies (s : State) : s.picReset.deviceReplies = s.deviceReplies := rfl
@[simp] theorem State.picReset_expiryReplies (s : State) : s.picReset.expiryReplies = s.expiryReplies := rfl
@[simp] theorem State.picReset_cpuReplies (s : State) : s.picReset.cpuReplies = s.cpuReplies := rfl
@[simp] theorem State.picReset_trace (s : State) : s.picReset.trace = s.trace := rfl
@[simp] theorem State.picReset_result (s : State) : s.picReset.result = s.result := rfl
@[simp] theorem State.picReset_nested (s : State) : s.picReset.nested = s.nested := rfl
@[simp] theorem State.picReset_freeCount (s : State) : s.picReset.freeCount = s.freeCount := rfl
@[simp] theorem State.picReset_pit (s : State) (c' : PitChan) : s.picReset.pit c' = s.pit c' := by
  cases c' <;> rfl
@[simp] theorem State.picReset_dma (s : State) (k' : DmaCtl) : s.picReset.dma k' = s.dma k' := by
  cases k' <;> rfl
@[simp] theorem State.picReset_expiryOf (s : State) (t : Nat) : s.picReset.expiryOf t = s.expiryOf t := by
  rfl
@[simp] theorem State.picReset_timerEnabled (s : State) (t : Nat) : s.picReset.timerEnabled t = s.timerEnabled t := by
  rfl
@[simp] theorem State.picReset_byteAt (s : State) (a : Nat) : s.picReset.byteAt a = s.byteAt a := by
  simp only [State.byteAt, State.picReset_memory, State.picReset_freeCount]
@[simp] theorem State.picReset_chan (s : State) (k' : DmaCtl) (i' : DmaChan) :
    s.picReset.chan k' i' = s.chan k' i' := by
  simp only [State.chan, State.picReset_dma]

/-! ## What `dmaReset` leaves -/

@[simp] theorem State.dmaReset_picM (s : State) (k : DmaCtl) : (s.dmaReset k).picM = s.picM :=
  by simp [State.dmaReset]
@[simp] theorem State.dmaReset_picS (s : State) (k : DmaCtl) : (s.dmaReset k).picS = s.picS :=
  by simp [State.dmaReset]
@[simp] theorem State.dmaReset_pit0 (s : State) (k : DmaCtl) : (s.dmaReset k).pit0 = s.pit0 :=
  by simp [State.dmaReset]
@[simp] theorem State.dmaReset_pit1 (s : State) (k : DmaCtl) : (s.dmaReset k).pit1 = s.pit1 :=
  by simp [State.dmaReset]
@[simp] theorem State.dmaReset_pit2 (s : State) (k : DmaCtl) : (s.dmaReset k).pit2 = s.pit2 :=
  by simp [State.dmaReset]
@[simp] theorem State.dmaReset_pitNext (s : State) (k : DmaCtl) : (s.dmaReset k).pitNext = s.pitNext :=
  by simp [State.dmaReset]
@[simp] theorem State.dmaReset_currentTime (s : State) (k : DmaCtl) : (s.dmaReset k).currentTime = s.currentTime :=
  by simp [State.dmaReset]
@[simp] theorem State.dmaReset_timers (s : State) (k : DmaCtl) : (s.dmaReset k).timers = s.timers :=
  by simp [State.dmaReset]
@[simp] theorem State.dmaReset_queue (s : State) (k : DmaCtl) : (s.dmaReset k).queue = s.queue :=
  by simp [State.dmaReset]
@[simp] theorem State.dmaReset_memory (s : State) (k : DmaCtl) : (s.dmaReset k).memory = s.memory :=
  by simp [State.dmaReset]
@[simp] theorem State.dmaReset_calls (s : State) (k : DmaCtl) : (s.dmaReset k).calls = s.calls :=
  by simp [State.dmaReset]
@[simp] theorem State.dmaReset_deviceReplies (s : State) (k : DmaCtl) : (s.dmaReset k).deviceReplies = s.deviceReplies :=
  by simp [State.dmaReset]
@[simp] theorem State.dmaReset_expiryReplies (s : State) (k : DmaCtl) : (s.dmaReset k).expiryReplies = s.expiryReplies :=
  by simp [State.dmaReset]
@[simp] theorem State.dmaReset_cpuReplies (s : State) (k : DmaCtl) : (s.dmaReset k).cpuReplies = s.cpuReplies :=
  by simp [State.dmaReset]
@[simp] theorem State.dmaReset_trace (s : State) (k : DmaCtl) : (s.dmaReset k).trace = s.trace :=
  by simp [State.dmaReset]
@[simp] theorem State.dmaReset_result (s : State) (k : DmaCtl) : (s.dmaReset k).result = s.result :=
  by simp [State.dmaReset]
@[simp] theorem State.dmaReset_nested (s : State) (k : DmaCtl) : (s.dmaReset k).nested = s.nested :=
  by simp [State.dmaReset]
@[simp] theorem State.dmaReset_freeCount (s : State) (k : DmaCtl) : (s.dmaReset k).freeCount = s.freeCount :=
  by simp [State.dmaReset]
@[simp] theorem State.dmaReset_pic (s : State) (k : DmaCtl) (e' : Elem) : (s.dmaReset k).pic e' = s.pic e' := by
  simp [State.dmaReset]
@[simp] theorem State.dmaReset_pit (s : State) (k : DmaCtl) (c' : PitChan) : (s.dmaReset k).pit c' = s.pit c' := by
  simp [State.dmaReset]
@[simp] theorem State.dmaReset_expiryOf (s : State) (k : DmaCtl) (t : Nat) : (s.dmaReset k).expiryOf t = s.expiryOf t := by
  simp [State.dmaReset]
@[simp] theorem State.dmaReset_timerEnabled (s : State) (k : DmaCtl) (t : Nat) : (s.dmaReset k).timerEnabled t = s.timerEnabled t := by
  simp [State.dmaReset]
@[simp] theorem State.dmaReset_byteAt (s : State) (k : DmaCtl) (a : Nat) : (s.dmaReset k).byteAt a = s.byteAt a := by
  simp only [State.byteAt, State.dmaReset_memory, State.dmaReset_freeCount]

/-! ## What `pitReset` leaves -/

@[simp] theorem State.pitReset_currentTime (s : State) : s.pitReset.currentTime = s.currentTime :=
  by simp [State.pitReset]
@[simp] theorem State.pitReset_dma0 (s : State) : s.pitReset.dma0 = s.dma0 := by simp [State.pitReset]
@[simp] theorem State.pitReset_dma1 (s : State) : s.pitReset.dma1 = s.dma1 := by simp [State.pitReset]
@[simp] theorem State.pitReset_memory (s : State) : s.pitReset.memory = s.memory := by simp [State.pitReset]
@[simp] theorem State.pitReset_calls (s : State) : s.pitReset.calls = s.calls := by simp [State.pitReset]
@[simp] theorem State.pitReset_deviceReplies (s : State) : s.pitReset.deviceReplies = s.deviceReplies :=
  by simp [State.pitReset]
@[simp] theorem State.pitReset_expiryReplies (s : State) : s.pitReset.expiryReplies = s.expiryReplies :=
  by simp [State.pitReset]
@[simp] theorem State.pitReset_result (s : State) : s.pitReset.result = s.result := by simp [State.pitReset]
@[simp] theorem State.pitReset_nested (s : State) : s.pitReset.nested = s.nested := by simp [State.pitReset]
@[simp] theorem State.pitReset_freeCount (s : State) : s.pitReset.freeCount = s.freeCount := by simp [State.pitReset]
@[simp] theorem State.pitReset_dma (s : State) (k' : DmaCtl) : s.pitReset.dma k' = s.dma k' := by
  simp [State.pitReset]
@[simp] theorem State.pitReset_byteAt (s : State) (a : Nat) : s.pitReset.byteAt a = s.byteAt a := by
  simp only [State.byteAt, State.pitReset_memory, State.pitReset_freeCount]
@[simp] theorem State.pitReset_chan (s : State) (k' : DmaCtl) (i' : DmaChan) :
    s.pitReset.chan k' i' = s.chan k' i' := by
  simp only [State.chan, State.pitReset_dma]

/-! ## What `blockReset` leaves -/

@[simp] theorem State.blockReset_currentTime (s : State) : s.blockReset.currentTime = s.currentTime :=
  by simp [State.blockReset]
@[simp] theorem State.blockReset_memory (s : State) : s.blockReset.memory = s.memory := by simp [State.blockReset]
@[simp] theorem State.blockReset_calls (s : State) : s.blockReset.calls = s.calls := by simp [State.blockReset]
@[simp] theorem State.blockReset_deviceReplies (s : State) : s.blockReset.deviceReplies = s.deviceReplies :=
  by simp [State.blockReset]
@[simp] theorem State.blockReset_expiryReplies (s : State) : s.blockReset.expiryReplies = s.expiryReplies :=
  by simp [State.blockReset]
@[simp] theorem State.blockReset_result (s : State) : s.blockReset.result = s.result := by simp [State.blockReset]
@[simp] theorem State.blockReset_nested (s : State) : s.blockReset.nested = s.nested := by simp [State.blockReset]
@[simp] theorem State.blockReset_freeCount (s : State) : s.blockReset.freeCount = s.freeCount :=
  by simp [State.blockReset]
@[simp] theorem State.blockReset_byteAt (s : State) (a : Nat) : s.blockReset.byteAt a = s.byteAt a := by
  simp only [State.byteAt, State.blockReset_memory, State.blockReset_freeCount]

/-! ## What `returnNested` leaves -/

@[simp] theorem State.returnNested_picM (s u : State) : (s.returnNested u).picM = u.picM := rfl
@[simp] theorem State.returnNested_picS (s u : State) : (s.returnNested u).picS = u.picS := rfl
@[simp] theorem State.returnNested_pit0 (s u : State) : (s.returnNested u).pit0 = u.pit0 := rfl
@[simp] theorem State.returnNested_pit1 (s u : State) : (s.returnNested u).pit1 = u.pit1 := rfl
@[simp] theorem State.returnNested_pit2 (s u : State) : (s.returnNested u).pit2 = u.pit2 := rfl
@[simp] theorem State.returnNested_pitNext (s u : State) : (s.returnNested u).pitNext = u.pitNext := rfl
@[simp] theorem State.returnNested_currentTime (s u : State) : (s.returnNested u).currentTime = u.currentTime := rfl
@[simp] theorem State.returnNested_timers (s u : State) : (s.returnNested u).timers = u.timers := rfl
@[simp] theorem State.returnNested_queue (s u : State) : (s.returnNested u).queue = u.queue := rfl
@[simp] theorem State.returnNested_dma0 (s u : State) : (s.returnNested u).dma0 = u.dma0 := rfl
@[simp] theorem State.returnNested_dma1 (s u : State) : (s.returnNested u).dma1 = u.dma1 := rfl
@[simp] theorem State.returnNested_memory (s u : State) : (s.returnNested u).memory = u.memory := rfl
@[simp] theorem State.returnNested_calls (s u : State) : (s.returnNested u).calls = u.calls := rfl
@[simp] theorem State.returnNested_deviceReplies (s u : State) : (s.returnNested u).deviceReplies = u.deviceReplies := rfl
@[simp] theorem State.returnNested_expiryReplies (s u : State) : (s.returnNested u).expiryReplies = u.expiryReplies := rfl
@[simp] theorem State.returnNested_cpuReplies (s u : State) : (s.returnNested u).cpuReplies = u.cpuReplies := rfl
@[simp] theorem State.returnNested_trace (s u : State) : (s.returnNested u).trace = u.trace := rfl
@[simp] theorem State.returnNested_freeCount (s u : State) : (s.returnNested u).freeCount = u.freeCount := rfl
@[simp] theorem State.returnNested_pic (s u : State) (e : Elem) : (s.returnNested u).pic e = u.pic e := by
  cases e <;> rfl
@[simp] theorem State.returnNested_pit (s u : State) (c : PitChan) : (s.returnNested u).pit c = u.pit c := by
  cases c <;> rfl
@[simp] theorem State.returnNested_dma (s u : State) (k : DmaCtl) : (s.returnNested u).dma k = u.dma k := by
  cases k <;> rfl
@[simp] theorem State.returnNested_expiryOf (s u : State) (t : Nat) : (s.returnNested u).expiryOf t = u.expiryOf t := by
  rfl
@[simp] theorem State.returnNested_timerEnabled (s u : State) (t : Nat) : (s.returnNested u).timerEnabled t = u.timerEnabled t := by
  rfl
@[simp] theorem State.returnNested_byteAt (s u : State) (a : Nat) : (s.returnNested u).byteAt a = u.byteAt a := by
  rfl
@[simp] theorem State.returnNested_chan (s u : State) (k : DmaCtl) (i : DmaChan) :
    (s.returnNested u).chan k i = u.chan k i := by
  cases k <;> rfl

/-! ## What `reload` leaves -/

@[simp] theorem State.reload_picM (s : State) (d : Dump) : (s.reload d).picM = d.picM := rfl
@[simp] theorem State.reload_picS (s : State) (d : Dump) : (s.reload d).picS = d.picS := rfl
@[simp] theorem State.reload_pit0 (s : State) (d : Dump) : (s.reload d).pit0 = d.pit0 := rfl
@[simp] theorem State.reload_pit1 (s : State) (d : Dump) : (s.reload d).pit1 = d.pit1 := rfl
@[simp] theorem State.reload_pit2 (s : State) (d : Dump) : (s.reload d).pit2 = d.pit2 := rfl
@[simp] theorem State.reload_pitNext (s : State) (d : Dump) : (s.reload d).pitNext = d.pitNext := rfl
@[simp] theorem State.reload_currentTime (s : State) (d : Dump) : (s.reload d).currentTime = d.currentTime := rfl
@[simp] theorem State.reload_timers (s : State) (d : Dump) : (s.reload d).timers = d.timers := rfl
@[simp] theorem State.reload_queue (s : State) (d : Dump) : (s.reload d).queue = d.queue := rfl
@[simp] theorem State.reload_dma0 (s : State) (d : Dump) : (s.reload d).dma0 = d.dma0 := rfl
@[simp] theorem State.reload_dma1 (s : State) (d : Dump) : (s.reload d).dma1 = d.dma1 := rfl
@[simp] theorem State.reload_memory (s : State) (d : Dump) : (s.reload d).memory = s.memory := rfl
@[simp] theorem State.reload_calls (s : State) (d : Dump) : (s.reload d).calls = s.calls := rfl
@[simp] theorem State.reload_deviceReplies (s : State) (d : Dump) : (s.reload d).deviceReplies = s.deviceReplies := rfl
@[simp] theorem State.reload_expiryReplies (s : State) (d : Dump) : (s.reload d).expiryReplies = s.expiryReplies := rfl
@[simp] theorem State.reload_cpuReplies (s : State) (d : Dump) : (s.reload d).cpuReplies = s.cpuReplies := rfl
@[simp] theorem State.reload_trace (s : State) (d : Dump) : (s.reload d).trace = s.trace := rfl
@[simp] theorem State.reload_result (s : State) (d : Dump) : (s.reload d).result = s.result := rfl
@[simp] theorem State.reload_nested (s : State) (d : Dump) : (s.reload d).nested = s.nested := rfl
@[simp] theorem State.reload_freeCount (s : State) (d : Dump) : (s.reload d).freeCount = s.freeCount := rfl
@[simp] theorem State.dump_reload (s : State) (d : Dump) : (s.reload d).dump = d := rfl
@[simp] theorem State.reload_dump (s : State) : s.reload s.dump = s := rfl

end Sys2Proof.Machine
end

