-- ==== Sys2Proof/Laws/Memory.lean ====
section
/-! SUPPORT. Memory: a write is read back and leaves every other address alone; every write keeps the canonical form;
a copy stores its bytes at ascending addresses. -/

namespace Sys2Proof.Machine

/-- Every listed address lies above `a`. -/
abbrev Memory.above (a : Nat) (m : List Host.Cell) : Prop := ∀ cell ∈ m, a < cell.1

theorem Memory.wf_cons {a : Nat} {b : Byte} {m : List Host.Cell} :
    Memory.wf ((a, b) :: m) = true ↔
      a < Config.addressLimit ∧ b ≠ Memory.unlisted ∧ Memory.above a m ∧ Memory.wf m = true := by
  simp [Memory.wf, and_assoc]

/-- An address below every listed one reads as unlisted. -/
theorem Memory.read_of_above {m : List Host.Cell} {a addr : Nat} (h : Memory.above a m) (ha : addr ≤ a) :
    Memory.read m addr = Memory.unlisted := by
  induction m with
  | nil => rfl
  | cons cell rest ih =>
    obtain ⟨x, y⟩ := cell
    have hx : a < x := h (x, y) (by simp)
    simp only [Memory.read]
    rw [if_neg (by omega)]
    exact ih fun c hc => h c (by simp [hc])

theorem Memory.insert_above {m : List Host.Cell} {a addr : Nat} {v : Byte} (h : Memory.above a m) (ha : a < addr) :
    Memory.above a (Memory.insert m addr v) := by
  induction m with
  | nil => intro c hc; simp only [Memory.insert, List.mem_singleton] at hc; subst hc; exact ha
  | cons cell rest ih =>
    obtain ⟨x, y⟩ := cell
    have hx : a < x := h (x, y) (by simp)
    have hrest : Memory.above a rest := fun c hc => h c (by simp [hc])
    intro c hc
    simp only [Memory.insert] at hc
    split at hc
    · rcases List.mem_cons.mp hc with rfl | hc
      · exact ha
      · exact hrest c hc
    · split at hc
      · rcases List.mem_cons.mp hc with rfl | hc
        · exact ha
        · exact h c hc
      · rcases List.mem_cons.mp hc with rfl | hc
        · exact hx
        · exact ih hrest c hc

theorem Memory.erase_above {m : List Host.Cell} {a addr : Nat} (h : Memory.above a m) :
    Memory.above a (Memory.erase m addr) := by
  induction m with
  | nil => simp [Memory.erase]
  | cons cell rest ih =>
    obtain ⟨x, y⟩ := cell
    have hrest : Memory.above a rest := fun c hc => h c (by simp [hc])
    intro c hc
    simp only [Memory.erase] at hc
    split at hc
    · exact hrest c hc
    · rcases List.mem_cons.mp hc with rfl | hc
      · exact h (x, y) (by simp)
      · exact ih hrest c hc

theorem Memory.insert_wf {m : List Host.Cell} {addr : Nat} {v : Byte} (h : Memory.wf m = true)
    (ha : addr < Config.addressLimit) (hv : v ≠ Memory.unlisted) : Memory.wf (Memory.insert m addr v) = true := by
  induction m with
  | nil => exact Memory.wf_cons.mpr ⟨ha, hv, by simp, rfl⟩
  | cons cell rest ih =>
    obtain ⟨x, y⟩ := cell
    obtain ⟨hx, hy, habove, hrest⟩ := Memory.wf_cons.mp h
    simp only [Memory.insert]
    split
    · next heq => exact Memory.wf_cons.mpr ⟨ha, hv, heq ▸ habove, hrest⟩
    · split
      · next hlt =>
        refine Memory.wf_cons.mpr ⟨ha, hv, fun c hc => ?_, h⟩
        rcases List.mem_cons.mp hc with rfl | hc
        · exact hlt
        · exact lt_trans hlt (habove c hc)
      · exact Memory.wf_cons.mpr ⟨hx, hy, Memory.insert_above habove (by omega), ih hrest⟩

theorem Memory.erase_wf {m : List Host.Cell} {addr : Nat} (h : Memory.wf m = true) :
    Memory.wf (Memory.erase m addr) = true := by
  induction m with
  | nil => rfl
  | cons cell rest ih =>
    obtain ⟨x, y⟩ := cell
    obtain ⟨hx, hy, habove, hrest⟩ := Memory.wf_cons.mp h
    simp only [Memory.erase]
    split
    · exact hrest
    · exact Memory.wf_cons.mpr ⟨hx, hy, Memory.erase_above habove, ih hrest⟩

/-- A write keeps the canonical form. -/
theorem Memory.write_wf {m : List Host.Cell} {addr : Nat} (v : Byte) (h : Memory.wf m = true)
    (ha : addr < Config.addressLimit) : Memory.wf (Memory.write m addr v) = true := by
  unfold Memory.write
  split
  · exact Memory.erase_wf h
  · next hv => exact Memory.insert_wf h ha hv

theorem Memory.read_insert {m : List Host.Cell} {addr : Nat} {v : Byte} (a : Nat) :
    Memory.read (Memory.insert m addr v) a = if a = addr then v else Memory.read m a := by
  induction m with
  | nil => simp only [Memory.insert, Memory.read, eq_comm]
  | cons cell rest ih =>
    obtain ⟨x, y⟩ := cell
    simp only [Memory.insert]
    split
    · next heq =>
      subst heq
      simp only [Memory.read]
      by_cases hxa : x = a
      · rw [if_pos hxa, if_pos hxa.symm]
      · rw [if_neg hxa, if_neg (Ne.symm hxa), if_neg hxa]
    · split
      · simp only [Memory.read, eq_comm]
      · next hne _ =>
        simp only [Memory.read, ih]
        split
        · next hxa => subst hxa; simp [hne]
        · rfl

theorem Memory.read_erase {m : List Host.Cell} {addr : Nat} (h : Memory.wf m = true) (a : Nat) :
    Memory.read (Memory.erase m addr) a = if a = addr then Memory.unlisted else Memory.read m a := by
  induction m with
  | nil => simp [Memory.erase, Memory.read]
  | cons cell rest ih =>
    obtain ⟨x, y⟩ := cell
    obtain ⟨_, _, habove, hrest⟩ := Memory.wf_cons.mp h
    simp only [Memory.erase]
    split
    · next heq =>
      subst heq
      split
      · next heq2 => subst heq2; exact Memory.read_of_above habove le_rfl
      · next hne => simp only [Memory.read]; rw [if_neg (Ne.symm hne)]
    · next hne =>
      simp only [Memory.read, ih hrest]
      split
      · next hxa => subst hxa; simp [hne]
      · rfl

/-- Read after write: the written address reads the value, every other one as before. -/
theorem Memory.read_write {m : List Host.Cell} (h : Memory.wf m = true) (addr : Nat) (v : Byte) (a : Nat) :
    Memory.read (Memory.write m addr v) a = if a = addr then v else Memory.read m a := by
  unfold Memory.write
  split
  · next hv => subst hv; exact Memory.read_erase h a
  · exact Memory.read_insert a

/-- A copy keeps the canonical form. -/
theorem Memory.writeBytes_wf {m : List Host.Cell} (addr : Nat) (bytes : List Byte) (h : Memory.wf m = true) :
    Memory.wf (Memory.writeBytes m addr bytes) = true := by
  induction bytes generalizing m addr with
  | nil => exact h
  | cons b rest ih =>
    simp only [Memory.writeBytes]
    split
    · next ha => exact ih _ (Memory.write_wf b h ha)
    · exact ih _ h

/-- What an address reads after a copy: the copied byte inside the range, the old byte outside it. -/
theorem Memory.read_writeBytes {m : List Host.Cell} (addr : Nat) (bytes : List Byte) (h : Memory.wf m = true)
    (a : Nat) (ha : a < Config.addressLimit) :
    Memory.read (Memory.writeBytes m addr bytes) a =
      if addr ≤ a ∧ a < addr + bytes.length then bytes.getD (a - addr) 0 else Memory.read m a := by
  induction bytes generalizing m addr with
  | nil => simp only [Memory.writeBytes, List.length_nil]; rw [if_neg (by omega)]
  | cons b rest ih =>
    have hstep : Memory.wf (if addr < Config.addressLimit then Memory.write m addr b else m) = true := by
      split
      · next hlt => exact Memory.write_wf b h hlt
      · exact h
    have hone : Memory.read (if addr < Config.addressLimit then Memory.write m addr b else m) a =
        if a = addr then b else Memory.read m a := by
      split
      · exact Memory.read_write h addr b a
      · rw [if_neg (by omega)]
    simp only [Memory.writeBytes, ih _ hstep, hone, List.length_cons]
    by_cases heq : a = addr
    · subst heq; simp
    · by_cases hin : addr + 1 ≤ a ∧ a < addr + 1 + rest.length
      · rw [if_pos hin, if_pos (by omega), show a - addr = (a - (addr + 1)) + 1 by omega, List.getD_cons_succ]
      · rw [if_neg hin, if_neg heq, if_neg (by omega)]

/-- Outside a copy's range every address reads as before, whatever form the memory has. -/
theorem Memory.read_writeBytes_outside {m : List Host.Cell} (addr : Nat) (bytes : List Byte) (h : Memory.wf m = true)
    (a : Nat) (hout : a < addr ∨ addr + bytes.length ≤ a) (ha : a < Config.addressLimit) :
    Memory.read (Memory.writeBytes m addr bytes) a = Memory.read m a := by
  rw [Memory.read_writeBytes addr bytes h a ha, if_neg (by omega)]

end Sys2Proof.Machine
end

