-- ==== Sys2Proof/Laws/PerInstr.lean ====
section
/-! SUPPORT. Decode and encode agree, instruction by instruction: the family RoundTrip. -/

namespace Sys2Proof

/-- At every state that selects the row of an instruction, decoding its encoding gives it back. -/
def Laws.RoundTrip.Statement (i : Instr) : Prop :=
  ∀ cur : Cursors, WellFormed i → i.selected cur = true → decode cur (encode i) = .ok i

theorem Laws.RoundTrip.picIcw1 (e : Elem) (ic4 : Bool) : Laws.RoundTrip.Statement (.picIcw1 e ic4) := by
  intro cur hw hs
  refine (decode_writeTo cur rfl _).trans (congrArg Except.ok ?_)
  clear hs hw
  simp only [decodeWrite]
  revert ic4
  cases e <;> decide

theorem Laws.RoundTrip.picOcw3 (e : Elem) (esmm : Bool) (smm : Bool) (p : Bool) (rr : Bool) (ris : Bool) :
    Laws.RoundTrip.Statement (.picOcw3 e esmm smm p rr ris) := by
  intro cur hw hs
  refine (decode_writeTo cur rfl _).trans (congrArg Except.ok ?_)
  clear hs hw
  simp only [decodeWrite]
  revert esmm smm p rr ris
  cases e <;> decide

theorem Laws.RoundTrip.picOcw2RotateAeoiClear (e : Elem) : Laws.RoundTrip.Statement (.picOcw2RotateAeoiClear e) := by
  intro cur hw hs
  refine (decode_writeTo cur rfl _).trans (congrArg Except.ok ?_)
  clear hs hw
  simp only [decodeWrite]
  cases e <;> decide

theorem Laws.RoundTrip.picOcw2Eoi (e : Elem) : Laws.RoundTrip.Statement (.picOcw2Eoi e) := by
  intro cur hw hs
  refine (decode_writeTo cur rfl _).trans (congrArg Except.ok ?_)
  clear hs hw
  simp only [decodeWrite]
  cases e <;> decide

theorem Laws.RoundTrip.picOcw2Nop (e : Elem) : Laws.RoundTrip.Statement (.picOcw2Nop e) := by
  intro cur hw hs
  refine (decode_writeTo cur rfl _).trans (congrArg Except.ok ?_)
  clear hs hw
  simp only [decodeWrite]
  cases e <;> decide

theorem Laws.RoundTrip.picOcw2SpecificEoi (e : Elem) (l : Line) :
    Laws.RoundTrip.Statement (.picOcw2SpecificEoi e l) := by
  intro cur hw hs
  refine (decode_writeTo cur rfl _).trans (congrArg Except.ok ?_)
  clear hs hw
  simp only [decodeWrite]
  revert l
  cases e <;> decide

theorem Laws.RoundTrip.picOcw2RotateAeoiSet (e : Elem) : Laws.RoundTrip.Statement (.picOcw2RotateAeoiSet e) := by
  intro cur hw hs
  refine (decode_writeTo cur rfl _).trans (congrArg Except.ok ?_)
  clear hs hw
  simp only [decodeWrite]
  cases e <;> decide

theorem Laws.RoundTrip.picOcw2RotateEoi (e : Elem) : Laws.RoundTrip.Statement (.picOcw2RotateEoi e) := by
  intro cur hw hs
  refine (decode_writeTo cur rfl _).trans (congrArg Except.ok ?_)
  clear hs hw
  simp only [decodeWrite]
  cases e <;> decide

theorem Laws.RoundTrip.picOcw2SetPriority (e : Elem) (l : Line) :
    Laws.RoundTrip.Statement (.picOcw2SetPriority e l) := by
  intro cur hw hs
  refine (decode_writeTo cur rfl _).trans (congrArg Except.ok ?_)
  clear hs hw
  simp only [decodeWrite]
  revert l
  cases e <;> decide

theorem Laws.RoundTrip.picOcw2RotateSpecificEoi (e : Elem) (l : Line) :
    Laws.RoundTrip.Statement (.picOcw2RotateSpecificEoi e l) := by
  intro cur hw hs
  refine (decode_writeTo cur rfl _).trans (congrArg Except.ok ?_)
  clear hs hw
  simp only [decodeWrite]
  revert l
  cases e <;> decide

theorem Laws.RoundTrip.picOcw1 (e : Elem) (d : Byte) : Laws.RoundTrip.Statement (.picOcw1 e d) := by
  intro cur _ hs
  refine (decode_writeTo cur rfl _).trans (congrArg Except.ok ?_)
  have hc : (cur.pic e).initState = .normal := by simpa [Instr.selected] using hs
  simp only [decodeWrite, decodePicData, hc]

theorem Laws.RoundTrip.picIcw2 (e : Elem) (base : BitVec 5) : Laws.RoundTrip.Statement (.picIcw2 e base) := by
  intro cur hw hs
  refine (decode_writeTo cur rfl _).trans (congrArg Except.ok ?_)
  have hc : (cur.pic e).initState = .icw2 := by simpa [Instr.selected] using hs
  simp only [decodeWrite, decodePicData, hc]
  clear hs hc hw
  revert base
  cases e <;> decide

theorem Laws.RoundTrip.picIcw3 (e : Elem) : Laws.RoundTrip.Statement (.picIcw3 e) := by
  intro cur _ hs
  refine (decode_writeTo cur rfl _).trans (congrArg Except.ok ?_)
  have hc : (cur.pic e).initState = .icw3 := by simpa [Instr.selected] using hs
  simp only [decodeWrite, decodePicData, hc]

theorem Laws.RoundTrip.picIcw4 (e : Elem) (sfnm : Bool) (aeoi : Bool) :
    Laws.RoundTrip.Statement (.picIcw4 e sfnm aeoi) := by
  intro cur hw hs
  refine (decode_writeTo cur rfl _).trans (congrArg Except.ok ?_)
  have hc : (cur.pic e).initState = .icw4 := by simpa [Instr.selected] using hs
  simp only [decodeWrite, decodePicData, hc]
  clear hs hc hw
  cases e <;> cases sfnm <;> cases aeoi <;> decide

theorem Laws.RoundTrip.picPollRead (e : Elem) (port : PicPort) : Laws.RoundTrip.Statement (.picPollRead e port) := by
  intro cur _ hs
  have hc : (cur.pic e).poll = true := hs
  cases port <;> exact (decode_readOf cur rfl).trans (by simp only [decodeRead, decodePicRead, hc, if_true])

theorem Laws.RoundTrip.picIrrRead (e : Elem) : Laws.RoundTrip.Statement (.picIrrRead e) := by
  intro cur _ hs
  refine (decode_readOf cur rfl).trans (congrArg Except.ok ?_)
  simp only [Instr.selected, Bool.and_eq_true, Bool.not_eq_true'] at hs
  simp [decodeRead, decodePicRead, hs]

theorem Laws.RoundTrip.picIsrRead (e : Elem) : Laws.RoundTrip.Statement (.picIsrRead e) := by
  intro cur _ hs
  refine (decode_readOf cur rfl).trans (congrArg Except.ok ?_)
  simp only [Instr.selected, Bool.and_eq_true, Bool.not_eq_true'] at hs
  simp [decodeRead, decodePicRead, hs]

theorem Laws.RoundTrip.picImrRead (e : Elem) : Laws.RoundTrip.Statement (.picImrRead e) := by
  intro cur _ hs
  refine (decode_readOf cur rfl).trans (congrArg Except.ok ?_)
  simp only [Instr.selected, Bool.not_eq_true'] at hs
  simp [decodeRead, decodePicRead, hs]

theorem Laws.RoundTrip.picElcrWrite (e : Elem) (d : Byte) : Laws.RoundTrip.Statement (.picElcrWrite e d) := by
  intro cur _ _
  exact decode_writeTo cur rfl _

theorem Laws.RoundTrip.picElcrRead (e : Elem) : Laws.RoundTrip.Statement (.picElcrRead e) := by
  intro cur _ _
  exact decode_readOf cur rfl

theorem Laws.RoundTrip.pitLatch (c : PitChan) : Laws.RoundTrip.Statement (.pitLatch c) := by
  intro cur hw hs
  refine (decode_writeTo cur rfl _).trans (congrArg Except.ok ?_)
  clear hs hw
  simp only [decodeWrite]
  cases c <;> decide

theorem Laws.RoundTrip.pitControlLsb (c : PitChan) (m : BitVec 3) (bcd : Bool) :
    Laws.RoundTrip.Statement (.pitControlLsb c m bcd) := by
  intro cur hw hs
  refine (decode_writeTo cur rfl _).trans (congrArg Except.ok ?_)
  clear hs hw
  simp only [decodeWrite]
  revert m bcd
  cases c <;> decide

theorem Laws.RoundTrip.pitControlMsb (c : PitChan) (m : BitVec 3) (bcd : Bool) :
    Laws.RoundTrip.Statement (.pitControlMsb c m bcd) := by
  intro cur hw hs
  refine (decode_writeTo cur rfl _).trans (congrArg Except.ok ?_)
  clear hs hw
  simp only [decodeWrite]
  revert m bcd
  cases c <;> decide

theorem Laws.RoundTrip.pitControlWord (c : PitChan) (m : BitVec 3) (bcd : Bool) :
    Laws.RoundTrip.Statement (.pitControlWord c m bcd) := by
  intro cur hw hs
  refine (decode_writeTo cur rfl _).trans (congrArg Except.ok ?_)
  clear hs hw
  simp only [decodeWrite]
  revert m bcd
  cases c <;> decide

theorem Laws.RoundTrip.pitReadback (count : Bool) (status : Bool) (sel0 : Bool) (sel1 : Bool) (sel2 : Bool) :
    Laws.RoundTrip.Statement (.pitReadback count status sel0 sel1 sel2) := by
  intro cur hw hs
  refine (decode_writeTo cur rfl _).trans (congrArg Except.ok ?_)
  clear hs hw
  simp only [decodeWrite]
  revert count status sel0 sel1 sel2
  decide

theorem Laws.RoundTrip.pitWriteLsb (c : PitChan) (b : Byte) : Laws.RoundTrip.Statement (.pitWriteLsb c b) := by
  intro cur _ hs
  refine (decode_writeTo cur rfl _).trans (congrArg Except.ok ?_)
  have hc : (cur.pit c).writeState = .lsb := by simpa [Instr.selected] using hs
  simp only [decodeWrite, decodePitData, hc]

theorem Laws.RoundTrip.pitWriteMsb (c : PitChan) (b : Byte) : Laws.RoundTrip.Statement (.pitWriteMsb c b) := by
  intro cur _ hs
  refine (decode_writeTo cur rfl _).trans (congrArg Except.ok ?_)
  have hc : (cur.pit c).writeState = .msb := by simpa [Instr.selected] using hs
  simp only [decodeWrite, decodePitData, hc]

theorem Laws.RoundTrip.pitWriteWord0 (c : PitChan) (b : Byte) : Laws.RoundTrip.Statement (.pitWriteWord0 c b) := by
  intro cur _ hs
  refine (decode_writeTo cur rfl _).trans (congrArg Except.ok ?_)
  have hc : (cur.pit c).writeState = .word0 := by simpa [Instr.selected] using hs
  simp only [decodeWrite, decodePitData, hc]

theorem Laws.RoundTrip.pitWriteWord1 (c : PitChan) (b : Byte) : Laws.RoundTrip.Statement (.pitWriteWord1 c b) := by
  intro cur _ hs
  refine (decode_writeTo cur rfl _).trans (congrArg Except.ok ?_)
  have hc : (cur.pit c).writeState = .word1 := by simpa [Instr.selected] using hs
  simp only [decodeWrite, decodePitData, hc]

theorem Laws.RoundTrip.pitReadStatus (c : PitChan) : Laws.RoundTrip.Statement (.pitReadStatus c) := by
  intro cur _ hs
  refine (decode_readOf cur rfl).trans (congrArg Except.ok ?_)
  simp only [Instr.selected] at hs
  simp [decodeRead, decodePitRead, hs]

theorem Laws.RoundTrip.pitReadLatchedLsb (c : PitChan) : Laws.RoundTrip.Statement (.pitReadLatchedLsb c) := by
  intro cur _ hs
  refine (decode_readOf cur rfl).trans (congrArg Except.ok ?_)
  simp only [Instr.selected, Bool.and_eq_true, Bool.not_eq_true', beq_iff_eq] at hs
  simp [decodeRead, decodePitRead, hs]

theorem Laws.RoundTrip.pitReadLatchedMsb (c : PitChan) : Laws.RoundTrip.Statement (.pitReadLatchedMsb c) := by
  intro cur _ hs
  refine (decode_readOf cur rfl).trans (congrArg Except.ok ?_)
  simp only [Instr.selected, Bool.and_eq_true, Bool.not_eq_true', beq_iff_eq] at hs
  simp [decodeRead, decodePitRead, hs]

theorem Laws.RoundTrip.pitReadLatchedWord0 (c : PitChan) : Laws.RoundTrip.Statement (.pitReadLatchedWord0 c) := by
  intro cur _ hs
  refine (decode_readOf cur rfl).trans (congrArg Except.ok ?_)
  simp only [Instr.selected, Bool.and_eq_true, Bool.not_eq_true', beq_iff_eq] at hs
  simp [decodeRead, decodePitRead, hs]

theorem Laws.RoundTrip.pitReadLiveLsb (c : PitChan) : Laws.RoundTrip.Statement (.pitReadLiveLsb c) := by
  intro cur _ hs
  refine (decode_readOf cur rfl).trans (congrArg Except.ok ?_)
  simp only [Instr.selected, Bool.and_eq_true, Bool.not_eq_true', beq_iff_eq] at hs
  simp [decodeRead, decodePitRead, hs]

theorem Laws.RoundTrip.pitReadLiveMsb (c : PitChan) : Laws.RoundTrip.Statement (.pitReadLiveMsb c) := by
  intro cur _ hs
  refine (decode_readOf cur rfl).trans (congrArg Except.ok ?_)
  simp only [Instr.selected, Bool.and_eq_true, Bool.not_eq_true', beq_iff_eq] at hs
  simp [decodeRead, decodePitRead, hs]

theorem Laws.RoundTrip.pitReadLiveWord0 (c : PitChan) : Laws.RoundTrip.Statement (.pitReadLiveWord0 c) := by
  intro cur _ hs
  refine (decode_readOf cur rfl).trans (congrArg Except.ok ?_)
  simp only [Instr.selected, Bool.and_eq_true, Bool.not_eq_true', beq_iff_eq] at hs
  simp [decodeRead, decodePitRead, hs]

theorem Laws.RoundTrip.pitReadLiveWord1 (c : PitChan) : Laws.RoundTrip.Statement (.pitReadLiveWord1 c) := by
  intro cur _ hs
  refine (decode_readOf cur rfl).trans (congrArg Except.ok ?_)
  simp only [Instr.selected, Bool.and_eq_true, Bool.not_eq_true', beq_iff_eq] at hs
  simp [decodeRead, decodePitRead, hs]

theorem Laws.RoundTrip.pitControlRead : Laws.RoundTrip.Statement (.pitControlRead) := by
  intro cur _ _
  exact decode_readOf cur rfl

theorem Laws.RoundTrip.dmaAddrWrite (k : DmaCtl) (i : DmaChan) (b : Byte) :
    Laws.RoundTrip.Statement (.dmaAddrWrite k i b) := by
  intro cur _ _
  exact decode_writeTo cur rfl _

theorem Laws.RoundTrip.dmaCountWrite (k : DmaCtl) (i : DmaChan) (b : Byte) :
    Laws.RoundTrip.Statement (.dmaCountWrite k i b) := by
  intro cur _ _
  exact decode_writeTo cur rfl _

theorem Laws.RoundTrip.dmaAddrRead (k : DmaCtl) (i : DmaChan) : Laws.RoundTrip.Statement (.dmaAddrRead k i) := by
  intro cur _ _
  exact decode_readOf cur rfl

theorem Laws.RoundTrip.dmaCountRead (k : DmaCtl) (i : DmaChan) : Laws.RoundTrip.Statement (.dmaCountRead k i) := by
  intro cur _ _
  exact decode_readOf cur rfl

theorem Laws.RoundTrip.dmaCommand (k : DmaCtl) (v : Byte) : Laws.RoundTrip.Statement (.dmaCommand k v) := by
  intro cur _ _
  exact decode_writeTo cur rfl _

theorem Laws.RoundTrip.dmaRequest (k : DmaCtl) (i : DmaChan) (set : Bool) :
    Laws.RoundTrip.Statement (.dmaRequest k i set) := by
  intro cur hw hs
  refine (decode_writeTo cur rfl _).trans (congrArg Except.ok ?_)
  clear hs hw
  simp only [decodeWrite]
  revert i set
  cases k <;> decide

theorem Laws.RoundTrip.dmaSingleMask (k : DmaCtl) (i : DmaChan) (set : Bool) :
    Laws.RoundTrip.Statement (.dmaSingleMask k i set) := by
  intro cur hw hs
  refine (decode_writeTo cur rfl _).trans (congrArg Except.ok ?_)
  clear hs hw
  simp only [decodeWrite]
  revert i set
  cases k <;> decide

theorem Laws.RoundTrip.dmaMode (k : DmaCtl) (v : Byte) : Laws.RoundTrip.Statement (.dmaMode k v) := by
  intro cur _ _
  exact decode_writeTo cur rfl _

theorem Laws.RoundTrip.dmaClearFlipFlop (k : DmaCtl) : Laws.RoundTrip.Statement (.dmaClearFlipFlop k) := by
  intro cur _ _
  exact decode_writeTo cur rfl _

theorem Laws.RoundTrip.dmaMasterClear (k : DmaCtl) : Laws.RoundTrip.Statement (.dmaMasterClear k) := by
  intro cur _ _
  exact decode_writeTo cur rfl _

theorem Laws.RoundTrip.dmaClearMasks (k : DmaCtl) : Laws.RoundTrip.Statement (.dmaClearMasks k) := by
  intro cur _ _
  exact decode_writeTo cur rfl _

theorem Laws.RoundTrip.dmaWriteMasks (k : DmaCtl) (m : BitVec 4) : Laws.RoundTrip.Statement (.dmaWriteMasks k m) := by
  intro cur hw hs
  refine (decode_writeTo cur rfl _).trans (congrArg Except.ok ?_)
  clear hs hw
  simp only [decodeWrite]
  revert m
  cases k <;> decide

theorem Laws.RoundTrip.dmaStatusRead (k : DmaCtl) : Laws.RoundTrip.Statement (.dmaStatusRead k) := by
  intro cur _ _
  exact decode_readOf cur rfl

theorem Laws.RoundTrip.dmaMaskRead (k : DmaCtl) : Laws.RoundTrip.Statement (.dmaMaskRead k) := by
  intro cur _ _
  exact decode_readOf cur rfl

theorem Laws.RoundTrip.dmaOtherRead (k : DmaCtl) (r : BitVec 4) : Laws.RoundTrip.Statement (.dmaOtherRead k r) := by
  intro cur hw hs
  have hr : 8 ≤ r.toNat := by
    simp only [WellFormed, Instr.wf, isOtherRead, Bool.and_eq_true, decide_eq_true_eq] at hw; omega
  refine (decode_readOf cur (r := .dmaControl k r) (decide_eq_true hr)).trans (congrArg Except.ok ?_)
  clear hs hr
  simp only [decodeRead]
  revert hw
  revert r
  cases k <;> decide

theorem Laws.RoundTrip.dmaPageLowWrite (k : DmaCtl) (i : DmaChan) (b : Byte) :
    Laws.RoundTrip.Statement (.dmaPageLowWrite k i b) := by
  intro cur _ _
  exact decode_writeTo cur rfl _

theorem Laws.RoundTrip.dmaPageHighWrite (k : DmaCtl) (i : DmaChan) (b : Byte) :
    Laws.RoundTrip.Statement (.dmaPageHighWrite k i b) := by
  intro cur _ _
  exact decode_writeTo cur rfl _

theorem Laws.RoundTrip.dmaPageRead (k : DmaCtl) (h : PageHalf) (i : DmaChan) :
    Laws.RoundTrip.Statement (.dmaPageRead k h i) := by
  intro cur _ _
  exact decode_readOf cur rfl

theorem Laws.RoundTrip.outwOutl (long : Bool) (port : Nat) (value : Nat) :
    Laws.RoundTrip.Statement (.outwOutl long port value) := by
  intro cur hw _
  simp only [WellFormed, Instr.wf, Bool.and_eq_true, decide_eq_true_eq] at hw
  cases long <;> simp [encode, decode, decodeWideWrite] <;> simp at hw <;> omega

theorem Laws.RoundTrip.inwInl (long : Bool) (port : Nat) : Laws.RoundTrip.Statement (.inwInl long port) := by
  intro cur hw _
  simp only [WellFormed, Instr.wf, decide_eq_true_eq] at hw
  cases long <;> simp [encode, decode, decodeWideRead] <;> omega

theorem Laws.RoundTrip.irq (line : Nat) (level : Nat) : Laws.RoundTrip.Statement (.irq line level) := by
  intro cur _ _
  rfl

theorem Laws.RoundTrip.inta : Laws.RoundTrip.Statement (.inta) := by
  intro cur _ _
  rfl

theorem Laws.RoundTrip.gate (channel : Nat) (level : Nat) : Laws.RoundTrip.Statement (.gate channel level) := by
  intro cur _ _
  rfl

theorem Laws.RoundTrip.getOut (channel : Nat) : Laws.RoundTrip.Statement (.getOut channel) := by
  intro cur _ _
  rfl

theorem Laws.RoundTrip.dreq (n : Nat) : Laws.RoundTrip.Statement (.dreq n) := by
  intro cur _ _
  rfl

theorem Laws.RoundTrip.drel (n : Nat) : Laws.RoundTrip.Statement (.drel n) := by
  intro cur _ _
  rfl

theorem Laws.RoundTrip.reg (n : Nat) (device : Nat) : Laws.RoundTrip.Statement (.reg n device) := by
  intro cur _ _
  rfl

theorem Laws.RoundTrip.getChannelMode (n : Nat) : Laws.RoundTrip.Statement (.getChannelMode n) := by
  intro cur _ _
  rfl

theorem Laws.RoundTrip.readMemory (n : Nat) (buf : List Byte) (off : Int) (pos : Int) (len : Int) :
    Laws.RoundTrip.Statement (.readMemory n buf off pos len) := by
  intro cur _ _
  rfl

theorem Laws.RoundTrip.writeMemory (n : Nat) (buf : List Byte) (off : Int) (pos : Int) (len : Int) :
    Laws.RoundTrip.Statement (.writeMemory n buf off pos len) := by
  intro cur _ _
  rfl

theorem Laws.RoundTrip.newTimer (target : TimerTarget) : Laws.RoundTrip.Statement (.newTimer target) := by
  intro cur _ _
  rfl

theorem Laws.RoundTrip.update (timer : Nat) (change : TimerChange) :
    Laws.RoundTrip.Statement (.update timer change) := by
  intro cur _ _
  rfl

theorem Laws.RoundTrip.getTime : Laws.RoundTrip.Statement (.getTime) := by
  intro cur _ _
  rfl

theorem Laws.RoundTrip.tick (delta : Int) : Laws.RoundTrip.Statement (.tick delta) := by
  intro cur _ _
  rfl

theorem Laws.RoundTrip.reset : Laws.RoundTrip.Statement (.reset) := by
  intro cur _ _
  rfl

theorem Laws.RoundTrip.portsRequested (d : PortDevice) : Laws.RoundTrip.Statement (.portsRequested d) := by
  intro cur _ _
  rfl

end Sys2Proof
end

