-- ==== Sys2Proof/Laws/Pic.lean ====
section
/-! SUPPORT. The PIC: bits of a register, the priority of lines (R200, R201), what a recomputation and a request can do
(R203, R204), and that every operation of an element keeps its invariant (R26, R35). -/

namespace Sys2Proof.Machine

/-! ## Bits -/

theorem lineSet_setLineBit (b : Byte) (n m : Line) : lineSet (setLineBit b n) m = (lineSet b m || decide (m = n)) := by
  revert b n m; decide +kernel

theorem lineSet_clearLineBit (b : Byte) (n m : Line) :
    lineSet (clearLineBit b n) m = (lineSet b m && decide (m ≠ n)) := by
  revert b n m; decide +kernel

/-- A register is the set of its bits. -/
theorem lineSet_ext {a b : Byte} (h : ∀ n, lineSet a n = lineSet b n) : a = b := by
  apply BitVec.eq_of_getLsbD_eq
  intro i hi
  have := h (BitVec.ofNat 3 i)
  simpa [lineSet, Nat.mod_eq_of_lt hi] using this

/-! ## Priority -/

theorem rankLine_lineRank (pa n : Line) : rankLine pa (lineRank pa n) = n := by
  show BitVec.ofNat 3 (n - pa).toNat + pa = n
  rw [BitVec.ofNat_toNat, BitVec.setWidth_eq, BitVec.sub_add_cancel]

theorem lineRank_rankLine (pa : Line) {p : Nat} (h : p < 8) : lineRank pa (rankLine pa p) = p := by
  simp [rankLine, lineRank, Nat.mod_eq_of_lt h]

theorem lineRank_lt (pa n : Line) : lineRank pa n < 8 := (n - pa).isLt

theorem lineRank_inj {pa n m : Line} (h : lineRank pa n = lineRank pa m) : n = m := by
  have := congrArg (rankLine pa) h
  rwa [rankLine_lineRank, rankLine_lineRank] at this

/-- `get_priority` finds the least rank of a set line (R200). -/
theorem getPriority_some {pa : Line} {m : Byte} {p : Nat} (hp : p < 8) :
    getPriority pa m = p ↔
      lineSet m (rankLine pa p) = true ∧ ∀ n, lineSet m n = true → p ≤ lineRank pa n := by
  have hfind : getPriority pa m = p ↔
      (List.range 8).find? (fun q => m.getLsbD (rankLine pa q).toNat) = some p := by
    unfold getPriority
    cases hf : (List.range 8).find? (fun q => m.getLsbD (rankLine pa q).toNat) with
    | none => simp; omega
    | some q => simp
  rw [hfind, List.find?_range_eq_some]
  constructor
  · rintro ⟨hbit, _, hless⟩
    refine ⟨hbit, fun n hn => ?_⟩
    by_contra hlt
    have := hless (lineRank pa n) (by omega)
    rw [rankLine_lineRank] at this
    simp only [lineSet] at hn
    simp [hn] at this
  · rintro ⟨hbit, hleast⟩
    refine ⟨hbit, by simpa using hp, fun q hq => ?_⟩
    by_contra hset
    have := hleast (rankLine pa q) (by simpa [lineSet] using hset)
    rw [lineRank_rankLine pa (by omega)] at this
    omega

/-- `get_priority` answers 8 when no line is set (R200). -/
theorem getPriority_none {pa : Line} {m : Byte} : getPriority pa m = 8 ↔ ∀ n, lineSet m n = false := by
  have hfind : getPriority pa m = 8 ↔
      (List.range 8).find? (fun q => m.getLsbD (rankLine pa q).toNat) = none := by
    unfold getPriority
    cases hf : (List.range 8).find? (fun q => m.getLsbD (rankLine pa q).toNat) with
    | none => simp
    | some q =>
      have := List.mem_range.mp (List.mem_of_find?_eq_some hf)
      simp; omega
  rw [hfind, List.find?_eq_none]
  constructor
  · intro h n
    have := h (lineRank pa n) (List.mem_range.mpr (lineRank_lt pa n))
    rw [rankLine_lineRank] at this
    simpa [lineSet] using this
  · intro h q _
    have := h (rankLine pa q)
    simpa [lineSet] using this

theorem getPriority_le (pa : Line) (m : Byte) : getPriority pa m ≤ 8 := by
  by_cases h : ∀ n, lineSet m n = false
  · exact (getPriority_none.mpr h).le
  · unfold getPriority
    cases hf : (List.range 8).find? (fun q => m.getLsbD (rankLine pa q).toNat) with
    | none => simp
    | some q =>
      have := List.mem_range.mp (List.mem_of_find?_eq_some hf)
      simp; omega

/-- Every set line ranks at or after `get_priority`. -/
theorem getPriority_least {pa : Line} {m : Byte} {n : Line} (hn : lineSet m n = true) :
    getPriority pa m ≤ lineRank pa n := by
  rcases Nat.lt_or_ge (getPriority pa m) 8 with h | h
  · exact ((getPriority_some h).mp rfl).2 n hn
  · have h8 : getPriority pa m = 8 := le_antisymm (getPriority_le pa m) h
    have := getPriority_none.mp h8 n
    simp [this] at hn

/-- `get_irq` answers a line exactly when it is requested and not masked, no such line ranks before it, and it ranks
before every blocking line (R201). -/
theorem getIrq_some {role : Elem} {p : PicElement} {n : Line} :
    getIrq role p = some n ↔
      lineSet p.pending n = true ∧ (∀ m, lineSet p.pending m = true → lineRank p.priorityAdd n ≤ lineRank p.priorityAdd m) ∧
        ∀ m, lineSet (p.blocking role) m = true → lineRank p.priorityAdd n < lineRank p.priorityAdd m := by
  have hless : ∀ r, r < 8 → (r < getPriority p.priorityAdd (p.blocking role) ↔
      ∀ m, lineSet (p.blocking role) m = true → r < lineRank p.priorityAdd m) := by
    intro r hr
    constructor
    · intro h m hm
      exact lt_of_lt_of_le h (getPriority_least hm)
    · intro h
      rcases Nat.lt_or_ge (getPriority p.priorityAdd (p.blocking role)) 8 with h8 | h8
      · have := ((getPriority_some h8).mp rfl).1
        have := h _ this
        rwa [lineRank_rankLine _ h8] at this
      · omega
  simp only [getIrq]
  by_cases h8 : getPriority p.priorityAdd p.pending = 8
  · rw [if_pos h8]
    have := getPriority_none.mp h8 n
    simp [this]
  · rw [if_neg h8]
    have hlt : getPriority p.priorityAdd p.pending < 8 := lt_of_le_of_ne (getPriority_le _ _) h8
    obtain ⟨hset, hleast⟩ := (getPriority_some hlt).mp rfl
    by_cases hb : getPriority p.priorityAdd p.pending < getPriority p.priorityAdd (p.blocking role)
    · rw [if_pos hb]
      constructor
      · intro h
        obtain rfl := Option.some.inj h
        rw [lineRank_rankLine _ hlt]
        exact ⟨hset, hleast, (hless _ hlt).mp hb⟩
      · rintro ⟨hn, hmin, _⟩
        have h1 := hmin _ hset
        have h2 := hleast n hn
        rw [lineRank_rankLine _ hlt] at h1
        have : lineRank p.priorityAdd n = getPriority p.priorityAdd p.pending := le_antisymm h1 h2
        rw [← this, rankLine_lineRank]
    · rw [if_neg hb]
      simp only [reduceCtorEq, false_iff]
      rintro ⟨hn, _, hblock⟩
      exact hb (lt_of_le_of_lt (hleast n hn) ((hless _ (lineRank_lt _ _)).mpr hblock))

/-- A deliverable line is requested and not masked (R228). -/
theorem getIrq_unmasked {role : Elem} {p : PicElement} {n : Line} (h : getIrq role p = some n) :
    lineSet p.irr n = true ∧ lineSet p.imr n = false := by
  have := (getIrq_some.mp h).1
  have hlt : n.toNat < 8 := n.isLt
  simpa [lineSet, PicElement.pending, BitVec.getLsbD_and, BitVec.getLsbD_not, hlt] using this

/-! ## Requests and recomputation -/

/-- What a request can do to an element: its request and level registers, nothing else (R202). -/
theorem PicElement.setLine_frame (p : PicElement) (n : Line) (l : Bool) :
    p.setLine n l = { p with irr := (p.setLine n l).irr, lastIrr := (p.setLine n l).lastIrr } := by
  simp only [PicElement.setLine]; split <;> rfl

theorem PicElement.pulse_frame (p : PicElement) :
    p.pulse = { p with irr := p.pulse.irr, lastIrr := p.pulse.lastIrr } := by
  simp only [PicElement.pulse]
  rw [PicElement.setLine_frame (p.setLine _ true), PicElement.setLine_frame p]

/-- All a recomputation can do: request lines of the master, and at most one `RaiseInterrupt` (R204). -/
theorem State.updateIrq_cases (s : State) :
    ∃ m, (m = s.picM ∨ m = s.picM.pulse) ∧
      (s.updateIrq = { s with picM := m } ∨ s.updateIrq = ({ s with picM := m } : State).notify .raiseInterrupt) := by
  unfold State.updateIrq
  by_cases hs : (getIrq .slave s.picS).isSome = true
  · refine ⟨s.picM.pulse, .inr rfl, ?_⟩
    rw [if_pos hs]
    by_cases hm : (getIrq .master ({ s with picM := s.picM.pulse } : State).picM).isSome = true
    · exact .inr (if_pos hm)
    · exact .inl (if_neg hm)
  · refine ⟨s.picM, .inl rfl, ?_⟩
    rw [if_neg hs]
    by_cases hm : (getIrq .master s.picM).isSome = true
    · exact .inr (if_pos hm)
    · exact .inl (if_neg hm)

/-- A recomputation adds nothing to the events but `RaiseInterrupt` (R204, R404). -/
theorem State.updateIrq_trace (s : State) :
    s.updateIrq.trace = s.trace ∨ s.updateIrq.trace = s.trace ++ [.raiseInterrupt] := by
  obtain ⟨m, _, h | h⟩ := s.updateIrq_cases <;> simp [h]

/-! ## The CPU's side of a notification (R8, R95) -/

theorem State.CpuAnswered.refl (s : State) : s.CpuAnswered s := ⟨[], by simp, by simp⟩

theorem State.CpuAnswered.trans {s t u : State} (h : s.CpuAnswered t) (k : t.CpuAnswered u) : s.CpuAnswered u := by
  obtain ⟨e, he, hc⟩ := h
  obtain ⟨e', he', hc'⟩ := k
  exact ⟨e ++ e', by rw [he', he, List.append_assoc], by rw [hc', hc, List.drop_drop, List.countP_append]⟩

/-- Two states with the same events and the same CPU entries answer alike. -/
theorem State.CpuAnswered.congr {s s' t t' : State} (h : s.CpuAnswered t) (hs : s'.trace = s.trace)
    (hs' : s'.cpuReplies = s.cpuReplies) (ht : t'.trace = t.trace) (ht' : t'.cpuReplies = t.cpuReplies) :
    s'.CpuAnswered t' := by
  obtain ⟨e, he, hc⟩ := h
  exact ⟨e, by rw [ht, he, hs], by rw [ht', hc, hs']⟩

theorem State.CpuAnswered.same {s t : State} (h : t.trace = s.trace) (h' : t.cpuReplies = s.cpuReplies) :
    s.CpuAnswered t := (State.CpuAnswered.refl s).congr rfl rfl h h'

/-- An event that is no notification leaves the CPU's entries. -/
theorem State.emit_answered (s : State) {e : Event} (h : e.isNotice = false) : s.CpuAnswered (s.emit e) :=
  ⟨[e], rfl, by simp [h]⟩

/-- A notification uses up one entry. -/
theorem State.notify_answered (s : State) {e : Event} (h : e.isNotice = true) : s.CpuAnswered (s.notify e) :=
  ⟨[e], rfl, by simp [h]⟩

/-- A CPU that keeps its contract goes on keeping it. -/
theorem State.CpuAnswered.conforms {s t : State} (h : s.CpuAnswered t) (hs : s.CpuConforms) : t.CpuConforms := by
  obtain ⟨e, _, hc⟩ := h
  intro r hr
  rw [hc] at hr
  exact hs r (List.mem_of_mem_drop hr)

theorem State.cpuReturns_next {s t u : State} (h : s.cpuReturns t = .next u) : u = t := by
  simp only [State.cpuReturns] at h
  split at h
  · split at h
    · cases h; rfl
    · cases h
  all_goals cases h; rfl

theorem State.cpuReturns_completes {s t : State} (h : s.CpuConforms) : s.cpuReturns t = .next t := by
  simp only [State.cpuReturns]
  split
  · rename_i c rest hc
    exact absurd (h (some c) (by simp [hc])) (by simp)
  all_goals rfl

theorem State.cpuReturns_refused {s t : State} {r : Refusal} : s.cpuReturns t ≠ .refused r := by
  simp only [State.cpuReturns]
  split
  · split <;> simp [State.violate]
  all_goals simp

/-- A call of the CPU inside a notification stops the step, with the events up to the notification on record (CV6). -/
theorem State.cpuReturns_faults {s t : State} {c : Call} {rest : List (Option Call)} (h : s.cpuReplies = some c :: rest)
    (ht : t.trace ≠ s.trace) : s.cpuReturns t = .fault (.reentrantCall c t.trace) := by
  simp [State.cpuReturns, h, ht, State.violate]

/-- An operation that notifies nobody completes whatever the CPU would do. -/
theorem State.cpuReturns_silent {s t : State} (h : t.trace = s.trace) : s.cpuReturns t = .next t := by
  simp only [State.cpuReturns]
  split
  · rw [if_pos h]
  all_goals rfl

/-- A recomputation uses up an entry of the CPU for its notification (R204). -/
theorem State.updateIrq_answered (s : State) : s.CpuAnswered s.updateIrq := by
  obtain ⟨m, _, h | h⟩ := s.updateIrq_cases
  · rw [h]; exact .same rfl rfl
  · rw [h]; exact (State.CpuAnswered.same rfl rfl).trans (State.notify_answered _ rfl)

theorem State.setIrq_answered (s : State) (line : Nat) (l : Bool) : s.CpuAnswered (s.setIrq line l) :=
  (State.CpuAnswered.same (by simp) (by simp)).trans (State.updateIrq_answered _)

/-! ## The rules line by line -/

/-- Driving a line, bit by bit (R202). -/
theorem PicElement.setLine_driven (p : PicElement) (n : Line) (l : Bool) : p.Driven (p.setLine n l) n l where
  others m hm := by
    simp only [PicElement.setLine]
    cases l <;> split_ifs <;> simp [lineSet_setLineBit, lineSet_clearLineBit, hm]
  noted := by
    simp only [PicElement.setLine]
    by_cases he : p.elcr.getLsbD n.toNat = true <;> cases l <;> simp [he, lineSet_setLineBit, lineSet_clearLineBit]
  requested := by
    have he : p.elcr.getLsbD n.toNat = lineSet p.elcr n := rfl
    have hl : p.lastIrr.getLsbD n.toNat = lineSet p.lastIrr n := rfl
    simp only [PicElement.setLine, he, hl]
    cases l <;> cases h : lineSet p.elcr n <;> cases h3 : lineSet p.lastIrr n <;>
      simp [lineSet_setLineBit, lineSet_clearLineBit]
  frame := p.setLine_frame n l

/-- The master after a recomputation (R204). -/
def State.cascaded (s : State) : PicElement :=
  if getIrq .slave s.picS = none then s.picM else s.picM.pulse

/-- A recomputation, field by field (R204). -/
theorem State.updateIrq_eq (s : State) :
    s.updateIrq = { s with
      picM := s.cascaded
      cpuReplies := if getIrq .master s.cascaded = none then s.cpuReplies else s.cpuReplies.tail
      trace := s.trace ++ if getIrq .master s.cascaded = none then [] else [.raiseInterrupt] } := by
  unfold State.updateIrq State.cascaded
  cases hs : getIrq .slave s.picS with
  | none => cases hm : getIrq .master s.picM <;> simp [State.notify, State.emit, hm]
  | some j => cases hm : getIrq .master s.picM.pulse <;> simp [State.notify, State.emit, hm]

/-- Everything a recomputation can do (R204). -/
theorem State.updateIrq_recomputed (s : State) : s.Recomputed s.updateIrq where
  slave := by simp
  quiet h := by simp [State.updateIrq_eq, State.cascaded, h]
  pulsed h := by
    refine ⟨_, PicElement.setLine_driven _ _ _, ?_⟩
    have : s.updateIrq.picM = s.picM.pulse := by simp [State.updateIrq_eq, State.cascaded, h]
    rw [this]
    exact PicElement.setLine_driven _ _ _
  told := by simp [State.updateIrq_eq]
  result := by simp
  frame := by
    refine ⟨⟨fun c => ?_, ?_⟩, ⟨?_, ?_, ?_⟩, fun k => ?_, fun a => ?_, ?_, ?_, ?_, ?_, ?_, s.updateIrq_answered⟩ <;> simp

/-- Everything a request can do (R203). -/
theorem State.setIrq_driven (s : State) (line : Nat) (l : Bool) : s.LineDriven (s.setIrq line l) line l :=
  ⟨_, PicElement.setLine_driven _ _ _, State.updateIrq_recomputed _⟩

/-- The acknowledge of a line, bit by bit (R205). -/
theorem PicElement.ack_acknowledged (p : PicElement) (n : Line) : p.Acknowledged (p.ack n) n := by
  have he : p.elcr.getLsbD n.toNat = lineSet p.elcr n := rfl
  constructor
  · intro m
    simp only [PicElement.ack, he]
    cases p.autoEoi <;> cases p.rotateOnAutoEoi <;> cases lineSet p.elcr n <;> simp [lineSet_setLineBit]
  · intro m
    simp only [PicElement.ack, he]
    cases p.autoEoi <;> cases p.rotateOnAutoEoi <;> cases lineSet p.elcr n <;>
      simp [lineSet_clearLineBit, Bool.and_comm]
  · simp only [PicElement.ack]
    cases p.autoEoi <;> cases p.rotateOnAutoEoi <;> split <;> simp
  · simp only [PicElement.ack]
    split_ifs <;> rfl

/-! ## The invariant of an element -/

theorem PicElement.Inv.congr {role : Elem} {p q : PicElement} (h : p.Inv role) (hb : q.irqBase = p.irqBase)
    (he : q.elcr = p.elcr) : q.Inv role := by
  simpa [PicElement.Inv, hb, he] using h

theorem PicElement.setLine_irqBase (p : PicElement) (n : Line) (l : Bool) : (p.setLine n l).irqBase = p.irqBase := by
  simp only [PicElement.setLine]; split <;> rfl

theorem PicElement.setLine_elcr (p : PicElement) (n : Line) (l : Bool) : (p.setLine n l).elcr = p.elcr := by
  simp only [PicElement.setLine]; split <;> rfl

theorem PicElement.setLine_inv {role : Elem} {p : PicElement} (n : Line) (l : Bool) (h : p.Inv role) :
    (p.setLine n l).Inv role := h.congr (p.setLine_irqBase n l) (p.setLine_elcr n l)

theorem PicElement.pulse_inv {role : Elem} {p : PicElement} (h : p.Inv role) : p.pulse.Inv role :=
  PicElement.setLine_inv _ _ (PicElement.setLine_inv _ _ h)

theorem PicElement.ack_inv {role : Elem} {p : PicElement} (n : Line) (h : p.Inv role) : (p.ack n).Inv role := by
  refine h.congr ?_ ?_ <;> · simp only [PicElement.ack]; split_ifs <;> rfl

theorem PicElement.elementReset_inv {role : Elem} {p : PicElement} (h : p.Inv role) : p.elementReset.Inv role :=
  ⟨by simp [PicElement.elementReset, PicElement.reset], h.2⟩

/-- Both elements keep their invariant. -/
abbrev State.PicInv (s : State) : Prop := ∀ e, (s.pic e).Inv e

theorem State.setPic_inv {s : State} {e : Elem} {p : PicElement} (h : s.PicInv) (hp : p.Inv e) :
    (s.setPic e p).PicInv := by
  intro e'
  rw [State.setPic_pic]
  split
  · next heq => exact heq ▸ hp
  · exact h e'

theorem State.updateIrq_picInv {s : State} (h : s.PicInv) : s.updateIrq.PicInv := by
  obtain ⟨m, hm, hs⟩ := s.updateIrq_cases
  have hmi : m.Inv .master := by
    rcases hm with rfl | rfl
    · exact h .master
    · exact PicElement.pulse_inv (h .master)
  intro e
  rcases hs with hs | hs <;> rw [hs] <;> cases e <;> first | exact hmi | exact h .slave

theorem State.setIrq_picInv {s : State} (line : Nat) (l : Bool) (h : s.PicInv) : (s.setIrq line l).PicInv :=
  State.updateIrq_picInv (State.setPic_inv h (PicElement.setLine_inv _ _ (h _)))

end Sys2Proof.Machine
end

