-- ==== Sys2Proof/Laws/Queue.lean ====
section
/-! SUPPORT. The timer queue: where an offer puts a timer (R155), and that every operation on timers keeps the queue
sorted, without repeats, and holding exactly the enabled timers (R62). -/

namespace Sys2Proof.Machine

/-! ## Insertion -/

theorem mem_insertByExpiry {key : Nat → Nat} {t x : Nat} {q : List Nat} :
    x ∈ insertByExpiry key t q ↔ x = t ∨ x ∈ q := by
  induction q with
  | nil => simp [insertByExpiry]
  | cons a rest ih =>
    simp only [insertByExpiry]
    split
    · simp
    · simp only [List.mem_cons, ih]; tauto

theorem insertByExpiry_length (key : Nat → Nat) (t : Nat) (q : List Nat) :
    (insertByExpiry key t q).length = q.length + 1 := by
  induction q with
  | nil => rfl
  | cons a rest ih =>
    simp only [insertByExpiry]
    split
    · rfl
    · simp [ih]

/-- A new entry stands behind every one of equal or smaller expiry and before every greater one (R155). -/
theorem insertByExpiry_eq {key : Nat → Nat} {t : Nat} {q : List Nat} (h : q.Pairwise fun a b => key a ≤ key b) :
    insertByExpiry key t q =
      q.filter (fun x => decide (key x ≤ key t)) ++ t :: q.filter (fun x => decide (key t < key x)) := by
  induction q with
  | nil => rfl
  | cons a rest ih =>
    obtain ⟨ha, hrest⟩ := List.pairwise_cons.mp h
    simp only [insertByExpiry]
    split
    · next hlt =>
      have hnone : rest.filter (fun x => decide (key x ≤ key t)) = [] :=
        List.filter_eq_nil_iff.mpr fun x hx => by have := ha x hx; simp; omega
      have hall : rest.filter (fun x => decide (key t < key x)) = rest :=
        List.filter_eq_self.mpr fun x hx => by have := ha x hx; simp; omega
      simp [hlt, hnone, hall, Nat.not_le.mpr hlt]
    · next hge => simp [ih hrest, hge, Nat.not_lt.mp hge]

theorem insertByExpiry_sorted {key : Nat → Nat} {t : Nat} {q : List Nat} (h : q.Pairwise fun a b => key a ≤ key b) :
    (insertByExpiry key t q).Pairwise fun a b => key a ≤ key b := by
  induction q with
  | nil => simp [insertByExpiry]
  | cons a rest ih =>
    obtain ⟨ha, hrest⟩ := List.pairwise_cons.mp h
    simp only [insertByExpiry]
    split
    · next hlt =>
      refine List.pairwise_cons.mpr ⟨fun x hx => ?_, h⟩
      rcases List.mem_cons.mp hx with rfl | hx
      · exact hlt.le
      · exact hlt.le.trans (ha x hx)
    · next hge =>
      refine List.pairwise_cons.mpr ⟨fun x hx => ?_, ih hrest⟩
      rcases mem_insertByExpiry.mp hx with rfl | hx
      · exact Nat.not_lt.mp hge
      · exact ha x hx

theorem insertByExpiry_nodup {key : Nat → Nat} {t : Nat} {q : List Nat} (h : q.Nodup) (ht : t ∉ q) :
    (insertByExpiry key t q).Nodup := by
  induction q with
  | nil => simp [insertByExpiry]
  | cons a rest ih =>
    obtain ⟨ha, hrest⟩ := List.nodup_cons.mp h
    simp only [List.mem_cons, not_or] at ht
    simp only [insertByExpiry]
    split
    · exact List.nodup_cons.mpr ⟨by simp [ht], h⟩
    · refine List.nodup_cons.mpr ⟨fun hmem => ?_, ih hrest ht.2⟩
      rcases mem_insertByExpiry.mp hmem with rfl | hmem
      · exact ht.1 rfl
      · exact ha hmem

/-! ## Records -/

/-- The record of a timer after a change of one. -/
theorem State.modifyTimer_getElem? (s : State) (t u : Nat) (f : Timer → Timer) :
    (s.modifyTimer t f).timers[u]? = if u = t then (s.timers[u]?).map f else s.timers[u]? := by
  simp only [State.modifyTimer, List.getElem?_modify, eq_comm (a := t)]
  split <;> simp

@[simp] theorem State.modifyTimer_length (s : State) (t : Nat) (f : Timer → Timer) :
    (s.modifyTimer t f).timers.length = s.timers.length := by simp [State.modifyTimer]

@[simp] theorem State.update_length (s : State) (t : Nat) : (s.update t).timers.length = s.timers.length := by simp

@[simp] theorem State.arm_length (s : State) (t x : Nat) : (s.arm t x).timers.length = s.timers.length := by
  simp [State.arm]

@[simp] theorem State.disarm_length (s : State) (t : Nat) : (s.disarm t).timers.length = s.timers.length := by
  simp [State.disarm]

@[simp] theorem State.popTimer_length (s : State) (t : Nat) : (s.popTimer t).timers.length = s.timers.length := by
  simp [State.popTimer]

@[simp] theorem State.changeTimer_length (s : State) (t : Nat) (m : TimerChange) :
    (s.changeTimer t m).timers.length = s.timers.length := by cases m <;> simp [State.changeTimer]

@[simp] theorem State.irqTimerUpdate_length (s : State) (c : PitChan) (t : Nat) :
    (s.irqTimerUpdate c t).timers.length = s.timers.length := by
  cases c <;> first | rfl | (simp only [State.irqTimerUpdate]; split <;> simp)

/-- Another timer's expiry is not touched by a change of `t`. -/
theorem State.modifyTimer_expiryOf_ne {s : State} {t u : Nat} (f : Timer → Timer) (h : u ≠ t) :
    (s.modifyTimer t f).expiryOf u = s.expiryOf u := by
  simp [State.expiryOf, State.modifyTimer_getElem?, h]

theorem State.modifyTimer_enabled_ne {s : State} {t u : Nat} (f : Timer → Timer) (h : u ≠ t) :
    (s.modifyTimer t f).timerEnabled u = s.timerEnabled u := by
  simp [State.timerEnabled, State.modifyTimer_getElem?, h]

/-! ## The invariant -/

/-- The queue invariant for every timer but `t`, which is not queued. -/
structure State.QueueInvBut (s : State) (t : Nat) : Prop where
  sorted : s.queue.Pairwise (fun a b => s.expiryOf a ≤ s.expiryOf b)
  nodup : s.queue.Nodup
  absent : t ∉ s.queue
  mem : ∀ u, u ≠ t → (u ∈ s.queue ↔ s.timerEnabled u = true)

theorem State.remove_but {s : State} (t : Nat) (h : s.QueueInv) : (s.remove t).QueueInvBut t where
  sorted := h.1.filter _
  nodup := h.2.1.filter _
  absent := by simp [State.remove]
  mem u hu := by simp [State.remove, hu, State.timerEnabled]; exact h.2.2 u

theorem State.remove_but_of_but {s : State} {t : Nat} (h : s.QueueInvBut t) : (s.remove t).QueueInvBut t where
  sorted := h.sorted.filter _
  nodup := h.nodup.filter _
  absent := by simp [State.remove]
  mem u hu := by simp [State.remove, hu, State.timerEnabled]; exact h.mem u hu

theorem State.modifyTimer_but {s : State} {t : Nat} (f : Timer → Timer) (h : s.QueueInvBut t) :
    (s.modifyTimer t f).QueueInvBut t where
  sorted := by
    refine (List.Pairwise.imp_of_mem ?_ h.sorted : _)
    intro a b ha hb hab
    have ha' : a ≠ t := fun he => h.absent (he ▸ ha)
    have hb' : b ≠ t := fun he => h.absent (he ▸ hb)
    rwa [State.modifyTimer_expiryOf_ne f ha', State.modifyTimer_expiryOf_ne f hb']
  nodup := h.nodup
  absent := h.absent
  mem u hu := by rw [State.modifyTimer_enabled_ne f hu]; exact h.mem u hu

/-- Offering the one timer that is not settled settles it. -/
theorem State.offer_inv {s : State} {t : Nat} (h : s.QueueInvBut t) (he : s.timerEnabled t = true) :
    (s.offer t).QueueInv := by
  refine ⟨insertByExpiry_sorted h.sorted, insertByExpiry_nodup h.nodup h.absent, fun u => ?_⟩
  show u ∈ insertByExpiry s.expiryOf t s.queue ↔ s.timerEnabled u = true
  rw [mem_insertByExpiry]
  by_cases hu : u = t
  · subst hu; simp [he]
  · simp [hu, h.mem u hu]

/-- `update` settles the one timer that is not settled (R154). -/
theorem State.update_inv {s : State} {t : Nat} (h : (s.remove t).QueueInvBut t) : (s.update t).QueueInv := by
  simp only [State.update]
  split
  · next he => exact State.offer_inv h he
  · next he =>
    refine ⟨h.sorted, h.nodup, fun u => ?_⟩
    by_cases hu : u = t
    · subst hu; simpa [h.absent] using he
    · exact h.mem u hu

theorem State.modify_remove (s : State) (t : Nat) (f : Timer → Timer) :
    (s.modifyTimer t f).remove t = (s.remove t).modifyTimer t f := rfl

/-- `arm` keeps the queue invariant (R152). -/
theorem State.arm_inv {s : State} (t x : Nat) (h : s.QueueInv) : (s.arm t x).QueueInv := by
  refine State.update_inv ?_
  rw [State.modify_remove]
  exact State.modifyTimer_but _ (State.remove_but t h)

/-- `disarm` keeps the queue invariant (R153). -/
theorem State.disarm_inv {s : State} (t : Nat) (h : s.QueueInv) : (s.disarm t).QueueInv := by
  refine State.update_inv ?_
  rw [State.modify_remove]
  exact State.modifyTimer_but _ (State.remove_but t h)

/-- A mutation of a timer keeps the queue invariant (R152, R153, R154). -/
theorem State.changeTimer_inv {s : State} (t : Nat) (m : TimerChange) (h : s.QueueInv) :
    (s.changeTimer t m).QueueInv := by
  cases m with
  | keep => exact State.update_inv (State.remove_but t h)
  | arm x => exact State.arm_inv t x h
  | disarm => exact State.disarm_inv t h

theorem State.modifyTimer_enabled_self (s : State) (t : Nat) (f : Timer → Timer) (hf : ∀ r, (f r).enabled = false) :
    (s.modifyTimer t f).timerEnabled t = false := by
  simp only [State.timerEnabled, State.modifyTimer_getElem?]
  cases s.timers[t]? <;> simp [hf]

/-- The pop of `fire` keeps the queue invariant: the timer is neither queued nor enabled (R159). -/
theorem State.popTimer_inv {s : State} (t : Nat) (h : s.QueueInv) : (s.popTimer t).QueueInv := by
  have hb := State.modifyTimer_but (fun r => { r with enabled := false }) (State.remove_but t h)
  refine ⟨hb.sorted, hb.nodup, fun u => ?_⟩
  by_cases hu : u = t
  · subst hu
    have hoff := State.modifyTimer_enabled_self (s.remove u) u (fun r => { r with enabled := false }) fun _ => rfl
    simp only [State.popTimer]
    rw [hoff]
    simpa using hb.absent
  · exact hb.mem u hu

/-- The queue invariant looks at the queue and the timers only. -/
theorem State.queueInv_congr {s t : State} (hq : t.queue = s.queue) (ht : t.timers = s.timers) :
    t.QueueInv ↔ s.QueueInv := by
  simp only [State.QueueInv, State.expiryOf, State.timerEnabled, hq, ht]

/-- `arm` puts an existing timer behind every queued one of equal or smaller expiry, before every greater one (R152,
R155). -/
theorem State.arm_queue {s : State} {t x : Nat} (h : s.QueueInv) (ht : t < s.timers.length) :
    (s.arm t x).queue =
      (s.queue.filter (fun u => decide (u ≠ t) && decide (s.expiryOf u ≤ x))) ++
        t :: s.queue.filter (fun u => decide (u ≠ t) && decide (x < s.expiryOf u)) := by
  set m := s.modifyTimer t fun r => { r with expiry := x, enabled := true } with hm
  have hget : m.timers[t]? = some { (s.timers[t]) with expiry := x, enabled := true } := by
    rw [hm, State.modifyTimer_getElem?]; simp [ht]
  have hen : (m.remove t).timerEnabled t = true := by
    show ((m.timers[t]?).map Timer.enabled).getD false = true
    rw [hget]; rfl
  have hexp : (m.remove t).expiryOf t = x := by
    show ((m.timers[t]?).map Timer.expiry).getD 0 = x
    rw [hget]; rfl
  have hother : ∀ u ∈ s.queue, u ≠ t → (m.remove t).expiryOf u = s.expiryOf u := fun u _ hu =>
    State.modifyTimer_expiryOf_ne _ hu
  have hbut : (m.remove t).QueueInvBut t := by
    rw [hm, State.modify_remove]; exact State.modifyTimer_but _ (State.remove_but t h)
  have hq : (s.arm t x).queue = insertByExpiry (m.remove t).expiryOf t (m.remove t).queue := by
    simp only [State.arm, State.update, ← hm, hen, if_true]; rfl
  rw [hq, insertByExpiry_eq hbut.sorted, hexp]
  have hqueue : (m.remove t).queue = s.queue.filter (· ≠ t) := rfl
  rw [hqueue, List.filter_filter, List.filter_filter]
  congr 1
  · refine List.filter_congr fun u hu => ?_
    by_cases hut : u = t
    · simp [hut]
    · simp [hut, hother u hu hut]
  · congr 1
    refine List.filter_congr fun u hu => ?_
    by_cases hut : u = t
    · simp [hut]
    · simp [hut, hother u hu hut]

end Sys2Proof.Machine
end

