-- ==== Sys2Proof/Laws/Transfer.lean ====
section
/-! SUPPORT. DMA transfers: everything a task can do (R343, R344, R347), the induction over a pass, the bound on its
work (log entry 24), that it completes when the devices keep their contract, and what it leaves and keeps. -/

namespace Sys2Proof.Machine

/-! ## What one task can do -/

/-- `read_memory` answers a next state exactly for operands in range, and then moves no byte of memory (R89). -/
theorem State.readMemoryCall_next {s t : State} {n : Nat} {buf : List Byte} {off pos len : Int}
    (h : s.readMemoryCall n buf off pos len = .next t) :
    n ≤ 7 ∧ bufferRangeOk buf off pos len = true ∧ ∃ addr r, t = (s.memRead addr len.toNat).answer r := by
  unfold State.readMemoryCall at h
  split at h
  · simp [State.violate] at h
  · next hn =>
    split at h
    · simp [State.violate] at h
    · next hb =>
      refine ⟨by omega, by simpa using hb, ?_⟩
      injection h with h
      exact ⟨_, _, h.symm⟩

theorem State.readMemoryCall_completes {s : State} {n : Nat} {buf : List Byte} {off pos len : Int} (hn : n ≤ 7)
    (hb : bufferRangeOk buf off pos len = true) : ∃ t, s.readMemoryCall n buf off pos len = .next t := by
  simp [State.readMemoryCall, hb, Nat.not_lt.mpr hn]

/-- `write_memory` answers a next state exactly for operands in range (R90). -/
theorem State.writeMemoryCall_next {s t : State} {n : Nat} {buf : List Byte} {off pos len : Int}
    (h : s.writeMemoryCall n buf off pos len = .next t) :
    n ≤ 7 ∧ bufferRangeOk buf off pos len = true ∧ ∃ addr bytes r, t = (s.memWrite addr bytes).answer r := by
  unfold State.writeMemoryCall at h
  split at h
  · simp [State.violate] at h
  · next hn =>
    split at h
    · simp [State.violate] at h
    · next hb =>
      refine ⟨by omega, by simpa using hb, ?_⟩
      injection h with h
      exact ⟨_, _, _, h.symm⟩

theorem State.writeMemoryCall_completes {s : State} {n : Nat} {buf : List Byte} {off pos len : Int} (hn : n ≤ 7)
    (hb : bufferRangeOk buf off pos len = true) : ∃ t, s.writeMemoryCall n buf off pos len = .next t := by
  simp [State.writeMemoryCall, hb, Nat.not_lt.mpr hn]

theorem State.setIrqCall_next {s t : State} {line level : Nat} (h : s.setIrqCall line level = .next t) :
    line ≤ 15 ∧ level ≤ 1 ∧ t = s.setIrq line (level == 1) := by
  unfold State.setIrqCall at h
  split at h
  · simp [State.violate] at h
  · next hr => exact ⟨by omega, by omega, State.cpuReturns_next h⟩

theorem State.setIrqCall_completes {s : State} {line level : Nat} (hl : line ≤ 15) (hv : level ≤ 1)
    (hs : s.CpuConforms) : s.setIrqCall line level = .next (s.setIrq line (level == 1)) := by
  simp [State.setIrqCall, Nat.not_lt.mpr hl, Nat.not_lt.mpr hv, State.cpuReturns_completes hs]

theorem settle_next {ret : State → State} {o : Outcome} {t : State} {more : List Task}
    (h : settle ret o = .next (t, more)) : more = [] ∧ ∃ u, o = .next u ∧ t = ret u := by
  cases o with
  | next u =>
    simp only [settle, Host.Outcome.next.injEq, Prod.mk.injEq] at h
    exact ⟨h.2.symm, u, rfl, h.1.symm⟩
  | fault r => cases h
  | refused r => cases h

theorem settle_refused {ret : State → State} {o : Outcome} {r : Refusal} (h : settle ret o = .refused r) :
    o = .refused r := by
  cases o with
  | next u => cases h
  | fault q => cases h
  | refused q => simpa [settle] using h

theorem State.channelModeCall_next {s t : State} {n : Nat} (h : s.channelModeCall n = .next t) :
    n ≤ 7 ∧ ∃ r, t = s.answer r := by
  unfold State.channelModeCall at h
  split at h
  · simp [State.violate] at h
  · next hn => injection h with h; exact ⟨by omega, _, h.symm⟩

theorem State.releaseCall_next {s t : State} {n : Nat} (h : s.releaseCall n = .next t) :
    n ≤ 7 ∧ t = s.setDma (controllerOf n) ((s.dma (controllerOf n)).clearRequest (channelOf n)) := by
  unfold State.releaseCall at h
  split at h
  · simp [State.violate] at h
  · next hn => injection h with h; exact ⟨by omega, h.symm⟩

/-- Everything a call of a device's handler can do (R347): take the next reply and do what it says, or return a free
position. -/
theorem State.callDevice_cases (s : State) (k : DmaCtl) (i : DmaChan) (device position size : Nat) :
    (∃ r rest, s.deviceReplies = r :: rest ∧
      s.callDevice k i device position size =
        ({ s with deviceReplies := rest }, r.calls.map .call ++ [.finish k i position size r.newPosition])) ∨
    (s.deviceReplies = [] ∧
      ∃ p : Long, s.callDevice k i device position size =
        ({ s with freeCount := s.freeCount + 1 }, [.finish k i position size p.toNat])) := by
  unfold State.callDevice
  cases hr : s.deviceReplies with
  | nil => exact .inr ⟨rfl, _, rfl⟩
  | cons r rest => exact .inl ⟨r, rest, rfl, rfl⟩

/-- Everything the start of a channel's run can do (R344): wrap a complete auto-initialize block, skip, or call the
device. -/
theorem State.runChannel_cases (s : State) (k : DmaCtl) (i : DmaChan) :
    (s.channelComplete k i ∧ (s.chan k i).autoInit = true ∧
      s.runChannel k i = (s.setChan k i { s.chan k i with currentWordCount := 0 }, [])) ∨
    ((s.channelComplete k i ∧ (s.chan k i).autoInit = false ∨ (s.chan k i).device = none) ∧
      s.runChannel k i = (s, [])) ∨
    (¬s.channelComplete k i ∧ ∃ device, (s.chan k i).device = some device ∧
      s.runChannel k i = s.callDevice k i device (s.chan k i).currentWordCount.toNat (threshold k (s.chan k i))) := by
  unfold State.runChannel State.channelComplete
  by_cases hc : threshold k (s.chan k i) ≤ (s.chan k i).currentWordCount.toNat
  · simp only [if_pos hc]
    by_cases ha : (s.chan k i).autoInit = true
    · exact .inl ⟨hc, ha, by rw [if_pos ha]⟩
    · exact .inr (.inl ⟨.inl ⟨hc, by simpa using ha⟩, by rw [if_neg ha]⟩)
  · simp only [if_neg hc]
    cases hd : (s.chan k i).device with
    | none => exact .inr (.inl ⟨.inr rfl, rfl⟩)
    | some d => exact .inr (.inr ⟨hc, d, rfl, rfl⟩)

/-- Everything the return of a handler can do (R344): the event, and the new position of the channel. -/
theorem State.finishTransfer_next {s t : State} {k : DmaCtl} {i : DmaChan} {position size : Nat} {p : Int}
    (h : s.finishTransfer k i position size p = .next t) :
    0 ≤ p ∧ p < Config.positionLimit ∧ ∃ w : Long,
      t = (s.emit (.handleTransfer (globalChannel k i) position size p)).setChan k i
        { s.chan k i with currentWordCount := w } := by
  unfold State.finishTransfer at h
  split at h
  · simp [State.violate] at h
  · next hr =>
    injection h with h
    exact ⟨by omega, by omega, _, h.symm⟩

theorem State.finishTransfer_completes {s : State} {k : DmaCtl} {i : DmaChan} {position size : Nat} {p : Int}
    (h0 : 0 ≤ p) (h1 : p < Config.positionLimit) : ∃ t, s.finishTransfer k i position size p = .next t := by
  unfold State.finishTransfer
  rw [if_neg (by omega)]
  exact ⟨_, rfl⟩

/-- Everything a device's own call can do (R95, R347): a copy or a mode byte returned to the device, a released request,
a line, or a held request with the channels it runs. -/
theorem State.deviceCall_next {s t : State} {c : Call} {more : List Task} (h : s.deviceCall c = .next (t, more)) :
    deviceMayCall c = true ∧
    ((more = [] ∧ ((∃ addr len r, t = s.returnNested ((s.memRead addr len).answer r)) ∨
        (∃ addr bytes r, t = s.returnNested ((s.memWrite addr bytes).answer r)) ∨ (∃ r, t = s.returnNested (s.answer r)) ∨
        (∃ n, t = s.setDma (controllerOf n) ((s.dma (controllerOf n)).clearRequest (channelOf n))) ∨
        (∃ line l, t = s.setIrq line l))) ∨
      (callWork c = 9 ∧ ∃ n, t = s.setDma (controllerOf n) ((s.dma (controllerOf n)).setRequest (channelOf n)) ∧
        more = t.pendingRuns (controllerOf n))) := by
  cases c with
  | readMemory n buf off pos len =>
    obtain ⟨rfl, u, hu, rfl⟩ := settle_next h
    obtain ⟨hn, hb, addr, r, rfl⟩ := State.readMemoryCall_next hu
    exact ⟨by simp [deviceMayCall, hn, hb], .inl ⟨rfl, .inl ⟨addr, len.toNat, r, rfl⟩⟩⟩
  | writeMemory n buf off pos len =>
    obtain ⟨rfl, u, hu, rfl⟩ := settle_next h
    obtain ⟨hn, hb, addr, bytes, r, rfl⟩ := State.writeMemoryCall_next hu
    exact ⟨by simp [deviceMayCall, hn, hb], .inl ⟨rfl, .inr (.inl ⟨addr, bytes, r, rfl⟩)⟩⟩
  | getChannelMode n =>
    obtain ⟨rfl, u, hu, rfl⟩ := settle_next h
    obtain ⟨hn, r, rfl⟩ := State.channelModeCall_next hu
    exact ⟨by simp [deviceMayCall, hn], .inl ⟨rfl, .inr (.inr (.inl ⟨r, rfl⟩))⟩⟩
  | releaseDmaRequest n =>
    obtain ⟨rfl, u, hu, rfl⟩ := settle_next h
    obtain ⟨hn, rfl⟩ := State.releaseCall_next hu
    exact ⟨by simp [deviceMayCall, hn], .inl ⟨rfl, .inr (.inr (.inr (.inl ⟨n, rfl⟩)))⟩⟩
  | setIrq line level =>
    obtain ⟨rfl, u, hu, rfl⟩ := settle_next h
    obtain ⟨hl, hv, rfl⟩ := State.setIrqCall_next hu
    exact ⟨by simp [deviceMayCall, hl, hv], .inl ⟨rfl, .inr (.inr (.inr (.inr ⟨line, level == 1, rfl⟩)))⟩⟩
  | holdDmaRequest n =>
    simp only [State.deviceCall] at h
    by_cases hn : 7 < n
    · simp [hn] at h
    · simp only [hn, if_false, Host.Outcome.next.injEq, Prod.mk.injEq] at h
      obtain ⟨rfl, rfl⟩ := h
      exact ⟨by simp [deviceMayCall]; omega, .inr ⟨rfl, n, rfl, rfl⟩⟩
  | _ => cases h

/-- A call that keeps the contract completes. -/
theorem State.deviceCall_completes {s : State} {c : Call} (h : deviceMayCall c = true) (hs : s.CpuConforms) :
    ∃ t more, s.deviceCall c = .next (t, more) := by
  cases c with
  | readMemory n buf off pos len =>
    simp only [deviceMayCall, Bool.and_eq_true, decide_eq_true_eq] at h
    obtain ⟨u, hu⟩ := State.readMemoryCall_completes (s := s) h.1 h.2
    exact ⟨_, _, by simp only [State.deviceCall, hu]; rfl⟩
  | writeMemory n buf off pos len =>
    simp only [deviceMayCall, Bool.and_eq_true, decide_eq_true_eq] at h
    obtain ⟨u, hu⟩ := State.writeMemoryCall_completes (s := s) h.1 h.2
    exact ⟨_, _, by simp only [State.deviceCall, hu]; rfl⟩
  | getChannelMode n =>
    simp only [deviceMayCall, decide_eq_true_eq] at h
    exact ⟨_, _, by simp only [State.deviceCall, State.channelModeCall, if_neg (Nat.not_lt.mpr h)]; rfl⟩
  | releaseDmaRequest n =>
    simp only [deviceMayCall, decide_eq_true_eq] at h
    exact ⟨_, _, by simp only [State.deviceCall, State.releaseCall, if_neg (Nat.not_lt.mpr h)]; rfl⟩
  | setIrq line level =>
    simp only [deviceMayCall, Bool.and_eq_true, decide_eq_true_eq] at h
    exact ⟨_, _, by simp only [State.deviceCall, State.setIrqCall_completes h.1 h.2 hs]; rfl⟩
  | holdDmaRequest n =>
    simp only [deviceMayCall, decide_eq_true_eq] at h
    exact ⟨_, _, by simp only [State.deviceCall, if_neg (Nat.not_lt.mpr h)]; rfl⟩
  | _ => simp [deviceMayCall] at h

/-- A call that R95 does not admit inside a handler stops the step (CV6). -/
theorem State.deviceCall_reentrant (s : State) {c : Call} (h : admittedInHandler c = false) :
    s.deviceCall c = .fault (.reentrantCall c s.trace) := by
  cases c <;> first | rfl | simp [admittedInHandler] at h

/-- No task is refused. -/
theorem State.taskStep_refused {s : State} {task : Task} {r : Refusal} : s.taskStep task ≠ .refused r := by
  intro h
  cases task with
  | run k i => cases h
  | finish k i position size p =>
    simp only [State.taskStep] at h
    split at h
    · cases h
    · cases h
    · next q hq =>
      simp only [State.finishTransfer] at hq
      split_ifs at hq
      simp [State.violate] at hq
  | call c =>
    simp only [State.taskStep] at h
    cases c with
    | readMemory n buf off pos len =>
      have h := settle_refused h
      simp only [State.readMemoryCall] at h
      split_ifs at h <;> simp [State.violate] at h
    | writeMemory n buf off pos len =>
      have h := settle_refused h
      simp only [State.writeMemoryCall] at h
      split_ifs at h <;> simp [State.violate] at h
    | getChannelMode n =>
      have h := settle_refused h
      simp only [State.channelModeCall] at h
      split_ifs at h; simp [State.violate] at h
    | releaseDmaRequest n =>
      have h := settle_refused h
      simp only [State.releaseCall] at h
      split_ifs at h; simp [State.violate] at h
    | setIrq line level =>
      have h := settle_refused h
      simp only [State.setIrqCall] at h
      split_ifs at h
      · simp [State.violate] at h
      · exact State.cpuReturns_refused h
    | holdDmaRequest n =>
      simp only [State.deviceCall] at h
      by_cases hn : 7 < n
      · simp [hn] at h
      · simp [hn] at h
    | _ => cases h

/-! ## The work of a pass -/

/-- The work of the replies still listed. -/
def State.deviceWork (s : State) : Nat := (s.deviceReplies.map DeviceReply.work).sum

theorem State.transferBound_eq (s : State) (tasks : List Task) :
    s.transferBound tasks = (tasks.map Task.work).sum + s.deviceWork := rfl

theorem State.pendingRuns_work (s : State) (k : DmaCtl) : ((s.pendingRuns k).map Task.work).sum ≤ 8 := by
  simp only [State.pendingRuns, List.map_map]
  have hlen := List.length_filter_le
    (fun i : DmaChan => ((s.dma k).status.extractLsb' 4 4 &&& ~~~(s.dma k).mask).getLsbD i.val) [0, 1, 2, 3]
  have hmap : ∀ l : List DmaChan, (l.map (Task.work ∘ Task.run k)).sum = 2 * l.length := by
    intro l
    induction l with
    | nil => rfl
    | cons a l ih => simp only [List.map_cons, List.sum_cons, List.length_cons, ih, Function.comp, Task.work]; omega
  rw [hmap]
  simp only [List.length_cons, List.length_nil] at hlen
  omega

/-- Every task takes work away. -/
theorem State.taskStep_work {s t : State} {task : Task} {more : List Task}
    (h : s.taskStep task = .next (t, more)) :
    (more.map Task.work).sum + t.deviceWork + 1 ≤ task.work + s.deviceWork := by
  cases task with
  | run k i =>
    simp only [State.taskStep, Host.Outcome.next.injEq] at h
    rcases s.runChannel_cases k i with ⟨_, _, hr⟩ | ⟨_, hr⟩ | ⟨_, d, _, hr⟩
    · rw [hr] at h; obtain ⟨rfl, rfl⟩ := Prod.mk.injEq .. ▸ h
      simp [Task.work, State.deviceWork]
    · rw [hr] at h; obtain ⟨rfl, rfl⟩ := Prod.mk.injEq .. ▸ h
      simp [Task.work]
    · rw [hr] at h
      rcases s.callDevice_cases k i d (s.chan k i).currentWordCount.toNat (threshold k (s.chan k i)) with
        ⟨r, rest, hl, hc⟩ | ⟨hl, p, hc⟩
      · rw [hc] at h; obtain ⟨rfl, rfl⟩ := Prod.mk.injEq .. ▸ h
        have : (r.calls.map (Task.work ∘ Task.call)) = r.calls.map callWork := rfl
        simp only [State.deviceWork, hl, List.map_append, List.map_map, List.map_cons, List.map_nil, List.sum_append,
          List.sum_cons, List.sum_nil, Task.work, this, DeviceReply.work]
        omega
      · rw [hc] at h; obtain ⟨rfl, rfl⟩ := Prod.mk.injEq .. ▸ h
        simp [Task.work, State.deviceWork]
  | finish k i position size p =>
    simp only [State.taskStep] at h
    split at h
    · next u hu =>
      obtain ⟨_, _, w, rfl⟩ := State.finishTransfer_next hu
      simp only [Host.Outcome.next.injEq, Prod.mk.injEq] at h
      obtain ⟨rfl, rfl⟩ := h
      simp [Task.work, State.deviceWork]
    · cases h
    · cases h
  | call c =>
    simp only [State.taskStep] at h
    have hw : 1 ≤ callWork c := by cases c <;> simp [callWork]
    obtain ⟨_, hd⟩ := State.deviceCall_next h
    rcases hd with ⟨rfl, hd⟩ | ⟨hc, n, rfl, rfl⟩
    · rcases hd with ⟨_, _, _, rfl⟩ | ⟨_, _, _, rfl⟩ | ⟨_, rfl⟩ | ⟨_, rfl⟩ | ⟨_, _, rfl⟩ <;>
        simp [Task.work, State.deviceWork] <;> omega
    · have := (s.setDma (controllerOf n) ((s.dma (controllerOf n)).setRequest (channelOf n))).pendingRuns_work
        (controllerOf n)
      simp only [Task.work, hc, State.deviceWork, State.setDma_deviceReplies]
      omega

/-- A pass with enough work allowed is never refused (log entry 24). -/
theorem runTasks_not_refused {n : Nat} {tasks : List Task} {s : State} (h : s.transferBound tasks ≤ n) (r : Refusal) :
    runTasks n tasks s ≠ .refused r := by
  induction n generalizing tasks s with
  | zero =>
    cases tasks with
    | nil => simp [runTasks]
    | cons task rest =>
      simp only [State.transferBound_eq, List.map_cons, List.sum_cons] at h
      have : 1 ≤ task.work := by
        cases task with
        | call c => cases c <;> simp [Task.work, callWork]
        | _ => simp [Task.work]
      omega
  | succ n ih =>
    cases tasks with
    | nil => simp [runTasks]
    | cons task rest =>
      simp only [runTasks]
      split
      · next t more ht =>
        refine ih ?_
        have := State.taskStep_work ht
        simp only [State.transferBound_eq, List.map_append, List.map_cons, List.sum_append, List.sum_cons] at h ⊢
        omega
      · simp
      · next q hq => exact absurd hq State.taskStep_refused

/-- A pass is never refused (log entry 24). -/
theorem State.runTransfers_not_refused (s : State) (k : DmaCtl) (r : Refusal) : s.runTransfers k ≠ .refused r :=
  runTasks_not_refused le_rfl r

/-! ## Passes one after the other -/

/-- A larger bound changes nothing once the bound is large enough. -/
theorem runTasks_more {n : Nat} {tasks : List Task} {s : State} (h : ∀ r, runTasks n tasks s ≠ .refused r) (m : Nat) :
    runTasks (n + m) tasks s = runTasks n tasks s := by
  induction n generalizing tasks s with
  | zero =>
    cases tasks with
    | nil => cases m <;> rfl
    | cons task rest => exact absurd rfl (h .workBound)
  | succ n ih =>
    cases tasks with
    | nil => rw [show n + 1 + m = (n + m) + 1 by omega]; rfl
    | cons task rest =>
      rw [show n + 1 + m = (n + m) + 1 by omega]
      simp only [runTasks] at h ⊢
      split
      · next t more ht => exact ih (fun r => by simpa [ht] using h r)
      · rfl
      · rfl

/-- Two bounds that are large enough agree. -/
theorem runTasks_bound {n m : Nat} {tasks : List Task} {s : State} (hn : s.transferBound tasks ≤ n)
    (hm : s.transferBound tasks ≤ m) : runTasks n tasks s = runTasks m tasks s := by
  have key : ∀ {k : Nat}, s.transferBound tasks ≤ k → runTasks k tasks s = runTasks (s.transferBound tasks) tasks s := by
    intro k hk
    obtain ⟨d, rfl⟩ := Nat.exists_eq_add_of_le hk
    exact runTasks_more (runTasks_not_refused le_rfl) d
  rw [key hn, key hm]

/-- Tasks that complete go on with those behind them. -/
theorem runTasks_append {n : Nat} {tasks more : List Task} {s t : State} (h : runTasks n tasks s = .next t) :
    ∃ j, ∀ m, runTasks (j + m) (tasks ++ more) s = runTasks m more t := by
  induction n generalizing tasks s with
  | zero =>
    cases tasks with
    | nil => simp only [runTasks, Host.Outcome.next.injEq] at h; exact ⟨0, fun m => by simp [h]⟩
    | cons task rest => cases h
  | succ n ih =>
    cases tasks with
    | nil => simp only [runTasks, Host.Outcome.next.injEq] at h; exact ⟨0, fun m => by simp [h]⟩
    | cons task rest =>
      simp only [runTasks] at h
      split at h
      · next u brought hu =>
        obtain ⟨j, hj⟩ := ih h
        refine ⟨j + 1, fun m => ?_⟩
        rw [show j + 1 + m = (j + m) + 1 by omega, List.cons_append]
        simp only [runTasks, hu]
        rw [← List.append_assoc]
        exact hj m
      · cases h
      · cases h

/-! ## Induction over a pass -/

/-- What every task keeps, a pass keeps. -/
theorem runTasks_keeps {P : State → Prop}
    (hstep : ∀ {s t : State} {task : Task} {more : List Task}, P s → s.taskStep task = .next (t, more) → P t)
    {n : Nat} {tasks : List Task} {s t : State} (hs : P s) (h : runTasks n tasks s = .next t) : P t := by
  induction n generalizing tasks s with
  | zero => cases tasks <;> simp [runTasks] at h; exact h ▸ hs
  | succ n ih =>
    cases tasks with
    | nil => simp [runTasks] at h; exact h ▸ hs
    | cons task rest =>
      simp only [runTasks] at h
      split at h
      · next u more hu => exact ih (hstep hs hu) h
      · cases h
      · cases h

/-- Everything one task can do to the state. -/
theorem State.taskStep_state {s t : State} {task : Task} {more : List Task} (h : s.taskStep task = .next (t, more)) :
    t = s ∨ (∃ k i w, t = s.setChan k i { s.chan k i with currentWordCount := w }) ∨
    (∃ rest, t = { s with deviceReplies := rest }) ∨ (∃ c, t = { s with freeCount := c }) ∨
    (∃ ev k i w, ev.isNotice = false ∧ t = (s.emit ev).setChan k i { s.chan k i with currentWordCount := w }) ∨
    (∃ addr len r, t = s.returnNested ((s.memRead addr len).answer r)) ∨
    (∃ addr bytes r, t = s.returnNested ((s.memWrite addr bytes).answer r)) ∨ (∃ r, t = s.returnNested (s.answer r)) ∨
    (∃ n, t = s.setDma (controllerOf n) ((s.dma (controllerOf n)).clearRequest (channelOf n))) ∨
    (∃ n, t = s.setDma (controllerOf n) ((s.dma (controllerOf n)).setRequest (channelOf n))) ∨
    (∃ line l, t = s.setIrq line l) := by
  cases task with
  | run k i =>
    simp only [State.taskStep, Host.Outcome.next.injEq] at h
    rcases s.runChannel_cases k i with ⟨_, _, hr⟩ | ⟨_, hr⟩ | ⟨_, d, _, hr⟩
    · rw [hr] at h; obtain ⟨rfl, rfl⟩ := Prod.mk.injEq .. ▸ h
      exact .inr (.inl ⟨k, i, _, rfl⟩)
    · rw [hr] at h; obtain ⟨rfl, rfl⟩ := Prod.mk.injEq .. ▸ h
      exact .inl rfl
    · rw [hr] at h
      rcases s.callDevice_cases k i d (s.chan k i).currentWordCount.toNat (threshold k (s.chan k i)) with
        ⟨r, rest, _, hc⟩ | ⟨_, p, hc⟩
      · rw [hc] at h; obtain ⟨rfl, rfl⟩ := Prod.mk.injEq .. ▸ h
        exact .inr (.inr (.inl ⟨rest, rfl⟩))
      · rw [hc] at h; obtain ⟨rfl, rfl⟩ := Prod.mk.injEq .. ▸ h
        exact .inr (.inr (.inr (.inl ⟨_, rfl⟩)))
  | finish k i position size p =>
    simp only [State.taskStep] at h
    split at h
    · next u hu =>
      obtain ⟨_, _, w, rfl⟩ := State.finishTransfer_next hu
      simp only [Host.Outcome.next.injEq, Prod.mk.injEq] at h
      obtain ⟨rfl, rfl⟩ := h
      exact .inr (.inr (.inr (.inr (.inl ⟨_, k, i, w, rfl, rfl⟩))))
    · cases h
    · cases h
  | call c =>
    simp only [State.taskStep] at h
    rcases (State.deviceCall_next h).2 with ⟨_, hd⟩ | ⟨_, n, rfl, _⟩
    · rcases hd with ⟨a, l, r, rfl⟩ | ⟨a, b, r, rfl⟩ | ⟨r, rfl⟩ | ⟨n, rfl⟩ | ⟨l, b, rfl⟩
      · exact .inr (.inr (.inr (.inr (.inr (.inl ⟨a, l, r, rfl⟩)))))
      · exact .inr (.inr (.inr (.inr (.inr (.inr (.inl ⟨a, b, r, rfl⟩))))))
      · exact .inr (.inr (.inr (.inr (.inr (.inr (.inr (.inl ⟨r, rfl⟩)))))))
      · exact .inr (.inr (.inr (.inr (.inr (.inr (.inr (.inr (.inl ⟨n, rfl⟩))))))))
      · exact .inr (.inr (.inr (.inr (.inr (.inr (.inr (.inr (.inr (.inr ⟨l, b, rfl⟩)))))))))
    · exact .inr (.inr (.inr (.inr (.inr (.inr (.inr (.inr (.inr (.inl ⟨n, rfl⟩)))))))))

/-- What a pass leaves: the PIT, time, the timers and what is not the transfer devices'. -/
structure State.PassFrame (s t : State) : Prop where
  pit : ∀ c, t.pit c = s.pit c
  pitNext : t.pitNext = s.pitNext
  currentTime : t.currentTime = s.currentTime
  timers : t.timers = s.timers
  queue : t.queue = s.queue
  calls : t.calls = s.calls
  expiryReplies : t.expiryReplies = s.expiryReplies
  result : t.result = s.result
  cpu : s.CpuAnswered t

/-- One task answers the CPU for the notifications it makes. -/
theorem State.taskStep_answered {s t : State} {task : Task} {more : List Task} (h : s.taskStep task = .next (t, more)) :
    s.CpuAnswered t := by
  rcases State.taskStep_state h with rfl | ⟨_, _, _, rfl⟩ | ⟨_, rfl⟩ | ⟨_, rfl⟩ | ⟨_, _, _, _, hn, rfl⟩ | ⟨_, _, _, rfl⟩ |
    ⟨_, _, _, rfl⟩ | ⟨_, rfl⟩ | ⟨_, rfl⟩ | ⟨_, rfl⟩ | ⟨_, _, rfl⟩
  case inr.inr.inr.inr.inl => exact (State.emit_answered _ hn).trans (.same (by simp) (by simp))
  case inr.inr.inr.inr.inr.inl => exact ⟨[_], rfl, by simp [Event.isNotice]⟩
  case inr.inr.inr.inr.inr.inr.inl => exact ⟨[_], rfl, by simp [Event.isNotice]⟩
  case inr.inr.inr.inr.inr.inr.inr.inr.inr.inr => exact State.setIrq_answered _ _ _
  all_goals exact .same (by simp) (by simp)

theorem runTasks_frame {n : Nat} {tasks : List Task} {s t : State} (h : runTasks n tasks s = .next t) :
    s.PassFrame t := by
  refine runTasks_keeps (P := fun u => s.PassFrame u) ?_ ⟨fun _ => rfl, rfl, rfl, rfl, rfl, rfl, rfl, rfl, .refl s⟩ h
  intro u v task more hu hv
  have hcpu := hu.9.trans (State.taskStep_answered hv)
  rcases State.taskStep_state hv with rfl | ⟨_, _, _, rfl⟩ | ⟨_, rfl⟩ | ⟨_, rfl⟩ | ⟨_, _, _, _, _, rfl⟩ | ⟨_, _, _, rfl⟩ |
    ⟨_, _, _, rfl⟩ | ⟨_, rfl⟩ | ⟨_, rfl⟩ | ⟨_, rfl⟩ | ⟨_, _, rfl⟩
  case inr.inr.inl => exact ⟨hu.1, hu.2, hu.3, hu.4, hu.5, hu.6, hu.7, hu.8, hcpu⟩
  case inr.inr.inr.inl => exact ⟨hu.1, hu.2, hu.3, hu.4, hu.5, hu.6, hu.7, hu.8, hcpu⟩
  all_goals
    exact ⟨fun c => by simpa using hu.1 c, by simpa using hu.2, by simpa using hu.3, by simpa using hu.4,
      by simpa using hu.5, by simpa using hu.6, by simpa using hu.7, by simpa using hu.8, hcpu⟩

/-! ## Completion -/

/-- Tasks that keep the contract of the devices. -/
def Task.conforming : Task → Bool
  | .run _ _ => true
  | .call c => deviceMayCall c
  | .finish _ _ _ _ p => decide (0 ≤ p) && decide (p < Config.positionLimit)

theorem State.taskStep_completes {s : State} {task : Task} (h : task.conforming = true) (hs : s.CpuConforms) :
    ∃ t more, s.taskStep task = .next (t, more) := by
  cases task with
  | run k i => exact ⟨_, _, rfl⟩
  | call c => exact State.deviceCall_completes h hs
  | finish k i position size p =>
    simp only [Task.conforming, Bool.and_eq_true, decide_eq_true_eq] at h
    obtain ⟨t, ht⟩ := State.finishTransfer_completes (s := s) (k := k) (i := i) (position := position) (size := size)
      h.1 h.2
    exact ⟨t, [], by simp [State.taskStep, ht]⟩

theorem State.pendingRuns_conforming {s : State} {k : DmaCtl} : ∀ task ∈ s.pendingRuns k, task.conforming = true := by
  intro task ht
  simp only [State.pendingRuns, List.mem_map] at ht
  obtain ⟨i, _, rfl⟩ := ht
  rfl

theorem State.taskStep_conforming {s t : State} {task : Task} {more : List Task} (hs : s.DevicesConform)
    (h : s.taskStep task = .next (t, more)) : t.DevicesConform ∧ ∀ x ∈ more, x.conforming = true := by
  cases task with
  | run k i =>
    simp only [State.taskStep, Host.Outcome.next.injEq] at h
    rcases s.runChannel_cases k i with ⟨_, _, hr⟩ | ⟨_, hr⟩ | ⟨_, d, _, hr⟩
    · rw [hr] at h; obtain ⟨rfl, rfl⟩ := Prod.mk.injEq .. ▸ h
      exact ⟨by simpa [State.DevicesConform] using hs, by simp⟩
    · rw [hr] at h; obtain ⟨rfl, rfl⟩ := Prod.mk.injEq .. ▸ h
      exact ⟨hs, by simp⟩
    · rw [hr] at h
      rcases s.callDevice_cases k i d (s.chan k i).currentWordCount.toNat (threshold k (s.chan k i)) with
        ⟨r, rest, hl, hc⟩ | ⟨hl, p, hc⟩
      · rw [hc] at h; obtain ⟨rfl, rfl⟩ := Prod.mk.injEq .. ▸ h
        have hr := hs r (by rw [hl]; exact List.mem_cons_self)
        simp only [DeviceReply.conforming, Bool.and_eq_true, List.all_eq_true, decide_eq_true_eq] at hr
        refine ⟨fun q hq => hs q (by rw [hl]; exact List.mem_cons_of_mem _ hq), fun x hx => ?_⟩
        rcases List.mem_append.mp hx with hx | hx
        · obtain ⟨c, hc, rfl⟩ := List.mem_map.mp hx
          exact hr.1.1 c hc
        · rw [List.mem_singleton.mp hx]
          simp [Task.conforming, hr.1.2, hr.2]
      · rw [hc] at h; obtain ⟨rfl, rfl⟩ := Prod.mk.injEq .. ▸ h
        refine ⟨hs, fun x hx => ?_⟩
        rw [List.mem_singleton.mp hx]
        have := p.isLt
        simp only [Task.conforming, Bool.and_eq_true, decide_eq_true_eq, Config.positionLimit]
        have hlt : (p.toNat : Int) < 4294967296 := by omega
        exact ⟨Int.natCast_nonneg _, by simpa [Config.positionLimit] using hlt⟩
  | finish k i position size p =>
    simp only [State.taskStep] at h
    split at h
    · next u hu =>
      obtain ⟨_, _, w, rfl⟩ := State.finishTransfer_next hu
      simp only [Host.Outcome.next.injEq, Prod.mk.injEq] at h
      obtain ⟨rfl, rfl⟩ := h
      exact ⟨by simpa [State.DevicesConform] using hs, by simp⟩
    · cases h
    · cases h
  | call c =>
    simp only [State.taskStep] at h
    rcases (State.deviceCall_next h).2 with ⟨rfl, hd⟩ | ⟨_, n, rfl, rfl⟩
    · refine ⟨?_, by simp⟩
      rcases hd with ⟨_, _, _, rfl⟩ | ⟨_, _, _, rfl⟩ | ⟨_, rfl⟩ | ⟨_, rfl⟩ | ⟨_, _, rfl⟩ <;>
        simpa [State.DevicesConform] using hs
    · exact ⟨by simpa [State.DevicesConform] using hs, State.pendingRuns_conforming⟩

/-- A pass completes when its tasks and the devices keep their contract (R95, R347). -/
theorem runTasks_completes {n : Nat} {tasks : List Task} {s : State} (hb : s.transferBound tasks ≤ n)
    (hs : s.DevicesConform) (hcpu : s.CpuConforms) (ht : ∀ x ∈ tasks, x.conforming = true) :
    ∃ t, runTasks n tasks s = .next t ∧ t.DevicesConform ∧ t.CpuConforms := by
  induction n generalizing tasks s with
  | zero =>
    cases tasks with
    | nil => exact ⟨s, rfl, hs, hcpu⟩
    | cons task rest => exact absurd rfl (runTasks_not_refused hb .workBound)
  | succ n ih =>
    cases tasks with
    | nil => exact ⟨s, rfl, hs, hcpu⟩
    | cons task rest =>
      obtain ⟨t, more, hstep⟩ := State.taskStep_completes (s := s) (ht task List.mem_cons_self) hcpu
      obtain ⟨hc, hm⟩ := State.taskStep_conforming hs hstep
      simp only [runTasks, hstep]
      refine ih ?_ hc ((State.taskStep_answered hstep).conforms hcpu) ?_
      · have := State.taskStep_work hstep
        simp only [State.transferBound_eq, List.map_append, List.map_cons, List.sum_append, List.sum_cons] at hb ⊢
        omega
      · intro x hx
        rcases List.mem_append.mp hx with hx | hx
        · exact hm x hx
        · exact ht x (List.mem_cons_of_mem _ hx)

theorem State.runTransfers_completes {s : State} (k : DmaCtl) (hs : s.DevicesConform) (hcpu : s.CpuConforms) :
    ∃ t, s.runTransfers k = .next t ∧ t.DevicesConform ∧ t.CpuConforms :=
  runTasks_completes le_rfl hs hcpu State.pendingRuns_conforming

/-! ## Invariants -/

theorem DmaController.Inv.setCh {k : DmaCtl} {d : DmaController} {i : DmaChan} {c : DmaChannel} (h : d.Inv k)
    (hc : c.Inv k) : (d.setCh i c).Inv k := by
  refine ⟨by simpa using h.1, by simpa using h.2.1, fun j => ?_⟩
  rw [DmaController.setCh_ch]
  split
  · exact hc
  · exact h.2.2 j

/-- The DMA controllers keep their invariant. -/
abbrev State.DmaInv (s : State) : Prop := ∀ k, (s.dma k).Inv k

theorem State.setDma_inv {s : State} {k : DmaCtl} {d : DmaController} (h : s.DmaInv) (hd : d.Inv k) :
    (s.setDma k d).DmaInv := by
  intro k'
  rw [State.setDma_dma]
  split
  · next heq => exact heq ▸ hd
  · exact h k'

theorem State.setChan_inv {s : State} {k : DmaCtl} {i : DmaChan} {c : DmaChannel} (h : s.DmaInv) (hc : c.Inv k) :
    (s.setChan k i c).DmaInv := State.setDma_inv h (DmaController.Inv.setCh (h k) hc)

theorem DmaController.Inv.setRequest {k : DmaCtl} {d : DmaController} (i : DmaChan) (h : d.Inv k) :
    (d.setRequest i).Inv k := by
  refine ⟨h.1, ?_, h.2.2⟩
  have := h.2.1
  have hb : requestBit i &&& 0x0F = 0 := by fin_cases i <;> decide
  simp only [DmaController.setRequest]
  rw [BitVec.and_or_distrib_right, this, hb]; rfl

theorem DmaController.Inv.clearRequest {k : DmaCtl} {d : DmaController} (i : DmaChan) (h : d.Inv k) :
    (d.clearRequest i).Inv k := by
  refine ⟨h.1, ?_, h.2.2⟩
  have := h.2.1
  simp only [DmaController.clearRequest]
  rw [BitVec.and_assoc, BitVec.and_comm (~~~_), ← BitVec.and_assoc, this]; simp

theorem DmaController.Inv.clearTerminal {k : DmaCtl} {d : DmaController} (i : DmaChan) (h : d.Inv k) :
    (d.clearTerminal i).Inv k := by
  refine ⟨h.1, ?_, h.2.2⟩
  have := h.2.1
  simp only [DmaController.clearTerminal]
  rw [BitVec.and_assoc, BitVec.and_comm (~~~_), ← BitVec.and_assoc, this]; simp

theorem DmaChannel.Inv.init {k : DmaCtl} {c : DmaChannel} : (c.init k).Inv k := by
  have := c.baseAddress.isLt
  simp only [DmaChannel.Inv, DmaChannel.init, blockStart]
  cases k <;> simp [Config.dShift] <;> omega

theorem DmaController.reset_inv {k : DmaCtl} (d : DmaController) :
    ({ d with ch0 := .reset, ch1 := .reset, ch2 := .reset, ch3 := .reset } : DmaController).masterClear.Inv k := by
  refine ⟨.inl rfl, by simp [DmaController.masterClear], fun i => ?_⟩
  fin_cases i <;> exact (by simp [DmaChannel.Inv, DmaChannel.reset] :
    DmaChannel.Inv k DmaChannel.reset)

/-- The invariants that a pass can touch. -/
structure State.PassInv (s : State) : Prop where
  pic : s.PicInv
  dma : s.DmaInv
  memory : Memory.wf s.memory = true

theorem State.taskStep_inv {s t : State} {task : Task} {more : List Task} (hs : s.PassInv)
    (h : s.taskStep task = .next (t, more)) : t.PassInv := by
  rcases State.taskStep_state h with rfl | ⟨k, i, w, rfl⟩ | ⟨_, rfl⟩ | ⟨_, rfl⟩ | ⟨ev, k, i, w, _, rfl⟩ | ⟨_, _, _, rfl⟩ |
    ⟨addr, bytes, _, rfl⟩ | ⟨_, rfl⟩ | ⟨n, rfl⟩ | ⟨n, rfl⟩ | ⟨line, l, rfl⟩
  · exact hs
  · exact ⟨fun e => by simpa using hs.pic e, State.setChan_inv hs.dma ((hs.dma k).2.2 i), by simpa using hs.memory⟩
  · exact ⟨hs.pic, hs.dma, hs.memory⟩
  · exact ⟨hs.pic, hs.dma, hs.memory⟩
  · exact ⟨fun e => by simpa using hs.pic e, State.setChan_inv (s := s.emit ev) hs.dma ((hs.dma k).2.2 i),
      by simpa using hs.memory⟩
  · exact ⟨fun e => by simpa using hs.pic e, fun k => by simpa using hs.dma k, by simpa using hs.memory⟩
  · exact ⟨fun e => by simpa using hs.pic e, fun k => by simpa using hs.dma k, by simpa using Memory.writeBytes_wf addr bytes hs.memory⟩
  · exact ⟨fun e => by simpa using hs.pic e, fun k => by simpa using hs.dma k, by simpa using hs.memory⟩
  · exact ⟨fun e => by simpa using hs.pic e, State.setDma_inv hs.dma ((hs.dma _).clearRequest _), by simpa using hs.memory⟩
  · exact ⟨fun e => by simpa using hs.pic e, State.setDma_inv hs.dma ((hs.dma _).setRequest _), by simpa using hs.memory⟩
  · exact ⟨State.setIrq_picInv line l hs.pic, fun k => by simpa using hs.dma k, by simpa using hs.memory⟩

/-- A pass keeps them. -/
theorem State.runTransfers_inv {s t : State} {k : DmaCtl} (hs : s.PassInv) (h : s.runTransfers k = .next t) :
    t.PassInv := runTasks_keeps (fun hu hv => State.taskStep_inv hu hv) hs h

end Sys2Proof.Machine
end

