-- ==== Sys2Proof/Laws/Pit.lean ====
section
/-! SUPPORT. The PIT: the arithmetic of counting (R260, R264), everything a scheduling of channel 0 can do (R266), and
that the PIT's operations keep the invariants of the block. -/

namespace Sys2Proof.Machine

/-! ## Counting -/

theorem loadedCount_bounds (v : Half) : 1 ≤ loadedCount v ∧ loadedCount v ≤ 0x10000 := by
  unfold loadedCount
  split
  · simp
  · next h =>
    have hlt : v.toNat < 2 ^ 16 := v.isLt
    have hne : v.toNat ≠ 0 := fun hz => h (BitVec.eq_of_toNat_eq (by simpa using hz))
    omega

/-- No more PIT clocks than ticks have passed. -/
theorem elapsed_le (c : PitChannel) (t : Nat) : elapsed c t ≤ t - c.countStartTime := by
  simp only [elapsed, scale64, Config.pitFreq, Config.tickRate]
  omega

/-- At the start of counting no clock has passed. -/
theorem elapsed_start (c : PitChannel) : elapsed c c.countStartTime = 0 := by
  simp [elapsed, scale64]

theorem elapsed_mono (c : PitChannel) {t u : Nat} (h : t ≤ u) : elapsed c t ≤ elapsed c u := by
  simp only [elapsed, scale64, Config.pitFreq, Config.tickRate]
  omega

/-- A transition time lies strictly after the time it was computed at, and below 2^64 (R264, R287). -/
theorem nextTransition_bounds {c : PitChannel} {t u : Nat} (h : nextTransition c t = some u) :
    t < u ∧ u < Config.timeLimit := by
  unfold nextTransition at h
  split at h
  · cases h
  · simp only at h
    split_ifs at h <;> injection h with h <;> omega

/-! ## Scheduling -/

/-- The change of a timer that a scheduling makes (R266). -/
def scheduleChange (next : Option Nat) : TimerChange :=
  match next with
  | some t => .arm t
  | none => .disarm

/-- Everything a scheduling can do (R266): on channel 0 the line, the stored time and the timer; else nothing. -/
theorem State.irqTimerUpdate_eq (s : State) (c : PitChan) (t : Nat) :
    s.irqTimerUpdate c t =
      if c = .c0 then
        ({ s.setIrq Config.pitIrqLine (s.pit0.outAt t) with pitNext := nextTransition s.pit0 t } : State).changeTimer
          Config.pitTimer (scheduleChange (nextTransition s.pit0 t))
      else s := by
  cases c
  · simp only [State.irqTimerUpdate, if_true]
    cases nextTransition s.pit0 t <;> rfl
  · rfl
  · rfl

theorem State.irqTimerUpdate_other {c : PitChan} (h : c ≠ .c0) (s : State) (t : Nat) : s.irqTimerUpdate c t = s := by
  rw [State.irqTimerUpdate_eq, if_neg h]

theorem State.irqTimerUpdate_pitNext (s : State) (t : Nat) :
    (s.irqTimerUpdate .c0 t).pitNext = nextTransition s.pit0 t := by
  rw [State.irqTimerUpdate_eq, if_pos rfl, State.changeTimer_pitNext]

theorem State.irqTimerUpdate_pic (s : State) (t : Nat) (e : Elem) :
    (s.irqTimerUpdate .c0 t).pic e = (s.setIrq Config.pitIrqLine (s.pit0.outAt t)).pic e := by
  rw [State.irqTimerUpdate_eq, if_pos rfl, State.changeTimer_pic]
  cases e <;> rfl

/-! ## Timers stay in time -/

/-- Every expiry is a 64-bit time (R61). -/
abbrev State.ExpiriesInv (s : State) : Prop := ∀ r ∈ s.timers, r.expiry < Config.timeLimit

theorem State.modifyTimer_expiries {s : State} {t : Nat} {f : Timer → Timer}
    (hf : ∀ r, r.expiry < Config.timeLimit → (f r).expiry < Config.timeLimit) (h : s.ExpiriesInv) :
    (s.modifyTimer t f).ExpiriesInv := by
  intro r hr
  obtain ⟨u, hu, hget⟩ := List.mem_iff_getElem.mp hr
  have hget' : (s.modifyTimer t f).timers[u]? = some r := by rw [← hget]; exact List.getElem?_eq_getElem hu
  rw [State.modifyTimer_getElem?] at hget'
  split at hget'
  · cases hs : s.timers[u]? with
    | none => simp [hs] at hget'
    | some q =>
      simp only [hs, Option.map_some, Option.some.injEq] at hget'
      exact hget' ▸ hf q (h q (List.mem_of_getElem? hs))
  · exact h r (List.mem_of_getElem? hget')

theorem State.changeTimer_expiries {s : State} {t : Nat} {m : TimerChange} (hm : m.wf = true) (h : s.ExpiriesInv) :
    (s.changeTimer t m).ExpiriesInv := by
  cases m with
  | keep => intro r hr; exact h r (by simpa [State.changeTimer] using hr)
  | arm x =>
    simp only [TimerChange.wf, decide_eq_true_eq] at hm
    intro r hr
    have hmod := State.modifyTimer_expiries (s := s) (t := t)
      (f := fun r => { r with expiry := x, enabled := true }) (fun _ _ => hm) h
    exact hmod r (by simpa [State.changeTimer, State.arm] using hr)
  | disarm =>
    intro r hr
    have hmod := State.modifyTimer_expiries (s := s) (t := t)
      (f := fun r => { r with enabled := false }) (fun _ hr => hr) h
    exact hmod r (by simpa [State.changeTimer, State.disarm] using hr)

theorem State.popTimer_expiries {s : State} {t : Nat} (h : s.ExpiriesInv) : (s.popTimer t).ExpiriesInv :=
  State.modifyTimer_expiries (s := s.remove t) (fun _ hr => hr) h

theorem scheduleChange_wf {c : PitChannel} {t : Nat} : (scheduleChange (nextTransition c t)).wf = true := by
  cases h : nextTransition c t with
  | none => rfl
  | some u => simp [scheduleChange, TimerChange.wf, (nextTransition_bounds h).2]

/-! ## Invariants -/

/-- The invariant of the block but for the stored transition time. -/
structure State.InvButNext (s : State) : Prop where
  pic : ∀ e, (s.pic e).Inv e
  pit : ∀ c, (s.pit c).Inv s.currentTime
  time : s.TimeInv
  queue : s.QueueInv
  dma : ∀ k, (s.dma k).Inv k
  memory : Memory.wf s.memory = true

theorem State.Inv.butNext {s : State} (h : s.Inv) : s.InvButNext :=
  ⟨h.pic, h.pit, h.time, h.queue, h.dma, h.memory⟩

theorem State.InvButNext.withNext {s : State} (h : s.InvButNext) (hn : s.NextInv) : s.Inv :=
  ⟨h.pic, h.pit, hn, h.time, h.queue, h.dma, h.memory⟩

theorem State.NextInv.congr {s t : State} (h : s.NextInv) (hn : t.pitNext = s.pitNext)
    (hc : t.pit0.countStartTime = s.pit0.countStartTime) : t.NextInv := by
  simpa [State.NextInv, hn, hc] using h

/-- A request keeps the invariant. -/
theorem State.Inv.setIrq {s : State} (line : Nat) (l : Bool) (h : s.Inv) : (s.setIrq line l).Inv where
  pic := State.setIrq_picInv line l h.pic
  pit c := by simpa using h.pit c
  next := h.next.congr (by simp) (by simp)
  time := by simpa [State.TimeInv] using h.time
  queue := (State.queueInv_congr (by simp) (by simp)).mpr h.queue
  dma k := by simpa using h.dma k
  memory := by simpa using h.memory

theorem State.Inv.updateIrq {s : State} (h : s.Inv) : s.updateIrq.Inv where
  pic := State.updateIrq_picInv h.pic
  pit c := by simpa using h.pit c
  next := h.next.congr (by simp) (by simp)
  time := by simpa [State.TimeInv] using h.time
  queue := (State.queueInv_congr (by simp) (by simp)).mpr h.queue
  dma k := by simpa using h.dma k
  memory := by simpa using h.memory

theorem State.Inv.changeTimer {s : State} {t : Nat} {m : TimerChange} (hm : m.wf = true) (h : s.Inv) :
    (s.changeTimer t m).Inv where
  pic e := by simpa using h.pic e
  pit c := by simpa using h.pit c
  next := h.next.congr (by simp) (by simp)
  time := ⟨by simpa using h.time.1, State.changeTimer_expiries hm h.time.2⟩
  queue := State.changeTimer_inv t m h.queue
  dma k := by simpa using h.dma k
  memory := by simpa using h.memory

/-- A scheduling of channel 0 gives the invariant back (R266). -/
theorem State.irqTimerUpdate_inv {s : State} {t : Nat} (h : s.InvButNext) (ht : s.pit0.countStartTime ≤ t) :
    (s.irqTimerUpdate .c0 t).Inv := by
  rw [State.irqTimerUpdate_eq, if_pos rfl]
  refine State.Inv.changeTimer scheduleChange_wf ?_
  exact {
    pic := fun e => by
      have := State.setIrq_picInv Config.pitIrqLine (s.pit0.outAt t) h.pic e
      cases e <;> exact this
    pit := fun c => by
      have := h.pit c
      cases c <;> simpa [State.pit] using this
    next := fun u hu => by
      have hb := nextTransition_bounds hu
      have : (s.setIrq Config.pitIrqLine (s.pit0.outAt t)).pit0.countStartTime = s.pit0.countStartTime := by simp
      exact ⟨by show (s.setIrq Config.pitIrqLine (s.pit0.outAt t)).pit0.countStartTime < u; omega, hb.2⟩
    time := by
      have := h.time
      simpa [State.TimeInv] using this
    queue := (State.queueInv_congr (s := s) (by simp) (by simp)).mpr h.queue
    dma := fun k => by
      have := h.dma k
      cases k <;> simpa [State.dma] using this
    memory := by simpa using h.memory }

/-- Replacing a channel by one that keeps its own invariant keeps the rest. -/
theorem State.setPit_butNext {s : State} {c : PitChan} {p : PitChannel} (h : s.InvButNext) (hp : p.Inv s.currentTime) :
    (s.setPit c p).InvButNext where
  pic e := by simpa using h.pic e
  pit c' := by
    rw [State.setPit_pit, State.setPit_currentTime]
    split
    · exact hp
    · exact h.pit c'
  time := by simpa [State.TimeInv] using h.time
  queue := (State.queueInv_congr (by simp) (by simp)).mpr h.queue
  dma k := by simpa using h.dma k
  memory := by simpa using h.memory

/-- A change of a channel that leaves its count and its start alone keeps the invariant. -/
theorem State.Inv.setPit {s : State} {c : PitChan} {p : PitChannel} (h : s.Inv)
    (hv : p.countValue = (s.pit c).countValue) (ht : p.countStartTime = (s.pit c).countStartTime) :
    (s.setPit c p).Inv := by
  have hp : p.Inv s.currentTime := by
    have := h.pit c
    simpa [PitChannel.Inv, hv, ht] using this
  refine (State.setPit_butNext h.butNext hp).withNext (h.next.congr (by simp) ?_)
  cases c
  · exact ht
  · rfl
  · rfl

/-- A channel that starts counting anew keeps the invariant, once it is scheduled (R265, R285). -/
theorem State.Inv.restart {s : State} {c : PitChan} {p : PitChannel} (h : s.Inv) (hv : 1 ≤ p.countValue)
    (hv' : p.countValue ≤ 0x10000) (ht : p.countStartTime = s.currentTime) :
    ((s.setPit c p).irqTimerUpdate c s.currentTime).Inv := by
  have hp : p.Inv s.currentTime := ⟨hv, hv', ht.le⟩
  have hb := State.setPit_butNext (c := c) h.butNext hp
  cases c with
  | c0 => exact State.irqTimerUpdate_inv hb ht.le
  | c1 => exact hb.withNext (h.next.congr rfl rfl)
  | c2 => exact hb.withNext (h.next.congr rfl rfl)

/-- A load keeps the invariant (R265). -/
theorem State.Inv.loadCount {s : State} (c : PitChan) (v : Half) (h : s.Inv) : (s.loadCount c v).Inv :=
  h.restart (loadedCount_bounds v).1 (loadedCount_bounds v).2 rfl

/-- A gate change keeps the invariant (R285). -/
theorem State.Inv.setGate {s : State} (c : PitChan) (l : Bool) (h : s.Inv) : (s.setGate c l).Inv := by
  have hc := h.pit c
  unfold State.setGate
  split
  · exact State.Inv.setPit (h.restart (p := { s.pit c with countStartTime := s.currentTime }) hc.1 hc.2.1 rfl) rfl rfl
  · exact State.Inv.setPit h rfl rfl

/-- The callback of channel 0 keeps the invariant (R267). -/
theorem State.Inv.pitOnExpiry {s : State} (h : s.Inv) : s.pitOnExpiry.Inv := by
  unfold State.pitOnExpiry
  split
  · next t ht => exact State.irqTimerUpdate_inv h.butNext (h.next t ht).1.le
  · exact h

/-! ## The timer of channel 0 -/

/-- The records after a mutation of one timer. -/
theorem State.changeTimer_timers (s : State) (t : Nat) (m : TimerChange) (u : Nat) :
    (s.changeTimer t m).timers[u]? = (s.timers[u]?).map fun r =>
      if u = t then
        match m with
        | .keep => r
        | .arm x => { r with expiry := x, enabled := true }
        | .disarm => { r with enabled := false }
      else r := by
  cases m with
  | keep => by_cases hu : u = t <;> simp [State.changeTimer, hu]
  | arm x =>
    simp only [State.changeTimer, State.arm, State.update_timers, State.modifyTimer_getElem?]
    by_cases hu : u = t <;> simp [hu]
  | disarm =>
    simp only [State.changeTimer, State.disarm, State.update_timers, State.modifyTimer_getElem?]
    by_cases hu : u = t <;> simp [hu]

/-- A mutation of a timer touches the records and the queue only. -/
theorem State.changeTimer_keeps (s : State) (t : Nat) (m : TimerChange) :
    s.changeTimer t m = { s with timers := (s.changeTimer t m).timers, queue := (s.changeTimer t m).queue } := by
  have h : ∀ u : State, u.update t = { u with queue := (u.update t).queue } := by
    intro u
    simp only [State.update]
    split <;> rfl
  cases m with
  | keep => exact (h s).trans (by simp [State.changeTimer])
  | arm x =>
    refine (h _).trans ?_
    simp only [State.changeTimer, State.arm, State.update_timers]
    rfl
  | disarm =>
    refine (h _).trans ?_
    simp only [State.changeTimer, State.disarm, State.update_timers]
    rfl

/-- `disarm` takes the timer out of the queue (R153). -/
theorem State.disarm_queue (s : State) (t : Nat) : (s.disarm t).queue = s.queue.filter (· ≠ t) := by
  have hoff := State.modifyTimer_enabled_self s t (fun r => { r with enabled := false }) fun _ => rfl
  simp only [State.disarm, State.update]
  rw [if_neg (by rw [State.remove_timerEnabled, hoff]; simp)]
  rfl

/-- A scheduling leaves channel 0's timer as R266 says. -/
theorem State.schedule_scheduled {s : State} {next : Option Nat} (hq : s.QueueInv) (ht : 0 < s.timers.length) :
    s.PitScheduled
      (({ s with pitNext := next } : State).changeTimer Config.pitTimer (scheduleChange next)) next where
  stored := by simp
  records u := by
    rw [State.changeTimer_timers]
    cases next <;> rfl
  armed x hx := by
    subst hx
    exact State.arm_queue (s := { s with pitNext := some x }) hq ht
  disarmed hn := by
    subst hn
    exact State.disarm_queue _ _

/-- The first flip of a channel that starts counting (R263 at d = 0). -/
theorem nextFlip_start (mode : PitMode) {n : Nat} (hn : 1 ≤ n) : nextFlip mode n 0 = firstFlip mode n := by
  cases mode with
  | m2 =>
    by_cases h1 : n = 1
    · simp [nextFlip, firstFlip, h1]
    · simp [nextFlip, firstFlip, h1, outAfter]
  | m3 =>
    by_cases h1 : n = 1
    · simp [nextFlip, firstFlip, h1]
    · simp [nextFlip, firstFlip, h1, Nat.shiftRight_one]; omega
  | _ => simp [nextFlip, firstFlip]; omega

theorem firstFlip_pos {mode : PitMode} {n d : Nat} (hn : 1 ≤ n) (h : firstFlip mode n = some d) : 1 ≤ d := by
  cases mode <;> simp only [firstFlip] at h
  case m3 => split_ifs at h; injection h with h; omega
  all_goals injection h with h; omega

/-- The cut of R264 at a time after the start. -/
theorem cut_later {limit : Nat} (start x : Nat) (hx : 1 ≤ x) :
    (let flip := start + x
     let time := if flip ≤ start then start + 1 else flip
     if limit ≤ time then none else some time) = if start + x < limit then some (start + x) else none := by
  have hlater : ¬start + x ≤ start := by omega
  simp only [if_neg hlater]
  split_ifs <;> first | rfl | omega

/-- The first transition of a channel that starts counting (R264 at its start). -/
theorem nextTransition_start (c : PitChannel) (hn : 1 ≤ c.countValue) :
    nextTransition c c.countStartTime = firstTransition c.mode c.countValue c.countStartTime := by
  unfold nextTransition firstTransition
  rw [elapsed_start, nextFlip_start _ hn]
  cases h : firstFlip c.mode c.countValue with
  | none => rfl
  | some d =>
    have hd := firstFlip_pos hn h
    have hpos : 1 ≤ scale64 d Config.tickRate Config.pitFreq := by
      simp only [scale64, Config.pitFreq, Config.tickRate]; omega
    rw [Option.bind_some]
    exact cut_later c.countStartTime _ hpos

/-- The level of a channel that starts counting (R262 at d = 0). -/
theorem outAt_start (c : PitChannel) (hn : 1 ≤ c.countValue) : c.outAt c.countStartTime = startLevel c.mode := by
  unfold PitChannel.outAt
  rw [elapsed_start]
  have : 0 < (c.countValue + 1) >>> 1 := by rw [Nat.shiftRight_one]; omega
  cases c.mode <;> simp [outAfter, startLevel, this] <;> omega

/-- Everything a restart of a channel can do (R265, R266, R285). -/
theorem State.restart_restarted {s : State} {c : PitChan} {p : PitChannel} (hq : s.QueueInv)
    (ht : 0 < s.timers.length) (hn : 1 ≤ p.countValue) (hs : p.countStartTime = s.currentTime) :
    s.Restarted ((s.setPit c p).irqTimerUpdate c s.currentTime) c p (startLevel p.mode)
      (firstTransition p.mode p.countValue s.currentTime) := by
  cases c with
  | c0 =>
    have hp : (s.setPit .c0 p).pit0 = p := rfl
    simp only [State.Restarted, if_true]
    rw [State.irqTimerUpdate_eq, if_pos rfl, hp, ← hs, outAt_start p hn, nextTransition_start p hn]
    refine ⟨_, State.setIrq_driven _ _ _, ?_, ?_⟩
    · refine State.schedule_scheduled ?_ (by simpa using ht)
      exact (State.queueInv_congr (by simp) (by simp)).mpr hq
    · exact (State.changeTimer_keeps _ _ _).symm ▸ rfl
  | c1 => rfl
  | c2 => rfl

end Sys2Proof.Machine
end

