-- ==== Sys2Proof/Laws/Time.lean ====
section
/-! SUPPORT. The drain of the timer queue: everything a firing can do (R159), the measure that every firing takes away
and so the bound on a drain (log entry 24), the state a drain ends in (R158), its completion when the callbacks keep
their contract, and the induction over a drain. -/

namespace Sys2Proof.Machine

/-! ## Due timers -/

/-- The queued timers whose expiry has come. -/
def State.due (s : State) : Nat := s.queue.countP fun t => decide (s.expiryOf t ≤ s.currentTime)

theorem State.due_congr {s t : State} (hq : t.queue = s.queue) (ht : t.timers = s.timers)
    (hn : t.currentTime = s.currentTime) : t.due = s.due := by
  have he : t.expiryOf = s.expiryOf := by funext u; simp [State.expiryOf, ht]
  unfold State.due
  rw [hq, he, hn]

theorem State.due_le (s : State) : s.due ≤ s.queue.length := List.countP_le_length

theorem countP_insertByExpiry (p : Nat → Bool) (key : Nat → Nat) (t : Nat) (q : List Nat) :
    (insertByExpiry key t q).countP p = (if p t then 1 else 0) + q.countP p := by
  induction q with
  | nil => simp [insertByExpiry]
  | cons a rest ih =>
    simp only [insertByExpiry]
    split
    · simp only [List.countP_cons]; omega
    · simp only [List.countP_cons, ih]; omega

/-- Taking a timer out of the queue, with any change of its record, leaves the due ones among the others. -/
theorem State.modify_remove_due (s : State) (t : Nat) (f : Timer → Timer) :
    ((s.modifyTimer t f).remove t).due =
      s.queue.countP fun u => decide (u ≠ t) && decide (s.expiryOf u ≤ s.currentTime) := by
  show (s.queue.filter (· ≠ t)).countP (fun u => decide ((s.modifyTimer t f).expiryOf u ≤ s.currentTime)) = _
  rw [List.countP_filter]
  refine List.countP_congr fun u _ => ?_
  by_cases hu : u = t
  · simp [hu]
  · simp [hu, State.modifyTimer_expiryOf_ne f hu]

theorem State.countP_but_le (s : State) (t : Nat) :
    (s.queue.countP fun u => decide (u ≠ t) && decide (s.expiryOf u ≤ s.currentTime)) ≤ s.due := by
  refine List.countP_mono_left fun u _ hu => ?_
  simp only [Bool.and_eq_true] at hu
  exact hu.2

/-- `update` of a timer whose record has just changed makes at most that one timer due. -/
theorem State.modify_update_due (s : State) (t : Nat) (f : Timer → Timer) :
    ((s.modifyTimer t f).update t).due ≤
      s.due + if (s.modifyTimer t f).expiryOf t ≤ s.currentTime then 1 else 0 := by
  have hbut := State.modify_remove_due s t f
  have hle := s.countP_but_le t
  simp only [State.update]
  split
  · have : (((s.modifyTimer t f).remove t).offer t).due =
        (if (s.modifyTimer t f).expiryOf t ≤ s.currentTime then 1 else 0) +
          ((s.modifyTimer t f).remove t).due := by
      show (insertByExpiry (s.modifyTimer t f).expiryOf t ((s.modifyTimer t f).remove t).queue).countP
        (fun u => decide ((s.modifyTimer t f).expiryOf u ≤ s.currentTime)) = _
      rw [countP_insertByExpiry]
      simp only [decide_eq_true_eq]
      rfl
    omega
  · omega

theorem State.changeTimer_due (s : State) (t : Nat) (m : TimerChange) : (s.changeTimer t m).due ≤ s.due + 1 := by
  have hid : s.modifyTimer t id = s := by simp [State.modifyTimer]
  have h : ∀ f, ((s.modifyTimer t f).update t).due ≤ s.due + 1 := by
    intro f
    have := s.modify_update_due t f
    split at this <;> omega
  cases m with
  | keep => have := h id; rw [hid] at this; exact this
  | arm x => exact h _
  | disarm => exact h _

/-- Arming at a later time than now, or disarming, makes no timer due. -/
theorem State.scheduleChange_due (s : State) (t : Nat) (next : Option Nat) :
    (s.changeTimer t (scheduleChange next)).due ≤
      s.due + match next with
        | some x => if x ≤ s.currentTime then 1 else 0
        | none => 0 := by
  cases next with
  | none =>
    show (s.disarm t).due ≤ s.due + 0
    simp only [State.disarm, State.update]
    have hbut := State.modify_remove_due s t fun r => { r with enabled := false }
    have hle := s.countP_but_le t
    have hoff := State.modifyTimer_enabled_self s t (fun r => { r with enabled := false }) fun _ => rfl
    rw [if_neg (by rw [State.remove_timerEnabled, hoff]; simp)]
    omega
  | some x =>
    show (s.arm t x).due ≤ s.due + if x ≤ s.currentTime then 1 else 0
    by_cases ht : t < s.timers.length
    · have := s.modify_update_due t fun r => { r with expiry := x, enabled := true }
      have hx : (s.modifyTimer t fun r => { r with expiry := x, enabled := true }).expiryOf t = x := by
        simp only [State.expiryOf, State.modifyTimer_getElem?, if_true, List.getElem?_eq_getElem ht]; rfl
      rw [hx] at this
      exact this
    · simp only [State.arm, State.update]
      have hbut := State.modify_remove_due s t fun r => { r with expiry := x, enabled := true }
      have hle := s.countP_but_le t
      have hoff : (s.modifyTimer t fun r => { r with expiry := x, enabled := true }).timerEnabled t = false := by
        simp [State.timerEnabled, State.modifyTimer_getElem?, List.getElem?_eq_none (Nat.not_lt.mp ht)]
      rw [if_neg (by rw [State.remove_timerEnabled, hoff]; simp)]
      omega

/-- The pop of a due timer leaves one due timer less. -/
theorem State.popTimer_due {s : State} {h : Nat} (hq : h ∈ s.queue) (hd : s.expiryOf h ≤ s.currentTime) :
    (s.popTimer h).due + 1 ≤ s.due := by
  have hpop : (s.popTimer h).due =
      s.queue.countP fun u => decide (u ≠ h) && decide (s.expiryOf u ≤ s.currentTime) :=
    State.modify_remove_due s h fun r => { r with enabled := false }
  have hsplit : s.due = (s.queue.countP fun u => decide (u ≠ h) && decide (s.expiryOf u ≤ s.currentTime)) +
      s.queue.countP fun u => decide (u = h) && decide (s.expiryOf u ≤ s.currentTime) := by
    simp only [State.due]
    rw [List.countP_eq_countP_filter_add s.queue _ (fun u => decide (u ≠ h)), List.countP_filter, List.countP_filter]
    congr 1
    · exact List.countP_congr fun u _ => by simp [and_comm]
    · exact List.countP_congr fun u _ => by simp [and_comm]
  have hpos : 0 < s.queue.countP fun u => decide (u = h) && decide (s.expiryOf u ≤ s.currentTime) :=
    List.countP_pos_iff.mpr ⟨h, hq, by simp [hd]⟩
  omega

/-! ## What a firing can do -/

/-- Everything an `update` call can do (R154). -/
theorem State.updateCall_next {s t : State} {timer : Nat} {m : TimerChange} (h : s.updateCall timer m = .next t) :
    timer < s.timers.length ∧ m.wf = true ∧ t = s.changeTimer timer m := by
  unfold State.updateCall at h
  split at h
  · next hr => injection h with h; exact ⟨hr.1, hr.2, h.symm⟩
  · simp [State.violate] at h

/-- Everything a callback's own call can do (R95): change a timer, request a line, or read the time. -/
theorem State.callbackCall_next {s t : State} {c : Call} (h : s.callbackCall c = .next t) :
    (∃ timer m, timer < s.timers.length ∧ m.wf = true ∧ t = s.changeTimer timer m) ∨
    (∃ line l, t = s.setIrq line l) ∨ ∃ r, t = s.returnNested (s.answer r) := by
  cases c with
  | update timer m =>
    obtain ⟨h1, h2, h3⟩ := State.updateCall_next h
    exact .inl ⟨timer, m, h1, h2, h3⟩
  | setIrq line level => exact .inr (.inl ⟨line, level == 1, (State.setIrqCall_next h).2.2⟩)
  | getTime => injection h with h; exact .inr (.inr ⟨_, h.symm⟩)
  | _ => simp [State.callbackCall, State.violate] at h

theorem State.callbackCall_refused {s : State} {c : Call} {r : Refusal} : s.callbackCall c ≠ .refused r := by
  intro h
  cases c with
  | update timer m =>
    simp only [State.callbackCall, State.updateCall] at h
    split_ifs at h
    simp [State.violate] at h
  | setIrq line level =>
    simp only [State.callbackCall, State.setIrqCall] at h
    split_ifs at h
    · simp [State.violate] at h
    · exact State.cpuReturns_refused h
  | _ => cases h

theorem runCallback_refused {calls : List Call} {s : State} {r : Refusal} : runCallback calls s ≠ .refused r := by
  induction calls generalizing s with
  | nil => simp [runCallback]
  | cons c rest ih =>
    simp only [runCallback]
    split
    · exact ih
    · simp
    · next q hq => exact absurd hq State.callbackCall_refused

/-- What every call of a callback keeps, the callback keeps. -/
theorem runCallback_keeps {P : State → Prop}
    (hstep : ∀ {s t : State} {c : Call}, P s → s.callbackCall c = .next t → P t) {calls : List Call} {s t : State}
    (hs : P s) (h : runCallback calls s = .next t) : P t := by
  induction calls generalizing s with
  | nil => injection h with h; exact h ▸ hs
  | cons c rest ih =>
    simp only [runCallback] at h
    split at h
    · next u hu => exact ih (hstep hs hu) h
    · cases h
    · cases h

/-- Everything a firing can do (R159): pop the timer, and then run the PIT's callback, another device's callback with
its next reply, or nothing. -/
theorem State.fire_next {s t : State} {h : Nat} (hf : s.fire h = .next t) :
    (∃ u, (u = s.popTimer h ∨ u = (s.popTimer h).emit (.expiry h)) ∧ t = u.pitOnExpiry) ∨
    (∃ reply rest, s.expiryReplies = reply :: rest ∧
      runCallback reply { (s.popTimer h).emit (.expiry h) with expiryReplies := rest } = .next t) ∨
    (s.expiryReplies = [] ∧ t = (s.popTimer h).emit (.expiry h)) ∨ t = s.popTimer h := by
  simp only [State.fire] at hf
  split at hf
  · refine .inl ⟨_, ?_, State.cpuReturns_next hf⟩
    split
    · exact .inl rfl
    · exact .inr rfl
  · simp only [State.deviceExpiry, State.emit_expiryReplies, State.popTimer_expiryReplies] at hf
    split at hf
    · next hr => injection hf with hf; exact .inr (.inr (.inl ⟨hr, hf.symm⟩))
    · next reply rest hr => exact .inr (.inl ⟨reply, rest, hr, hf⟩)
  · injection hf with hf; exact .inr (.inr (.inr hf.symm))

theorem State.fire_refused {s : State} {h : Nat} {r : Refusal} : s.fire h ≠ .refused r := by
  intro hf
  simp only [State.fire] at hf
  split at hf
  · exact State.cpuReturns_refused hf
  · simp only [State.deviceExpiry] at hf
    split at hf
    · cases hf
    · exact runCallback_refused hf
  · cases hf

/-! ## The measure of a drain -/

/-- The ticks that channel 0 can still fire at. -/
def State.pitWork (s : State) : Nat :=
  match s.pitNext with
  | some t => s.currentTime + 1 - t
  | none => 0

/-- The firings a drain has left, at most. -/
def State.drainWork (s : State) : Nat := s.due + s.callbackWork + s.pitWork

theorem State.drainWork_le (s : State) : s.drainWork ≤ s.drainBound := by
  have := s.due_le
  have : s.pitWork ≤ s.currentTime + 1 := by
    unfold State.pitWork; split <;> omega
  simp only [State.drainWork, State.drainBound]
  omega

theorem State.callbackCall_due {s t : State} {c : Call} (h : s.callbackCall c = .next t) :
    t.due ≤ s.due + 1 ∧ t.callbackWork = s.callbackWork ∧ t.pitWork = s.pitWork := by
  rcases State.callbackCall_next h with ⟨timer, m, _, _, rfl⟩ | ⟨line, l, rfl⟩ | ⟨_, rfl⟩
  · exact ⟨s.changeTimer_due timer m, by simp [State.callbackWork], by simp [State.pitWork]⟩
  · exact ⟨(State.due_congr (s := s) (by simp) (by simp) (by simp)).le.trans (by omega), by simp [State.callbackWork],
      by simp [State.pitWork]⟩
  · exact ⟨(State.due_congr (s := s) rfl rfl rfl).le.trans (by omega), rfl, rfl⟩

theorem runCallback_due {calls : List Call} {s t : State} (h : runCallback calls s = .next t) :
    t.due ≤ s.due + calls.length ∧ t.callbackWork = s.callbackWork ∧ t.pitWork = s.pitWork := by
  induction calls generalizing s with
  | nil => injection h with h; subst h; simp
  | cons c rest ih =>
    simp only [runCallback] at h
    split at h
    · next u hu =>
      obtain ⟨h1, h2, h3⟩ := State.callbackCall_due hu
      obtain ⟨h4, h5, h6⟩ := ih h
      refine ⟨?_, h5.trans h2, h6.trans h3⟩
      simp only [List.length_cons]
      omega
    · cases h
    · cases h

/-- The callback of channel 0 takes work away, or arms no due timer. -/
theorem State.pitOnExpiry_work (s : State) : s.pitOnExpiry.drainWork ≤ s.drainWork := by
  unfold State.pitOnExpiry
  split
  · next x hx =>
    rw [State.irqTimerUpdate_eq, if_pos rfl]
    set u : State := { s.setIrq Config.pitIrqLine (s.pit0.outAt x) with pitNext := nextTransition s.pit0 x } with hu
    have hdue : u.due = s.due :=
      State.due_congr (s := s) (t := u) (State.setIrq_queue ..) (State.setIrq_timers ..) (State.setIrq_currentTime ..)
    have hnow : u.currentTime = s.currentTime := State.setIrq_currentTime ..
    have hwork : u.callbackWork = s.callbackWork := by
      show ((s.setIrq _ _).expiryReplies.map List.length).sum = _
      rw [State.setIrq_expiryReplies]; rfl
    have hsched := u.scheduleChange_due Config.pitTimer (nextTransition s.pit0 x)
    have hcw : (u.changeTimer Config.pitTimer (scheduleChange (nextTransition s.pit0 x))).callbackWork =
        s.callbackWork := by
      rw [← hwork]; simp [State.callbackWork]
    have hpw : (u.changeTimer Config.pitTimer (scheduleChange (nextTransition s.pit0 x))).pitWork =
        match nextTransition s.pit0 x with
          | some t => s.currentTime + 1 - t
          | none => 0 := by
      simp only [State.pitWork, State.changeTimer_pitNext, State.changeTimer_currentTime, hnow]
      rfl
    have hsw : s.pitWork = s.currentTime + 1 - x := by simp [State.pitWork, hx]
    simp only [State.drainWork, hcw, hpw, hsw]
    rw [hdue, hnow] at hsched
    cases hn : nextTransition s.pit0 x with
    | none => rw [hn] at hsched; simp only at hsched ⊢; omega
    | some y =>
      have hlt := (nextTransition_bounds hn).1
      rw [hn] at hsched
      simp only at hsched ⊢
      split at hsched <;> omega
  · exact le_rfl

/-- Every firing of a due head takes work away. -/
theorem State.fire_work {s t : State} {h : Nat} {rest : List Nat} (hq : s.queue = h :: rest)
    (hd : s.expiryOf h ≤ s.currentTime) (hf : s.fire h = .next t) : t.drainWork + 1 ≤ s.drainWork := by
  have hpop := State.popTimer_due (s := s) (h := h) (by rw [hq]; exact List.mem_cons_self) hd
  have hcb : (s.popTimer h).callbackWork = s.callbackWork := by simp [State.callbackWork]
  have hpw : (s.popTimer h).pitWork = s.pitWork := by simp [State.pitWork]
  rcases State.fire_next hf with ⟨u, hu, rfl⟩ | ⟨reply, more, hr, hrun⟩ | ⟨_, rfl⟩ | rfl
  · have := u.pitOnExpiry_work
    have hw : u.drainWork = (s.popTimer h).drainWork := by rcases hu with rfl | rfl <;> rfl
    simp only [State.drainWork] at this hw ⊢
    omega
  · obtain ⟨h1, h2, h3⟩ := runCallback_due hrun
    have h4 : (({ (s.popTimer h).emit (.expiry h) with expiryReplies := more } : State)).due = (s.popTimer h).due :=
      State.due_congr rfl rfl rfl
    have h5 : (({ (s.popTimer h).emit (.expiry h) with expiryReplies := more } : State)).callbackWork +
        reply.length = s.callbackWork := by
      simp only [State.callbackWork, hr, List.map_cons, List.sum_cons]; omega
    have h6 : (({ (s.popTimer h).emit (.expiry h) with expiryReplies := more } : State)).pitWork = s.pitWork := hpw
    simp only [State.drainWork]
    omega
  · have h4 : ((s.popTimer h).emit (.expiry h)).due = (s.popTimer h).due := State.due_congr rfl rfl rfl
    have h5 : ((s.popTimer h).emit (.expiry h)).callbackWork = s.callbackWork := hcb
    have h6 : ((s.popTimer h).emit (.expiry h)).pitWork = s.pitWork := hpw
    simp only [State.drainWork]
    omega
  · simp only [State.drainWork]
    omega

/-- A drain with enough work allowed is never refused (log entry 24). -/
theorem drain_not_refused {n : Nat} {s : State} (hn : s.drainWork ≤ n) (r : Refusal) : drain n s ≠ .refused r := by
  induction n generalizing s with
  | zero =>
    simp only [drain]
    split
    · simp
    · next h rest hq =>
      split
      · simp
      · next hd =>
        have hpos := State.popTimer_due (s := s) (h := h) (by rw [hq]; exact List.mem_cons_self) (Nat.not_lt.mp hd)
        simp only [State.drainWork] at hn
        omega
  | succ n ih =>
    simp only [drain]
    split
    · simp
    · next h rest hq =>
      split
      · simp
      · next hd =>
        split
        · next t hf =>
          have := State.fire_work hq (Nat.not_lt.mp hd) hf
          exact ih (by omega)
        · simp
        · next q hf => exact absurd hf State.fire_refused

/-- `time_passes` is never refused (log entry 24). -/
theorem execTick_not_refused (delta : Int) (s : State) (r : Refusal) : execTick delta s ≠ .refused r := by
  unfold execTick
  split
  · simp [State.violate]
  · exact drain_not_refused (State.drainWork_le _) r

/-! ## What a drain ends in -/

/-- No queued timer is due: the queue is empty or its head is in the future (R158). -/
def State.Drained (s : State) : Prop := ∀ h rest, s.queue = h :: rest → s.currentTime < s.expiryOf h

theorem drain_drained {n : Nat} {s t : State} (h : drain n s = .next t) : t.Drained := by
  induction n generalizing s with
  | zero =>
    simp only [drain] at h
    split at h
    · next hq => injection h with h; subst h; intro a b hab; simp [hq] at hab
    · next x rest hq =>
      split at h
      · next hd =>
        injection h with h; subst h
        intro a b hab
        rw [hq] at hab
        injection hab with ha _
        exact ha ▸ hd
      · cases h
  | succ n ih =>
    simp only [drain] at h
    split at h
    · next hq => injection h with h; subst h; intro a b hab; simp [hq] at hab
    · next x rest hq =>
      split at h
      · next hd =>
        injection h with h; subst h
        intro a b hab
        rw [hq] at hab
        injection hab with ha _
        exact ha ▸ hd
      · split at h
        · exact ih h
        · cases h
        · cases h

/-- What every firing keeps, a drain keeps. -/
theorem drain_keeps {P : State → Prop} (hstep : ∀ {s t : State} {h : Nat}, P s → s.fire h = .next t → P t)
    {n : Nat} {s t : State} (hs : P s) (h : drain n s = .next t) : P t := by
  induction n generalizing s with
  | zero =>
    simp only [drain] at h
    split at h
    · injection h with h; exact h ▸ hs
    · split at h
      · injection h with h; exact h ▸ hs
      · cases h
  | succ n ih =>
    simp only [drain] at h
    split at h
    · injection h with h; exact h ▸ hs
    · split at h
      · injection h with h; exact h ▸ hs
      · split at h
        · next u hu => exact ih (hstep hs hu) h
        · cases h
        · cases h

/-! ## What a drain leaves and keeps -/

/-- What a drain leaves: time, the counts of the PIT, the DMA controllers, memory, and what is not the callbacks'. -/
structure State.DrainFrame (s t : State) : Prop where
  pit : ∀ c, t.pit c = s.pit c
  currentTime : t.currentTime = s.currentTime
  timers : t.timers.length = s.timers.length
  dma : ∀ k, t.dma k = s.dma k
  memory : t.memory = s.memory
  calls : t.calls = s.calls
  deviceReplies : t.deviceReplies = s.deviceReplies
  result : t.result = s.result
  freeCount : t.freeCount = s.freeCount
  cpu : s.CpuAnswered t

theorem State.DrainFrame.refl (s : State) : s.DrainFrame s :=
  ⟨fun _ => rfl, rfl, rfl, fun _ => rfl, rfl, rfl, rfl, rfl, rfl, .refl s⟩

theorem State.DrainFrame.trans {s t u : State} (h : s.DrainFrame t) (k : t.DrainFrame u) : s.DrainFrame u :=
  ⟨fun c => (k.1 c).trans (h.1 c), k.2.trans h.2, k.3.trans h.3, fun c => (k.4 c).trans (h.4 c), k.5.trans h.5,
    k.6.trans h.6, k.7.trans h.7, k.8.trans h.8, k.9.trans h.9, h.10.trans k.10⟩

theorem State.callbackCall_frame {s t : State} {c : Call} (h : s.callbackCall c = .next t) : s.DrainFrame t := by
  rcases State.callbackCall_next h with ⟨timer, m, _, _, rfl⟩ | ⟨line, l, rfl⟩ | ⟨_, rfl⟩
  · refine ⟨?_, ?_, ?_, ?_, ?_, ?_, ?_, ?_, ?_, .same ?_ ?_⟩ <;> simp
  · refine ⟨?_, ?_, ?_, ?_, ?_, ?_, ?_, ?_, ?_, s.setIrq_answered line l⟩ <;> simp
  · refine ⟨?_, ?_, ?_, ?_, ?_, ?_, ?_, ?_, ?_, .same ?_ ?_⟩ <;> simp

theorem State.popTimer_frame (s : State) (h : Nat) : s.DrainFrame (s.popTimer h) := by
  refine ⟨?_, ?_, ?_, ?_, ?_, ?_, ?_, ?_, ?_, .same ?_ ?_⟩ <;> simp

@[simp] theorem State.pitOnExpiry_length (s : State) : s.pitOnExpiry.timers.length = s.timers.length := by
  unfold State.pitOnExpiry
  split
  · exact State.irqTimerUpdate_length s .c0 _
  · rfl

theorem State.irqTimerUpdate_answered (s : State) (c : PitChan) (t : Nat) : s.CpuAnswered (s.irqTimerUpdate c t) := by
  cases c with
  | c0 =>
    simp only [State.irqTimerUpdate]
    split <;> exact (s.setIrq_answered Config.pitIrqLine (s.pit0.outAt t)).trans (.same (by simp) (by simp))
  | c1 => exact .refl s
  | c2 => exact .refl s

theorem State.pitOnExpiry_answered (s : State) : s.CpuAnswered s.pitOnExpiry := by
  unfold State.pitOnExpiry
  split
  · exact s.irqTimerUpdate_answered _ _
  · exact .refl s

theorem State.pitOnExpiry_frame (s : State) : s.DrainFrame s.pitOnExpiry := by
  refine ⟨?_, ?_, ?_, ?_, ?_, ?_, ?_, ?_, ?_, s.pitOnExpiry_answered⟩ <;> simp

/-- The event of an expiry leaves everything else (R413). -/
theorem State.expiry_frame (s : State) (h : Nat) (rest : List (List Call)) :
    s.DrainFrame { s.emit (.expiry h) with expiryReplies := rest } :=
  ⟨fun c => by cases c <;> rfl, rfl, rfl, fun k => by cases k <;> rfl, rfl, rfl, rfl, rfl, rfl,
    (State.emit_answered s rfl).trans (.same rfl rfl)⟩

theorem State.fire_frame {s t : State} {h : Nat} (hf : s.fire h = .next t) : s.DrainFrame t := by
  rcases State.fire_next hf with ⟨u, hu, rfl⟩ | ⟨reply, more, _, hrun⟩ | ⟨_, rfl⟩ | rfl
  · have hu : s.DrainFrame u := by
      rcases hu with rfl | rfl
      · exact s.popTimer_frame h
      · exact (s.popTimer_frame h).trans (State.expiry_frame _ h _)
    exact hu.trans u.pitOnExpiry_frame
  · have hstart : s.DrainFrame { (s.popTimer h).emit (.expiry h) with expiryReplies := more } :=
      (s.popTimer_frame h).trans (State.expiry_frame _ h more)
    exact runCallback_keeps (P := fun u => s.DrainFrame u)
      (fun hu hv => hu.trans (State.callbackCall_frame hv)) hstart hrun
  · exact (s.popTimer_frame h).trans (State.expiry_frame _ h _)
  · exact s.popTimer_frame h

theorem drain_frame {n : Nat} {s t : State} (h : drain n s = .next t) : s.DrainFrame t :=
  drain_keeps (P := fun u => s.DrainFrame u) (fun hu hv => hu.trans (State.fire_frame hv)) (.refl s) h

/-- The invariant does not look at the events nor at the callbacks' replies. -/
theorem State.Inv.told {s : State} (h : s.Inv) (ev : Event) (rest : List (List Call)) :
    ({ s.emit ev with expiryReplies := rest } : State).Inv := ⟨h.1, h.2, h.3, h.4, h.5, h.6, h.7⟩

theorem State.Inv.popTimer {s : State} (t : Nat) (h : s.Inv) : (s.popTimer t).Inv where
  pic e := by simpa using h.pic e
  pit c := by simpa using h.pit c
  next := h.next.congr (by simp) (by simp)
  time := ⟨by simpa using h.time.1, State.popTimer_expiries h.time.2⟩
  queue := State.popTimer_inv t h.queue
  dma k := by simpa using h.dma k
  memory := by simpa using h.memory

theorem State.Inv.callbackCall {s t : State} {c : Call} (hs : s.Inv) (h : s.callbackCall c = .next t) : t.Inv := by
  rcases State.callbackCall_next h with ⟨timer, m, _, hm, rfl⟩ | ⟨line, l, rfl⟩ | ⟨_, rfl⟩
  · exact hs.changeTimer hm
  · exact hs.setIrq line l
  · exact ⟨fun e => by simpa using hs.pic e, fun c => by simpa using hs.pit c, hs.next.congr rfl rfl, hs.time,
      (State.queueInv_congr rfl rfl).mpr hs.queue, fun k => by simpa using hs.dma k, hs.memory⟩

/-- A firing keeps the invariant. -/
theorem State.Inv.fire {s t : State} {h : Nat} (hs : s.Inv) (hf : s.fire h = .next t) : t.Inv := by
  rcases State.fire_next hf with ⟨u, hu, rfl⟩ | ⟨reply, more, _, hrun⟩ | ⟨_, rfl⟩ | rfl
  · rcases hu with rfl | rfl
    · exact (hs.popTimer h).pitOnExpiry
    · exact ((hs.popTimer h).told (.expiry h) (s.popTimer h).expiryReplies).pitOnExpiry
  · exact runCallback_keeps (P := State.Inv) State.Inv.callbackCall ((hs.popTimer h).told _ more) hrun
  · exact (hs.popTimer h).told _ _
  · exact hs.popTimer h

/-- A drain keeps the invariant. -/
theorem State.Inv.drain {n : Nat} {s t : State} (hs : s.Inv) (h : drain n s = .next t) : t.Inv :=
  drain_keeps (P := State.Inv) State.Inv.fire hs h

/-! ## Completion -/

theorem State.callbackCall_completes {s : State} {c : Call} (h : callbackMayCall s.timers.length c = true)
    (hs : s.CpuConforms) : ∃ t, s.callbackCall c = .next t := by
  cases c with
  | update timer m =>
    simp only [callbackMayCall, Bool.and_eq_true, decide_eq_true_eq] at h
    exact ⟨_, by simp only [State.callbackCall, State.updateCall, if_pos h]; rfl⟩
  | setIrq line level =>
    simp only [callbackMayCall, Bool.and_eq_true, decide_eq_true_eq] at h
    exact ⟨_, State.setIrqCall_completes h.1 h.2 hs⟩
  | getTime => exact ⟨_, rfl⟩
  | _ => simp [callbackMayCall] at h

theorem runCallback_completes {calls : List Call} {s : State}
    (h : ∀ c ∈ calls, callbackMayCall s.timers.length c = true) (hs : s.CpuConforms) :
    ∃ t, runCallback calls s = .next t := by
  induction calls generalizing s with
  | nil => exact ⟨s, rfl⟩
  | cons c rest ih =>
    obtain ⟨t, ht⟩ := State.callbackCall_completes (h c List.mem_cons_self) hs
    simp only [runCallback, ht]
    refine ih (fun d hd => ?_) ((State.callbackCall_frame ht).cpu.conforms hs)
    rw [(State.callbackCall_frame ht).timers]
    exact h d (List.mem_cons_of_mem _ hd)

theorem runCallback_replies {calls : List Call} {s t : State} (h : runCallback calls s = .next t) :
    t.expiryReplies = s.expiryReplies := by
  refine runCallback_keeps (P := fun u => u.expiryReplies = s.expiryReplies) (fun {u v c} hu hv => ?_) rfl h
  rw [← hu]
  rcases State.callbackCall_next hv with ⟨timer, m, _, _, rfl⟩ | ⟨line, l, rfl⟩ | ⟨_, rfl⟩ <;> simp

/-- A call that is not admitted inside a timer's callback stops the step (CV6). -/
theorem State.callbackCall_reentrant (s : State) {c : Call} (h : admittedInCallback c = false) :
    s.callbackCall c = .fault (.reentrantCall c s.trace) := by
  cases c <;> first | rfl | simp [admittedInCallback] at h

theorem State.fire_completes {s : State} (h : Nat) (hs : s.CallbacksConform) (hcpu : s.CpuConforms) :
    ∃ t, s.fire h = .next t ∧ t.CallbacksConform ∧ t.CpuConforms := by
  suffices hsuff : ∃ t, s.fire h = .next t ∧ t.CallbacksConform by
    obtain ⟨t, ht, hc⟩ := hsuff
    exact ⟨t, ht, hc, (State.fire_frame ht).cpu.conforms hcpu⟩
  have hsub : ∀ t : State, t.timers.length = s.timers.length → t.expiryReplies = s.expiryReplies →
      t.CallbacksConform := fun t hl hr => by
    intro reply hreply c hc
    rw [hl]
    exact hs reply (hr ▸ hreply) c hc
  simp only [State.fire]
  have hpop : (s.popTimer h).CpuConforms := (s.popTimer_frame h).cpu.conforms hcpu
  split
  · split
    · exact ⟨_, State.cpuReturns_completes hpop, hsub _ (by simp) (by simp)⟩
    · exact ⟨_, State.cpuReturns_completes (State.CpuAnswered.conforms (State.emit_answered _ rfl) hpop),
        hsub _ (by simp) (by simp)⟩
  · simp only [State.deviceExpiry, State.emit_expiryReplies, State.popTimer_expiryReplies]
    split
    · exact ⟨_, rfl, hsub _ (by simp) (by simp)⟩
    · next reply rest hr =>
      have hcalls : ∀ c ∈ reply, callbackMayCall
          (({ (s.popTimer h).emit (.expiry h) with expiryReplies := rest } : State)).timers.length c = true := by
        intro c hc
        have hl : (({ (s.popTimer h).emit (.expiry h) with expiryReplies := rest } : State)).timers.length =
            s.timers.length := State.popTimer_length s h
        rw [hl]
        exact hs reply (by rw [hr]; exact List.mem_cons_self) c hc
      obtain ⟨t, ht⟩ := runCallback_completes hcalls hpop
      refine ⟨t, ht, fun r hr' c hc => ?_⟩
      have hl : t.timers.length = s.timers.length := by
        have := (State.fire_frame (s := s) (h := h) (t := t) (by
          simp only [State.fire]
          split
          · simp_all
          · simp only [State.deviceExpiry, State.emit_expiryReplies, State.popTimer_expiryReplies, hr]; exact ht
          · simp_all)).timers
        exact this
      rw [hl]
      rw [runCallback_replies ht] at hr'
      exact hs r (by rw [hr]; exact List.mem_cons_of_mem _ hr') c hc
  · exact ⟨_, rfl, hsub _ (by simp) (by simp)⟩

theorem drain_completes {n : Nat} {s : State} (hn : s.drainWork ≤ n) (hs : s.CallbacksConform)
    (hcpu : s.CpuConforms) : ∃ t, drain n s = .next t ∧ t.CallbacksConform := by
  induction n generalizing s with
  | zero =>
    have hnot := drain_not_refused hn .workBound
    simp only [drain] at hnot ⊢
    split
    · exact ⟨s, rfl, hs⟩
    · next h rest hq =>
      rw [hq] at hnot
      split
      · exact ⟨s, rfl, hs⟩
      · next hd => simp only [if_neg hd] at hnot; exact absurd rfl hnot
  | succ n ih =>
    simp only [drain]
    split
    · exact ⟨s, rfl, hs⟩
    · next h rest hq =>
      split
      · exact ⟨s, rfl, hs⟩
      · next hd =>
        obtain ⟨t, ht, hc, hc'⟩ := State.fire_completes h hs hcpu
        have := State.fire_work hq (Nat.not_lt.mp hd) ht
        simp only [ht]
        exact ih (by omega) hc hc'

end Sys2Proof.Machine
end

