-- ==== Sys2Proof/Tests/Slice0.lean ====
section
/-! SUPPORT. Tests: the ill-formed operands that WellFormed refuses; words written out bit by bit from the tables of
30_encoding.md and 95_test_vectors.md; values of 95_test_vectors.md; and for every statement with hypotheses a state and
operands that meet them. -/

namespace Sys2Proof.Tests

open Sys2Proof Sys2Proof.Machine

/-! ## Helpers -/

/-- The state after construction and reset, S0 of 95_test_vectors.md. -/
def s0 : State := State.reset

/-- S0 with some actions of agents to come. -/
def s0With (actions : List Action) : State := { State.reset with calls := actions }

/-- What an instruction leaves in a field, if it completes. -/
def leaves {α : Type} (i : Instr) (s : State) (f : State → α) : Option α :=
  match exec i s with
  | .next t => some (f t)
  | .fault _ => none
  | .refused _ => none

/-- The fault that an instruction stops with. -/
def faultOf (i : Instr) (s : State) : Option Fault :=
  match exec i s with
  | .next _ => none
  | .fault r => some r
  | .refused _ => none

/-- S0 with master lines requested and in service. -/
def master (irr isr imr : Byte) : State :=
  { State.reset with picM := { PicElement.reset with irr := irr, isr := isr, imr := imr, irqBase := 0x08 } }

/-- S0 with slave lines requested and the master's line 2 requested. -/
def cascaded (irr : Byte) : State :=
  { State.reset with
    picM := { PicElement.reset with irr := 0x04, irqBase := 0x08 }
    picS := { PicElement.reset with irr := irr, irqBase := 0x70 } }

/-- S0 with PIT channel 2 as given. -/
def pit2 (c : PitChannel) : State := { State.reset with pit2 := c }

/-- S0 with DMA channel 1 ready for a block of four bytes of device 7, with the given mode, position and replies. -/
def dma1 (mode : Byte) (position : Long) (device : Option Nat) (replies : List DeviceReply) : State :=
  { State.reset with
    dma0 := { DmaController.reset with
      mask := 0x0D
      ch1 := { DmaChannel.reset with
        baseWordCount := 3, currentWordCount := position, mode := mode, device := device, pageLow := 0x05,
        currentAddress := 0x2000 } }
    deviceReplies := replies }

/-- S0 with two other devices' timers, both armed at 500, the later one first. -/
def twoTimers : State :=
  { State.reset with
    timers := [{ target := .pit0, expiry := 27462700, enabled := true },
      { target := .device 1, expiry := 500, enabled := true }, { target := .device 2, expiry := 500, enabled := true }]
    queue := [2, 1, 0] }

/-! ## Well-formedness -/

theorem test_wf_other_read_below : ¬WellFormed (.dmaOtherRead .primary 8) := by decide
theorem test_wf_other_read_above : ¬WellFormed (.dmaOtherRead .primary 15) := by decide
theorem test_wf_wide_write_port : ¬WellFormed (.outwOutl false 0x10000 0) := by decide
theorem test_wf_word_value : ¬WellFormed (.outwOutl false 0x20 0x10000) := by decide
theorem test_wf_long_value : ¬WellFormed (.outwOutl true 0x20 0x100000000) := by decide
theorem test_wf_wide_read_port : ¬WellFormed (.inwInl true 0x10000) := by decide
theorem test_wf_irq_line : ¬WellFormed (.irq 16 1) := by decide
theorem test_wf_irq_level : ¬WellFormed (.irq 15 2) := by decide
theorem test_wf_gate_channel : ¬WellFormed (.gate 3 1) := by decide
theorem test_wf_gate_level : ¬WellFormed (.gate 2 2) := by decide
theorem test_wf_get_out_channel : ¬WellFormed (.getOut 3) := by decide
theorem test_wf_dma_channel : ¬WellFormed (.dreq 8) ∧ ¬WellFormed (.drel 8) ∧ ¬WellFormed (.reg 8 0) ∧
    ¬WellFormed (.getChannelMode 8) ∧ ¬WellFormed (.readMemory 8 [] 0 0 0) ∧ ¬WellFormed (.writeMemory 8 [] 0 0 0) := by
  decide
theorem test_wf_buffer_off : ¬WellFormed (.readMemory 0 [0] (-1) 0 1) := by decide
theorem test_wf_buffer_pos : ¬WellFormed (.readMemory 0 [0] 0 (-1) 1) := by decide
theorem test_wf_buffer_len : ¬WellFormed (.writeMemory 0 [0] 0 0 (-1)) := by decide
theorem test_wf_buffer_end : ¬WellFormed (.writeMemory 0 [0, 0] 1 0 2) := by decide
theorem test_wf_expiry : ¬WellFormed (.update 0 (.arm 0x10000000000000000)) := by decide
theorem test_wf_delta_negative : ¬WellFormed (.tick (-1)) := by decide
theorem test_wf_delta_wide : ¬WellFormed (.tick 0x100000000) := by decide

/-! ## Decoding: the words of 30_encoding.md, bit by bit -/

/-- The cursors of reset, with the master's initialization cursor as given. -/
def curInit (i : InitState) : Cursors :=
  { Cursors.reset with master := { initState := i, poll := false, readRegisterSelect := false } }

/-- The cursors of reset, with channel 1's as given. -/
def curPit (r w : ByteState) (l : LatchState) (st : Bool) : Cursors :=
  { Cursors.reset with chan1 := { readState := r, writeState := w, countLatched := l, statusLatched := st } }

/-- R107, R112, R113: `D4` ICW1, `D3` OCW3, else OCW2 by `D7:D5`. -/
theorem test_decode_pic_command :
    decode .reset (.writeByte 0x20 0b00010001) = .ok (.picIcw1 .master true) ∧
    decode .reset (.writeByte 0xA0 0b11111110) = .ok (.picIcw1 .slave false) ∧
    decode .reset (.writeByte 0x20 0b01001000) = .ok (.picOcw3 .master true false false false false) ∧
    decode .reset (.writeByte 0xA0 0b00101110) = .ok (.picOcw3 .slave false true true true false) ∧
    decode .reset (.writeByte 0x20 0b00000000) = .ok (.picOcw2RotateAeoiClear .master) ∧
    decode .reset (.writeByte 0x20 0b00100000) = .ok (.picOcw2Eoi .master) ∧
    decode .reset (.writeByte 0x20 0b01000101) = .ok (.picOcw2Nop .master) ∧
    decode .reset (.writeByte 0xA0 0b01100011) = .ok (.picOcw2SpecificEoi .slave 3) ∧
    decode .reset (.writeByte 0x20 0b10000000) = .ok (.picOcw2RotateAeoiSet .master) ∧
    decode .reset (.writeByte 0x20 0b10100000) = .ok (.picOcw2RotateEoi .master) ∧
    decode .reset (.writeByte 0x20 0b11000100) = .ok (.picOcw2SetPriority .master 4) ∧
    decode .reset (.writeByte 0x20 0b11100110) = .ok (.picOcw2RotateSpecificEoi .master 6) := by decide

/-- R108 to R111, R114: the data port by the initialization cursor; the ELCR. -/
theorem test_decode_pic_data :
    decode (curInit .normal) (.writeByte 0x21 0xFB) = .ok (.picOcw1 .master 0xFB) ∧
    decode (curInit .icw2) (.writeByte 0x21 0b01110111) = .ok (.picIcw2 .master 0b01110) ∧
    decode (curInit .icw3) (.writeByte 0x21 0x04) = .ok (.picIcw3 .master) ∧
    decode (curInit .icw4) (.writeByte 0x21 0b00010001) = .ok (.picIcw4 .master true false) ∧
    decode (curInit .icw4) (.writeByte 0x21 0b00000011) = .ok (.picIcw4 .master false true) ∧
    decode .reset (.writeByte 0x4D1 0x08) = .ok (.picElcrWrite .slave 0x08) ∧
    decode .reset (.readByte 0x4D0) = .ok (.picElcrRead .master) := by decide

/-- R114: the reads, by the poll latch, then the port, then the read select. -/
theorem test_decode_pic_reads :
    decode { Cursors.reset with slave := { initState := .icw3, poll := true, readRegisterSelect := true } }
      (.readByte 0xA1) = .ok (.picPollRead .slave .data) ∧
    decode .reset (.readByte 0x20) = .ok (.picIrrRead .master) ∧
    decode { Cursors.reset with slave := { initState := .normal, poll := false, readRegisterSelect := true } }
      (.readByte 0xA0) = .ok (.picIsrRead .slave) ∧
    decode .reset (.readByte 0x21) = .ok (.picImrRead .master) := by decide

/-- R115, R116: `SC = D7:D6`, `RW = D5:D4`, `M = D3:D1`, `BCD = D0`; the readback command. -/
theorem test_decode_pit_control :
    decode .reset (.writeByte 0x43 0b01000000) = .ok (.pitLatch .c1) ∧
    decode .reset (.writeByte 0x43 0b00010101) = .ok (.pitControlLsb .c0 2 true) ∧
    decode .reset (.writeByte 0x43 0b10101010) = .ok (.pitControlMsb .c2 5 false) ∧
    decode .reset (.writeByte 0x43 0b01110110) = .ok (.pitControlWord .c1 3 false) ∧
    decode .reset (.writeByte 0x43 0b11011000) = .ok (.pitReadback true false false false true) ∧
    decode .reset (.writeByte 0x43 0b11100010) = .ok (.pitReadback false true true false false) ∧
    decode .reset (.readByte 0x43) = .ok .pitControlRead := by decide

/-- R118: the data ports, by the write state, and by the status latch, the latch mode and the read state. -/
theorem test_decode_pit_data :
    decode (curPit .lsb .lsb .none false) (.writeByte 0x41 7) = .ok (.pitWriteLsb .c1 7) ∧
    decode (curPit .lsb .msb .none false) (.writeByte 0x41 7) = .ok (.pitWriteMsb .c1 7) ∧
    decode (curPit .lsb .word0 .none false) (.writeByte 0x41 7) = .ok (.pitWriteWord0 .c1 7) ∧
    decode (curPit .lsb .word1 .none false) (.writeByte 0x41 7) = .ok (.pitWriteWord1 .c1 7) ∧
    decode (curPit .lsb .lsb .msb true) (.readByte 0x41) = .ok (.pitReadStatus .c1) ∧
    decode (curPit .msb .lsb .lsb false) (.readByte 0x41) = .ok (.pitReadLatchedLsb .c1) ∧
    decode (curPit .lsb .lsb .msb false) (.readByte 0x41) = .ok (.pitReadLatchedMsb .c1) ∧
    decode (curPit .lsb .lsb .word0 false) (.readByte 0x41) = .ok (.pitReadLatchedWord0 .c1) ∧
    decode (curPit .lsb .word1 .none false) (.readByte 0x41) = .ok (.pitReadLiveLsb .c1) ∧
    decode (curPit .msb .word1 .none false) (.readByte 0x41) = .ok (.pitReadLiveMsb .c1) ∧
    decode (curPit .word0 .word1 .none false) (.readByte 0x41) = .ok (.pitReadLiveWord0 .c1) ∧
    decode (curPit .word1 .lsb .none false) (.readByte 0x41) = .ok (.pitReadLiveWord1 .c1) := by decide

/-- R102, R103, R121 to R126: the registers of both controllers; one port a register on the first, two on the second. -/
theorem test_decode_dma_writes :
    decode .reset (.writeByte 0x06 0x34) = .ok (.dmaAddrWrite .primary 3 0x34) ∧
    decode .reset (.writeByte 0xC6 0x34) = .ok (.dmaCountWrite .secondary 1 0x34) ∧
    decode .reset (.writeByte 0x08 0x04) = .ok (.dmaCommand .primary 0x04) ∧
    decode .reset (.writeByte 0x09 0b11111110) = .ok (.dmaRequest .primary 2 true) ∧
    decode .reset (.writeByte 0xD4 0b00000011) = .ok (.dmaSingleMask .secondary 3 false) ∧
    decode .reset (.writeByte 0x0B 0x59) = .ok (.dmaMode .primary 0x59) ∧
    decode .reset (.writeByte 0xD8 0xFF) = .ok (.dmaClearFlipFlop .secondary) ∧
    decode .reset (.writeByte 0x0D 0x00) = .ok (.dmaMasterClear .primary) ∧
    decode .reset (.writeByte 0xDC 0x00) = .ok (.dmaClearMasks .secondary) ∧
    decode .reset (.writeByte 0x0F 0b11111001) = .ok (.dmaWriteMasks .primary 9) ∧
    decode .reset (.writeByte 0x83 0x02) = .ok (.dmaPageLowWrite .primary 1 0x02) ∧
    decode .reset (.writeByte 0x48F 0x02) = .ok (.dmaPageHighWrite .secondary 0 0x02) := by decide

/-- R103, R104: the reads. -/
theorem test_decode_dma_reads :
    decode .reset (.readByte 0xCC) = .ok (.dmaAddrRead .secondary 3) ∧
    decode .reset (.readByte 0x05) = .ok (.dmaCountRead .primary 2) ∧
    decode .reset (.readByte 0xD0) = .ok (.dmaStatusRead .secondary) ∧
    decode .reset (.readByte 0x0F) = .ok (.dmaMaskRead .primary) ∧
    decode .reset (.readByte 0x0E) = .ok (.dmaOtherRead .primary 14) ∧
    decode .reset (.readByte 0x89) = .ok (.dmaPageRead .secondary .low 2) ∧
    decode .reset (.readByte 0x482) = .ok (.dmaPageRead .primary .high 3) := by decide

/-- R129: the wide accesses and the calls. -/
theorem test_decode_calls :
    decode .reset (.writeWord 0x20 0xFB11) = .ok (.outwOutl false 0x20 0xFB11) ∧
    decode .reset (.readLong 0x40) = .ok (.inwInl true 0x40) ∧
    decode .reset (.setIrq 11 1) = .ok (.irq 11 1) ∧ decode .reset .cpuGetInterrupt = .ok .inta ∧
    decode .reset (.setGate 2 1) = .ok (.gate 2 1) ∧ decode .reset (.getOut 0) = .ok (.getOut 0) ∧
    decode .reset (.holdDmaRequest 1) = .ok (.dreq 1) ∧ decode .reset (.releaseDmaRequest 7) = .ok (.drel 7) ∧
    decode .reset (.registerChannel 1 9) = .ok (.reg 1 9) ∧
    decode .reset (.getChannelMode 5) = .ok (.getChannelMode 5) ∧
    decode .reset (.readMemory 1 [0] 0 2 1) = .ok (.readMemory 1 [0] 0 2 1) ∧
    decode .reset (.writeMemory 1 [0] 0 2 1) = .ok (.writeMemory 1 [0] 0 2 1) ∧
    decode .reset (.newTimer (.device 3)) = .ok (.newTimer (.device 3)) ∧
    decode .reset (.update 1 .disarm) = .ok (.update 1 .disarm) ∧ decode .reset .getTime = .ok .getTime ∧
    decode .reset (.timePasses 500) = .ok (.tick 500) ∧ decode .reset .reset = .ok .reset ∧
    decode .reset (.portsRequested .pit) = .ok (.portsRequested .pit) := by decide

/-- The words of the host's questions: a byte to the master's command port (log entry 2), and one to port 0x43. -/
theorem test_table_words :
    decodeTableWord 8 0b00010000 = some (.picIcw1 .master false) ∧ decodeTableWord 8 0b01100000 = some
      (.picOcw2SpecificEoi .master 0) ∧ decodeTableWord 16 0x930 = some (.pitControlWord .c0 0 false) := by decide

/-- A word of the table is the very next instruction (log entries 1 and 2). -/
theorem test_fetch_word : step (s0.withFetchWord 8 0x11) = exec (.picIcw1 .master true) s0 := rfl

/-! ## Values of 95_test_vectors.md -/

/-- L2.2, V-PIC-9: ICW1 keeps nothing of the mask; `Clear` is emitted. -/
theorem test_icw1 : leaves (.picIcw1 .master true) (master 0x01 0 0x5A)
    (fun t => (t.picM.imr, t.picM.irr, t.picM.initState, t.picM.fourByteInit, t.trace)) =
    some (0, 0, .icw2, true, [.raiseInterrupt, .clearInterrupt]) := by decide

/-- L2.2: 0x0C sets poll; 0x09 (bit 1 = 0) leaves the selection. -/
theorem test_ocw3 : leaves (.picOcw3 .master false false true false true) s0
    (fun t => (t.picM.poll, t.picM.readRegisterSelect)) = some (true, false) := by decide

/-- The OCW2 command summary of L2.2: lines 3 and 5 in service. -/
theorem test_ocw2 :
    leaves (.picOcw2RotateAeoiClear .master) (master 0 0x28 0) (fun t => t.picM.isr) = some 0x28 ∧
    leaves (.picOcw2Eoi .master) (master 0 0x28 0) (fun t => (t.picM.isr, t.picM.priorityAdd)) = some (0x20, 0) ∧
    leaves (.picOcw2Nop .master) (master 0 0x28 0) (fun t => t.picM.isr) = some 0x28 ∧
    leaves (.picOcw2SpecificEoi .master 5) (master 0 0x28 0) (fun t => (t.picM.isr, t.picM.priorityAdd)) =
      some (0x08, 0) ∧
    leaves (.picOcw2RotateAeoiSet .master) (master 0 0x28 0) (fun t => t.picM.rotateOnAutoEoi) = some true ∧
    leaves (.picOcw2RotateEoi .master) (master 0 0x28 0) (fun t => (t.picM.isr, t.picM.priorityAdd)) =
      some (0x20, 4) ∧
    leaves (.picOcw2SetPriority .master 2) (master 0 0x28 0) (fun t => (t.picM.isr, t.picM.priorityAdd)) =
      some (0x28, 3) ∧
    leaves (.picOcw2RotateSpecificEoi .master 5) (master 0 0x28 0) (fun t => (t.picM.isr, t.picM.priorityAdd)) =
      some (0x08, 6) := by decide

/-- V-PIC-5: the non-specific EOI of line 1 with line 3 requested raises the CPU's interrupt again. -/
theorem test_eoi_raises : leaves (.picOcw2Eoi .master) (master 0x28 0x02 0) (fun t => t.trace) =
    some [.raiseInterrupt, .raiseInterrupt] := by decide

/-- V-PIC-9: ICW2 0x2F gives the base 0x28; ICW3 without ICW4 ends the sequence. -/
theorem test_icw2_icw3 : leaves (.picIcw2 .master 0b00101) s0 (fun t => t.picM.irqBase) = some 0x28 ∧
    leaves (.picIcw3 .master) s0 (fun t => t.picM.initState) = some .normal := by decide

/-- V-PIC-4: ICW4 0x03 sets auto-EOI alone. -/
theorem test_icw4 : leaves (.picIcw4 .master false true) s0
    (fun t => (t.picM.autoEoi, t.picM.specialFullyNested)) = some (true, false) := by decide

/-- V-PIC-1: a masked request raises nothing, and a forced acknowledge gives 0x08 + 7. -/
theorem test_spurious : leaves (.irq 3 1) (master 0 0 0xFF) (fun t => (t.picM.irr, t.trace)) =
    some (0x08, [.raiseInterrupt]) ∧ leaves .inta (master 0x08 0 0xFF) (fun t => (t.result, t.picM.isr)) =
    some (.byte 0x0F, 0x00) := by decide

/-- L1.4: the acknowledge of slave line 3 gives 0x73, and leaves both lines in service. -/
theorem test_cascade_vector : leaves .inta (cascaded 0x08) (fun t => (t.result, t.picM.isr, t.picS.isr, t.picM.irr)) =
    some (.byte 0x73, 0x04, 0x08, 0x00) := by decide

/-- V-PIC-2: with the slave's request withdrawn the slave's spurious vector comes, 0x77. -/
theorem test_slave_spurious : leaves .inta (cascaded 0x00) (fun t => (t.result, t.picM.isr)) =
    some (.byte 0x77, 0x04) := by decide

/-- V-PIC-7: the poll of slave line 1 clears it and master line 2. -/
theorem test_poll : leaves (.picPollRead .slave .command) (cascaded 0x02)
    (fun t => (t.result, t.picS.irr, t.picM.irr)) = some (.byte 0x01, 0x00, 0x00) := by decide

/-- V-PIC-8: the ELCR masks. -/
theorem test_elcr : leaves (.picElcrWrite .master 0xFF) s0 (fun t => t.picM.elcr) = some 0xF8 ∧
    leaves (.picElcrWrite .slave 0xFF) s0 (fun t => t.picS.elcr) = some 0xDE := by decide

/-- V-PIT-1: control byte 0x1B on channel 0 shows status 0x1B. -/
theorem test_control_and_status : leaves (.pitControlLsb .c0 5 true) s0 (fun t => statusByte t.pit0 0) =
    some 0x1B := by decide

/-- V-PIT-2: a channel that counts 0x100 down in mode 0 latches 0x00F5 at t = 10000. -/
theorem test_latch : leaves (.pitLatch .c2)
    { pit2 { PitChannel.reset true with mode := .m0, countValue := 0x100 } with currentTime := 10000 }
    (fun t => (t.pit2.outputLatch, t.pit2.countLatched)) = some (0x00F5, .word0) := by decide

/-- V-PIT-2: a pending latched count is not taken again; the status is. -/
theorem test_readback : leaves (.pitReadback true true false false true)
    (pit2 { PitChannel.reset true with mode := .m0, countLatched := .msb, outputLatch := 0xAB12 })
    (fun t => (t.pit2.outputLatch, t.pit2.status, t.pit2.statusLatched)) = some (0xAB12, 0x30, true) := by
  decide

/-- V-PIT-3: a load of 0 is 0x10000, and the timer is armed at 54925401. -/
theorem test_load_zero : leaves (.pitWriteWord1 .c0 0x00)
    { s0 with pit0 := { PitChannel.reset true with mode := .m0, writeState := .word1 } }
    (fun t => (t.pit0.countValue, t.pitNext, t.pit0.writeState, t.queue)) =
    some (0x10000, some 54925401, .word0, [0]) := by decide

/-- V-PIT-4: the rising edge restarts channel 2 in mode 1 at 50000. -/
theorem test_gate : leaves (.gate 2 1)
    { pit2 { PitChannel.reset false with mode := .m1, countValue := 100 } with currentTime := 50000 }
    (fun t => (t.pit2.countStartTime, t.pit2.gate)) = some (50000, true) := by decide

/-- V-PIT-4: 100 - 119 reads as 0xFFED, low byte first. -/
theorem test_live_read : leaves (.pitReadLiveWord0 .c2)
    { pit2 { PitChannel.reset true with mode := .m1, countValue := 100, countStartTime := 50000 } with
      currentTime := 150000 }
    (fun t => (t.result, t.pit2.readState)) = some (.byte 0xED, .word1) := by decide

/-- L1.2: at 1676 the callback of channel 0 fires too early, and again at 1677, where the output has changed. -/
theorem test_square_wave : leaves (.tick 3352)
    { s0 with
      pit0 := { PitChannel.reset true with countValue := 4 }
      pitNext := some 1676
      timers := [{ target := .pit0, expiry := 1676, enabled := true }] }
    (fun t => (t.pitNext, t.picM.lastIrr, t.currentTime)) = some (some 3353, 0x00, 3352) := by decide

/-- L1.1: ties fire in the order of their last offer. -/
theorem test_fifo : leaves (.tick 500) twoTimers (fun t => (t.trace, t.queue)) =
    some ([.raiseInterrupt, .expiry 2, .expiry 1], [0]) := by decide

/-- L2.1: a re-arm at 500 goes behind the equal one. -/
theorem test_rearm : leaves (.update 2 (.arm 500)) twoTimers (fun t => t.queue) = some [1, 2, 0] ∧
    leaves (.update 2 .disarm) twoTimers (fun t => t.queue) = some [1, 0] := by decide

/-- V-DMA-1: command 0x04 is accepted, 0x10 is not. -/
theorem test_command : leaves (.dmaCommand .primary 0x04) s0 (fun t => t.dma0.command) = some 0x04 ∧
    leaves (.dmaCommand .primary 0x10) s0 (fun t => t.dma0.command) = some 0x00 := by decide

/-- V-DMA-2: on the second controller the high byte 0x12 starts the block at 0x2468. -/
theorem test_address_write : leaves (.dmaAddrWrite .secondary 2 0x12)
    { s0 with dma1 := { DmaController.reset with
      flipFlop := true, ch2 := { DmaChannel.reset with baseAddress := 0x0034 } } }
    (fun t => (t.dma1.ch2.baseAddress, t.dma1.ch2.currentAddress, t.dma1.flipFlop)) =
    some (0x1234, 0x2468, false) := by decide

/-- V-DMA-4: a count of 1 at position 2 reads as -1, low byte. -/
theorem test_count_read : leaves (.dmaCountRead .primary 0)
    { s0 with dma0 := { DmaController.reset with
      ch0 := { DmaChannel.reset with baseWordCount := 1, currentWordCount := 2 } } }
    (fun t => (t.result, t.dma0.flipFlop)) = some (.byte 0xFF, true) := by decide

/-- L1.7: the device of channel 1 is called once at position 0 with size 4; the block is then complete. -/
theorem test_dma_request : leaves (.dreq 1) (dma1 0x44 0 (some 7) [{ calls := [], newPosition := 4 }])
    (fun t => (t.trace, t.dma0.ch1.currentWordCount, t.dma0.status)) =
    some ([.raiseInterrupt, .handleTransfer 1 0 4 4], 4, 0x20) := by decide

/-- L1.6: four bytes in decrement mode, from 0x051FFC on, reversed; the buffer is left reversed. -/
theorem test_decrement_write : leaves (.writeMemory 1 [1, 2, 3, 4] 0 0 4) (dma1 0x24 0 none [])
    (fun t => (t.memory, t.result)) =
    some ([(0x051FFC, 4), (0x051FFD, 3), (0x051FFE, 2), (0x051FFF, 1)], .transfer 4 [4, 3, 2, 1]) := by decide

/-- L1.6, read back: memory 04 03 02 01 becomes the buffer 01 02 03 04. -/
theorem test_decrement_read : leaves (.readMemory 1 [9, 9, 9, 9, 9] 1 0 4)
    { dma1 0x24 0 none [] with memory := [(0x051FFC, 4), (0x051FFD, 3), (0x051FFE, 2), (0x051FFF, 1)] }
    (fun t => t.result) = some (.transfer 4 [9, 1, 2, 3, 4]) := by decide

/-- V-PIT-6: a word at 0x40 is a byte for channel 0 and one for channel 1; at 0x43 its second byte stops. -/
theorem test_word_access : leaves (.outwOutl false 0x40 0x1234) s0
    (fun t => (t.pit0.inputLatch, t.pit1.inputLatch, t.pit0.writeState)) = some (0x34, 0x12, .word1) ∧
    faultOf (.outwOutl false 0x43 0x0000) s0 = some (.unregisteredPort 0x44 [.raiseInterrupt]) := by decide

/-- L2.5: the faults of single calls. -/
theorem test_faults :
    faultOf (.irq 16 1) s0 = some (.setIrqOperands 16 1 [.raiseInterrupt]) ∧
    faultOf (.gate 3 1) s0 = some (.setGateOperands 3 1 [.raiseInterrupt]) ∧
    faultOf (.dreq 8) s0 = some (.dmaChannel 8 [.raiseInterrupt]) ∧
    faultOf (.tick 4294967296) s0 = some (.timePasses 4294967296 0 [.raiseInterrupt]) := by decide

/-! ## What the agents do inside a step -/

/-- R95: a CPU that calls back inside `raise_interrupt` stops the step; one that returns is asked no more. -/
theorem test_cpu_callback :
    faultOf (.irq 3 1) { master 0 0 0 with cpuReplies := [some .cpuGetInterrupt] } =
      some (.reentrantCall .cpuGetInterrupt [.raiseInterrupt, .raiseInterrupt]) ∧
    faultOf (.picIcw1 .master true) { s0 with cpuReplies := [some .reset] } =
      some (.reentrantCall .reset [.raiseInterrupt, .clearInterrupt]) ∧
    leaves (.irq 3 1) { master 0 0 0 with cpuReplies := [none, some .reset] } (fun t => t.cpuReplies) =
      some [some .reset] ∧
    leaves (.irq 3 0) { master 0 0 0 with cpuReplies := [some .reset] } (fun t => t.cpuReplies) =
      some [some .reset] := by decide

/-- R10: the values that nested calls return are on record, and the call's own value is none. -/
theorem test_nested_values :
    leaves (.tick 500) { twoTimers with expiryReplies := [[.getTime, .setIrq 3 0]] } (fun t => (t.nested, t.result)) =
      some ([.time 500], .none) ∧
    leaves (.dreq 1) (dma1 0x44 0 (some 7) [{ calls := [.getChannelMode 1], newPosition := 4 }])
      (fun t => (t.nested, t.result)) = some ([.byte 0x44], .none) := by decide

/-- R10, R413, log entry 28: an agent's timer whose target is the PIT has its event; the PIT's own has none. -/
theorem test_expiry_of_agent_timer :
    leaves (.tick 5) { State.powerOn with
      timers := State.powerOn.timers ++ [{ target := .pit0, expiry := 5, enabled := true }], queue := [1] }
      (fun t => t.trace) = some [.expiry 1] := by decide

/-- What a step leaves in a field, if it completes. -/
def stepLeaves {α : Type} (s : State) (f : State → α) : Option α :=
  match step s with
  | .next t => some (f t)
  | .fault _ => none
  | .refused _ => none

/-- R11: a dump gives the block's state and changes none of it; its reload undoes a later write, and leaves memory. -/
theorem test_dump_and_reload :
    stepLeaves (s0With [.dump]) (fun t => (t.result, t.calls)) = some (.dump s0.dump, []) ∧
    stepLeaves { master 0x28 0x02 0x5A with calls := [.reload s0.dump], memory := [(7, 1)] }
      (fun t => (t.picM, t.memory)) = some (s0.picM, [(7, 1)]) := by decide

/-! ## Witnesses: states and operands that meet the hypotheses of the statements -/

theorem powerOn_queueInv : State.powerOn.QueueInv := by
  refine ⟨by decide, by decide, fun t => ?_⟩
  match t with
  | 0 => decide
  | n + 1 => simp [State.powerOn, State.timerEnabled]

/-- The state at construction has the invariant: it meets the hypotheses of StepKeepsInvariant and of
ResetGivesResetValues. -/
theorem powerOn_inv : State.powerOn.Inv where
  pic e := by cases e <;> exact ⟨by decide, by decide⟩
  pit c := by cases c <;> exact ⟨by decide, by decide, by decide⟩
  next := fun t h => by simp [State.powerOn] at h
  time := ⟨by decide, by decide⟩
  queue := powerOn_queueInv
  dma k := by cases k <;> exact ⟨by decide, by decide, fun i => by unfold DmaChannel.Inv; revert i; decide⟩
  memory := by decide

theorem twoTimers_queueInv : twoTimers.QueueInv := by
  refine ⟨by decide, by decide, fun t => ?_⟩
  match t with
  | 0 => decide
  | 1 => decide
  | 2 => decide
  | n + 3 => simp [twoTimers, State.timerEnabled]

theorem witness_DecodeEncodeRoundTrip : ∃ cur i, WellFormed i ∧ i.selected cur = true ∧
    decode cur (encode i) = .ok i :=
  ⟨curInit .icw4, .picIcw4 .master true false, by decide, by decide, by decide⟩

theorem witness_OneRowForEveryAccess : portReg 0x00 = some (.dmaAddress .primary 0) ∧
    portReg 0x4D1 = some (.elcr .slave) := by decide

theorem witness_RegisteredPorts : ∀ port ∈ [0x44, 0xC1, 0xFFFF], port < 2 ^ 16 ∧
    ∀ d ∈ [PortDevice.pic, .pit, .dma .primary, .dma .secondary], port ∉ Config.portsRequested d := by decide

theorem witness_StepRunsDecodedInstruction : ∃ c i, (s0With [.call c]).calls = .call c :: [] ∧
    decode (s0With [.call c]).cursors c = .ok i :=
  ⟨.writeByte 0x20 0x11, .picIcw1 .master true, rfl, by decide⟩

/-- No call; a dump and its reload; a port of no device; and, for each width of access, the least port and the least value
outside its type. -/
theorem witness_StepWithoutInstruction : s0.calls = [] ∧ (s0With [.dump]).calls = .dump :: [] ∧
    (s0With [.reload s0.dump]).calls = .reload s0.dump :: [] ∧
    (∀ port ∈ [0x44, 0xC1, 0xFFFF], port < 2 ^ 16 ∧
      ∀ d ∈ [PortDevice.pic, .pit, .dma .primary, .dma .secondary], port ∉ Config.portsRequested d) ∧
    ∀ c ∈ [Call.readByte 0x10000, .readWord 0x10000, .readLong 0x10000, .writeByte 0x20 0x100, .writeWord 0x20 0x10000,
        .writeLong 0x20 0x100000000, .writeLong 0x10000 0],
      (s0With [.call c]).calls = .call c :: [] ∧ ∃ e, decode (s0With [.call c]).cursors c = .error e := by
  refine ⟨rfl, rfl, rfl, by decide, fun c hc => ⟨rfl, .badArgument, ?_⟩⟩
  simp only [List.mem_cons, List.not_mem_nil, or_false] at hc
  rcases hc with rfl | rfl | rfl | rfl | rfl | rfl | rfl <;> decide

/-- The least and the greatest operands that are out of range, one for each clause. -/
theorem witness_OperandViolationsFault :
    (faultOf (.irq 16 1) s0).isSome = true ∧ (faultOf (.irq 15 2) s0).isSome = true ∧
    (faultOf (.gate 3 1) s0).isSome = true ∧ (faultOf (.gate 2 2) s0).isSome = true ∧
    (faultOf (.tick (-1)) s0).isSome = true ∧ (faultOf (.tick 4294967296) s0).isSome = true ∧
    (faultOf (.tick 1) { s0 with currentTime := 18446744073709551615 }).isSome = true ∧
    s0.timers.length = 1 ∧ (faultOf (.update 1 .keep) s0).isSome = true ∧
    (faultOf (.update 0 (.arm 18446744073709551616)) s0).isSome = true ∧
    (faultOf (.getOut 3) s0).isSome = true := by decide

theorem witness_DmaCallViolationsFault :
    (faultOf (.reg 8 0) s0).isSome = true ∧ (faultOf (.readMemory 8 [] 0 0 0) s0).isSome = true ∧
    (faultOf (.readMemory 7 [0] (-1) 0 1) s0).isSome = true ∧ (faultOf (.writeMemory 0 [0] 0 (-1) 1) s0).isSome = true ∧
    (faultOf (.writeMemory 7 [0] 0 0 (-1)) s0).isSome = true ∧ (faultOf (.readMemory 0 [0] 1 0 1) s0).isSome = true ∧
    faultOf (.readMemory 0 [0] 5 0 0) s0 = none := by decide

/-- A CPU that is asked and keeps its contract: it meets the hypothesis of Icw1StartsInitialization,
SpecificEoiAndRotation and MaskWriteRecomputes. -/
theorem witness_CpuConforms : ({ State.powerOn with cpuReplies := [none] } : State).CpuConforms := by
  unfold State.CpuConforms; decide

theorem powerOn_cpu : State.powerOn.CpuConforms := by unfold State.CpuConforms; decide

theorem s0_cpu : s0.CpuConforms := by unfold State.CpuConforms; decide

theorem witness_ResetGivesResetValues : State.powerOn.Inv ∧ State.powerOn.CpuConforms ∧
    0 < State.powerOn.timers.length ∧ State.powerOn.currentTime + 27462700 < 2 ^ 64 :=
  ⟨powerOn_inv, powerOn_cpu, by decide, by decide⟩

/-- The dump of the state at construction is one the host may reload. -/
theorem powerOn_dump_sound : State.powerOn.dump.Sound :=
  ⟨powerOn_inv.pic, powerOn_inv.pit, powerOn_inv.next, powerOn_inv.time, powerOn_inv.queue, powerOn_inv.dma,
    powerOn_inv.memory⟩

theorem witness_StepKeepsInvariant : ∃ s t : State, s.Inv ∧ s.ReloadsSound ∧ step s = .next t ∧ t.picM.imr = 0xFF ∧
    t.calls = [.reload State.powerOn.dump] := by
  refine ⟨{ State.powerOn with calls := [.call (.writeByte 0x21 0xFF), .reload State.powerOn.dump] }, _,
    ⟨powerOn_inv.pic, powerOn_inv.pit, powerOn_inv.next, powerOn_inv.time, powerOn_inv.queue, powerOn_inv.dma,
      powerOn_inv.memory⟩, fun d hd => ?_, rfl, rfl, rfl⟩
  simp only [List.mem_cons, List.not_mem_nil, or_false, reduceCtorEq, false_or, Action.reload.injEq] at hd
  exact hd ▸ powerOn_dump_sound

/-- L2.2: priority_add 3 and m = 0x41 give rank 3, line 6; m = 0 gives 8. -/
theorem witness_GetPriorityIsLeastRank : getPriority 3 0x41 = 3 ∧ getPriority 0 0 = 8 ∧
    lineSet 0x41 6 = true ∧ (0x41 : Byte) ≠ 0 := by decide

/-- L2.2: line 2 in service holds line 2 back, but for a master in special fully nested mode. -/
theorem witness_GetIrqIsDeliverableLine :
    getIrq .master { PicElement.reset with irr := 0x04, isr := 0x04, specialFullyNested := true } = some 2 ∧
    getIrq .slave { PicElement.reset with irr := 0x04, isr := 0x04, specialFullyNested := true } = none := by decide

theorem witness_SetIrqDrivesLine : s0.CpuConforms ∧ leaves (.irq 15 1) s0 (fun t => t.picS.irr) = some 0x80 ∧
    leaves (.irq 0 0) s0 (fun t => (t.picM.irr, t.picM.lastIrr)) = some (0x01, 0x00) := ⟨s0_cpu, by decide⟩

/-- Both clauses: a deliverable slave line, and none. -/
theorem witness_CascadePulseRequestsLineTwo : State.powerOn.CpuConforms ∧ (State.powerOn.pic .master).Inv .master ∧
    leaves (.irq 8 1) State.powerOn (fun t => (getIrq .slave t.picS, t.picM.irr)) = some (some 0, 0x04) ∧
    leaves (.irq 15 0) State.powerOn (fun t => (getIrq .slave t.picS, t.picM.irr)) = some (none, 0x00) :=
  ⟨powerOn_cpu, powerOn_inv.pic .master, by decide⟩

/-- The four clauses. -/
theorem witness_AcknowledgeGivesVector : (cascaded 0x80).CpuConforms ∧
    getIrq .master (master 0 0 0).picM = none ∧ getIrq .master (master 0x20 0 0).picM = some 5 ∧
    getIrq .master (cascaded 0x80).picM = some 2 ∧ getIrq .slave (cascaded 0x80).picS = some 7 ∧
    getIrq .slave (cascaded 0x00).picS = none := ⟨s0_cpu, by decide⟩

theorem witness_VectorIsUnmaskedOrSpurious : leaves .inta (cascaded 0x80) (fun t => t.result) =
    some (.byte 0x77) := by decide

theorem witness_SlaveLineReachesCpu : ∃ (s : State) (j : Line), s.CpuConforms ∧ s.picM.irr = 0 ∧ s.picS.irr = 0 ∧ s.picM.isr = 0 ∧
    s.picS.isr = 0 ∧ lineSet s.picM.imr 2 = false ∧ lineSet s.picS.imr j = false ∧ lineSet s.picM.lastIrr 2 = false ∧
    lineSet s.picS.lastIrr j = false ∧ s.picM.autoEoi = false ∧ s.picS.autoEoi = false ∧
    (s.pic .master).Inv .master :=
  ⟨State.powerOn, 7, powerOn_cpu, by decide, by decide, by decide, by decide, by decide, by decide, by decide, by decide, by decide,
    by decide, powerOn_inv.pic .master⟩

/-- Lines 3 and 5 in service: line 3 ranks first; and no line in service. -/
theorem witness_NonSpecificEoiEndsHighestLine : (master 0 0x28 0).CpuConforms ∧ ((master 0 0x28 0).pic .master).HighestInService 3 ∧
    ((master 0 0 0).pic .master).isr = 0 := ⟨s0_cpu, ⟨by decide, by decide⟩, by decide⟩

/-- Nothing deliverable; line 2 and another of the master; a line of the slave. -/
theorem witness_PollReadReturnsLine : (cascaded 0x02).CpuConforms ∧ getIrq .master (s0.setPic .master .reset).picM = none ∧
    getIrq .master ((cascaded 0x02).pic .master) = some 2 ∧ getIrq .master ((master 0x10 0 0).pic .master) = some 4 ∧
    getIrq .slave ((cascaded 0x02).pic .slave) = some 1 := ⟨s0_cpu, by decide⟩

/-- The bounds of a count; L2.3: mode 0 with 0x10000 reads 0xFFFF after one clock, mode 2 with 10 reads 7 after 23. -/
theorem witness_CountAndOutputByMode : 1 ≤ (PitChannel.reset true).countValue ∧
    countAfter .m0 0x10000 1 = 0xFFFF ∧ countAfter .m2 10 23 = 7 ∧ countAfter .m3 5 3 = 4 := by decide

/-- L2.3: some flips, the one that a count of 1 has in mode 2, and none. -/
theorem witness_NextFlipIsFirstChange : nextFlip .m2 4 4 = some 5 ∧ nextFlip .m3 5 3 = some 5 ∧
    nextFlip .m2 1 0 = some 1 ∧ nextFlip .m2 1 1 = none ∧ nextFlip .m3 1 0 = none ∧ nextFlip .m4 5 5 = some 6 ∧
    nextFlip .m5 5 6 = none ∧ nextFlip .m0 4 4 = none := by decide

/-- L1.2: the re-fire at 1676, and the next transition from 1677; no change ever, and none within 64 bits. -/
theorem witness_NextTransitionIsFirstChange :
    nextTransition { PitChannel.reset true with countValue := 4 } 1676 = some 1677 ∧
    nextTransition { PitChannel.reset true with countValue := 4 } 1677 = some 3352 ∧
    nextTransition { PitChannel.reset true with countValue := 1 } 0 = none ∧
    nextTransition { PitChannel.reset true with mode := .m0, countStartTime := 2 ^ 64 - 838 } (2 ^ 64 - 838) = none := by
  decide

theorem witness_CounterWritesLoadCount : State.powerOn.QueueInv ∧ State.powerOn.CpuConforms ∧ 0 < State.powerOn.timers.length :=
  ⟨powerOn_queueInv, powerOn_cpu, by decide⟩

/-- Channel 2, whose gate is low after reset, in mode 3: a rising edge, and a level that is no edge. -/
theorem witness_GateEdgeRestartsCounting : State.powerOn.QueueInv ∧ State.powerOn.CpuConforms ∧ 0 < State.powerOn.timers.length ∧
    1 ≤ (State.powerOn.pit .c2).countValue ∧ pitChan? 2 = some .c2 ∧ (State.powerOn.pit .c2).mode ≠ .m0 ∧
    (State.powerOn.pit .c2).mode ≠ .m4 ∧ (State.powerOn.pit .c2).gate = false ∧ pitChan? 0 = some .c0 ∧
    (State.powerOn.pit .c0).gate = true := ⟨powerOn_queueInv, powerOn_cpu, by decide⟩

theorem witness_ControlWordSetsModes : ∃ (rw : RwMode) (b : ByteState) (i : Instr),
    rw = .word ∧ b = .word0 ∧ i = .pitControlWord .c2 7 true := ⟨_, _, _, rfl, rfl, rfl⟩

/-- The word reads of a latched count and of a live one. -/
theorem witness_LatchedAndLiveReads : ∃ (i j : Instr) (v w : Byte) (p q : PitChannel),
    (i = .pitReadLatchedWord0 .c1 ∧ v = (s0.pit .c1).outputLatch.extractLsb' 0 8 ∧
      p = { s0.pit .c1 with countLatched := .msb }) ∧
    j = .pitReadLiveWord1 .c1 ∧ w = (getCount (s0.pit .c1) s0.currentTime).extractLsb' 8 8 ∧
      q = { s0.pit .c1 with readState := .word0 } := ⟨_, _, _, _, _, _, ⟨rfl, rfl, rfl⟩, rfl, rfl, rfl⟩

theorem witness_ControlReadAndOutputQuery : pitChan? 0 = some .c0 ∧ pitChan? 1 = some .c1 ∧ pitChan? 2 = some .c2 := by
  decide

/-- Two due timers, a callback that re-arms one and drives a line, and the bounds of delta. -/
theorem witness_TimePassesDrains : ∃ (s : State) (delta : Int), 0 ≤ delta ∧ delta < 2 ^ 32 ∧
    s.currentTime + delta < 2 ^ 64 ∧ s.QueueInv ∧ s.CallbacksConform ∧ s.CpuConforms ∧ s.expiryReplies ≠ [] :=
  ⟨{ twoTimers with expiryReplies := [[.update 1 (.arm 600), .setIrq 3 1, .getTime]] }, 4294967295, by decide, by decide,
    by decide, twoTimers_queueInv, by unfold State.CallbacksConform; decide, by unfold State.CpuConforms; decide, by decide⟩

/-- Timers 2 and 1 of other devices are due at 500, the PIT's is not. -/
theorem witness_TimersFireInQueueOrder_devices : twoTimers.QueueInv ∧ twoTimers.expiryReplies = [] ∧
    (∀ u ∈ twoTimers.queue, twoTimers.expiryOf u ≤ twoTimers.currentTime + 500 →
      ∃ r d, twoTimers.timers[u]? = some r ∧ r.target = .device d) ∧
    twoTimers.queue.takeWhile (twoTimers.dueBy (twoTimers.currentTime + 500)) = [2, 1] := by
  refine ⟨twoTimers_queueInv, rfl, fun u hu hd => ?_, by decide⟩
  simp only [twoTimers, List.mem_cons, List.not_mem_nil, or_false] at hu
  rcases hu with rfl | rfl | rfl
  · exact ⟨_, 2, rfl, rfl⟩
  · exact ⟨_, 1, rfl, rfl⟩
  · exact absurd hd (by decide)

/-- L1.2: the timer of channel 0 alone is due at 1677; it fires at 1678, evaluates at 1677 and is armed at 3352. -/
theorem witness_TimersFireInQueueOrder_pit : ∃ s : State, s.QueueInv ∧ s.CpuConforms ∧
    s.queue = Config.pitTimer :: [] ∧
    s.timers[Config.pitTimer]? = some { target := .pit0, expiry := 1677, enabled := true } ∧
    s.pitNext = some 1677 ∧ nextTransition s.pit0 1677 = some 3352 ∧ s.pit0.outAt 1677 = false := by
  refine ⟨{ s0 with
    pit0 := { PitChannel.reset true with countValue := 4 }
    pitNext := some 1677
    timers := [{ target := .pit0, expiry := 1677, enabled := true }] }, ⟨by decide, by decide, fun t => ?_⟩, s0_cpu,
    rfl, rfl, rfl, by decide, by decide⟩
  match t with
  | 0 => decide
  | n + 1 => simp [s0, State.reset, State.timerEnabled]

/-- The greatest expiry, and timers that are and are not enabled. -/
theorem witness_UpdatePlacesTimer : twoTimers.QueueInv ∧ 2 < twoTimers.timers.length ∧
    (18446744073709551615 : Nat) < 2 ^ 64 ∧ twoTimers.timerEnabled 2 = true ∧ State.powerOn.QueueInv ∧
    0 < State.powerOn.timers.length ∧ State.powerOn.timerEnabled 0 = false :=
  ⟨twoTimers_queueInv, by decide, by decide, by decide, powerOn_queueInv, by decide, by decide⟩

theorem witness_OnlyTimePassesMovesTime : leaves (.tick 4294967295) State.powerOn (fun t => t.currentTime) =
    some 4294967295 ∧ leaves .inta s0 (fun t => t.currentTime) = some 0 := by decide

/-- Channel 3 of the mask and of the mode; the other clauses are equations. -/
theorem witness_DmaControlWrites : (∃ (v : Byte) (ch : DmaChan), v = 0xFF ∧ ch.val = v.toNat % 4) ∧
    ∃ d : DmaController, d = { s0.dma .primary with mask := d.mask } ∧
      ∀ j : DmaChan, d.mask.getLsbD j.val = ((s0.dma .primary).mask.getLsbD j.val || decide (j = 3)) :=
  ⟨⟨0xFF, 3, rfl, by decide⟩, s0.dma .primary, rfl, by decide⟩

theorem witness_DmaChannelCalls : ∃ n, n = 4 * Config.dShift .secondary + (3 : DmaChan).val ∧ n = 7 :=
  ⟨7, by decide, rfl⟩

/-- Devices that keep their contract: one that reads memory and holds a request, one that answers alone. -/
theorem witness_DmaPassCompletes : s0.CpuConforms ∧
    s0.Reevaluates .primary (.dmaRequest .primary 1 true) { s0.dma .primary with
      status := ((s0.dma .primary).status ||| requestBit 1) &&& ~~~terminalBit 1 } ∧
    (dma1 0x44 0 (some 7) [{ calls := [.readMemory 1 [0, 0] 0 0 2, .holdDmaRequest 7], newPosition := 4294967295 },
      { calls := [], newPosition := 0 }]).DevicesConform ∧
    (dma1 0x44 0 (some 7) [{ calls := [.getChannelMode 1], newPosition := 4 }]).NoDeviceWrites ∧
    (dma1 0x44 0 (some 7) [{ calls := [.getChannelMode 1], newPosition := 4 }]).NoDeviceLines ∧
    s0.requestedChannels .primary = [] := by
  refine ⟨s0_cpu, .inl ⟨1, rfl, rfl⟩, by unfold State.DevicesConform; decide, ?_, ?_, by decide⟩
  · intro r hr c hc n buf off pos len
    simp only [dma1, List.mem_singleton] at hr
    subst hr
    simp only [List.mem_singleton] at hc
    simp [hc]
  · intro r hr c hc line level
    simp only [dma1, List.mem_singleton] at hr
    subst hr
    simp only [List.mem_singleton] at hc
    simp [hc]

/-- The request that DmaChannelRun adds to `dma1`. -/
def held (s : State) : State := s.setDma .primary { s.dma0 with status := s.dma0.status ||| requestBit 1 }

/-- One channel to run; the returned positions 0 and 2^32 - 1, and the two nearest that are out of range. -/
theorem witness_DmaChannelRun_device :
    (held (dma1 0x44 3 (some 7) [])).requestedChannels .primary = [1] ∧
    (dma1 0x44 3 (some 7) [{ calls := [], newPosition := 4 }]).deviceReplies = { calls := [], newPosition := 4 } :: [] ∧
    leaves (.dreq 1) (dma1 0x44 3 (some 7) [{ calls := [], newPosition := 4294967295 }])
      (fun t => t.dma0.ch1.currentWordCount) = some 4294967295 ∧
    leaves (.dreq 1) (dma1 0x54 3 (some 7) [{ calls := [], newPosition := 4 }])
      (fun t => t.dma0.ch1.currentWordCount) = some 0 ∧
    (faultOf (.dreq 1) (dma1 0x44 3 (some 7) [{ calls := [], newPosition := 4294967296 }])).isSome = true ∧
    (faultOf (.dreq 1) (dma1 0x44 3 (some 7) [{ calls := [], newPosition := -1 }])).isSome = true := by decide

/-- A device that asks for its mode and then drives a line: its calls run, and its value is on record. -/
theorem witness_DmaChannelRun_calls : ∃ u : State,
    DeviceCallsRun (held (dma1 0x44 3 (some 7) [])) [.getChannelMode 1, .setIrq 5 1] u ∧
    u.nested = [.byte 0x44] ∧ u.picM.irr = 0x21 :=
  ⟨_, .call _ _ _ _ _ _ rfl rfl rfl (.call _ _ _ _ _ _ rfl rfl rfl (.done _)), rfl, rfl⟩

/-- A complete block, in auto-initialize mode and not; no device. -/
theorem witness_DmaChannelRun_complete :
    (held (dma1 0x54 4 (some 7) [])).requestedChannels .primary = [1] ∧
    leaves (.dreq 1) (dma1 0x54 4 (some 7) []) (fun t => t.dma0.ch1.currentWordCount) = some 0 ∧
    leaves (.dreq 1) (dma1 0x44 4 (some 7) []) (fun t => t.dma0.ch1.currentWordCount) = some 4 ∧
    leaves (.dreq 1) (dma1 0x44 3 none []) (fun t => t.dma0.ch1.currentWordCount) = some 3 := by decide

/-- Two requested channels with devices, and their two replies. -/
def twoRuns : State :=
  { State.reset with
    dma0 := { DmaController.reset with
      status := 0xA0
      ch1 := { DmaChannel.reset with baseWordCount := 3, device := some 7 }
      ch3 := { DmaChannel.reset with baseWordCount := 0, device := some 8 } }
    deviceReplies := [{ calls := [], newPosition := 0 }, { calls := [], newPosition := 4294967295 }] }

theorem witness_DmaPassAscends :
    twoRuns.Reevaluates .primary (.dmaClearMasks .primary) { twoRuns.dma .primary with mask := 0 } ∧
    twoRuns.Reevaluates .primary (.dmaSingleMask .primary 2 false)
      { twoRuns.dma .primary with mask := (twoRuns.dma .primary).mask &&& ~~~maskBit 2 } ∧
    twoRuns.Reevaluates .primary (.dmaWriteMasks .primary 5) { twoRuns.dma .primary with mask := 5 } ∧
    (twoRuns.setDma .primary { twoRuns.dma .primary with mask := 0 }).requestedChannels .primary = [1, 3] ∧
    (∀ r ∈ twoRuns.deviceReplies, r.calls = [] ∧ 0 ≤ r.newPosition ∧ r.newPosition < 2 ^ 32) ∧
    ∀ ch ∈ ([1, 3] : List DmaChan), (twoRuns.chan .primary ch).device ≠ none ∧
      ¬threshold .primary (twoRuns.chan .primary ch) ≤ (twoRuns.chan .primary ch).currentWordCount.toNat :=
  ⟨.inr (.inr (.inr (.inl ⟨rfl, rfl⟩))), .inr (.inr (.inl ⟨2, rfl, rfl⟩)),
    .inr (.inr (.inr (.inr (.inl ⟨5, rfl, rfl⟩)))), by decide⟩

/-- A handler that reads its mode and then writes a long at a port; one that asks for the time. -/
theorem witness_NotAdmittedCallsFault_handler :
    (held (dma1 0x44 3 (some 7) [])).requestedChannels .primary = [1] ∧
    ¬(dma1 0x44 3 (some 7) []).channelComplete .primary 1 ∧
    (∃ u, DeviceCallsRun (held (dma1 0x44 3 (some 7) [])) [.getChannelMode 1] u ∧ u.trace = [.raiseInterrupt]) ∧
    faultOf (.dreq 1) (dma1 0x44 3 (some 7) [{ calls := [.getChannelMode 1, .writeLong 0x20 0], newPosition := 4 }]) =
      some (.reentrantCall (.writeLong 0x20 0) [.raiseInterrupt]) ∧
    faultOf (.dreq 1) (dma1 0x44 3 (some 7) [{ calls := [.getTime], newPosition := 4 }]) =
      some (.reentrantCall .getTime [.raiseInterrupt]) :=
  ⟨by decide, by unfold State.channelComplete; decide,
    ⟨_, .call _ _ _ _ _ _ rfl rfl rfl (.done _), rfl⟩, by decide, by decide⟩

/-- A callback that makes a timer; a CPU that asks for the vector as it is told of a line. -/
theorem witness_NotAdmittedCallsFault : twoTimers.queue = 2 :: [1, 0] ∧
    twoTimers.timers[2]? = some { target := .device 2, expiry := 500, enabled := true } ∧
    faultOf (.tick 500) { twoTimers with expiryReplies := [[.newTimer .pit0]] } =
      some (.reentrantCall (.newTimer .pit0) [.raiseInterrupt, .expiry 2]) ∧
    atMostOneNotice (.irq 3 1) = true ∧
    leaves (.irq 3 1) (master 0 0 0) (fun t => t.trace) = some ((master 0 0 0).trace ++ [.raiseInterrupt]) ∧
    faultOf (.irq 3 1) { master 0 0 0 with cpuReplies := [some .cpuGetInterrupt] } =
      some (.reentrantCall .cpuGetInterrupt [.raiseInterrupt, .raiseInterrupt]) := by decide

/-- Increment and decrement; a start that wraps below 0. -/
theorem witness_CopyAddressFromPages :
    copyAddress { DmaChannel.reset with mode := 0x00, pageLow := 0x05, currentAddress := 0x2000 } 4 4 = 0x052004 ∧
    copyAddress { DmaChannel.reset with mode := 0x20, pageLow := 0x05, currentAddress := 0x2000 } 4 4 = 0x051FF8 ∧
    copyAddress { DmaChannel.reset with mode := 0x20 } 0 1 = 0xFFFFFFFF := by decide

/-- Ranges that are admitted: to the end of the buffer, and the empty one past it; and a copy below 2^32. -/
theorem witness_Copies : bufferRangeOk [1, 2, 3] 1 0 2 = true ∧ bufferRangeOk [] 5 0 0 = true ∧
    Memory.wf s0.memory = true ∧ copyAddress (s0.chan .primary 0) 0 2 + 2 ≤ 2 ^ 32 := by decide

/-- Four ports of one device, and two. -/
theorem witness_PortAccessesComplete : s0.DevicesConform ∧ s0.CpuConforms ∧ portReg 0x40 = some (.pitData .c0) ∧
    (∀ j, j < wideLength true → ∃ q, PortOf .pit (0x40 + j) q) ∧
    ∀ j, j < wideLength false → ∃ q, PortOf .pic (0x20 + j) q := by
  refine ⟨by unfold State.DevicesConform; decide, s0_cpu, by decide, fun j hj => ?_, fun j hj => ?_⟩
  · have : j < 4 := hj
    interval_cases j <;> exact ⟨_, rfl, rfl⟩
  · have : j < 2 := hj
    interval_cases j <;> exact ⟨_, rfl, rfl⟩

/-- A word written at the master's ports; a long read at the PIT's, of which three bytes have been read. -/
theorem witness_WideAccessIsByteAccesses : (∃ t : State, ByteWritesRun .pic 0x20 [0x20] s0 t) ∧
    PortOf .pic (0x20 + 1) (.picData .master) ∧ ([0x20, 0xFB] : List Byte).length = wideLength false ∧
    (∃ t : State, ByteReadsRun .pit 0x40 [0, 0, 0] s0 t) ∧ PortOf .pit (0x40 + 3) .pitControl ∧
    ∃ t : State, ByteReadsRun .pic 0x20 [0x01, 0x00] s0 t :=
  ⟨⟨_, .byte _ _ _ _ _ _ (.picCommand .master) ⟨rfl, rfl⟩ rfl (.done _ _)⟩, ⟨rfl, rfl⟩, rfl,
    ⟨_, .byte _ _ _ _ _ _ (.pitData .c0) ⟨rfl, rfl⟩ rfl rfl (.byte _ _ _ _ _ _ (.pitData .c1) ⟨rfl, rfl⟩ rfl rfl
      (.byte _ _ _ _ _ _ (.pitData .c2) ⟨rfl, rfl⟩ rfl rfl (.done _ _)))⟩, ⟨rfl, rfl⟩,
    ⟨_, .byte _ _ _ _ _ _ (.picCommand .master) ⟨rfl, rfl⟩ rfl rfl (.byte _ _ _ _ _ _ (.picData .master) ⟨rfl, rfl⟩ rfl
      rfl (.done _ _))⟩⟩

/-- A port of no device; and long accesses that leave the PIT's ports at the second, the third and the fourth byte. -/
theorem witness_WideAccessOutsideDeviceFaults : portReg 0x44 = none ∧ (∀ q, ¬PortOf .pit (0x41 + 3) q) ∧
    faultOf (.outwOutl true 0x41 0) s0 = some (.unregisteredPort 0x44 [.raiseInterrupt]) ∧
    faultOf (.outwOutl true 0x42 0) s0 = some (.unregisteredPort 0x44 [.raiseInterrupt]) ∧
    faultOf (.inwInl true 0x43) s0 = some (.unregisteredPort 0x44 [.raiseInterrupt]) ∧
    ∃ t : State, ByteReadsRun .pit 0x41 [0, 0] s0 t :=
  ⟨by decide, fun q h => absurd h.1 (by rw [show portReg (0x41 + 3) = none from rfl]; exact nofun), by decide, by decide, by decide,
    ⟨_, .byte _ _ _ _ _ _ (.pitData .c1) ⟨rfl, rfl⟩ rfl rfl (.byte _ _ _ _ _ _ (.pitData .c2) ⟨rfl, rfl⟩ rfl rfl
      (.done _ _))⟩⟩

theorem witness_OnlyIcw1ClearsInterrupt : leaves (.picIcw1 .slave false) s0 (fun t => t.trace) =
    some ([.raiseInterrupt] ++ [.clearInterrupt]) := by decide

end Sys2Proof.Tests
end

section
/-! The invariant of the block, kept by every step (R11, R26, R35, R40, R60 to R62, R66, R67, R70): what each
operation of the block keeps, then the rows of a port access, the calls of the agents, and the step. -/

namespace Sys2Proof.Machine

/-! ## Safe states -/

/-- A state that has the invariant and whose host reloads only sound dumps: what a step keeps. -/
structure State.Safe (s : State) : Prop where
  inv : s.Inv
  reloads : s.ReloadsSound

/-- The invariant speaks of the dump and of memory alone. -/
theorem State.inv_iff_dump_sound (s : State) : s.Inv ↔ s.dump.Sound ∧ Memory.wf s.memory = true :=
  ⟨fun h => ⟨⟨h.pic, h.pit, h.next, h.time, h.queue, h.dma, rfl⟩, h.memory⟩,
    fun ⟨h, hm⟩ => ⟨h.pic, h.pit, h.next, h.time, h.queue, h.dma, hm⟩⟩

theorem State.Safe.of_inv {s t : State} (h : s.Safe) (hi : t.Inv) (hc : t.calls = s.calls) : t.Safe :=
  ⟨hi, fun d hd => h.reloads d (hc ▸ hd)⟩

/-- Of the block, `t` differs from `s` at most in memory. -/
theorem State.Safe.of_dump {s t : State} (h : s.Safe) (hd : t.dump = s.dump) (hm : Memory.wf t.memory = true)
    (hc : t.calls = s.calls) : t.Safe :=
  h.of_inv (t.inv_iff_dump_sound.mpr ⟨hd ▸ (s.inv_iff_dump_sound.mp h.inv).1, hm⟩) hc

/-- Of the block, `t` differs from `s` at most in what a pass can touch: the PIC, the DMA controllers and memory. -/
theorem State.Safe.of_pass {s t : State} (h : s.Safe) (hf : s.PassFrame t) (hp : t.PassInv) : t.Safe := by
  refine h.of_inv ⟨hp.pic, fun c => ?_, h.inv.next.congr hf.pitNext ?_, ?_, ?_, hp.dma, hp.memory⟩ hf.calls
  · rw [hf.pit c, hf.currentTime]; exact h.inv.pit c
  · exact congrArg PitChannel.countStartTime (hf.pit .c0)
  · simpa only [State.TimeInv, hf.currentTime, hf.timers] using h.inv.time
  · exact (State.queueInv_congr hf.queue hf.timers).mpr h.inv.queue

theorem State.Safe.passInv {s : State} (h : s.Safe) : s.PassInv := ⟨h.inv.pic, h.inv.dma, h.inv.memory⟩

/-! ## Operations outside the block's registers -/

theorem State.Safe.answer {s : State} (r : Result) (h : s.Safe) : (s.answer r).Safe :=
  h.of_dump rfl h.inv.memory rfl

theorem State.Safe.notify {s : State} (e : Event) (h : s.Safe) : (s.notify e).Safe :=
  h.of_dump rfl h.inv.memory rfl

theorem State.Safe.memRead {s : State} (addr len : Nat) (h : s.Safe) : (s.memRead addr len).Safe :=
  h.of_dump rfl h.inv.memory rfl

theorem State.Safe.memWrite {s : State} (addr : Nat) (bytes : List Byte) (h : s.Safe) : (s.memWrite addr bytes).Safe :=
  h.of_dump rfl (Memory.writeBytes_wf addr bytes h.inv.memory) rfl

/-- A fetched action leaves the list of what is to come shorter. -/
theorem State.Safe.fetched {s : State} {a : Action} {rest : List Action} (h : s.Safe) (hs : s.calls = a :: rest) :
    (s.fetched rest).Safe where
  inv := (State.inv_iff_dump_sound _).mpr ((State.inv_iff_dump_sound s).mp h.inv)
  reloads d hd := h.reloads d (hs ▸ List.mem_cons_of_mem a hd)

/-- A sound dump makes the block sound; memory stays (R11). -/
theorem State.Safe.reload {s : State} {d : Dump} (h : s.Safe) (hd : d.Sound) : (s.reload d).Safe :=
  h.of_inv ((State.inv_iff_dump_sound _).mpr ⟨hd, h.inv.memory⟩) rfl

/-! ## Operations of the PIC -/

theorem State.setPic_passFrame (s : State) (e : Elem) (p : PicElement) : s.PassFrame (s.setPic e p) := by
  constructor
  case cpu => exact .same (by simp) (by simp)
  all_goals simp

theorem State.Safe.setPic {s : State} {e : Elem} {p : PicElement} (h : s.Safe) (hp : p.Inv e) : (s.setPic e p).Safe :=
  h.of_pass (s.setPic_passFrame e p)
    ⟨State.setPic_inv h.inv.pic hp, fun k => by simpa using h.inv.dma k, by simpa using h.inv.memory⟩

/-- A change of an element that leaves its vector offset and its ELCR alone. -/
theorem State.Safe.changePic {s : State} {e : Elem} {p : PicElement} (h : s.Safe)
    (hb : p.irqBase = (s.pic e).irqBase) (he : p.elcr = (s.pic e).elcr) : (s.setPic e p).Safe :=
  h.setPic ((h.inv.pic e).congr hb he)

theorem State.Safe.updateIrq {s : State} (h : s.Safe) : s.updateIrq.Safe := h.of_inv h.inv.updateIrq (by simp)

theorem State.Safe.setIrq {s : State} (line : Nat) (l : Bool) (h : s.Safe) : (s.setIrq line l).Safe :=
  h.of_inv (h.inv.setIrq line l) (by simp)

theorem State.Safe.ackMaster {s : State} (n : Line) (h : s.Safe) :
    ({ s with picM := s.picM.ack n } : State).Safe :=
  h.setPic (e := .master) (PicElement.ack_inv n (h.inv.pic .master))

theorem State.Safe.ackSlave {s : State} (n : Line) (h : s.Safe) :
    ({ s with picS := s.picS.ack n } : State).Safe :=
  h.setPic (e := .slave) (PicElement.ack_inv n (h.inv.pic .slave))

/-- Every way through an acknowledge ends in a recomputation (R206). -/
theorem State.Safe.acknowledgeInterrupt {s : State} (h : s.Safe) : s.acknowledgeInterrupt.1.Safe := by
  simp only [State.acknowledgeInterrupt]
  split
  · exact h.updateIrq
  · next m _ =>
    split
    · split
      · next j _ => exact ((h.ackMaster m).ackSlave j).updateIrq
      · exact (h.ackMaster m).updateIrq
    · exact (h.ackMaster m).updateIrq

theorem State.Safe.clearLine {s : State} (e : Elem) (n : Line) (h : s.Safe) :
    (s.setPic e ((s.pic e).clearLine n)).Safe := h.changePic rfl rfl

/-- The poll read clears lines of the element, and of the master for a slave's poll (R225). -/
theorem State.Safe.pollRead {s : State} (e : Elem) (h : s.Safe) : (s.pollRead e).Safe := by
  have hu : (s.setPic e { s.pic e with poll := false }).Safe := h.changePic rfl rfl
  simp only [State.pollRead]
  split
  · exact hu.updateIrq.answer _
  · next n _ =>
    refine State.Safe.answer _ ?_
    cases e with
    | master =>
      have hc := hu.clearLine .master n
      split
      · exact hc.updateIrq
      · exact hc
    | slave => exact ((hu.clearLine .master Config.cascadeLine).clearLine .slave n).updateIrq

theorem State.Safe.picReset {s : State} (h : s.Safe) : s.picReset.Safe :=
  (h.setPic (e := .master) (PicElement.elementReset_inv (h.inv.pic .master))).setPic (e := .slave)
    (PicElement.elementReset_inv (h.inv.pic .slave))

/-- The bits below a field are 0 (R219). -/
theorem fieldAt_three_low (base : BitVec 5) : fieldAt base 3 &&& 0x07 = 0 := by
  revert base; decide

/-- The bits outside a mask are 0 (R226). -/
theorem masked_outside (d m : Byte) : d &&& m &&& ~~~m = 0 := by
  rw [BitVec.and_assoc]; simp

/-! ## Operations of the PIT and of the timers -/

/-- A change of a channel that leaves its count and its start alone. -/
theorem State.Safe.setPit {s : State} {c : PitChan} {p : PitChannel} (h : s.Safe)
    (hv : p.countValue = (s.pit c).countValue) (ht : p.countStartTime = (s.pit c).countStartTime) :
    (s.setPit c p).Safe := h.of_inv (h.inv.setPit hv ht) (by simp)

theorem State.Safe.loadCount {s : State} (c : PitChan) (v : Half) (h : s.Safe) : (s.loadCount c v).Safe :=
  h.of_inv (h.inv.loadCount c v) (by simp)

theorem State.Safe.setGate {s : State} (c : PitChan) (l : Bool) (h : s.Safe) : (s.setGate c l).Safe :=
  h.of_inv (h.inv.setGate c l) (by simp)

/-- A latch keeps what counting depends on (R269). -/
theorem PitChannel.latchCount_counting (c : PitChannel) (now : Nat) :
    (c.latchCount now).countValue = c.countValue ∧ (c.latchCount now).countStartTime = c.countStartTime := by
  unfold PitChannel.latchCount
  split <;> exact ⟨rfl, rfl⟩

theorem PitChannel.latchStatus_counting (c : PitChannel) (now : Nat) :
    (c.latchStatus now).countValue = c.countValue ∧ (c.latchStatus now).countStartTime = c.countStartTime := by
  unfold PitChannel.latchStatus
  split <;> exact ⟨rfl, rfl⟩

/-- A readback is at most a count latch followed by a status latch (R271). -/
theorem PitChannel.readback_counting (c : PitChannel) (count status : Bool) (now : Nat) :
    (c.readback count status now).countValue = c.countValue ∧
      (c.readback count status now).countStartTime = c.countStartTime := by
  obtain ⟨hv, ht⟩ := c.latchCount_counting now
  cases count <;> cases status <;>
    simp [PitChannel.readback, PitChannel.latchStatus_counting, hv, ht]

/-- The readback of one channel, where it is selected (R271). -/
theorem State.Safe.readbackOne {s : State} (c : PitChan) (sel count status : Bool) (h : s.Safe) :
    (s.setPit c (if sel then (s.pit c).readback count status s.currentTime else s.pit c)).Safe := by
  obtain ⟨hv, ht⟩ := (s.pit c).readback_counting count status s.currentTime
  cases sel
  · exact h.setPit rfl rfl
  · exact h.setPit hv ht

theorem State.Safe.pitChannelReset {s : State} (c : PitChan) (h : s.Safe) : (s.pitChannelReset c).Safe :=
  (h.setPit (p := (s.pit c).clear (resetGate c)) rfl rfl).loadCount c 0

theorem State.Safe.pitReset {s : State} (h : s.Safe) : s.pitReset.Safe :=
  ((h.pitChannelReset .c0).pitChannelReset .c1).pitChannelReset .c2

theorem State.Safe.changeTimer {s : State} {t : Nat} {m : TimerChange} (h : s.Safe) (hm : m.wf = true) :
    (s.changeTimer t m).Safe := h.of_inv (h.inv.changeTimer hm) (by simp)

/-! ## Operations of the DMA controllers -/

theorem State.setDma_passFrame (s : State) (k : DmaCtl) (d : DmaController) : s.PassFrame (s.setDma k d) := by
  constructor
  case cpu => exact .same (by simp) (by simp)
  all_goals simp

theorem State.Safe.setDma {s : State} {k : DmaCtl} {d : DmaController} (h : s.Safe) (hd : d.Inv k) :
    (s.setDma k d).Safe :=
  h.of_pass (s.setDma_passFrame k d)
    ⟨fun e => by simpa using h.inv.pic e, State.setDma_inv h.inv.dma hd, by simpa using h.inv.memory⟩

theorem DmaChannel.Inv.congr {k : DmaCtl} {c c' : DmaChannel} (h : c.Inv k)
    (hc : c'.currentAddress = c.currentAddress) : c'.Inv k := by
  simpa only [DmaChannel.Inv, hc] using h

/-- A change of a channel that leaves its current address alone. -/
theorem State.Safe.changeChan {s : State} {k : DmaCtl} {i : DmaChan} {c : DmaChannel} (h : s.Safe)
    (hc : c.currentAddress = (s.chan k i).currentAddress) : (s.setChan k i c).Safe := by
  have hold : (s.chan k i).Inv k := (h.inv.dma k).2.2 i
  exact h.setDma ((h.inv.dma k).setCh (hold.congr hc))

/-- The flip-flop is no part of the invariant. -/
theorem DmaController.Inv.withFlipFlop {k : DmaCtl} {d : DmaController} (b : Bool) (h : d.Inv k) :
    ({ d with flipFlop := b } : DmaController).Inv k := h

/-- The mask is no part of the invariant. -/
theorem DmaController.Inv.withMask {k : DmaCtl} {d : DmaController} (m : BitVec 4) (h : d.Inv k) :
    ({ d with mask := m } : DmaController).Inv k := h

theorem DmaController.Inv.masterClear {k : DmaCtl} {d : DmaController} (h : d.Inv k) : d.masterClear.Inv k := by
  obtain ⟨_, _, hch⟩ := h
  exact ⟨.inl rfl, by simp [DmaController.masterClear], hch⟩

/-- A write to a base register, which restarts the block where it supplies the high byte (R322, R323). -/
theorem DmaController.Inv.writeBase {k : DmaCtl} {d : DmaController} {i : DmaChan} {c : DmaChannel} (h : d.Inv k)
    (hc : c.currentAddress = (d.ch i).currentAddress) :
    (d.setCh i (if d.flipFlop then c.init k else c)).toggle.Inv k := by
  refine (h.setCh ?_).withFlipFlop _
  split
  · exact DmaChannel.Inv.init
  · exact (h.2.2 i).congr hc

/-- The commands that the register accepts (R326). -/
theorem accepted_command {v : Byte} (h : v &&& 0xFB = 0) : v = 0x00 ∨ v = 0x04 := by
  revert v; decide +kernel

theorem State.Safe.dmaReset {s : State} (k : DmaCtl) (h : s.Safe) : (s.dmaReset k).Safe :=
  h.setDma (DmaController.reset_inv _)

theorem State.Safe.blockReset {s : State} (h : s.Safe) : s.blockReset.Safe :=
  ((h.picReset.dmaReset .primary).dmaReset .secondary).pitReset

/-! ## Outcomes -/

/-- The next state is safe, where there is one. -/
def NextSafe (o : Outcome) : Prop := ∀ t, o = .next t → t.Safe

theorem NextSafe.next {t : State} (h : t.Safe) : NextSafe (.next t) := by
  rintro _ ⟨⟩; exact h

theorem NextSafe.violate {s : State} {info : List Event → Fault} : NextSafe (s.violate info) := by
  rintro _ ⟨⟩

theorem NextSafe.cpuReturns {s t : State} (h : t.Safe) : NextSafe (s.cpuReturns t) :=
  fun _ hu => State.cpuReturns_next hu ▸ h

theorem State.Safe.runTransfers {s : State} (k : DmaCtl) (h : s.Safe) : NextSafe (s.runTransfers k) :=
  fun _ ht => h.of_pass (runTasks_frame ht) (State.runTransfers_inv h.passInv ht)

/-! ## The rows of a port access -/

theorem execPicOcw2Eoi_safe {s : State} (e : Elem) (h : s.Safe) : NextSafe (execPicOcw2Eoi e s) := by
  unfold execPicOcw2Eoi
  split
  · exact .next h
  · exact .cpuReturns (.updateIrq (h.changePic rfl rfl))

theorem execPicOcw2RotateEoi_safe {s : State} (e : Elem) (h : s.Safe) : NextSafe (execPicOcw2RotateEoi e s) := by
  unfold execPicOcw2RotateEoi
  split
  · exact .next h
  · exact .cpuReturns (.updateIrq (h.changePic rfl rfl))

theorem execPicIcw1_safe {s : State} (e : Elem) (ic4 : Bool) (h : s.Safe) : NextSafe (execPicIcw1 e ic4 s) := by
  have hreset := (h.setPic (PicElement.elementReset_inv (h.inv.pic e))).notify .clearInterrupt
  exact .cpuReturns (hreset.changePic rfl rfl)

theorem execDmaCommand_safe {s : State} (k : DmaCtl) (v : Byte) (h : s.Safe) : NextSafe (execDmaCommand k v s) := by
  obtain ⟨_, hstatus, hch⟩ := h.inv.dma k
  refine .next ?_
  split
  · next hv => exact h.setDma ⟨accepted_command hv, hstatus, hch⟩
  · exact h

theorem execDmaRequest_safe {s : State} (k : DmaCtl) (i : DmaChan) (set : Bool) (h : s.Safe) :
    NextSafe (execDmaRequest k i set s) := by
  refine State.Safe.runTransfers k (h.setDma (DmaController.Inv.clearTerminal i ?_))
  cases set
  · exact (h.inv.dma k).clearRequest i
  · exact (h.inv.dma k).setRequest i

theorem execDmaSingleMask_safe {s : State} (k : DmaCtl) (i : DmaChan) (set : Bool) (h : s.Safe) :
    NextSafe (execDmaSingleMask k i set s) := by
  cases set
  · exact (h.setDma ((h.inv.dma k).withMask _)).runTransfers k
  · exact .next (h.setDma ((h.inv.dma k).withMask _))

theorem execDmaStatusRead_safe {s : State} (k : DmaCtl) (h : s.Safe) : NextSafe (execDmaStatusRead k s) := by
  obtain ⟨hcommand, _, hch⟩ := h.inv.dma k
  have hlow : (s.dma k).status &&& 0xF0 &&& 0x0F = 0 := masked_outside _ 0xF0
  have hinv : ({ s.dma k with status := (s.dma k).status &&& 0xF0 } : DmaController).Inv k := ⟨hcommand, hlow, hch⟩
  exact .next ((h.setDma hinv).answer _)

/-- Every row that a port access can select ends in a safe state (R106 to R127). -/
theorem runPortRow_safe {s : State} (i : Instr) (h : s.Safe) : NextSafe (runPortRow i s) := by
  cases i with
  | picIcw1 e ic4 => exact execPicIcw1_safe e ic4 h
  | picOcw3 e esmm smm p rr ris => exact .next (h.changePic rfl rfl)
  | picOcw2RotateAeoiClear e => exact .next (h.changePic rfl rfl)
  | picOcw2Eoi e => exact execPicOcw2Eoi_safe e h
  | picOcw2Nop e => exact .next h
  | picOcw2SpecificEoi e l => exact .cpuReturns (.updateIrq (h.changePic rfl rfl))
  | picOcw2RotateAeoiSet e => exact .next (h.changePic rfl rfl)
  | picOcw2RotateEoi e => exact execPicOcw2RotateEoi_safe e h
  | picOcw2SetPriority e l => exact .cpuReturns (.updateIrq (h.changePic rfl rfl))
  | picOcw2RotateSpecificEoi e l => exact .cpuReturns (.updateIrq (h.changePic rfl rfl))
  | picOcw1 e d => exact .cpuReturns (.updateIrq (h.changePic rfl rfl))
  | picIcw2 e base => exact .next (h.setPic ⟨fieldAt_three_low base, (h.inv.pic e).2⟩)
  | picIcw3 e => exact .next (h.changePic rfl rfl)
  | picIcw4 e sfnm aeoi => exact .next (h.changePic rfl rfl)
  | picPollRead e port => exact .cpuReturns (h.pollRead e)
  | picIrrRead e => exact .next (h.answer _)
  | picIsrRead e => exact .next (h.answer _)
  | picImrRead e => exact .next (h.answer _)
  | picElcrWrite e d => exact .next (h.setPic ⟨(h.inv.pic e).1, masked_outside d _⟩)
  | picElcrRead e => exact .next (h.answer _)
  | pitLatch c =>
    obtain ⟨hv, ht⟩ := (s.pit c).latchCount_counting s.currentTime
    exact .next (h.setPit hv ht)
  | pitControlLsb c m bcd => exact .next (h.setPit rfl rfl)
  | pitControlMsb c m bcd => exact .next (h.setPit rfl rfl)
  | pitControlWord c m bcd => exact .next (h.setPit rfl rfl)
  | pitReadback count status sel0 sel1 sel2 =>
    exact .next (((h.readbackOne .c0 sel0 count status).readbackOne .c1 sel1 count status).readbackOne
      .c2 sel2 count status)
  | pitWriteLsb c b => exact .cpuReturns (h.loadCount c _)
  | pitWriteMsb c b => exact .cpuReturns (h.loadCount c _)
  | pitWriteWord0 c b => exact .next (h.setPit rfl rfl)
  | pitWriteWord1 c b => exact .cpuReturns (.setPit (h.loadCount c _) rfl rfl)
  | pitReadStatus c => exact .next (.answer _ (h.setPit rfl rfl))
  | pitReadLatchedLsb c => exact .next (.answer _ (h.setPit rfl rfl))
  | pitReadLatchedMsb c => exact .next (.answer _ (h.setPit rfl rfl))
  | pitReadLatchedWord0 c => exact .next (.answer _ (h.setPit rfl rfl))
  | pitReadLiveLsb c => exact .next (h.answer _)
  | pitReadLiveMsb c => exact .next (h.answer _)
  | pitReadLiveWord0 c => exact .next (.answer _ (h.setPit rfl rfl))
  | pitReadLiveWord1 c => exact .next (.answer _ (h.setPit rfl rfl))
  | pitControlRead => exact .next (h.of_dump rfl h.inv.memory rfl)
  | dmaAddrWrite k i b => exact .next (h.setDma ((h.inv.dma k).writeBase rfl))
  | dmaCountWrite k i b => exact .next (h.setDma ((h.inv.dma k).writeBase rfl))
  | dmaAddrRead k i => exact .next (.answer _ (h.setDma ((h.inv.dma k).withFlipFlop _)))
  | dmaCountRead k i => exact .next (.answer _ (h.setDma ((h.inv.dma k).withFlipFlop _)))
  | dmaCommand k v => exact execDmaCommand_safe k v h
  | dmaRequest k i set => exact execDmaRequest_safe k i set h
  | dmaSingleMask k i set => exact execDmaSingleMask_safe k i set h
  | dmaMode k v => exact .next (h.changeChan rfl)
  | dmaClearFlipFlop k => exact .next (h.setDma ((h.inv.dma k).withFlipFlop _))
  | dmaMasterClear k => exact .next (h.setDma (h.inv.dma k).masterClear)
  | dmaClearMasks k => exact (h.setDma ((h.inv.dma k).withMask _)).runTransfers k
  | dmaWriteMasks k m => exact (h.setDma ((h.inv.dma k).withMask _)).runTransfers k
  | dmaStatusRead k => exact execDmaStatusRead_safe k h
  | dmaMaskRead k => exact .next (h.answer _)
  | dmaOtherRead k r => exact .next (h.answer _)
  | dmaPageLowWrite k i b => exact .next (h.changeChan rfl)
  | dmaPageHighWrite k i b => exact .next (h.changeChan rfl)
  | dmaPageRead k half i => exact .next (h.answer _)
  | _ => exact .violate

/-! ## Wide port accesses -/

theorem State.Safe.portWrite {s : State} (d : PortDevice) (port : Nat) (b : Byte) (h : s.Safe) :
    NextSafe (s.portWrite d port b) := by
  unfold State.portWrite
  split
  · exact runPortRow_safe _ h
  · exact .violate

theorem State.Safe.portRead {s : State} (d : PortDevice) (port : Nat) (h : s.Safe) : NextSafe (s.portRead d port) := by
  unfold State.portRead
  split
  · exact runPortRow_safe _ h
  · exact .violate

theorem writePorts_safe {d : PortDevice} {port : Nat} {bytes : List Byte} {s : State} (h : s.Safe) :
    NextSafe (writePorts d port bytes s) := by
  induction bytes generalizing port s with
  | nil => exact .next h
  | cons b rest ih =>
    intro t ht
    simp only [writePorts] at ht
    split at ht
    · next u hu => exact ih (h.portWrite d port b u hu) t ht
    · cases ht
    · cases ht

theorem readPorts_safe {d : PortDevice} {count port : Nat} {bytes : List Byte} {s : State} (h : s.Safe) :
    NextSafe (readPorts d count port bytes s) := by
  induction count generalizing port bytes s with
  | zero => exact .next (h.answer _)
  | succ count ih =>
    intro t ht
    simp only [readPorts] at ht
    split at ht
    · next u hu => exact ih (h.portRead d port u hu) t ht
    · cases ht
    · cases ht

theorem execOutwOutl_safe {s : State} (long : Bool) (port value : Nat) (h : s.Safe) :
    NextSafe (execOutwOutl long port value s) := by
  unfold execOutwOutl
  split
  · exact writePorts_safe h
  · exact .violate

theorem execInwInl_safe {s : State} (long : Bool) (port : Nat) (h : s.Safe) : NextSafe (execInwInl long port s) := by
  unfold execInwInl
  split
  · exact readPorts_safe h
  · exact .violate

/-! ## The calls of the agents -/

theorem execIrq_safe {s : State} (line level : Nat) (h : s.Safe) : NextSafe (execIrq line level s) := by
  intro t ht
  obtain ⟨_, _, rfl⟩ := State.setIrqCall_next ht
  exact h.setIrq line _

theorem execGate_safe {s : State} (channel level : Nat) (h : s.Safe) : NextSafe (execGate channel level s) := by
  unfold execGate
  split
  · exact .violate
  · split
    · next c _ => exact .cpuReturns (h.setGate c _)
    · exact .violate

theorem execGetOut_safe {s : State} (channel : Nat) (h : s.Safe) : NextSafe (execGetOut channel s) := by
  unfold execGetOut
  split
  · exact .next (h.answer _)
  · exact .violate

theorem execDreq_safe {s : State} (n : Nat) (h : s.Safe) : NextSafe (execDreq n s) := by
  unfold execDreq
  split
  · exact .violate
  · exact (h.setDma ((h.inv.dma _).setRequest _)).runTransfers _

theorem execDrel_safe {s : State} (n : Nat) (h : s.Safe) : NextSafe (execDrel n s) := by
  intro t ht
  obtain ⟨_, rfl⟩ := State.releaseCall_next ht
  exact h.setDma ((h.inv.dma _).clearRequest _)

theorem execReg_safe {s : State} (n device : Nat) (h : s.Safe) : NextSafe (execReg n device s) := by
  unfold execReg
  split
  · exact .violate
  · exact .next (h.changeChan rfl)

theorem execGetChannelMode_safe {s : State} (n : Nat) (h : s.Safe) : NextSafe (execGetChannelMode n s) := by
  intro t ht
  obtain ⟨_, r, rfl⟩ := State.channelModeCall_next ht
  exact h.answer r

theorem execReadMemory_safe {s : State} (n : Nat) (buf : List Byte) (off pos len : Int) (h : s.Safe) :
    NextSafe (execReadMemory n buf off pos len s) := by
  intro t ht
  obtain ⟨_, _, addr, r, rfl⟩ := State.readMemoryCall_next ht
  exact (h.memRead addr _).answer r

theorem execWriteMemory_safe {s : State} (n : Nat) (buf : List Byte) (off pos len : Int) (h : s.Safe) :
    NextSafe (execWriteMemory n buf off pos len s) := by
  intro t ht
  obtain ⟨_, _, addr, bytes, r, rfl⟩ := State.writeMemoryCall_next ht
  exact (h.memWrite addr bytes).answer r

theorem execUpdate_safe {s : State} (timer : Nat) (change : TimerChange) (h : s.Safe) :
    NextSafe (execUpdate timer change s) := by
  intro t ht
  obtain ⟨_, hwf, rfl⟩ := State.updateCall_next ht
  exact h.changeTimer hwf

/-- A record at the end that is not enabled leaves what the queue reads of every timer: its expiry where it is queued,
and whether it is enabled. -/
theorem queueInv_newTimer {s : State} {r : Timer} (hr : r.enabled = false) (h : s.QueueInv) :
    ({ s with timers := s.timers ++ [r] } : State).QueueInv := by
  obtain ⟨hsorted, hnodup, hmem⟩ := h
  have henabled : ∀ u, ({ s with timers := s.timers ++ [r] } : State).timerEnabled u = s.timerEnabled u := by
    intro u
    simp only [State.timerEnabled, List.getElem?_append]
    split
    · rfl
    · next hu => cases hi : u - s.timers.length <;> simp [hr, List.getElem?_eq_none (Nat.not_lt.mp hu)]
  have hexpiry : ∀ u ∈ s.queue, ({ s with timers := s.timers ++ [r] } : State).expiryOf u = s.expiryOf u := by
    intro u hu
    have hlt : u < s.timers.length := by
      by_contra hge
      have := (hmem u).mp hu
      simp [State.timerEnabled, List.getElem?_eq_none (Nat.not_lt.mp hge)] at this
    simp only [State.expiryOf, List.getElem?_append_left hlt]
  refine ⟨hsorted.imp_of_mem fun ha hb hab => ?_, hnodup, fun u => (hmem u).trans (by rw [henabled])⟩
  rwa [hexpiry _ ha, hexpiry _ hb]

/-- A new timer is disabled, with an expiry of 0 (R151). -/
theorem State.Inv.newTimer {s : State} (target : TimerTarget) (h : s.Inv) :
    ({ s with timers := s.timers ++ [{ target := target, expiry := 0, enabled := false }] } : State).Inv where
  pic := h.pic
  pit := h.pit
  next := h.next
  time := by
    refine ⟨h.time.1, fun r hr => ?_⟩
    rcases List.mem_append.mp hr with hr | hr
    · exact h.time.2 r hr
    · rw [List.mem_singleton.mp hr]; exact Nat.two_pow_pos 64
  queue := queueInv_newTimer rfl h.queue
  dma := h.dma
  memory := h.memory

theorem execNewTimer_safe {s : State} (target : TimerTarget) (h : s.Safe) : NextSafe (execNewTimer target s) :=
  .next ((h.of_inv (h.inv.newTimer target) rfl).answer _)

/-- A later time that is still a 64-bit one keeps the invariant (R60, R260). -/
theorem State.Inv.later {s : State} {now : Nat} (h : s.Inv) (hle : s.currentTime ≤ now)
    (hlt : now < Config.timeLimit) :
    ({ s with currentTime := now } : State).Inv where
  pic := h.pic
  pit c := by
    obtain ⟨hlow, hhigh, hstart⟩ := h.pit c
    cases c <;> exact ⟨hlow, hhigh, hstart.trans hle⟩
  next := h.next
  time := ⟨hlt, h.time.2⟩
  queue := h.queue
  dma := h.dma
  memory := h.memory

theorem execTick_safe {s : State} (delta : Int) (h : s.Safe) : NextSafe (execTick delta s) := by
  unfold execTick
  split
  · exact .violate
  · intro t ht
    have hlater := h.inv.later (now := s.currentTime + delta.toNat) (by omega) (by omega)
    exact h.of_inv (hlater.drain ht) (drain_frame ht).calls

/-- Every instruction ends in a safe state. -/
theorem exec_safe {s : State} (i : Instr) (h : s.Safe) : NextSafe (exec i s) := by
  have hrow : NextSafe (runPortRow i s) := runPortRow_safe i h
  cases i with
  | outwOutl long port value => exact execOutwOutl_safe long port value h
  | inwInl long port => exact execInwInl_safe long port h
  | irq line level => exact execIrq_safe line level h
  | inta => exact .cpuReturns (h.acknowledgeInterrupt.answer _)
  | gate channel level => exact execGate_safe channel level h
  | getOut channel => exact execGetOut_safe channel h
  | dreq n => exact execDreq_safe n h
  | drel n => exact execDrel_safe n h
  | reg n device => exact execReg_safe n device h
  | getChannelMode n => exact execGetChannelMode_safe n h
  | readMemory n buf off pos len => exact execReadMemory_safe n buf off pos len h
  | writeMemory n buf off pos len => exact execWriteMemory_safe n buf off pos len h
  | newTimer target => exact execNewTimer_safe target h
  | update timer change => exact execUpdate_safe timer change h
  | getTime => exact .next (h.answer _)
  | tick delta => exact execTick_safe delta h
  | reset => exact .cpuReturns h.blockReset
  | portsRequested d => exact .next (h.answer _)
  | _ => exact hrow

/-! ## The step -/

theorem rejected_safe (c : Call) (s : State) (r : Reject) : NextSafe (rejected c s r) := by
  cases r <;> exact .violate

/-- A step runs an instruction, dumps, or reloads a dump that the hypothesis says is sound (R11, R92). -/
theorem step_safe {s : State} (h : s.Safe) : NextSafe (step s) := by
  unfold step
  split
  · exact .next h
  · next rest hs => exact .next ((h.fetched hs).answer _)
  · next d rest hs =>
    have hd : d.Sound := h.reloads d (hs ▸ List.mem_cons_self)
    exact .next ((h.fetched hs).reload hd)
  · next c rest hs =>
    split
    · exact exec_safe _ (h.fetched hs)
    · exact rejected_safe c _ _

/-- Settles O12: every operation keeps the invariant and leaves the reloads to come as they are, or shortens them. -/
theorem stepKeepsInvariant : Obligations.StepKeepsInvariant := by
  intro s t hinv hreloads ht
  obtain ⟨hinv', hreloads'⟩ := step_safe ⟨hinv, hreloads⟩ t ht
  exact ⟨hinv', hreloads'⟩

end Sys2Proof.Machine
end

section
/-! The state after reset has the invariant (R26, R35, R40, R60 to R62, R66, R67, R70), part by part. -/

namespace Sys2Proof.Machine

/-- An element after reset has offset 0 and the ELCR of power-on, 0 (R26, R35). -/
theorem PicElement.reset_inv (role : Elem) : PicElement.reset.Inv role :=
  ⟨BitVec.zero_and, BitVec.zero_and⟩

/-- A channel after reset has count 0x10000, the greatest one, and starts at time 0 (R40, R260, R434). -/
theorem PitChannel.reset_inv (gate : Bool) (now : Nat) : (PitChannel.reset gate).Inv now :=
  ⟨by simp [PitChannel.reset], le_rfl, Nat.zero_le now⟩

/-- After reset channel 0's timer is the one timer, enabled, and the one entry of the queue (R62, R436). -/
theorem State.reset_queueInv : State.reset.QueueInv := by
  refine ⟨List.pairwise_singleton _ 0, List.nodup_singleton 0, fun t => ?_⟩
  cases t with
  | zero => decide
  | succ n => simp [State.reset, State.timerEnabled]

/-- The state after reset has the invariant: the first transition of channel 0 and its timer's expiry, 27462700, lie
after time 0 and within 64 bits (R52, R60, R61, R436). -/
theorem State.reset_inv : State.reset.Inv where
  pic e := by
    cases e with
    | master => exact (PicElement.reset_inv .master).congr rfl rfl
    | slave => exact PicElement.reset_inv .slave
  pit c := by cases c <;> exact PitChannel.reset_inv _ 0
  next := by rintro _ ⟨⟩; decide
  time := ⟨by decide, by decide⟩
  queue := State.reset_queueInv
  dma k := by cases k <;> exact DmaController.reset_inv .reset
  memory := rfl

/-- Settles O11: the state after reset has the invariant, part by part, and its list of calls is empty. -/
theorem resetHasInvariant : Obligations.ResetHasInvariant :=
  ⟨State.reset_inv, fun _ hd => absurd hd List.not_mem_nil⟩

end Sys2Proof.Machine
end

section
/-! The port map read from a port to its register (R81, R100 to R105), and the step of a decoded call (R92). -/

namespace Sys2Proof

/-! ## From a port to its register -/

/-- `p` is the port of the register `r`, one of the port map. -/
def PortReg.At (r : PortReg) (p : Nat) : Prop := r.mapped = true ∧ portOf r = p

theorem picReg?_at {e : Elem} {p : Nat} {r : PortReg} (h : picReg? e p = some r) : r.At p := by
  unfold picReg? at h
  split_ifs at h with hc hd he <;> cases h
  · exact ⟨rfl, hc.symm⟩
  · exact ⟨rfl, hd.symm⟩
  · exact ⟨rfl, he.symm⟩

theorem pitReg?_at {p : Nat} {r : PortReg} (h : pitReg? p = some r) : r.At p := by
  unfold pitReg? at h
  split_ifs at h with h0 h1 h2 h3 <;> cases h
  · exact ⟨rfl, h0.symm⟩
  · exact ⟨rfl, h1.symm⟩
  · exact ⟨rfl, h2.symm⟩
  · exact ⟨rfl, h3.symm⟩

/-- The sixteen registers of a DMA controller lie at their numbers, shifted (R102, R320). -/
theorem dmaReg_at (k : DmaCtl) (n : Fin 16) : (dmaReg k n).At (Config.portDmaBase k + n.val <<< Config.dShift k) := by
  unfold PortReg.At
  revert n; cases k <;> decide

theorem dmaReg?_at {k : DmaCtl} {p : Nat} {r : PortReg} (h : dmaReg? k p = some r) : r.At p := by
  simp only [dmaReg?, Option.ite_none_right_eq_some, Option.some.injEq] at h
  obtain ⟨⟨hbase, hlt, hmod⟩, rfl⟩ := h
  have hn : (p - Config.portDmaBase k) >>> Config.dShift k < 16 := by
    rw [Nat.shiftRight_eq_div_pow]; exact Nat.div_lt_of_lt_mul (by omega)
  have hp : Config.portDmaBase k + ((p - Config.portDmaBase k) >>> Config.dShift k) <<< Config.dShift k = p := by
    rw [Nat.shiftRight_eq_div_pow, Nat.shiftLeft_eq, Nat.div_mul_cancel (Nat.dvd_of_mod_eq_zero hmod)]; omega
  have hat := dmaReg_at k ⟨_, hn⟩
  rw [Nat.mod_eq_of_lt hn]
  rwa [hp] at hat

/-- A page register lies at the offset at which `PAGE_TABLE` holds its channel (R104). -/
theorem page_at (k : DmaCtl) (half : PageHalf) (o : Fin 8) (i : DmaChan)
    (h : (Config.pageTable[o.val]?).join = some i) : (PortReg.page k half i).At (Config.portPageBase k half + o) := by
  have hoffset : pageOffset i = o := by revert h; revert o i; decide
  exact ⟨rfl, congrArg (Config.portPageBase k half + ·) hoffset⟩

theorem pageReg?_at {k : DmaCtl} {half : PageHalf} {p : Nat} {r : PortReg} (h : pageReg? k half p = some r) :
    r.At p := by
  simp only [pageReg?, Option.ite_none_right_eq_some, Option.map_eq_some_iff] at h
  obtain ⟨⟨hbase, hlt⟩, i, hi, rfl⟩ := h
  have hat := page_at k half ⟨_, hlt⟩ i hi
  rwa [show Config.portPageBase k half + (p - Config.portPageBase k half) = p by omega] at hat

/-- The register at a port is one of the port map, and the port is its own. -/
theorem portReg_at {p : Nat} {r : PortReg} (h : portReg p = some r) : r.At p := by
  simp only [portReg, Option.or_eq_some_iff] at h
  rcases h with h | ⟨-, h | ⟨-, h | ⟨-, h | ⟨-, h | ⟨-, h | ⟨-, h | ⟨-, h | ⟨-, h⟩⟩⟩⟩⟩⟩⟩⟩
  · exact picReg?_at h
  · exact picReg?_at h
  · exact pitReg?_at h
  · exact dmaReg?_at h
  · exact dmaReg?_at h
  · exact pageReg?_at h
  · exact pageReg?_at h
  · exact pageReg?_at h
  · exact pageReg?_at h

/-! ## The requested ports -/

/-- The port of every register is one that its device requests (R81). -/
theorem portOf_requested {r : PortReg} (h : r.mapped = true) : portOf r ∈ Config.portsRequested r.device := by
  cases r with
  | picCommand e => cases e <;> decide
  | picData e => cases e <;> decide
  | elcr e => cases e <;> decide
  | pitData c => cases c <;> decide
  | pitControl => decide
  | dmaAddress k i => revert i; cases k <;> decide
  | dmaCount k i => revert i; cases k <;> decide
  | dmaControl k r => revert r; cases k <;> decide
  | page k half i => revert i; cases k <;> cases half <;> decide

/-- At every requested port stands a register of the device that requests it (R81). -/
theorem requested_portReg {d : PortDevice} {p : Nat} (h : p ∈ Config.portsRequested d) :
    (portReg p).map PortReg.device = some d := by
  revert p
  cases d with
  | pic => decide
  | pit => decide
  | dma k => cases k <;> decide

theorem mem_portsRequested {d : PortDevice} {p : Nat} :
    p ∈ Config.portsRequested d ↔ ∃ r, portReg p = some r ∧ r.device = d := by
  refine ⟨fun h => Option.map_eq_some_iff.mp (requested_portReg h), ?_⟩
  rintro ⟨r, hr, rfl⟩
  obtain ⟨hmapped, rfl⟩ := portReg_at hr
  exact portOf_requested hmapped

end Sys2Proof

namespace Sys2Proof.Machine

/-- Settles O4: a register stands exactly at the ports its device requests, so a port that none requests has none, and
the decoder says so. -/
theorem registeredPorts : Obligations.RegisteredPorts := by
  intro port d
  refine ⟨mem_portsRequested, fun hport hnone cur => ?_⟩
  have hreg : portReg port = none := by
    cases hr : portReg port with
    | none => rfl
    | some r => exact absurd (mem_portsRequested.mpr ⟨r, hr, rfl⟩) (hnone r.device)
  have hlimit : ¬Config.portLimit ≤ port := Nat.not_le.mpr hport
  refine ⟨fun v hv => ?_, ?_⟩
  · have hvalue : ¬2 ^ 8 ≤ v := Nat.not_le.mpr hv
    simp only [decode, decodeByteWrite, hlimit, hvalue, or_self, if_false, hreg]
  · simp only [decode, decodeByteRead, hlimit, if_false, hreg]

/-- Settles O5: a step with a call that decodes is the run of its instruction. -/
theorem stepRunsDecodedInstruction : Obligations.StepRunsDecodedInstruction := by
  intro s c rest i hcalls hdecode
  simp only [step, hcalls, hdecode, State.fetched]

end Sys2Proof.Machine
end

section
/-! Copies between memory and a device's buffer (R88 to R91): where a copy starts, what it leaves in memory and in
the buffer, and what it does not touch. -/

namespace Sys2Proof.Machine

/-! ## The channels of the two controllers (R14) -/

theorem globalChannel_le (k : DmaCtl) (i : DmaChan) : globalChannel k i ≤ 7 := by
  cases k <;> simp only [globalChannel, Config.dShift] <;> omega

@[simp] theorem controllerOf_globalChannel (k : DmaCtl) (i : DmaChan) : controllerOf (globalChannel k i) = k := by
  cases k <;> revert i <;> decide

@[simp] theorem channelOf_globalChannel (k : DmaCtl) (i : DmaChan) : channelOf (globalChannel k i) = i := by
  cases k <;> revert i <;> decide

/-! ## The address of a copy -/

/-- The page registers and the current address, or-ed at their places (R88). -/
theorem physicalBase_toNat (ch : DmaChannel) : (physicalBase ch).toNat =
    (ch.pageHigh.toNat * 2 ^ 24) ||| (ch.pageLow.toNat * 2 ^ 16) ||| ch.currentAddress.toNat := by
  have hhigh := ch.pageHigh.isLt
  have hlow := ch.pageLow.isLt
  simp only [physicalBase, BitVec.toNat_or, BitVec.toNat_shiftLeft, BitVec.toNat_setWidth, Nat.shiftLeft_eq]
  rw [Nat.mod_eq_of_lt (by omega : ch.pageHigh.toNat < 2 ^ 32), Nat.mod_eq_of_lt (by omega : ch.pageLow.toNat < 2 ^ 32),
    Nat.mod_eq_of_lt (by omega), Nat.mod_eq_of_lt (by omega)]

/-- An address mod 2^32 is no negative number. -/
theorem toNat_emod_addressLimit (x : Int) : ((x % Config.addressLimit).toNat : Int) = x % 2 ^ 32 :=
  Int.toNat_of_nonneg (Int.emod_nonneg x (by decide))

/-- Settles O54: both directions are a sum mod 2^32 over the same base. -/
theorem copyAddressFromPages : Obligations.CopyAddressFromPages := by
  intro ch pos len base
  have hbase : ((physicalBase ch).toNat : Int) = base := congrArg Nat.cast (physicalBase_toNat ch)
  refine ⟨fun hup => ?_, fun hdown => ?_⟩
  · simp only [copyAddress, DmaChannel.decrement, hup, Bool.false_eq_true, if_false, hbase, toNat_emod_addressLimit]
  · simp only [copyAddress, DmaChannel.decrement, hdown, if_true, hbase, toNat_emod_addressLimit]

/-! ## The buffer -/

/-- A range that is not empty ends inside the buffer (R89, R90). -/
theorem bufferRangeOk_iff {buf : List Byte} {off pos len : Int} : bufferRangeOk buf off pos len = true ↔
    0 ≤ off ∧ 0 ≤ pos ∧ 0 ≤ len ∧ (len = 0 ∨ off + len ≤ buf.length) := by
  simp [bufferRangeOk, and_assoc]

theorem bufferSlice_length {buf : List Byte} {off pos len : Int} (h : bufferRangeOk buf off pos len = true) :
    (bufferSlice buf off len).length = len.toNat := by
  obtain ⟨hoff, _, hlen, hend⟩ := bufferRangeOk_iff.mp h
  rw [bufferSlice, List.length_take, List.length_drop]
  omega

@[simp] theorem copyOrder_length (ch : DmaChannel) (bytes : List Byte) :
    (copyOrder ch bytes).length = bytes.length := by
  unfold copyOrder; split <;> simp

/-- The bytes of a range put in at its place, and the others as before. -/
theorem bufferWith_getElem? {buf : List Byte} {off pos len : Int} {bytes : List Byte}
    (h : bufferRangeOk buf off pos len = true) (hbytes : bytes.length = len.toNat) (j : Nat) :
    (bufferWith buf off bytes)[j]? =
      if off.toNat ≤ j ∧ j < off.toNat + len.toNat then bytes[j - off.toNat]? else buf[j]? := by
  obtain ⟨hoff, _, hlen, hend⟩ := bufferRangeOk_iff.mp h
  rcases hend with rfl | hend
  · obtain rfl : bytes = [] := List.length_eq_zero_iff.mp hbytes
    simp [bufferWith]
  · have htake : (buf.take off.toNat).length = off.toNat := by rw [List.length_take]; omega
    rw [bufferWith, List.append_assoc]
    by_cases hbefore : j < off.toNat
    · rw [List.getElem?_append_left (by omega), List.getElem?_take_of_lt hbefore, if_neg (by omega)]
    rw [List.getElem?_append_right (by omega), htake]
    by_cases hin : j < off.toNat + len.toNat
    · rw [List.getElem?_append_left (by omega), if_pos (by omega)]
    · rw [List.getElem?_append_right (by omega), List.getElem?_drop, if_neg (by omega)]
      congr 1
      omega

/-! ## Memory -/

/-- Nothing is listed past the last address. -/
theorem Memory.read_beyond {m : List Host.Cell} (h : Memory.wf m = true) {a : Nat} (ha : Config.addressLimit ≤ a) :
    Memory.read m a = Memory.unlisted := by
  induction m with
  | nil => rfl
  | cons cell rest ih =>
    obtain ⟨x, y⟩ := cell
    obtain ⟨hx, _, _, hrest⟩ := Memory.wf_cons.mp h
    rw [Memory.read, if_neg (by omega), ih hrest]

/-- Every address outside a copy's range reads as before, past the last one too. -/
theorem Memory.read_writeBytes_frame {m : List Host.Cell} (addr : Nat) (bytes : List Byte) (h : Memory.wf m = true)
    {a : Nat} (hout : a < addr ∨ addr + bytes.length ≤ a) :
    Memory.read (Memory.writeBytes m addr bytes) a = Memory.read m a := by
  by_cases ha : a < Config.addressLimit
  · exact Memory.read_writeBytes_outside addr bytes h a hout ha
  · have hbeyond := Nat.not_lt.mp ha
    rw [Memory.read_beyond (Memory.writeBytes_wf addr bytes h) hbeyond, Memory.read_beyond h hbeyond]

/-- A copied byte is read back. -/
theorem Memory.read_writeBytes_inside {m : List Host.Cell} (addr : Nat) (bytes : List Byte) (h : Memory.wf m = true)
    {j : Nat} {b : Byte} (hb : bytes[j]? = some b) (ha : addr + j < Config.addressLimit) :
    Memory.read (Memory.writeBytes m addr bytes) (addr + j) = b := by
  obtain ⟨hj, _⟩ := List.getElem?_eq_some_iff.mp hb
  rw [Memory.read_writeBytes addr bytes h _ ha, if_pos (by omega), Nat.add_sub_cancel_left,
    List.getD_eq_getElem?_getD, hb, Option.getD_some]

/-- Below the end of memory a copy reads what memory holds. -/
theorem State.bytesAt_eq {s : State} {addr len : Nat} (h : addr + len ≤ Config.addressLimit) :
    s.bytesAt addr len = (List.range len).map fun j => Memory.read s.memory (addr + j) := by
  refine List.map_congr_left fun j hj => ?_
  have hj := List.mem_range.mp hj
  exact if_pos (by omega)

@[simp] theorem State.bytesAt_length (s : State) (addr len : Nat) : (s.bytesAt addr len).length = len := by
  simp [State.bytesAt]

/-! ## The two copies -/

/-- `write_memory` of a channel 0..7 with a range in the buffer (R90). -/
theorem exec_writeMemory (s : State) (k : DmaCtl) (i : DmaChan) {buf : List Byte} {off pos len : Int}
    (h : bufferRangeOk buf off pos len = true) :
    exec (.writeMemory (globalChannel k i) buf off pos len) s =
      .next ((s.memWrite (copyAddress (s.chan k i) pos len) (copyOrder (s.chan k i) (bufferSlice buf off len))).answer
        (.transfer len (bufferWith buf off (copyOrder (s.chan k i) (bufferSlice buf off len))))) := by
  have hn := Nat.not_lt.mpr (globalChannel_le k i)
  simp [exec, execWriteMemory, State.writeMemoryCall, hn, h]

/-- `read_memory` of a channel 0..7 with a range in the buffer (R89). -/
theorem exec_readMemory (s : State) (k : DmaCtl) (i : DmaChan) {buf : List Byte} {off pos len : Int}
    (h : bufferRangeOk buf off pos len = true) :
    exec (.readMemory (globalChannel k i) buf off pos len) s =
      .next ((s.memRead (copyAddress (s.chan k i) pos len) len.toNat).answer (.transfer len (bufferWith buf off
        (copyOrder (s.chan k i) (s.bytesAt (copyAddress (s.chan k i) pos len) len.toNat))))) := by
  have hn := Nat.not_lt.mpr (globalChannel_le k i)
  simp [exec, execReadMemory, State.readMemoryCall, hn, h]

/-- A copy into memory leaves the rest of the world: its event is no notification of the CPU. -/
theorem State.memWrite_sameWorld (s : State) (addr : Nat) (bytes : List Byte) (r : Result) :
    s.SameWorld ((s.memWrite addr bytes).answer r) :=
  ⟨rfl, rfl, rfl, rfl, rfl, [.memWrite addr bytes], rfl, rfl⟩

/-- So does a copy out of memory that draws no free value. -/
theorem State.memRead_sameWorld (s : State) {addr len : Nat} (r : Result) (h : addr + len ≤ Config.addressLimit) :
    s.SameWorld ((s.memRead addr len).answer r) :=
  ⟨rfl, rfl, rfl, rfl, if_neg (Nat.not_lt.mpr h), [.memRead addr (s.bytesAt addr len)], rfl, rfl⟩

/-- Settles O55: the copied bytes are read back from their range, and every other address, those past the last one too,
reads as before. -/
theorem writeMemoryStoresBuffer : Obligations.WriteMemoryStoresBuffer := by
  intro s k i buf off pos len hrange hwf addr range bytes
  have hbytes : copyOrder (s.chan k i) (bufferSlice buf off len) = bytes := rfl
  have hlength : bytes.length = len.toNat := by rw [← hbytes, copyOrder_length, bufferSlice_length hrange]
  refine ⟨_, bufferWith buf off bytes, exec_writeMemory s k i hrange, rfl, rfl, fun j b hb ha => ?_, fun a ha => ?_,
    bufferWith_getElem? hrange hlength, fun e => ?_, ⟨fun c => ?_, rfl⟩, ⟨rfl, rfl, rfl⟩, fun k' => ?_,
    s.memWrite_sameWorld _ _ _⟩
  · exact Memory.read_writeBytes_inside addr bytes hwf hb ha
  · exact Memory.read_writeBytes_frame addr bytes hwf (hlength ▸ ha)
  · simp
  · simp
  · simp

/-- Settles O56: below 2^32 the bytes of the copy are memory's own, and no free value is drawn. -/
theorem readMemoryFillsBuffer : Obligations.ReadMemoryFillsBuffer := by
  intro s k i buf off pos len hrange addr hend range bytes
  have hread : s.bytesAt addr len.toNat = range := State.bytesAt_eq hend
  have hbytes : copyOrder (s.chan k i) range = bytes := rfl
  have hlength : bytes.length = len.toNat := by rw [← hbytes, copyOrder_length, ← hread, State.bytesAt_length]
  have hexec := exec_readMemory s k i hrange
  refine ⟨_, bufferWith buf off bytes, hexec, ?_, ?_, bufferWith_getElem? hrange hlength, fun e => ?_,
    ⟨fun c => ?_, rfl⟩, ⟨rfl, rfl, rfl⟩, fun k' => ?_, fun a => rfl, s.memRead_sameWorld _ hend⟩
  · rw [State.answer_result, hread, hbytes]
  · rw [State.answer_trace, State.memRead_trace, hread]
  · simp
  · simp
  · simp

end Sys2Proof.Machine
end

section
/-! Wide port accesses as runs of byte accesses (R81, R83, R84), and the completion of every access when the transfer
devices and the CPU keep their contract (R95, R347, R401). -/

namespace Sys2Proof.Machine

/-! ## A byte of a wide access is a byte access -/

/-- What a byte write decodes to is the row of a port (R130). -/
theorem runPortRow_decodeWrite (cur : Cursors) (r : PortReg) (b : Byte) (s : State) :
    runPortRow (decodeWrite cur r b) s = exec (decodeWrite cur r b) s := by
  cases r with
  | picCommand e =>
    simp only [decodeWrite, decodePicCommand]
    split
    · rfl
    · split
      · rfl
      · split <;> rfl
  | picData e => simp only [decodeWrite, decodePicData]; split <;> rfl
  | pitData c => simp only [decodeWrite, decodePitData]; split <;> rfl
  | pitControl =>
    simp only [decodeWrite, decodePitControl]
    split
    · rfl
    · split <;> rfl
  | dmaControl k n => simp only [decodeWrite, decodeDmaControl]; split <;> rfl
  | page k half i => cases half <;> rfl
  | elcr e => rfl
  | dmaAddress k i => rfl
  | dmaCount k i => rfl

/-- So is what a byte read decodes to. -/
theorem runPortRow_decodeRead (cur : Cursors) (r : PortReg) (s : State) :
    runPortRow (decodeRead cur r) s = exec (decodeRead cur r) s := by
  have hpic : ∀ p e port, runPortRow (decodePicRead p e port) s = exec (decodePicRead p e port) s := by
    intro p e port
    unfold decodePicRead
    split
    · rfl
    · cases port with
      | command => dsimp only; split <;> rfl
      | data => rfl
  cases r with
  | picCommand e => exact hpic _ e .command
  | picData e => exact hpic _ e .data
  | pitData c =>
    simp only [decodeRead, decodePitRead]
    split
    · rfl
    · split
      · rfl
      · rfl
      · rfl
      · split <;> rfl
  | dmaControl k n => simp only [decodeRead, decodeDmaControlRead]; split <;> rfl
  | elcr e => rfl
  | pitControl => rfl
  | dmaAddress k i => rfl
  | dmaCount k i => rfl
  | page k half i => rfl

theorem ownedBy_of_portOf {d : PortDevice} {port : Nat} {r : PortReg} (h : PortOf d port r) :
    ownedBy d port = some r := by
  obtain ⟨hr, hd⟩ := h
  simp [ownedBy, hr, hd]

/-- A port that is not the device's (CV4). -/
theorem ownedBy_of_outside {d : PortDevice} {port : Nat} (h : ∀ q, ¬PortOf d port q) : ownedBy d port = none := by
  unfold ownedBy
  split
  · next r hr => exact if_neg fun hd => h r ⟨hr, hd⟩
  · rfl

theorem State.portWrite_of_portOf {d : PortDevice} {port : Nat} {r : PortReg} (h : PortOf d port r) (s : State)
    (b : Byte) : s.portWrite d port b = exec (decodeWrite s.cursors r b) s := by
  simp only [State.portWrite, ownedBy_of_portOf h, runPortRow_decodeWrite]

theorem State.portRead_of_portOf {d : PortDevice} {port : Nat} {r : PortReg} (h : PortOf d port r) (s : State) :
    s.portRead d port = exec (decodeRead s.cursors r) s := by
  simp only [State.portRead, ownedBy_of_portOf h, runPortRow_decodeRead]

theorem State.portWrite_of_outside {d : PortDevice} {port : Nat} (h : ∀ q, ¬PortOf d port q) (s : State) (b : Byte) :
    s.portWrite d port b = .fault (.unregisteredPort port s.trace) := by
  simp only [State.portWrite, ownedBy_of_outside h, State.violate]

theorem State.portRead_of_outside {d : PortDevice} {port : Nat} (h : ∀ q, ¬PortOf d port q) (s : State) :
    s.portRead d port = .fault (.unregisteredPort port s.trace) := by
  simp only [State.portRead, ownedBy_of_outside h, State.violate]

/-! ## Runs of bytes -/

/-- Byte writes that run are the front of a wide write. -/
theorem writePorts_run {d : PortDevice} {port : Nat} {front : List Byte} {s t : State}
    (h : ByteWritesRun d port front s t) (back : List Byte) :
    writePorts d port (front ++ back) s = writePorts d (port + front.length) back t := by
  induction h with
  | done port s => rfl
  | byte port b rest s u t r hr hexec _ ih =>
    rw [List.cons_append, writePorts, State.portWrite_of_portOf hr, hexec, List.length_cons, Nat.add_comm rest.length 1,
      ← Nat.add_assoc]
    exact ih

/-- Byte reads that run are the front of a wide read. -/
theorem readPorts_run {d : PortDevice} {port : Nat} {front : List Byte} {s t : State}
    (h : ByteReadsRun d port front s t) (count : Nat) (before : List Byte) :
    readPorts d (front.length + count) port before s =
      readPorts d count (port + front.length) (before ++ front) t := by
  induction h generalizing before with
  | done port s => simp
  | byte port b rest s u t r hr hexec hb _ ih =>
    rw [List.length_cons, Nat.add_right_comm, readPorts, State.portRead_of_portOf hr, hexec, Nat.add_comm rest.length 1,
      ← Nat.add_assoc]
    simpa [hb, Result.asByte] using ih (before ++ [b])

/-- The first port of a run is one of the device's. -/
theorem ByteWritesRun.first {d : PortDevice} {port : Nat} {front : List Byte} {s t : State}
    (h : ByteWritesRun d port front s t) (hne : front ≠ []) : ∃ q, PortOf d port q := by
  cases h with
  | done => exact absurd rfl hne
  | byte _ _ _ _ _ _ q hq => exact ⟨q, hq⟩

theorem ByteReadsRun.first {d : PortDevice} {port : Nat} {front : List Byte} {s t : State}
    (h : ByteReadsRun d port front s t) (hne : front ≠ []) : ∃ q, PortOf d port q := by
  cases h with
  | done => exact absurd rfl hne
  | byte _ _ _ _ _ _ q hq => exact ⟨q, hq⟩

/-! ## The bytes of a number -/

/-- The bytes of a number are its digits in base 256 (R83). -/
theorem bytes_littleEndian (bytes : List Byte) :
    (List.range bytes.length).map (fun j => BitVec.ofNat 8 (littleEndian bytes >>> (8 * j))) = bytes := by
  induction bytes with
  | nil => rfl
  | cons b rest ih =>
    have hb := b.isLt
    have hhead : BitVec.ofNat 8 (littleEndian (b :: rest)) = b :=
      BitVec.eq_of_toNat_eq (by simp only [littleEndian, BitVec.toNat_ofNat]; omega)
    have htail : ∀ j, littleEndian (b :: rest) >>> (8 * (j + 1)) = littleEndian rest >>> (8 * j) := by
      intro j
      rw [show 8 * (j + 1) = 8 + 8 * j by omega, Nat.shiftRight_add]
      congr 1
      rw [littleEndian, Nat.shiftRight_eq_div_pow]
      omega
    rw [List.length_cons, List.range_succ_eq_map, List.map_cons, List.map_map]
    simp only [Function.comp_def, Nat.succ_eq_add_one, htail, ih, Nat.mul_zero, Nat.shiftRight_zero, hhead]

theorem wideBytes_littleEndian {long : Bool} {bytes : List Byte} (h : bytes.length = wideLength long) :
    wideBytes long (littleEndian bytes) = bytes := by
  have hlength : (if long then 4 else 2) = bytes.length := h.symm
  rw [wideBytes, hlength, bytes_littleEndian]

theorem wideBytes_length (long : Bool) (value : Nat) : (wideBytes long value).length = wideLength long := by
  simp [wideBytes, wideLength]

/-- A byte put below a word. -/
theorem append_byte_toNat {n : Nat} (high : BitVec n) (b : Byte) :
    (high ++ b).toNat = b.toNat + 256 * high.toNat := by
  rw [BitVec.toNat_append, ← Nat.shiftLeft_add_eq_or_of_lt b.isLt, Nat.shiftLeft_eq]
  omega

/-- A wide read returns its bytes as one number (R83). -/
theorem wideResult_littleEndian {long : Bool} {bytes : List Byte} (h : bytes.length = wideLength long) :
    wideResult bytes = if long then .long (BitVec.ofNat 32 (littleEndian bytes))
      else .word (BitVec.ofNat 16 (littleEndian bytes)) := by
  cases long with
  | false =>
    obtain ⟨b0, b1, rfl⟩ := List.length_eq_two.mp h
    have hword : joinBytes b0 b1 = BitVec.ofNat 16 (littleEndian [b0, b1]) := by
      refine BitVec.eq_of_toNat_eq ?_
      rw [joinBytes, append_byte_toNat, BitVec.toNat_ofNat]
      simp only [littleEndian]
      omega
    simp [wideResult, hword]
  | true =>
    match bytes, h with
    | [b0, b1, b2, b3], _ =>
      have hlong : b3 ++ b2 ++ b1 ++ b0 = BitVec.ofNat 32 (littleEndian [b0, b1, b2, b3]) := by
        refine BitVec.eq_of_toNat_eq ?_
        rw [append_byte_toNat, append_byte_toNat, append_byte_toNat, BitVec.toNat_ofNat]
        simp only [littleEndian]
        omega
      simp [wideResult, hlong]

/-! ## The wide accesses -/

/-- The device of the first port has the whole access (R83). -/
theorem exec_outwOutl {d : PortDevice} {port : Nat} (h : ∃ q, PortOf d port q) (long : Bool) (value : Nat)
    (s : State) : exec (.outwOutl long port value) s = writePorts d port (wideBytes long value) s := by
  obtain ⟨q, hq, rfl⟩ := h
  simp only [exec, execOutwOutl, hq]

theorem exec_inwInl {d : PortDevice} {port : Nat} (h : ∃ q, PortOf d port q) (long : Bool) (s : State) :
    exec (.inwInl long port) s = readPorts d (wideLength long) port [] s := by
  obtain ⟨q, hq, rfl⟩ := h
  simp only [exec, execInwInl, hq, wideLength]

/-- A wide write goes on behind the byte writes that have run. -/
theorem exec_outwOutl_run {d : PortDevice} {port : Nat} {front back : List Byte} {s t : State} {long : Bool}
    (hfirst : ∃ q, PortOf d port q) (hrun : ByteWritesRun d port front s t)
    (hlength : (front ++ back).length = wideLength long) :
    exec (.outwOutl long port (littleEndian (front ++ back))) s = writePorts d (port + front.length) back t := by
  rw [exec_outwOutl hfirst, wideBytes_littleEndian hlength, writePorts_run hrun]

/-- A wide read goes on behind the byte reads that have run. -/
theorem exec_inwInl_run {d : PortDevice} {port count : Nat} {front : List Byte} {s t : State} {long : Bool}
    (hfirst : ∃ q, PortOf d port q) (hrun : ByteReadsRun d port front s t)
    (hlength : front.length + count = wideLength long) :
    exec (.inwInl long port) s = readPorts d count (port + front.length) front t := by
  rw [exec_inwInl hfirst, ← hlength, readPorts_run hrun, List.nil_append]

/-- Behind a front that may be empty: the access has a first port of the device, which is the next one where nothing has
run yet. -/
theorem portOf_first_of_next {d : PortDevice} {port : Nat} {front : List Byte} {r : PortReg}
    (hfirst : front ≠ [] → ∃ q, PortOf d port q) (hr : PortOf d (port + front.length) r) :
    ∃ q, PortOf d port q := by
  cases front with
  | nil => exact ⟨r, hr⟩
  | cons b rest => exact hfirst (List.cons_ne_nil b rest)

/-- Settles O58: behind the bytes that have run, the access goes on with the next one. -/
theorem wideAccessIsByteAccesses : Obligations.WideAccessIsByteAccesses := by
  intro s t long d port front r
  refine ⟨fun b back hrun hr hlength => ?_, fun hrun hlength => ?_, fun hrun hlength hr f hf => ?_⟩
  · rw [exec_outwOutl_run (portOf_first_of_next hrun.first hr) hrun hlength, writePorts, State.portWrite_of_portOf hr]
    refine ⟨fun hback => ?_, fun f hf => by rw [hf]⟩
    subst hback
    cases exec (decodeWrite t.cursors r b) t <;> rfl
  · have hne : front ≠ [] := by
      rintro rfl
      cases long <;> cases hlength
    rw [exec_inwInl_run (count := 0) (hrun.first hne) hrun hlength, readPorts, wideResult_littleEndian hlength]
    rfl
  · obtain ⟨count, hcount⟩ := Nat.exists_eq_add_of_lt hlength
    rw [exec_inwInl_run (count := count + 1) (portOf_first_of_next hrun.first hr) hrun hcount.symm, readPorts,
      State.portRead_of_portOf hr, hf]

/-- Settles O59: the access stops at its first port, or goes on behind the bytes that have run and stops there. -/
theorem wideAccessOutsideDeviceFaults : Obligations.WideAccessOutsideDeviceFaults := by
  intro s long port
  refine ⟨fun hnone => ⟨fun value => ?_, ?_⟩, fun t d front hne houtside => ⟨fun b back hrun hlength => ?_,
    fun hrun hlength => ?_⟩⟩
  · simp only [exec, execOutwOutl, hnone, State.violate]
  · simp only [exec, execInwInl, hnone, State.violate]
  · rw [exec_outwOutl_run (hrun.first hne) hrun hlength, writePorts, State.portWrite_of_outside houtside]
  · obtain ⟨count, hcount⟩ := Nat.exists_eq_add_of_lt hlength
    rw [exec_inwInl_run (count := count + 1) (hrun.first hne) hrun hcount.symm, readPorts,
      State.portRead_of_outside houtside]

end Sys2Proof.Machine
end

section
/-! Every access of a registered port completes, and a read returns a byte, when the transfer devices and the CPU keep
their contract (R95, R347, R401). -/

namespace Sys2Proof.Machine

/-! ## The contract of the outside world -/

/-- The transfer devices and the CPU keep their contract (R95, R347). -/
structure State.WorldConforms (s : State) : Prop where
  devices : s.DevicesConform
  cpu : s.CpuConforms

/-- What takes no device's reply and answers the CPU for its notifications keeps the contract. -/
theorem State.WorldConforms.of_answered {s t : State} (h : s.WorldConforms) (hd : t.deviceReplies = s.deviceReplies)
    (hc : s.CpuAnswered t) : t.WorldConforms where
  devices r hr := h.devices r (hd ▸ hr)
  cpu := hc.conforms h.cpu

theorem State.WorldConforms.answer {s : State} (r : Result) (h : s.WorldConforms) : (s.answer r).WorldConforms :=
  h.of_answered rfl (.same rfl rfl)

theorem State.WorldConforms.notify {s : State} {e : Event} (he : e.isNotice = true) (h : s.WorldConforms) :
    (s.notify e).WorldConforms := h.of_answered rfl (s.notify_answered he)

theorem State.WorldConforms.setPic {s : State} (e : Elem) (p : PicElement) (h : s.WorldConforms) :
    (s.setPic e p).WorldConforms := h.of_answered (by simp) (.same (by simp) (by simp))

theorem State.WorldConforms.setPit {s : State} (c : PitChan) (p : PitChannel) (h : s.WorldConforms) :
    (s.setPit c p).WorldConforms := h.of_answered (by simp) (.same (by simp) (by simp))

theorem State.WorldConforms.setDma {s : State} (k : DmaCtl) (d : DmaController) (h : s.WorldConforms) :
    (s.setDma k d).WorldConforms := h.of_answered (by simp) (.same (by simp) (by simp))

theorem State.WorldConforms.setChan {s : State} (k : DmaCtl) (i : DmaChan) (c : DmaChannel) (h : s.WorldConforms) :
    (s.setChan k i c).WorldConforms := h.setDma k _

theorem State.WorldConforms.updateIrq {s : State} (h : s.WorldConforms) : s.updateIrq.WorldConforms :=
  h.of_answered (by simp) s.updateIrq_answered

theorem State.WorldConforms.loadCount {s : State} (c : PitChan) (v : Half) (h : s.WorldConforms) :
    (s.loadCount c v).WorldConforms :=
  (h.setPit c _).of_answered (by simp) (State.irqTimerUpdate_answered _ _ _)

/-- The poll read clears lines of the element, and of the master for a slave's poll, and recomputes or not (R225). -/
theorem State.WorldConforms.pollRead {s : State} (e : Elem) (h : s.WorldConforms) : (s.pollRead e).WorldConforms := by
  have hu : (s.setPic e { s.pic e with poll := false }).WorldConforms := h.setPic e _
  simp only [State.pollRead]
  split
  · exact hu.updateIrq.answer _
  · next n _ =>
    refine State.WorldConforms.answer _ ?_
    cases e with
    | master =>
      split
      · exact (hu.setPic .master _).updateIrq
      · exact hu.setPic .master _
    | slave => exact ((hu.setPic .master _).setPic .slave _).updateIrq

/-! ## Outcomes -/

/-- The operation completes, and the contract is kept. -/
def Completes (o : Outcome) : Prop := ∃ t : State, o = .next t ∧ t.WorldConforms

/-- The operation completes with a byte, and the contract is kept. -/
def ReturnsByte (o : Outcome) : Prop :=
  ∃ (t : State) (b : Byte), o = .next t ∧ t.result = .byte b ∧ t.WorldConforms

theorem Completes.next {t : State} (h : t.WorldConforms) : Completes (.next t) := ⟨t, rfl, h⟩

theorem Completes.cpuReturns {s t : State} (hs : s.WorldConforms) (h : t.WorldConforms) : Completes (s.cpuReturns t) :=
  ⟨t, State.cpuReturns_completes hs.cpu, h⟩

theorem State.WorldConforms.runTransfers {s : State} (k : DmaCtl) (h : s.WorldConforms) :
    Completes (s.runTransfers k) := by
  obtain ⟨t, ht, hd, hc⟩ := State.runTransfers_completes k h.devices h.cpu
  exact ⟨t, ht, hd, hc⟩

theorem ReturnsByte.answer {s : State} (b : Byte) (h : s.WorldConforms) : ReturnsByte (.next (s.answer (.byte b))) :=
  ⟨_, b, rfl, rfl, h.answer _⟩

theorem State.pollRead_result (s : State) (e : Elem) : ∃ b, (s.pollRead e).result = .byte b := by
  simp only [State.pollRead]
  split <;> exact ⟨_, rfl⟩

/-! ## Byte writes -/

theorem decodePicCommand_completes (e : Elem) (b : Byte) {s : State} (h : s.WorldConforms) :
    Completes (exec (decodePicCommand e b) s) := by
  have hpic : ∀ p : PicElement, (s.setPic e p).WorldConforms := fun p => h.setPic e p
  have heoi : ∀ f : Line → PicElement, Completes (match (s.pic e).currentLine with
      | none => .next s
      | some n => s.cpuReturns (s.setPic e (f n)).updateIrq) := by
    intro f
    split
    · exact .next h
    · exact .cpuReturns h (hpic _).updateIrq
  unfold decodePicCommand
  split
  · exact .cpuReturns h (((hpic _).notify rfl).setPic e _)
  split
  · exact .next (hpic _)
  split
  · exact .next (hpic _)
  · exact heoi _
  · exact .next h
  · exact .cpuReturns h (hpic _).updateIrq
  · exact .next (hpic _)
  · exact heoi _
  · exact .cpuReturns h (hpic _).updateIrq
  · exact .cpuReturns h (hpic _).updateIrq

theorem decodePicData_completes (cur : PicCursor) (e : Elem) (b : Byte) {s : State} (h : s.WorldConforms) :
    Completes (exec (decodePicData cur e b) s) := by
  unfold decodePicData
  split
  · exact .cpuReturns h (h.setPic e _).updateIrq
  · exact .next (h.setPic e _)
  · exact .next (h.setPic e _)
  · exact .next (h.setPic e _)

theorem decodePitControl_completes (b : Byte) {s : State} (h : s.WorldConforms) :
    Completes (exec (decodePitControl b) s) := by
  simp only [decodePitControl]
  split
  · exact .next (h.of_answered rfl (.same rfl rfl))
  · next c _ => split <;> exact .next (h.setPit c _)

theorem decodePitData_completes (cur : PitCursor) (c : PitChan) (b : Byte) {s : State} (h : s.WorldConforms) :
    Completes (exec (decodePitData cur c b) s) := by
  unfold decodePitData
  split
  · exact .cpuReturns h (h.loadCount c _)
  · exact .cpuReturns h (h.loadCount c _)
  · exact .next (h.setPit c _)
  · exact .cpuReturns h ((h.loadCount c _).setPit c _)

theorem decodeDmaControl_completes (k : DmaCtl) (r : BitVec 4) (b : Byte) {s : State} (h : s.WorldConforms) :
    Completes (exec (decodeDmaControl k r b) s) := by
  unfold decodeDmaControl
  split
  · simp only [exec, execDmaCommand]
    split
    · exact .next (h.setDma k _)
    · exact .next h
  · exact (h.setDma k _).runTransfers k
  · simp only [exec, execDmaSingleMask]
    split
    · exact .next (h.setDma k _)
    · exact (h.setDma k _).runTransfers k
  · exact .next (h.setChan k _ _)
  · exact .next (h.setDma k _)
  · exact .next (h.setDma k _)
  · exact (h.setDma k _).runTransfers k
  · exact (h.setDma k _).runTransfers k

/-- A byte write of a registered port completes (R401). -/
theorem decodeWrite_completes (cur : Cursors) (r : PortReg) (b : Byte) {s : State} (h : s.WorldConforms) :
    Completes (exec (decodeWrite cur r b) s) := by
  cases r with
  | picCommand e => exact decodePicCommand_completes e b h
  | picData e => exact decodePicData_completes _ e b h
  | elcr e => exact .next (h.setPic e _)
  | pitData c => exact decodePitData_completes _ c b h
  | pitControl => exact decodePitControl_completes b h
  | dmaAddress k i => exact .next (h.setDma k _)
  | dmaCount k i => exact .next (h.setDma k _)
  | dmaControl k n => exact decodeDmaControl_completes k n b h
  | page k half i => cases half <;> exact .next (h.setChan k i _)

/-! ## Byte reads -/

theorem decodePicRead_returnsByte (cur : PicCursor) (e : Elem) (port : PicPort) {s : State} (h : s.WorldConforms) :
    ReturnsByte (exec (decodePicRead cur e port) s) := by
  unfold decodePicRead
  split
  · obtain ⟨b, hb⟩ := s.pollRead_result e
    exact ⟨_, b, State.cpuReturns_completes h.cpu, hb, h.pollRead e⟩
  · cases port with
    | command => dsimp only; split <;> exact .answer _ h
    | data => exact .answer _ h

theorem decodePitRead_returnsByte (cur : PitCursor) (c : PitChan) {s : State} (h : s.WorldConforms) :
    ReturnsByte (exec (decodePitRead cur c) s) := by
  unfold decodePitRead
  split
  · exact .answer _ (h.setPit c _)
  split
  · exact .answer _ (h.setPit c _)
  · exact .answer _ (h.setPit c _)
  · exact .answer _ (h.setPit c _)
  · split
    · exact .answer _ h
    · exact .answer _ h
    · exact .answer _ (h.setPit c _)
    · exact .answer _ (h.setPit c _)

theorem decodeDmaControlRead_returnsByte (k : DmaCtl) (r : BitVec 4) {s : State} (h : s.WorldConforms) :
    ReturnsByte (exec (decodeDmaControlRead k r) s) := by
  unfold decodeDmaControlRead
  split
  · exact .answer _ (h.setDma k _)
  · exact .answer _ h
  · exact .answer _ h

/-- A byte read of a registered port completes with a byte (R401). -/
theorem decodeRead_returnsByte (cur : Cursors) (r : PortReg) {s : State} (h : s.WorldConforms) :
    ReturnsByte (exec (decodeRead cur r) s) := by
  cases r with
  | picCommand e => exact decodePicRead_returnsByte _ e .command h
  | picData e => exact decodePicRead_returnsByte _ e .data h
  | elcr e => exact .answer _ h
  | pitData c => exact decodePitRead_returnsByte _ c h
  | pitControl => exact .answer _ (h.of_answered rfl (.same rfl rfl))
  | dmaAddress k i => exact .answer _ (h.setDma k _)
  | dmaCount k i => exact .answer _ (h.setDma k _)
  | dmaControl k n => exact decodeDmaControlRead_returnsByte k n h
  | page k half i => exact .answer _ h

/-! ## Wide accesses within one device -/

/-- The first port of several, and the others from the next one on. -/
theorem portOf_first_rest {d : PortDevice} {port count : Nat}
    (h : ∀ j, j < count + 1 → ∃ q, PortOf d (port + j) q) :
    (∃ q, PortOf d port q) ∧ ∀ j, j < count → ∃ q, PortOf d (port + 1 + j) q := by
  refine ⟨h 0 (Nat.succ_pos count), fun j hj => ?_⟩
  rw [Nat.add_assoc, Nat.add_comm 1 j]
  exact h (j + 1) (Nat.succ_lt_succ hj)

theorem writePorts_completes {d : PortDevice} {port : Nat} {bytes : List Byte} {s : State} (h : s.WorldConforms)
    (hports : ∀ j, j < bytes.length → ∃ q, PortOf d (port + j) q) : Completes (writePorts d port bytes s) := by
  induction bytes generalizing port s with
  | nil => exact .next h
  | cons b rest ih =>
    obtain ⟨⟨q, hq⟩, hrest⟩ := portOf_first_rest hports
    obtain ⟨u, hu, hconf⟩ := decodeWrite_completes s.cursors q b h
    rw [writePorts, State.portWrite_of_portOf hq, hu]
    exact ih hconf hrest

/-- A wide read answers the number of its bytes, those read before and as many as were left to read. -/
theorem readPorts_completes {d : PortDevice} {count port : Nat} (before : List Byte) {s : State} (h : s.WorldConforms)
    (hports : ∀ j, j < count → ∃ q, PortOf d (port + j) q) :
    ∃ t bytes, readPorts d count port before s = .next t ∧ bytes.length = before.length + count ∧
      t.result = wideResult bytes := by
  induction count generalizing port before s with
  | zero => exact ⟨_, before, rfl, rfl, rfl⟩
  | succ count ih =>
    obtain ⟨⟨q, hq⟩, hrest⟩ := portOf_first_rest hports
    obtain ⟨u, b, hu, _, hconf⟩ := decodeRead_returnsByte s.cursors q h
    obtain ⟨t, bytes, ht, hlength, hresult⟩ := ih (before ++ [u.result.asByte]) hconf hrest
    refine ⟨t, bytes, ?_, ?_, hresult⟩
    · rw [readPorts, State.portRead_of_portOf hq, hu]
      exact ht
    · rw [hlength, List.length_append, List.length_singleton, Nat.add_assoc, Nat.add_comm 1 count]

/-- Settles O57: each byte access completes and keeps the contract, so the next byte of a wide access completes too. -/
theorem portAccessesComplete : Obligations.PortAccessesComplete := by
  intro s port r hdevices hcpu _
  have h : s.WorldConforms := ⟨hdevices, hcpu⟩
  refine ⟨fun b => ?_, ?_, fun long hports => ⟨fun value => ?_, ?_⟩⟩
  · obtain ⟨t, ht, hd, hc⟩ := decodeWrite_completes s.cursors r b h
    exact ⟨t, ht, hd, hc⟩
  · obtain ⟨t, b, ht, hb, hd, hc⟩ := decodeRead_returnsByte s.cursors r h
    exact ⟨t, b, ht, hb, hd, hc⟩
  · have hfirst : ∃ q, PortOf r.device port q := hports 0 (by cases long <;> decide)
    rw [exec_outwOutl hfirst]
    obtain ⟨t, ht, hd, hc⟩ := writePorts_completes (bytes := wideBytes long value) h
      fun j hj => hports j (wideBytes_length long value ▸ hj)
    exact ⟨t, ht, hd, hc⟩
  · have hfirst : ∃ q, PortOf r.device port q := hports 0 (by cases long <;> decide)
    rw [exec_inwInl hfirst]
    obtain ⟨t, bytes, ht, hlength, hresult⟩ := readPorts_completes [] h hports
    rw [List.length_nil, Nat.zero_add] at hlength
    refine ⟨t, ht, ?_⟩
    rw [hresult, wideResult_littleEndian hlength]
    cases long with
    | false => exact ⟨_, rfl⟩
    | true => exact ⟨_, rfl⟩

end Sys2Proof.Machine
end

section
/-! Calls made where they are not admitted (R95, CV6): a pass without its bound, the calls of a transfer device's
handler, the first call of a timer's callback, and a call of the CPU inside a notification. -/

namespace Sys2Proof.Machine

/-! ## A pass without its bound -/

/-- All tasks, each with what it brings before the next (R93): the bound on their work is one that suffices. -/
def State.runAll (s : State) (tasks : List Task) : Outcome := runTasks (s.transferBound tasks) tasks s

theorem State.runTransfers_eq (s : State) (k : DmaCtl) : s.runTransfers k = s.runAll (s.pendingRuns k) := rfl

@[simp] theorem State.runAll_nil (s : State) : s.runAll [] = .next s := by simp [State.runAll, runTasks]

/-- The next task, then what it brings, then the others. -/
theorem State.runAll_cons {s t : State} {task : Task} {more : List Task} (rest : List Task)
    (h : s.taskStep task = .next (t, more)) : s.runAll (task :: rest) = t.runAll (more ++ rest) := by
  have hwork := State.taskStep_work h
  obtain ⟨n, hn⟩ : ∃ n, s.transferBound (task :: rest) = n + 1 := by
    refine Nat.exists_eq_add_one.mpr ?_
    simp only [State.transferBound_eq, List.map_cons, List.sum_cons]
    omega
  have hbound : t.transferBound (more ++ rest) ≤ n := by
    simp only [State.transferBound_eq, List.map_append, List.sum_append, List.map_cons, List.sum_cons] at hn ⊢
    omega
  rw [State.runAll, hn, runTasks]
  simp only [h]
  exact runTasks_bound hbound le_rfl

/-- A task that stops stops the pass. -/
theorem State.runAll_fault {s : State} {task : Task} {f : Fault} (rest : List Task) (h : s.taskStep task = .fault f) :
    s.runAll (task :: rest) = .fault f := by
  have hnot := runTasks_not_refused (tasks := task :: rest) (s := s) le_rfl .workBound
  rw [State.runAll]
  cases hn : s.transferBound (task :: rest) with
  | zero => exact absurd (by rw [hn]; rfl) hnot
  | succ n => simp only [runTasks, h]

/-- Tasks that complete go on with those behind them. -/
theorem State.runAll_append {s t : State} {tasks : List Task} (more : List Task) (h : s.runAll tasks = .next t) :
    s.runAll (tasks ++ more) = t.runAll more := by
  obtain ⟨j, hj⟩ := runTasks_append (more := more) h
  have hlarge := hj (s.transferBound (tasks ++ more) + t.transferBound more)
  rw [runTasks_bound (m := s.transferBound (tasks ++ more)) (by omega) le_rfl,
    runTasks_bound (n := _ + _) (m := t.transferBound more) (by omega) le_rfl] at hlarge
  exact hlarge

/-! ## The calls of a handler -/

/-- The channels that a pass runs, as its tasks (R343). -/
theorem State.pendingRuns_eq (s : State) (k : DmaCtl) : s.pendingRuns k = (s.requestedChannels k).map (.run k) := by
  have hbit : ∀ i : DmaChan, ((s.dma k).status.extractLsb' 4 4 &&& ~~~(s.dma k).mask).getLsbD i.val =
      ((s.dma k).status.getLsbD (4 + i.val) && !(s.dma k).mask.getLsbD i.val) := by
    intro i
    have hi : i.val < 4 := i.isLt
    simp [hi]
  simp only [State.pendingRuns, State.requestedChannels, hbit]

/-- A call that brings no tasks returns to its caller. -/
theorem State.runAll_settle {s u : State} {task : Task} {ret : State → State} {o : Outcome} (more : List Task)
    (htask : s.taskStep task = settle ret o) (ho : o = .next u) : s.runAll (task :: more) = (ret u).runAll more := by
  subst ho
  exact State.runAll_cons more htask

/-- A call that a device may make runs its own rule at once, as the same call does from outside (R95, R347). -/
theorem State.runAll_call {s u : State} {c : Call} {i : Instr} (more : List Task) (hc : admittedInHandler c = true)
    (hi : decode s.cursors c = .ok i) (hu : exec i s = .next u) :
    s.runAll (.call c :: more) = (if returnsValue c then s.returnNested u else u).runAll more := by
  cases c with
  | readMemory n buf off pos len => cases hi; exact State.runAll_settle (ret := s.returnNested) more rfl hu
  | writeMemory n buf off pos len => cases hi; exact State.runAll_settle (ret := s.returnNested) more rfl hu
  | getChannelMode n => cases hi; exact State.runAll_settle (ret := s.returnNested) more rfl hu
  | releaseDmaRequest n => cases hi; exact State.runAll_settle more rfl hu
  | setIrq line level => cases hi; exact State.runAll_settle more rfl hu
  | holdDmaRequest n =>
    cases hi
    simp only [exec, execDreq] at hu
    split at hu
    · cases hu
    · next hn =>
      have hheld : s.taskStep (.call (.holdDmaRequest n)) = .next (_, _) := if_neg hn
      exact (State.runAll_cons more hheld).trans (State.runAll_append more hu)
  | _ => cases hc

/-- The calls that a device makes, one after the other. -/
theorem State.runAll_calls {s t : State} {calls : List Call} (h : DeviceCallsRun s calls t) (more : List Task) :
    s.runAll (calls.map .call ++ more) = t.runAll more := by
  induction h with
  | done s => rfl
  | call s u t c rest i hc hi hu _ ih => exact (State.runAll_call _ hc hi hu).trans ih

/-- A change of the status register leaves the channels. -/
@[simp] theorem State.setDma_status_chan (s : State) (k k' : DmaCtl) (i : DmaChan) (b : Byte) :
    (s.setDma k { s.dma k with status := b }).chan k' i = s.chan k' i := by
  simp only [State.chan, State.setDma_dma]
  split
  · next hk => subst hk; fin_cases i <;> rfl
  · rfl

/-- An incomplete channel with a device calls it: the device's next reply says what it does (R344). -/
theorem State.runChannel_reply {s : State} {k : DmaCtl} {i : DmaChan} {device : Nat} {r : DeviceReply}
    {rest : List DeviceReply} (hdevice : (s.chan k i).device = some device) (hc : ¬s.channelComplete k i)
    (hr : s.deviceReplies = r :: rest) :
    s.runChannel k i = ({ s with deviceReplies := rest }, r.calls.map .call ++
      [.finish k i (s.chan k i).currentWordCount.toNat (threshold k (s.chan k i)) r.newPosition]) := by
  rw [State.channelComplete] at hc
  simp only [State.runChannel, if_neg hc, hdevice, State.callDevice, hr]

/-- A held request runs the channels that are requested then (R341). -/
theorem exec_dreq (s : State) (k : DmaCtl) (i : DmaChan) :
    exec (.dreq (globalChannel k i)) s =
      (s.setDma k { s.dma k with status := (s.dma k).status ||| requestBit i }).runTransfers k := by
  have hn := Nat.not_lt.mpr (globalChannel_le k i)
  simp only [exec, execDreq, if_neg hn, controllerOf_globalChannel, channelOf_globalChannel,
    DmaController.setRequest]

/-- A call that is not admitted in a handler, behind those that have run. -/
theorem handlerCall_faults {s u : State} {c : Call} {k : DmaCtl} {ch : DmaChan} {device : Nat}
    {before after : List Call} {p : Int} {rest : List DeviceReply}
    (hone : s.requestedChannels k = [ch]) (hdevice : (s.chan k ch).device = some device)
    (hincomplete : ¬s.channelComplete k ch)
    (hreply : s.deviceReplies = { calls := before ++ c :: after, newPosition := p } :: rest)
    (hrun : DeviceCallsRun { s with deviceReplies := rest } before u) (hc : admittedInHandler c = false) :
    s.runTransfers k = .fault (.reentrantCall c u.trace) := by
  have hstart : s.taskStep (.run k ch) = .next _ := congrArg _ (State.runChannel_reply hdevice hincomplete hreply)
  rw [State.runTransfers_eq, State.pendingRuns_eq, hone, List.map_singleton, State.runAll_cons [] hstart,
    List.map_append, List.map_cons, List.append_assoc, List.append_assoc, State.runAll_calls hrun]
  exact State.runAll_fault _ (State.deviceCall_reentrant u hc)

/-! ## The first call of a callback -/

/-- A timer of another device fires: its event, and the stop at a first call that is not admitted (R160, R413). -/
theorem State.fire_reentrant {s : State} {h device : Nat} {r : Timer} {c : Call} {more : List Call}
    {rest : List (List Call)} (hr : s.timers[h]? = some r) (htarget : r.target = .device device)
    (hreply : s.expiryReplies = (c :: more) :: rest) (hc : admittedInCallback c = false) :
    s.fire h = .fault (.reentrantCall c (s.trace ++ [.expiry h])) := by
  simp only [State.fire, hr, Option.map_some, htarget, State.deviceExpiry, State.emit_expiryReplies,
    State.popTimer_expiryReplies, hreply, runCallback, State.callbackCall_reentrant _ hc, State.emit_trace,
    State.popTimer_trace]

/-- The drain stops where the firing of a due head stops. -/
theorem drain_fault {n : Nat} {s : State} {h : Nat} {queue : List Nat} {f : Fault} (hq : s.queue = h :: queue)
    (hdue : s.expiryOf h ≤ s.currentTime) (hf : s.fire h = .fault f) : drain (n + 1) s = .fault f := by
  simp only [drain, hq, if_neg (Nat.not_lt.mpr hdue), hf]

/-- A tick that reaches the expiry of the head of the queue fires it first (R158). -/
theorem execTick_fault {s : State} {delta : Int} {h : Nat} {queue : List Nat} {r : Timer} {f : Fault}
    (hlow : 0 ≤ delta) (hhigh : delta < 2 ^ 32) (hlimit : s.currentTime + delta < 2 ^ 64) (hq : s.queue = h :: queue)
    (hr : s.timers[h]? = some r) (hdue : r.expiry ≤ s.currentTime + delta)
    (hf : ({ s with currentTime := s.currentTime + delta.toNat } : State).fire h = .fault f) :
    exec (.tick delta) s = .fault f := by
  have hrange : ¬(delta < 0 ∨ Config.deltaLimit ≤ delta ∨ Config.timeLimit ≤ s.currentTime + delta) := by
    simp only [Config.deltaLimit, Config.timeLimit]
    omega
  have hexpiry : s.expiryOf h = r.expiry := by simp [State.expiryOf, hr]
  have hle : s.expiryOf h ≤ s.currentTime + delta.toNat := by omega
  exact (if_neg hrange).trans (drain_fault hq hle hf)

/-! ## A call of the CPU inside a notification -/

/-- No event of the operation is a notification of the CPU. -/
def Silent (s : State) (o : Outcome) : Prop :=
  ∀ t e, o = .next t → t.trace = s.trace ++ [e] → e.isNotice = false

theorem Silent.next {s t : State} (h : t.trace = s.trace) : Silent s (.next t) := by
  rintro _ e ⟨⟩ he
  exact absurd (h.symm.trans he) (by simp)

theorem Silent.next_event {s t : State} {ev : Event} (h : t.trace = s.trace ++ [ev]) (hev : ev.isNotice = false) :
    Silent s (.next t) := by
  rintro _ e ⟨⟩ he
  obtain rfl : ev = e := by simpa using h.symm.trans he
  exact hev

theorem Silent.violate {s u : State} {info : List Event → Fault} : Silent s (u.violate info) := by
  rintro _ _ ⟨⟩

/-- A recomputation tells the CPU what the elements say, whatever the CPU does then (R204). -/
theorem State.updateIrq_trace_congr {s t : State} (hpic : ∀ e, t.pic e = s.pic e) (htrace : t.trace = s.trace) :
    t.updateIrq.trace = s.updateIrq.trace := by
  have hm : t.picM = s.picM := hpic .master
  have hs : t.picS = s.picS := hpic .slave
  have hcascaded : t.cascaded = s.cascaded := by simp only [State.cascaded, hm, hs]
  simp only [State.updateIrq_eq, hcascaded, htrace]

theorem State.setIrq_trace_congr {s t : State} (hpic : ∀ e, t.pic e = s.pic e) (htrace : t.trace = s.trace)
    (line : Nat) (l : Bool) : (t.setIrq line l).trace = (s.setIrq line l).trace := by
  refine State.updateIrq_trace_congr (fun e => ?_) (by simpa using htrace)
  simp only [State.setPic_pic, hpic]

/-- Only the line of channel 0 is heard of (R266). -/
theorem State.irqTimerUpdate_trace_congr {s t : State} (hpic : ∀ e, t.pic e = s.pic e) (hpit : t.pit0 = s.pit0)
    (htrace : t.trace = s.trace) (c : PitChan) (now : Nat) :
    (t.irqTimerUpdate c now).trace = (s.irqTimerUpdate c now).trace := by
  cases c with
  | c0 =>
    have htold : ∀ u : State, (u.irqTimerUpdate .c0 now).trace =
        (u.setIrq Config.pitIrqLine (u.pit0.outAt now)).trace := by
      intro u
      simp only [State.irqTimerUpdate]
      split <;> simp
    rw [htold, htold, hpit, State.setIrq_trace_congr hpic htrace]
  | c1 => exact htrace
  | c2 => exact htrace

/-- Loading a count tells the CPU the same whatever the CPU does then (R265). -/
theorem State.loadCount_trace_cpu (s : State) (replies : List (Option Call)) (c : PitChan) (v : Half) :
    (({ s with cpuReplies := replies } : State).loadCount c v).trace = (s.loadCount c v).trace :=
  State.irqTimerUpdate_trace_congr (fun e => by cases c <;> cases e <;> rfl) (by cases c <;> rfl)
    (by cases c <;> rfl) c _

theorem State.setGate_trace_cpu (s : State) (replies : List (Option Call)) (c : PitChan) (l : Bool) :
    (({ s with cpuReplies := replies } : State).setGate c l).trace = (s.setGate c l).trace := by
  have hpit : ({ s with cpuReplies := replies } : State).pit c = s.pit c := by cases c <;> rfl
  simp only [State.setGate, State.setPit_trace, hpit]
  split
  · exact State.irqTimerUpdate_trace_congr (fun e => by cases c <;> cases e <;> rfl) (by cases c <;> rfl)
      (by cases c <;> rfl) c _
  · rfl

/-- So does an acknowledge, by the line that is acknowledged (R206). -/
theorem State.acknowledgeInterrupt_trace_cpu (s : State) (replies : List (Option Call)) :
    ({ s with cpuReplies := replies } : State).acknowledgeInterrupt.1.trace = s.acknowledgeInterrupt.1.trace := by
  simp only [State.acknowledgeInterrupt]
  split
  · exact State.updateIrq_trace_congr (fun e => by cases e <;> rfl) rfl
  · split
    · split
      · exact State.updateIrq_trace_congr (fun e => by cases e <;> rfl) rfl
      · exact State.updateIrq_trace_congr (fun e => by cases e <;> rfl) rfl
    · exact State.updateIrq_trace_congr (fun e => by cases e <;> rfl) rfl

/-- And a poll read, by the line that is polled (R225). -/
theorem State.pollRead_trace_cpu (s : State) (replies : List (Option Call)) (e : Elem) :
    (({ s with cpuReplies := replies } : State).pollRead e).trace = (s.pollRead e).trace := by
  have hpic : ∀ e, ({ s with cpuReplies := replies } : State).pic e = s.pic e := fun e => by cases e <;> rfl
  simp only [State.pollRead, State.setPic_pic, if_true, hpic]
  split
  · exact State.updateIrq_trace_congr (fun e' => by cases e <;> cases e' <;> rfl) (by cases e <;> rfl)
  · next n _ =>
    simp only [State.answer_trace]
    split
    · exact State.updateIrq_trace_congr (fun e' => by cases e <;> cases e' <;> rfl) (by cases e <;> rfl)
    · cases e <;> rfl

/-- Channels 1 and 2 have no line (R266). -/
theorem State.pitChannelReset_trace_quiet (s : State) {c : PitChan} (h : c ≠ .c0) :
    (s.pitChannelReset c).trace = s.trace := by
  cases c with
  | c0 => exact absurd rfl h
  | c1 => rfl
  | c2 => rfl

/-- The reset of a channel tells the CPU what the elements say, on channel 0 alone (R434). -/
theorem State.pitReset_trace_congr {s t : State} (hpic : ∀ e, t.pic e = s.pic e) (hpit : t.pit0 = s.pit0)
    (htime : t.currentTime = s.currentTime) (htrace : t.trace = s.trace) : t.pitReset.trace = s.pitReset.trace := by
  have hlast : ∀ u : State, u.pitReset.trace = (u.pitChannelReset .c0).trace := fun u =>
    (State.pitChannelReset_trace_quiet _ (by decide)).trans (State.pitChannelReset_trace_quiet _ (by decide))
  rw [hlast, hlast]
  simp only [State.pitChannelReset, State.loadCount, State.setPit_currentTime, htime]
  refine State.irqTimerUpdate_trace_congr (fun e => ?_) ?_ ?_ .c0 _
  · simp only [State.setPit_pic, hpic]
  · simp only [State.setPit, State.pit, hpit]
  · simp only [State.setPit_trace, htrace]

/-- A reset tells the CPU the same whatever the CPU does then (R431). -/
theorem State.blockReset_trace_cpu (s : State) (replies : List (Option Call)) :
    ({ s with cpuReplies := replies } : State).blockReset.trace = s.blockReset.trace := by
  refine State.pitReset_trace_congr (fun e => ?_) ?_ ?_ ?_
  · simp only [State.dmaReset_pic]
    cases e <;> rfl
  · simp only [State.dmaReset_pit0, State.picReset_pit0]
  · simp only [State.dmaReset_currentTime, State.picReset_currentTime]
  · simp only [State.dmaReset_trace, State.picReset_trace]

/-- An access or call that calls the CPU at most once does so last, and tells it the same whatever the CPU does then; or
it tells the CPU nothing. -/
def NotifiesLast (s : State) (replies : List (Option Call)) (i : Instr) : Prop :=
  Silent s (exec i { s with cpuReplies := replies }) ∨
    ∃ t u : State, exec i s = s.cpuReturns t ∧
      exec i { s with cpuReplies := replies } = ({ s with cpuReplies := replies } : State).cpuReturns u ∧
      u.trace = t.trace

theorem exec_notifiesLast (s : State) (replies : List (Option Call)) {i : Instr} (h : atMostOneNotice i = true) :
    NotifiesLast s replies i := by
  have hpic : ∀ e, ({ s with cpuReplies := replies } : State).pic e = s.pic e := fun e => by cases e <;> rfl
  have hrecompute : ∀ (e : Elem) (p : PicElement),
      (({ s with cpuReplies := replies } : State).setPic e p).updateIrq.trace = (s.setPic e p).updateIrq.trace :=
    fun e p => State.updateIrq_trace_congr (fun e' => by cases e <;> cases e' <;> rfl) (by cases e <;> rfl)
  cases i with
  | picIcw1 e ic4 => exact .inr ⟨_, _, rfl, rfl, by simp⟩
  | picOcw3 e esmm smm p rr ris => exact .inl (.next (by simp))
  | picOcw2RotateAeoiClear e => exact .inl (.next (by simp))
  | picOcw2Eoi e =>
    simp only [NotifiesLast, exec, execPicOcw2Eoi, hpic]
    split
    · exact .inl (.next rfl)
    · exact .inr ⟨_, _, rfl, rfl, hrecompute e _⟩
  | picOcw2Nop e => exact .inl (.next rfl)
  | picOcw2SpecificEoi e l => exact .inr ⟨_, _, rfl, rfl, hpic e ▸ hrecompute e _⟩
  | picOcw2RotateAeoiSet e => exact .inl (.next (by simp))
  | picOcw2RotateEoi e =>
    simp only [NotifiesLast, exec, execPicOcw2RotateEoi, hpic]
    split
    · exact .inl (.next rfl)
    · exact .inr ⟨_, _, rfl, rfl, hrecompute e _⟩
  | picOcw2SetPriority e l => exact .inr ⟨_, _, rfl, rfl, hpic e ▸ hrecompute e _⟩
  | picOcw2RotateSpecificEoi e l => exact .inr ⟨_, _, rfl, rfl, hpic e ▸ hrecompute e _⟩
  | picOcw1 e d => exact .inr ⟨_, _, rfl, rfl, hpic e ▸ hrecompute e _⟩
  | picIcw2 e base => exact .inl (.next (by simp))
  | picIcw3 e => exact .inl (.next (by simp))
  | picIcw4 e sfnm aeoi => exact .inl (.next (by simp))
  | picPollRead e port => exact .inr ⟨_, _, rfl, rfl, s.pollRead_trace_cpu replies e⟩
  | picElcrWrite e d => exact .inl (.next (by simp))
  | pitLatch c => exact .inl (.next (by simp))
  | pitControlLsb c m bcd => exact .inl (.next (by simp))
  | pitControlMsb c m bcd => exact .inl (.next (by simp))
  | pitControlWord c m bcd => exact .inl (.next (by simp))
  | pitWriteLsb c b => exact .inr ⟨_, _, rfl, rfl, s.loadCount_trace_cpu replies c _⟩
  | pitWriteMsb c b => exact .inr ⟨_, _, rfl, rfl, s.loadCount_trace_cpu replies c _⟩
  | pitWriteWord0 c b => exact .inl (.next (by simp))
  | pitWriteWord1 c b =>
    have hpit : ({ s with cpuReplies := replies } : State).pit c = s.pit c := by cases c <;> rfl
    refine .inr ⟨_, _, rfl, rfl, ?_⟩
    simp only [State.setPit_trace, hpit]
    exact s.loadCount_trace_cpu replies c _
  | pitReadStatus c => exact .inl (.next (by simp))
  | pitReadLatchedLsb c => exact .inl (.next (by simp))
  | pitReadLatchedMsb c => exact .inl (.next (by simp))
  | pitReadLatchedWord0 c => exact .inl (.next (by simp))
  | pitReadLiveWord0 c => exact .inl (.next (by simp))
  | pitReadLiveWord1 c => exact .inl (.next (by simp))
  | dmaAddrWrite k ch b => exact .inl (.next (by simp))
  | dmaCountWrite k ch b => exact .inl (.next (by simp))
  | dmaAddrRead k ch => exact .inl (.next (by simp))
  | dmaCountRead k ch => exact .inl (.next (by simp))
  | dmaCommand k v => exact .inl (.next (by split <;> simp))
  | dmaMode k v => exact .inl (.next (by simp))
  | dmaClearFlipFlop k => exact .inl (.next (by simp))
  | dmaMasterClear k => exact .inl (.next (by simp))
  | dmaStatusRead k => exact .inl (.next (by simp))
  | dmaPageLowWrite k ch b => exact .inl (.next (by simp))
  | dmaPageHighWrite k ch b => exact .inl (.next (by simp))
  | irq line level =>
    simp only [NotifiesLast, exec, execIrq, State.setIrqCall]
    split
    · exact .inl .violate
    · exact .inr ⟨_, _, rfl, rfl, State.setIrq_trace_congr hpic rfl line _⟩
  | inta => exact .inr ⟨_, _, rfl, rfl, s.acknowledgeInterrupt_trace_cpu replies⟩
  | gate channel level =>
    simp only [NotifiesLast, exec, execGate]
    split
    · exact .inl .violate
    · split
      · next c _ => exact .inr ⟨_, _, rfl, rfl, s.setGate_trace_cpu replies c _⟩
      · exact .inl .violate
  | getOut channel =>
    simp only [NotifiesLast, exec, execGetOut]
    split
    · exact .inl (.next rfl)
    · exact .inl .violate
  | drel n =>
    simp only [NotifiesLast, exec, execDrel, State.releaseCall]
    split
    · exact .inl .violate
    · exact .inl (.next (by simp))
  | reg n device =>
    simp only [NotifiesLast, exec, execReg]
    split
    · exact .inl .violate
    · exact .inl (.next (by simp))
  | getChannelMode n =>
    simp only [NotifiesLast, exec, execGetChannelMode, State.channelModeCall]
    split
    · exact .inl .violate
    · exact .inl (.next rfl)
  | readMemory n buf off pos len =>
    refine .inl fun t e ht => ?_
    obtain ⟨_, _, addr, r, rfl⟩ := State.readMemoryCall_next ht
    exact Silent.next_event rfl rfl _ e rfl
  | writeMemory n buf off pos len =>
    refine .inl fun t e ht => ?_
    obtain ⟨_, _, addr, bytes, r, rfl⟩ := State.writeMemoryCall_next ht
    exact Silent.next_event rfl rfl _ e rfl
  | update timer change =>
    refine .inl fun t e ht => ?_
    obtain ⟨_, _, rfl⟩ := State.updateCall_next ht
    exact Silent.next (by simp) _ e rfl
  | reset => exact .inr ⟨_, _, rfl, rfl, s.blockReset_trace_cpu replies⟩
  | dmaRequest | dmaSingleMask | dmaClearMasks | dmaWriteMasks | dreq | tick | outwOutl | inwInl => cases h
  | _ => exact .inl (.next rfl)

/-- Settles O53: the handler's tasks run up to the call, the callback stops at its first call, and the operation that
calls the CPU has told it the same as it does with a CPU that returns. -/
theorem notAdmittedCallsFault : Obligations.NotAdmittedCallsFault := by
  intro s c
  refine ⟨?_, ?_, ?_⟩
  · intro k ch device before after p rest u held hone hdevice hincomplete hreply hrun hc
    have hchan : held.chan k ch = s.chan k ch := State.setDma_status_chan ..
    have hopen : ¬held.channelComplete k ch := by rwa [State.channelComplete, hchan]
    have hheld : held.deviceReplies = _ := (State.setDma_deviceReplies ..).trans hreply
    exact (exec_dreq s k ch).trans (handlerCall_faults hone (hchan ▸ hdevice) hopen hheld hrun hc)
  · intro delta h device queue r more rest hlow hhigh hlimit hq hr htarget hdue hreply hc
    exact execTick_fault hlow hhigh hlimit hq hr hdue (State.fire_reentrant hr htarget hreply hc)
  · intro i t e rest hone hcpu hexec htrace hnotice
    rcases exec_notifiesLast s [] hone with hsilent | ⟨u, v, hu, hv, huv⟩
    · rw [hsilent t e hexec htrace] at hnotice
      cases hnotice
    · obtain rfl : t = v := State.cpuReturns_next (hv.symm.trans hexec)
      have htold : u.trace ≠ s.trace := by rw [← huv, htrace]; simp
      rw [hu, State.cpuReturns_faults hcpu htold, huv]

end Sys2Proof.Machine
end

section
/-! The encoding of the block's accesses and calls: decode and encode agree (R114, R118, R129, R130), the decoder
picks the one row of the opcode table that an access selects (R130), and the bits of a status byte (R117). -/

namespace Sys2Proof

/-! ## Decode and encode -/

/-- Decoding gives back every instruction from its call. -/
theorem roundTrip (i : Instr) : Laws.RoundTrip.Statement i := by
  cases i with
  | picIcw1 e ic4 => exact Laws.RoundTrip.picIcw1 e ic4
  | picOcw3 e esmm smm p rr ris => exact Laws.RoundTrip.picOcw3 e esmm smm p rr ris
  | picOcw2RotateAeoiClear e => exact Laws.RoundTrip.picOcw2RotateAeoiClear e
  | picOcw2Eoi e => exact Laws.RoundTrip.picOcw2Eoi e
  | picOcw2Nop e => exact Laws.RoundTrip.picOcw2Nop e
  | picOcw2SpecificEoi e l => exact Laws.RoundTrip.picOcw2SpecificEoi e l
  | picOcw2RotateAeoiSet e => exact Laws.RoundTrip.picOcw2RotateAeoiSet e
  | picOcw2RotateEoi e => exact Laws.RoundTrip.picOcw2RotateEoi e
  | picOcw2SetPriority e l => exact Laws.RoundTrip.picOcw2SetPriority e l
  | picOcw2RotateSpecificEoi e l => exact Laws.RoundTrip.picOcw2RotateSpecificEoi e l
  | picOcw1 e d => exact Laws.RoundTrip.picOcw1 e d
  | picIcw2 e base => exact Laws.RoundTrip.picIcw2 e base
  | picIcw3 e => exact Laws.RoundTrip.picIcw3 e
  | picIcw4 e sfnm aeoi => exact Laws.RoundTrip.picIcw4 e sfnm aeoi
  | picPollRead e port => exact Laws.RoundTrip.picPollRead e port
  | picIrrRead e => exact Laws.RoundTrip.picIrrRead e
  | picIsrRead e => exact Laws.RoundTrip.picIsrRead e
  | picImrRead e => exact Laws.RoundTrip.picImrRead e
  | picElcrWrite e d => exact Laws.RoundTrip.picElcrWrite e d
  | picElcrRead e => exact Laws.RoundTrip.picElcrRead e
  | pitLatch c => exact Laws.RoundTrip.pitLatch c
  | pitControlLsb c m bcd => exact Laws.RoundTrip.pitControlLsb c m bcd
  | pitControlMsb c m bcd => exact Laws.RoundTrip.pitControlMsb c m bcd
  | pitControlWord c m bcd => exact Laws.RoundTrip.pitControlWord c m bcd
  | pitReadback count status sel0 sel1 sel2 => exact Laws.RoundTrip.pitReadback count status sel0 sel1 sel2
  | pitWriteLsb c b => exact Laws.RoundTrip.pitWriteLsb c b
  | pitWriteMsb c b => exact Laws.RoundTrip.pitWriteMsb c b
  | pitWriteWord0 c b => exact Laws.RoundTrip.pitWriteWord0 c b
  | pitWriteWord1 c b => exact Laws.RoundTrip.pitWriteWord1 c b
  | pitReadStatus c => exact Laws.RoundTrip.pitReadStatus c
  | pitReadLatchedLsb c => exact Laws.RoundTrip.pitReadLatchedLsb c
  | pitReadLatchedMsb c => exact Laws.RoundTrip.pitReadLatchedMsb c
  | pitReadLatchedWord0 c => exact Laws.RoundTrip.pitReadLatchedWord0 c
  | pitReadLiveLsb c => exact Laws.RoundTrip.pitReadLiveLsb c
  | pitReadLiveMsb c => exact Laws.RoundTrip.pitReadLiveMsb c
  | pitReadLiveWord0 c => exact Laws.RoundTrip.pitReadLiveWord0 c
  | pitReadLiveWord1 c => exact Laws.RoundTrip.pitReadLiveWord1 c
  | pitControlRead => exact Laws.RoundTrip.pitControlRead
  | dmaAddrWrite k i b => exact Laws.RoundTrip.dmaAddrWrite k i b
  | dmaCountWrite k i b => exact Laws.RoundTrip.dmaCountWrite k i b
  | dmaAddrRead k i => exact Laws.RoundTrip.dmaAddrRead k i
  | dmaCountRead k i => exact Laws.RoundTrip.dmaCountRead k i
  | dmaCommand k v => exact Laws.RoundTrip.dmaCommand k v
  | dmaRequest k i set => exact Laws.RoundTrip.dmaRequest k i set
  | dmaSingleMask k i set => exact Laws.RoundTrip.dmaSingleMask k i set
  | dmaMode k v => exact Laws.RoundTrip.dmaMode k v
  | dmaClearFlipFlop k => exact Laws.RoundTrip.dmaClearFlipFlop k
  | dmaMasterClear k => exact Laws.RoundTrip.dmaMasterClear k
  | dmaClearMasks k => exact Laws.RoundTrip.dmaClearMasks k
  | dmaWriteMasks k m => exact Laws.RoundTrip.dmaWriteMasks k m
  | dmaStatusRead k => exact Laws.RoundTrip.dmaStatusRead k
  | dmaMaskRead k => exact Laws.RoundTrip.dmaMaskRead k
  | dmaOtherRead k r => exact Laws.RoundTrip.dmaOtherRead k r
  | dmaPageLowWrite k i b => exact Laws.RoundTrip.dmaPageLowWrite k i b
  | dmaPageHighWrite k i b => exact Laws.RoundTrip.dmaPageHighWrite k i b
  | dmaPageRead k h i => exact Laws.RoundTrip.dmaPageRead k h i
  | outwOutl long port value => exact Laws.RoundTrip.outwOutl long port value
  | inwInl long port => exact Laws.RoundTrip.inwInl long port
  | irq line level => exact Laws.RoundTrip.irq line level
  | inta => exact Laws.RoundTrip.inta
  | gate channel level => exact Laws.RoundTrip.gate channel level
  | getOut channel => exact Laws.RoundTrip.getOut channel
  | dreq n => exact Laws.RoundTrip.dreq n
  | drel n => exact Laws.RoundTrip.drel n
  | reg n device => exact Laws.RoundTrip.reg n device
  | getChannelMode n => exact Laws.RoundTrip.getChannelMode n
  | readMemory n buf off pos len => exact Laws.RoundTrip.readMemory n buf off pos len
  | writeMemory n buf off pos len => exact Laws.RoundTrip.writeMemory n buf off pos len
  | newTimer target => exact Laws.RoundTrip.newTimer target
  | update timer change => exact Laws.RoundTrip.update timer change
  | getTime => exact Laws.RoundTrip.getTime
  | tick delta => exact Laws.RoundTrip.tick delta
  | reset => exact Laws.RoundTrip.reset
  | portsRequested d => exact Laws.RoundTrip.portsRequested d

/-! ## The rows at a port

The opcode table, cut down to the rows of one direction at one port, with what each still asks of the access: its
condition, the mask and the value of its data byte, and its place in the table. -/

/-- The rows of a direction at a port: the condition, the mask, the value and the place of each. -/
def rowsAt (write : Bool) (port : Nat) : List (RowCondition × Byte × Byte × Nat) :=
  (portRows.zipIdx.filter fun r => r.1.write == write && r.1.ports.contains port).map
    fun r => (r.1.condition, r.1.mask, r.1.value, r.2)

/-- Whether a row at the port of an access is the one of the access. -/
def rowFits (cur : Cursors) (write : Bool) (port : Nat) (d : Byte) : RowCondition × Byte × Byte × Nat → Bool
  | (condition, mask, value, _) => condition.holds cur port d && (!write || d &&& mask == value)

@[simp] theorem rowFits_mk (cur : Cursors) (write : Bool) (port : Nat) (d : Byte) (condition : RowCondition)
    (mask value : Byte) (n : Nat) : rowFits cur write port d (condition, mask, value, n) =
      (condition.holds cur port d && (!write || d &&& mask == value)) := rfl

/-- An access selects the rows at its port that fit it. -/
theorem findIdxs_selects (cur : Cursors) (write : Bool) (port : Nat) (d : Byte) :
    portRows.findIdxs (fun row => row.selects cur write port d) =
      ((rowsAt write port).filter (rowFits cur write port d)).map fun r => r.2.2.2 := by
  have hrow (row : PortRow) (n : Nat) : row.selects cur write port d =
      (rowFits cur write port d (row.condition, row.mask, row.value, n) &&
        (row.write == write && row.ports.contains port)) := by
    simp only [PortRow.selects, rowFits_mk]; ac_rfl
  rw [List.findIdxs_eq_filterMap_zipIdx, rowsAt, List.filter_map, List.filter_filter, List.map_map,
    ← List.filterMap_eq_filter, List.map_filterMap]
  refine List.filterMap_congr fun r _ => ?_
  simp only [hrow r.1 r.2, Option.guard, Function.comp_apply, Bool.cond_eq_ite]
  split <;> rfl

/-- Where no row at the port asks for a state, the data byte alone selects. -/
theorem findIdxs_selects_of_byte (cur : Cursors) {write : Bool} {port : Nat} (d : Byte)
    (h : ∀ r ∈ rowsAt write port, r.1 = .always ∨ r.1 = .notReadback) :
    portRows.findIdxs (fun row => row.selects cur write port d) =
      ((rowsAt write port).filter (rowFits .reset write 0 d)).map fun r => r.2.2.2 := by
  rw [findIdxs_selects]
  refine congrArg _ (List.filter_congr fun r hr => ?_)
  obtain ⟨condition, mask, value, n⟩ := r
  rcases h _ hr with rfl | rfl <;> rfl

/-! ## The row of a register -/

/-- `i` is the instruction of an access to a register: well formed, in the state its row asks for, and at the place
of the one row of the table that the access selects. -/
structure IsRowOf (cur : Cursors) (write : Bool) (r : PortReg) (d : Byte) (i : Instr) : Prop where
  wf : WellFormed i
  selected : i.selected cur = true
  only : portRows.findIdxs (fun row => row.selects cur write (portOf r) d) = [i.ctorIdx]

/-- A register with one row in a direction, for every byte and state. -/
theorem IsRowOf.of_sole {cur : Cursors} {write : Bool} {r : PortReg} {d : Byte} {i : Instr} {n : Nat}
    (h : rowsAt write (portOf r) = [(.always, 0, 0, n)]) (hw : WellFormed i) (hs : i.selected cur = true)
    (hn : i.ctorIdx = n) : IsRowOf cur write r d i := by
  refine ⟨hw, hs, ?_⟩
  rw [findIdxs_selects, h, hn]
  simp [RowCondition.holds]

@[simp] theorem Cursors.picAt_picCommand (cur : Cursors) (e : Elem) :
    cur.picAt (portOf (.picCommand e)) = cur.pic e := by
  cases e <;> rfl

@[simp] theorem Cursors.picAt_picData (cur : Cursors) (e : Elem) : cur.picAt (portOf (.picData e)) = cur.pic e := by
  cases e <;> rfl

@[simp] theorem Cursors.pitAt_pitData (cur : Cursors) (c : PitChan) : cur.pitAt (portOf (.pitData c)) = cur.pit c := by
  cases c <;> rfl

theorem rowsAt_elcr (write : Bool) (e : Elem) :
    rowsAt write (portOf (.elcr e)) = [(.always, 0, 0, if write then 18 else 19)] := by
  cases write <;> cases e <;> decide

theorem rowsAt_dmaAddress (write : Bool) (k : DmaCtl) (i : DmaChan) :
    rowsAt write (portOf (.dmaAddress k i)) = [(.always, 0, 0, if write then 38 else 40)] := by
  revert i; cases write <;> cases k <;> decide

theorem rowsAt_dmaCount (write : Bool) (k : DmaCtl) (i : DmaChan) :
    rowsAt write (portOf (.dmaCount k i)) = [(.always, 0, 0, if write then 39 else 41)] := by
  revert i; cases write <;> cases k <;> decide

theorem rowsAt_page (write : Bool) (k : DmaCtl) (half : PageHalf) (i : DmaChan) :
    rowsAt write (portOf (.page k half i)) =
      [(.always, 0, 0, if write then (match half with | .low => 53 | .high => 54) else 55)] := by
  revert i; cases write <;> cases k <;> cases half <;> decide

/-! ## Writes -/

@[simp] theorem rowsAt_picCommand_write (e : Elem) : rowsAt true (portOf (.picCommand e)) =
    [(.always, 0x10, 0x10, 0), (.always, 0x18, 0x08, 1), (.always, 0xF8, 0x00, 2), (.always, 0xF8, 0x20, 3),
      (.always, 0xF8, 0x40, 4), (.always, 0xF8, 0x60, 5), (.always, 0xF8, 0x80, 6), (.always, 0xF8, 0xA0, 7),
      (.always, 0xF8, 0xC0, 8), (.always, 0xF8, 0xE0, 9)] := by
  cases e <;> decide

/-- The masks of the ten command rows part the 256 bytes as the decoder does (R106, R112, R113). -/
theorem isRowOf_decodePicCommand (cur : Cursors) (e : Elem) (d : Byte) :
    IsRowOf cur true (.picCommand e) d (decodePicCommand e d) := by
  obtain ⟨hwf, hselected⟩ : (decodePicCommand e d).wf = true ∧ (decodePicCommand e d).selected cur = true := by
    simp only [decodePicCommand]
    repeat' split
    all_goals exact ⟨rfl, rfl⟩
  refine ⟨hwf, hselected, ?_⟩
  rw [findIdxs_selects_of_byte cur d (by simp), rowsAt_picCommand_write]
  clear hwf hselected
  revert d
  cases e <;> decide

@[simp] theorem rowsAt_picData_write (e : Elem) : rowsAt true (portOf (.picData e)) =
    [(.initState .normal, 0, 0, 10), (.initState .icw2, 0, 0, 11), (.initState .icw3, 0, 0, 12),
      (.initState .icw4, 0, 0, 13)] := by
  cases e <;> decide

theorem isRowOf_decodePicData (cur : Cursors) (e : Elem) (d : Byte) :
    IsRowOf cur true (.picData e) d (decodePicData (cur.pic e) e d) := by
  cases h : (cur.pic e).initState with
  | _ =>
    simp only [decodePicData, h]
    exact ⟨rfl, by simp [Instr.selected, h],
      by simp [findIdxs_selects, RowCondition.holds, h, Instr.ctorIdx]⟩

@[simp] theorem rowsAt_pitControl_write : rowsAt true (portOf .pitControl) =
    [(.notReadback, 0x30, 0x00, 20), (.notReadback, 0x30, 0x10, 21), (.notReadback, 0x30, 0x20, 22),
      (.notReadback, 0x30, 0x30, 23), (.always, 0xC0, 0xC0, 24)] := by
  decide

/-- The masks of the five control rows part the 256 bytes as the decoder does (R115, R116). -/
theorem isRowOf_decodePitControl (cur : Cursors) (d : Byte) : IsRowOf cur true .pitControl d (decodePitControl d) := by
  obtain ⟨hwf, hselected⟩ : (decodePitControl d).wf = true ∧ (decodePitControl d).selected cur = true := by
    simp only [decodePitControl]
    repeat' split
    all_goals exact ⟨rfl, rfl⟩
  refine ⟨hwf, hselected, ?_⟩
  rw [findIdxs_selects_of_byte cur d (by simp), rowsAt_pitControl_write]
  clear hwf hselected
  revert d
  decide

@[simp] theorem rowsAt_pitData_write (c : PitChan) : rowsAt true (portOf (.pitData c)) =
    [(.writeState .lsb, 0, 0, 25), (.writeState .msb, 0, 0, 26), (.writeState .word0, 0, 0, 27),
      (.writeState .word1, 0, 0, 28)] := by
  cases c <;> decide

theorem isRowOf_decodePitData (cur : Cursors) (c : PitChan) (d : Byte) :
    IsRowOf cur true (.pitData c) d (decodePitData (cur.pit c) c d) := by
  cases h : (cur.pit c).writeState with
  | _ =>
    simp only [decodePitData, h]
    exact ⟨rfl, by simp [Instr.selected, h],
      by simp [findIdxs_selects, RowCondition.holds, h, Instr.ctorIdx]⟩

theorem rowsAt_dmaControl_write (k : DmaCtl) (r : BitVec 4) (h : 8 ≤ r.toNat) :
    rowsAt true (portOf (.dmaControl k r)) = [(.always, 0, 0, 34 + r.toNat)] := by
  revert r; cases k <;> decide

theorem isRowOf_decodeDmaControl (cur : Cursors) (k : DmaCtl) (r : BitVec 4) (h : 8 ≤ r.toNat) (d : Byte) :
    IsRowOf cur true (.dmaControl k r) d (decodeDmaControl k r d) := by
  have hlt : r.toNat < 16 := r.isLt
  have hsole := rowsAt_dmaControl_write k r h
  unfold decodeDmaControl
  interval_cases r.toNat <;> exact .of_sole hsole rfl rfl rfl

/-- A byte write decodes to the one row that it selects (R130). -/
theorem isRowOf_decodeWrite (cur : Cursors) {r : PortReg} (hr : r.mapped = true) (d : Byte) :
    IsRowOf cur true r d (decodeWrite cur r d) := by
  cases r with
  | picCommand e => exact isRowOf_decodePicCommand cur e d
  | picData e => exact isRowOf_decodePicData cur e d
  | elcr e => exact .of_sole (rowsAt_elcr true e) rfl rfl rfl
  | pitData c => exact isRowOf_decodePitData cur c d
  | pitControl => exact isRowOf_decodePitControl cur d
  | dmaAddress k i => exact .of_sole (rowsAt_dmaAddress true k i) rfl rfl rfl
  | dmaCount k i => exact .of_sole (rowsAt_dmaCount true k i) rfl rfl rfl
  | dmaControl k n => exact isRowOf_decodeDmaControl cur k n (of_decide_eq_true hr) d
  | page k half i =>
    cases half with
    | low => exact .of_sole (rowsAt_page true k .low i) rfl rfl rfl
    | high => exact .of_sole (rowsAt_page true k .high i) rfl rfl rfl

/-! ## Reads -/

@[simp] theorem rowsAt_picCommand_read (e : Elem) : rowsAt false (portOf (.picCommand e)) =
    [(.poll, 0, 0, 14), (.noPollSelect false, 0, 0, 15), (.noPollSelect true, 0, 0, 16)] := by
  cases e <;> decide

theorem isRowOf_picCommand_read (cur : Cursors) (e : Elem) :
    IsRowOf cur false (.picCommand e) 0 (decodePicRead (cur.pic e) e .command) := by
  cases hp : (cur.pic e).poll with
  | true =>
    simp only [decodePicRead, hp]
    exact ⟨rfl, hp, by simp [findIdxs_selects, RowCondition.holds, hp, Instr.ctorIdx]⟩
  | false =>
    cases hs : (cur.pic e).readRegisterSelect with
    | _ =>
      simp only [decodePicRead, hp, hs]
      exact ⟨rfl, by simp [Instr.selected, hp, hs],
        by simp [findIdxs_selects, RowCondition.holds, hp, hs, Instr.ctorIdx]⟩

@[simp] theorem rowsAt_picData_read (e : Elem) :
    rowsAt false (portOf (.picData e)) = [(.poll, 0, 0, 14), (.noPoll, 0, 0, 17)] := by
  cases e <;> decide

theorem isRowOf_picData_read (cur : Cursors) (e : Elem) :
    IsRowOf cur false (.picData e) 0 (decodePicRead (cur.pic e) e .data) := by
  cases hp : (cur.pic e).poll with
  | _ =>
    simp only [decodePicRead, hp]
    exact ⟨rfl, by simp [Instr.selected, hp],
      by simp [findIdxs_selects, RowCondition.holds, hp, Instr.ctorIdx]⟩

@[simp] theorem rowsAt_pitData_read (c : PitChan) : rowsAt false (portOf (.pitData c)) =
    [(.statusLatched, 0, 0, 29), (.countLatched .lsb, 0, 0, 30), (.countLatched .msb, 0, 0, 31),
      (.countLatched .word0, 0, 0, 32), (.live .lsb, 0, 0, 33), (.live .msb, 0, 0, 34), (.live .word0, 0, 0, 35),
      (.live .word1, 0, 0, 36)] := by
  cases c <;> decide

/-- By the status latch, then the count latch, then the read state (R118). -/
theorem isRowOf_decodePitRead (cur : Cursors) (c : PitChan) :
    IsRowOf cur false (.pitData c) 0 (decodePitRead (cur.pit c) c) := by
  cases hs : (cur.pit c).statusLatched with
  | true =>
    simp only [decodePitRead, hs]
    exact ⟨rfl, hs, by simp [findIdxs_selects, RowCondition.holds, hs, Instr.ctorIdx]⟩
  | false =>
    cases hc : (cur.pit c).countLatched with
    | none =>
      cases hr : (cur.pit c).readState with
      | _ =>
        simp only [decodePitRead, hs, hc, hr]
        exact ⟨rfl, by simp [Instr.selected, hs, hc, hr],
          by simp [findIdxs_selects, RowCondition.holds, hs, hc, hr, Instr.ctorIdx]⟩
    | _ =>
      simp only [decodePitRead, hs, hc]
      exact ⟨rfl, by simp [Instr.selected, hs, hc],
        by simp [findIdxs_selects, RowCondition.holds, hs, hc, Instr.ctorIdx]⟩

@[simp] theorem rowsAt_pitControl_read : rowsAt false (portOf .pitControl) = [(.always, 0, 0, 37)] := by
  decide

theorem rowsAt_dmaControl_read (k : DmaCtl) (r : BitVec 4) (h : 8 ≤ r.toNat) :
    rowsAt false (portOf (.dmaControl k r)) =
      [(.always, 0, 0, if r.toNat = 8 then 50 else if r.toNat = 15 then 51 else 52)] := by
  revert r; cases k <;> decide

theorem isRowOf_decodeDmaControlRead (cur : Cursors) (k : DmaCtl) (r : BitVec 4) (h : 8 ≤ r.toNat) :
    IsRowOf cur false (.dmaControl k r) 0 (decodeDmaControlRead k r) := by
  have hlt : r.toNat < 16 := r.isLt
  have hsole := rowsAt_dmaControl_read k r h
  by_cases h8 : r.toNat = 8
  · simp only [decodeDmaControlRead, h8] at hsole ⊢
    exact .of_sole hsole rfl rfl rfl
  · by_cases h15 : r.toNat = 15
    · simp only [decodeDmaControlRead, h15] at hsole ⊢
      exact .of_sole hsole rfl rfl rfl
    · have hwf : WellFormed (.dmaOtherRead k r) := by
        simp only [WellFormed, Instr.wf, isOtherRead, Bool.and_eq_true, decide_eq_true_eq]; omega
      rw [if_neg h8, if_neg h15] at hsole
      simpa [decodeDmaControlRead, h8, h15] using IsRowOf.of_sole (d := 0) hsole hwf rfl rfl

/-- A byte read decodes to the one row that it selects (R130). -/
theorem isRowOf_decodeRead (cur : Cursors) {r : PortReg} (hr : r.mapped = true) :
    IsRowOf cur false r 0 (decodeRead cur r) := by
  cases r with
  | picCommand e => exact isRowOf_picCommand_read cur e
  | picData e => exact isRowOf_picData_read cur e
  | elcr e => exact .of_sole (rowsAt_elcr false e) rfl rfl rfl
  | pitData c => exact isRowOf_decodePitRead cur c
  | pitControl => exact .of_sole rowsAt_pitControl_read rfl rfl rfl
  | dmaAddress k i => exact .of_sole (rowsAt_dmaAddress false k i) rfl rfl rfl
  | dmaCount k i => exact .of_sole (rowsAt_dmaCount false k i) rfl rfl rfl
  | dmaControl k n => exact isRowOf_decodeDmaControlRead cur k n (of_decide_eq_true hr)
  | page k half i => exact .of_sole (rowsAt_page false k half i) rfl rfl rfl

/-! ## The obligations on decoding -/

/-- Settles O2: every instruction's own round trip. -/
theorem decodeEncodeRoundTrip : Obligations.DecodeEncodeRoundTrip := fun cur i => roundTrip i cur

/-- Settles O3: a registered port is that of one of the port map's registers, whose accesses decode to the one row they
select. -/
theorem oneRowForEveryAccess : Obligations.OneRowForEveryAccess := by
  intro cur port r hr
  obtain ⟨hmapped, rfl⟩ := portReg_at hr
  refine ⟨fun b => ?_, ?_⟩
  · obtain ⟨hwf, hselected, honly⟩ := isRowOf_decodeWrite cur hmapped b
    exact ⟨_, decode_writeTo cur hmapped b, hwf, hselected, honly⟩
  · obtain ⟨hwf, hselected, honly⟩ := isRowOf_decodeRead cur hmapped
    exact ⟨_, decode_readOf cur hmapped, hwf, hselected, honly⟩

/-- Settles O1: each call is a byte access at the port of the register named here. -/
theorem decodedCalls : Obligations.DecodedCalls :=
  ⟨decode_writeTo .reset (r := .picCommand .master) rfl 0x11,
    decode_writeTo .reset (r := .picCommand .master) rfl 0x63,
    decode_writeTo .reset (r := .picCommand .master) rfl 0x0B,
    decode_writeTo .reset (r := .picData .slave) rfl 0xFB,
    decode_writeTo .reset (r := .pitControl) rfl 0x34,
    decode_writeTo .reset (r := .pitControl) rfl 0xE2,
    decode_writeTo .reset (r := .dmaControl .primary 11) rfl 0x59,
    decode_writeTo .reset (r := .dmaControl .secondary 9) rfl 0x05,
    decode_writeTo .reset (r := .page .primary .low 1) rfl 0x02,
    decode_readOf .reset (r := .elcr .slave) rfl,
    decode_readOf .reset (r := .pitData .c0) rfl,
    decode_readOf .reset (r := .dmaCount .secondary 1) rfl⟩

end Sys2Proof

namespace Sys2Proof.Machine

/-! ## The status byte -/

/-- An output flag fills bit 7 and no other field of a status byte (R117). -/
theorem flagAt_seven_fields (out : Bool) :
    (flagAt out 7).getLsbD 7 = out ∧ (flagAt out 7).getLsbD 6 = false ∧ (flagAt out 7).extractLsb' 4 2 = 0 ∧
      (flagAt out 7).extractLsb' 1 3 = 0 ∧ (flagAt out 7).getLsbD 0 = false := by
  cases out <;> decide

/-- A BCD flag fills bit 0 and no other field of a status byte (R117). -/
theorem flagAt_zero_fields (bcd : Bool) :
    (flagAt bcd 0).getLsbD 7 = false ∧ (flagAt bcd 0).getLsbD 6 = false ∧ (flagAt bcd 0).extractLsb' 4 2 = 0 ∧
      (flagAt bcd 0).extractLsb' 1 3 = 0 ∧ (flagAt bcd 0).getLsbD 0 = bcd := by
  cases bcd <;> decide

/-- An access mode fills bits 5:4 and no other field of a status byte (R117). -/
theorem rwBits_shift_fields (rw : RwMode) :
    (rwBits rw <<< 4).getLsbD 7 = false ∧ (rwBits rw <<< 4).getLsbD 6 = false ∧
      (rwBits rw <<< 4).extractLsb' 4 2 = (rwBits rw).setWidth 2 ∧
      (rwBits rw <<< 4).extractLsb' 1 3 = 0 ∧ (rwBits rw <<< 4).getLsbD 0 = false := by
  cases rw <;> decide

/-- A counting mode fills bits 3:1 and no other field of a status byte (R117). -/
theorem modeBits_shift_fields (mode : PitMode) :
    (modeBits mode <<< 1).getLsbD 7 = false ∧ (modeBits mode <<< 1).getLsbD 6 = false ∧
      (modeBits mode <<< 1).extractLsb' 4 2 = 0 ∧
      (modeBits mode <<< 1).extractLsb' 1 3 = (modeBits mode).setWidth 3 ∧
      (modeBits mode <<< 1).getLsbD 0 = false := by
  cases mode <;> decide

/-- Settles O35: a status byte is the or of four parts, and each field of it is that of the one part that fills it. -/
theorem statusByteFields : Obligations.StatusByteFields := by
  intro c now
  obtain ⟨o7, o6, orw, omode, o0⟩ := flagAt_seven_fields (c.outAt now)
  obtain ⟨r7, r6, rrw, rmode, r0⟩ := rwBits_shift_fields c.rwMode
  obtain ⟨m7, m6, mrw, mmode, m0⟩ := modeBits_shift_fields c.mode
  obtain ⟨b7, b6, brw, bmode, b0⟩ := flagAt_zero_fields c.bcd
  simp only [statusByte, BitVec.getLsbD_or, BitVec.extractLsb'_or, o7, o6, orw, omode, o0, r7, r6, rrw, rmode, r0, m7,
    m6, mrw, mmode, m0, b7, b6, brw, bmode, b0, Bool.or_false, Bool.false_or, true_and, and_true]
  constructor
  · cases c.rwMode <;> rfl
  · cases c.mode <;> rfl

end Sys2Proof.Machine
end

section
/-! Time and its timers: a drain keeps the queue sorted and so ends with no due timer (R158, R160), fires other devices'
timers in the order of the queue (R159, R161) and the PIT's own at its stored time (R267); the mutations of a timer
(R152 to R156), and the calls that answer only (R81, R150, R151). -/

namespace Sys2Proof.Machine

/-! ## A drain keeps the queue (R62) -/

/-- The invariant of the queue does not look at the events nor at the callbacks' replies. -/
theorem State.QueueInv.told {s : State} (h : s.QueueInv) (ev : Event) (rest : List (List Call)) :
    ({ s.emit ev with expiryReplies := rest } : State).QueueInv := (State.queueInv_congr rfl rfl).mpr h

theorem State.QueueInv.setIrq {s : State} (line : Nat) (l : Bool) (h : s.QueueInv) : (s.setIrq line l).QueueInv :=
  (State.queueInv_congr (s.setIrq_queue line l) (s.setIrq_timers line l)).mpr h

theorem State.QueueInv.pitOnExpiry {s : State} (h : s.QueueInv) : s.pitOnExpiry.QueueInv := by
  unfold State.pitOnExpiry
  split
  · rw [State.irqTimerUpdate_eq, if_pos rfl]
    exact State.changeTimer_inv _ _ ((State.queueInv_congr rfl rfl).mpr (h.setIrq _ _))
  · exact h

theorem State.QueueInv.callbackCall {s t : State} {c : Call} (hs : s.QueueInv) (h : s.callbackCall c = .next t) :
    t.QueueInv := by
  rcases State.callbackCall_next h with ⟨timer, m, _, _, rfl⟩ | ⟨line, l, rfl⟩ | ⟨_, rfl⟩
  · exact State.changeTimer_inv timer m hs
  · exact hs.setIrq line l
  · exact (State.queueInv_congr rfl rfl).mpr hs

theorem State.QueueInv.fire {s t : State} {h : Nat} (hs : s.QueueInv) (hf : s.fire h = .next t) : t.QueueInv := by
  have hpop : (s.popTimer h).QueueInv := State.popTimer_inv h hs
  rcases State.fire_next hf with ⟨u, rfl | rfl, rfl⟩ | ⟨reply, more, _, hrun⟩ | ⟨_, rfl⟩ | rfl
  · exact hpop.pitOnExpiry
  · exact (hpop.told (.expiry h) (s.popTimer h).expiryReplies).pitOnExpiry
  · exact runCallback_keeps (P := State.QueueInv) State.QueueInv.callbackCall (hpop.told _ more) hrun
  · exact hpop.told _ _
  · exact hpop

theorem State.QueueInv.drain {n : Nat} {s t : State} (hs : s.QueueInv) (h : drain n s = .next t) : t.QueueInv :=
  drain_keeps (P := State.QueueInv) State.QueueInv.fire hs h

/-- In a sorted queue whose head is in the future, every timer is. -/
theorem State.Drained.noneDue {s : State} (hd : s.Drained) (hs : s.QueueInv) : s.NoneDue := by
  obtain ⟨hsorted, _, _⟩ := hs
  intro u hu
  match hq : s.queue with
  | [] => simp [hq] at hu
  | h :: rest =>
    have hhead : s.currentTime < s.expiryOf h := hd h rest hq
    rw [hq] at hu hsorted
    rcases List.mem_cons.mp hu with rfl | hu
    · exact hhead
    · exact hhead.trans_le ((List.pairwise_cons.mp hsorted).1 u hu)

theorem State.NoneDue.drained {s : State} (h : s.NoneDue) : s.Drained := fun u _ hq =>
  h u (hq ▸ List.mem_cons_self)

/-! ## The loop, step by step (R158) -/

/-- The state as `time_passes` finds it when it looks at the queue: the time has moved, nothing else has (R158). -/
abbrev State.later (s : State) (delta : Int) : State := { s with currentTime := s.currentTime + delta.toNat }

/-- `time_passes` in range: the time moves, and the queue is drained at the new time. -/
theorem exec_tick {s : State} {delta : Int} (hlow : 0 ≤ delta) (hhigh : delta < 2 ^ 32)
    (hlimit : s.currentTime + delta < 2 ^ 64) :
    exec (.tick delta) s = drain (s.later delta).drainBound (s.later delta) := by
  refine if_neg ?_
  simp only [Config.deltaLimit, Config.timeLimit]
  omega

/-- The loop ends where no timer is due. -/
theorem State.Drained.drain {s : State} (h : s.Drained) (n : Nat) : drain n s = .next s := by
  cases n <;>
  · simp only [Machine.drain]
    split
    · rfl
    · next u rest hq => rw [if_pos (h u rest hq)]

/-- The loop fires a due head and goes on. -/
theorem drain_succ {n : Nat} {s t : State} {h : Nat} {rest : List Nat} (hq : s.queue = h :: rest)
    (hdue : s.expiryOf h ≤ s.currentTime) (hf : s.fire h = .next t) : drain (n + 1) s = drain n t := by
  simp only [drain, hq, if_neg (Nat.not_lt.mpr hdue), hf]

/-- Settles O39: the drain completes with the frame that every firing leaves, its last head lies in the future, and
every firing keeps the queue sorted. -/
theorem timePassesDrains : Obligations.TimePassesDrains := by
  intro s delta hlow hhigh hlimit hqueue hcallbacks hcpu
  obtain ⟨t, ht, _⟩ := drain_completes (s := s.later delta) (State.drainWork_le _) hcallbacks hcpu
  have hframe := drain_frame ht
  have hsorted : t.QueueInv := State.QueueInv.drain (s := s.later delta) hqueue ht
  have htime : t.currentTime = s.currentTime + delta.toNat := hframe.currentTime
  have hmemory : t.memory = s.memory := hframe.memory
  exact ⟨t, (exec_tick hlow hhigh hlimit).trans ht, by omega, (drain_drained ht).noneDue hsorted, hsorted, hframe.pit,
    hframe.dma, fun a => by rw [hmemory], hframe.calls, hframe.deviceReplies, hframe.freeCount, hframe.result, hframe.cpu⟩

/-! ## Other devices' timers (R159, R161, R413) -/

/-- The record of a timer is one that calls another device. -/
def State.CallsDevice (s : State) (u : Nat) : Prop := ∃ r d, s.timers[u]? = some r ∧ r.target = .device d

/-- `t` is what the firing of `fired`, in this order, leaves of `s` when no callback calls in: each is told, disabled and
taken from the front of the queue. -/
structure State.FiredInOrder (s t : State) (fired : List Nat) : Prop where
  told : t.trace = s.trace ++ fired.map .expiry
  queue : s.queue = fired ++ t.queue
  disabled : ∀ u, t.timers[u]? = (s.timers[u]?).map fun r => if u ∈ fired then { r with enabled := false } else r
  pic : s.SamePic t
  pit : s.SamePit t

theorem State.FiredInOrder.nil (s : State) : s.FiredInOrder s [] :=
  ⟨by simp, rfl, fun u => by simp, fun _ => rfl, fun _ => rfl, rfl⟩

/-- The state after the firing of a timer whose callback calls nothing: popped, disabled and told. -/
def State.expired (s : State) (h : Nat) : State := (s.popTimer h).emit (.expiry h)

theorem State.fire_device {s : State} {h : Nat} (hr : s.expiryReplies = []) (hd : s.CallsDevice h) :
    s.fire h = .next (s.expired h) := by
  obtain ⟨r, d, hget, htarget⟩ := hd
  simp only [State.fire, hget, Option.map_some, htarget, State.deviceExpiry, State.emit_expiryReplies,
    State.popTimer_expiryReplies, hr, State.expired]

theorem State.popTimer_getElem? (s : State) (h u : Nat) :
    (s.popTimer h).timers[u]? = (s.timers[u]?).map fun r => if u = h then { r with enabled := false } else r := by
  rw [State.popTimer, State.modifyTimer_getElem?, State.remove_timers]
  by_cases hu : u = h <;> simp [hu]

theorem State.expired_getElem? (s : State) (h u : Nat) :
    (s.expired h).timers[u]? = (s.timers[u]?).map fun r => if u = h then { r with enabled := false } else r :=
  s.popTimer_getElem? h u

/-- A firing leaves the records of the other timers. -/
theorem State.expired_getElem?_ne {s : State} {h u : Nat} (hu : u ≠ h) : (s.expired h).timers[u]? = s.timers[u]? := by
  simp [State.expired_getElem?, hu]

/-- Taking out of a queue what it does not hold leaves it (R156). -/
theorem filter_ne_of_not_mem {h : Nat} {q : List Nat} (habsent : h ∉ q) : q.filter (· ≠ h) = q :=
  List.filter_eq_self.mpr fun u hu => decide_eq_true fun he : u = h => habsent (he ▸ hu)

theorem State.expired_queue {s : State} {h : Nat} {rest : List Nat} (hq : s.queue = h :: rest) (habsent : h ∉ rest) :
    (s.expired h).queue = rest := by
  show s.queue.filter (· ≠ h) = rest
  rw [hq, List.filter_cons_of_neg (by simp), filter_ne_of_not_mem habsent]

/-- The head fires, and then the others. -/
theorem State.FiredInOrder.cons {s t : State} {h : Nat} {rest fired : List Nat} (hq : s.queue = h :: rest)
    (habsent : h ∉ rest) (ht : (s.expired h).FiredInOrder t fired) : s.FiredInOrder t (h :: fired) where
  told := by simp [ht.told, State.expired]
  queue := by rw [hq, ← State.expired_queue hq habsent, ht.queue, List.cons_append]
  disabled u := by
    rw [ht.disabled, State.expired_getElem?, Option.map_map]
    congr 1
    funext r
    by_cases hu : u = h <;> by_cases hf : u ∈ fired <;> simp [hu, hf]
  pic e := (ht.pic e).trans (by simp [State.expired])
  pit := ⟨fun c => (ht.pit.1 c).trans (by simp [State.expired]), ht.pit.2⟩

/-- A drain fires the due timers at the front of the queue in its order, and ends at the first one that is not due. -/
theorem drain_devices {fired rest : List Nat} {n : Nat} {s : State} (hn : fired.length ≤ n)
    (hq : s.queue = fired ++ rest) (hnodup : s.queue.Nodup) (hr : s.expiryReplies = [])
    (hfired : ∀ u ∈ fired, s.expiryOf u ≤ s.currentTime ∧ s.CallsDevice u)
    (hrest : ∀ u more, rest = u :: more → s.currentTime < s.expiryOf u) :
    ∃ t, drain n s = .next t ∧ s.FiredInOrder t fired := by
  induction fired generalizing n s with
  | nil => exact ⟨s, State.Drained.drain (fun u more hu => hrest u more (hq.symm.trans hu)) n, .nil s⟩
  | cons h fired ih =>
    obtain ⟨m, rfl⟩ : ∃ m, n = m + 1 := ⟨n - 1, by rw [List.length_cons] at hn; omega⟩
    obtain ⟨hdue, hdevice⟩ := hfired h List.mem_cons_self
    rw [List.cons_append] at hq
    obtain ⟨habsent, hothers⟩ := List.nodup_cons.mp (hq ▸ hnodup)
    have hqueue := State.expired_queue hq habsent
    have hne : ∀ u ∈ fired ++ rest, u ≠ h := fun u hu he => habsent (he ▸ hu)
    have hexpiry : ∀ u ∈ fired ++ rest, (s.expired h).expiryOf u = s.expiryOf u := fun u hu => by
      simp only [State.expiryOf, State.expired_getElem?_ne (hne u hu)]
    obtain ⟨t, ht, hdone⟩ := ih (n := m) (s := s.expired h) (Nat.le_of_succ_le_succ hn) hqueue (hqueue.symm ▸ hothers) hr
      (fun u hu => by
        have hmem := List.mem_append_left rest hu
        obtain ⟨hdue', r, d, hget, htarget⟩ := hfired u (List.mem_cons_of_mem h hu)
        exact ⟨(hexpiry u hmem).trans_le hdue', r, d, (State.expired_getElem?_ne (hne u hmem)).trans hget, htarget⟩)
      (fun u more hu => (hrest u more hu).trans_eq
        (hexpiry u (List.mem_append_right fired (hu ▸ List.mem_cons_self))).symm)
    exact ⟨t, (drain_succ hq hdue (State.fire_device hr hdevice)).trans ht, .cons hq habsent hdone⟩

/-- The due timers at the front of the queue fire, when every due one calls another device. -/
theorem drain_due {n : Nat} {s : State} (hn : s.queue.length ≤ n) (hnodup : s.queue.Nodup) (hr : s.expiryReplies = [])
    (hdevices : ∀ u ∈ s.queue, s.expiryOf u ≤ s.currentTime → s.CallsDevice u) :
    ∃ t, drain n s = .next t ∧ s.FiredInOrder t (s.queue.takeWhile (s.dueBy s.currentTime)) := by
  have hfront := List.takeWhile_sublist (l := s.queue) (s.dueBy s.currentTime)
  refine drain_devices (hfront.length_le.trans hn) List.takeWhile_append_dropWhile.symm hnodup hr (fun u hu => ?_)
    (fun u more hu => ?_)
  · have hdue : s.dueBy s.currentTime u = true := List.mem_takeWhile_imp hu
    have hle : s.expiryOf u ≤ s.currentTime := of_decide_eq_true hdue
    exact ⟨hle, hdevices u (hfront.mem hu) hle⟩
  · have hnot := List.head?_dropWhile_not (s.dueBy s.currentTime) s.queue
    rw [hu] at hnot
    exact Nat.not_le.mp (of_decide_eq_false hnot)

/-! ## The timer of PIT channel 0 (R267) -/

/-- Driving a line and popping a timer touch different parts. -/
theorem State.popTimer_setIrq (s : State) (h line : Nat) (l : Bool) :
    (s.popTimer h).setIrq line l = (s.setIrq line l).popTimer h := by
  simp only [State.setIrq, State.updateIrq_eq]
  split <;> rfl

/-- A pop of `h` leaves what is read of the other queued timers. -/
theorem State.popTimer_queue_filter (s : State) (h : Nat) (p : Nat → Bool) :
    (s.popTimer h).queue.filter (fun u => decide (u ≠ h) && p ((s.popTimer h).expiryOf u)) =
      s.queue.filter fun u => decide (u ≠ h) && p (s.expiryOf u) := by
  show (s.queue.filter (· ≠ h)).filter _ = _
  rw [List.filter_filter]
  refine List.filter_congr fun u _ => ?_
  by_cases hu : u = h
  · simp [hu]
  · have hexpiry : (s.popTimer h).expiryOf u = s.expiryOf u := State.modifyTimer_expiryOf_ne _ hu
    simp [hu, hexpiry]

/-- A scheduling after the pop of channel 0's timer is one of that timer before it: the pop only disables it and takes it
from the queue. -/
theorem State.PitScheduled.of_popTimer {s t : State} {next : Option Nat}
    (h : (s.popTimer Config.pitTimer).PitScheduled t next) : s.PitScheduled t next where
  stored := h.stored
  records u := by
    rw [h.records, State.popTimer_getElem?, Option.map_map]
    congr 1
    funext r
    by_cases hu : u = Config.pitTimer <;> simp [hu]
  armed x hx := by
    rw [h.armed x hx, State.popTimer_queue_filter s _ fun e => decide (e ≤ x),
      State.popTimer_queue_filter s _ fun e => decide (x < e)]
  disarmed hn := by
    simpa using (h.disarmed hn).trans (by simpa using s.popTimer_queue_filter Config.pitTimer fun _ => true)

/-- A scheduling at a later time leaves no due timer when no other one is due. -/
theorem State.PitScheduled.noneDue {s t : State} {next : Option Nat} (h : s.PitScheduled t next)
    (ht : t.currentTime = s.currentTime) (hr : Config.pitTimer < s.timers.length)
    (hothers : ∀ u ∈ s.queue, u ≠ Config.pitTimer → s.currentTime < s.expiryOf u)
    (hnext : ∀ x, next = some x → s.currentTime < x) : t.NoneDue := by
  intro u hu
  rw [ht, State.expiryOf, h.records]
  by_cases hpit : u = Config.pitTimer
  · cases next with
    | none => rw [h.disarmed rfl, hpit] at hu; simp at hu
    | some x => simpa [hpit, List.getElem?_eq_getElem hr] using hnext x rfl
  · have hmem : u ∈ s.queue := by
      cases next with
      | none => rw [h.disarmed rfl] at hu; exact List.mem_of_mem_filter hu
      | some x =>
        rw [h.armed x rfl] at hu
        rcases List.mem_append.mp hu with hu | hu
        · exact List.mem_of_mem_filter hu
        · exact List.mem_of_mem_filter ((List.mem_cons.mp hu).resolve_left hpit)
    simpa [hpit, State.expiryOf] using hothers u hmem hpit

/-- The firing of the PIT's own timer: the line driven with the level at the stored time, and the next transition after
that time scheduled (R266, R267). -/
theorem State.fire_pit {s : State} {r : Timer} {time : Nat} (hq : s.QueueInv) (hcpu : s.CpuConforms)
    (hr : s.timers[Config.pitTimer]? = some r) (htarget : r.target = .pit0) (hnext : s.pitNext = some time) :
    ∃ t, s.fire Config.pitTimer = .next t ∧
      (s.setIrq Config.pitIrqLine (s.pit0.outAt time)).PitScheduled t (nextTransition s.pit0 time) ∧
      t = { s.setIrq Config.pitIrqLine (s.pit0.outAt time) with
        pitNext := t.pitNext, timers := t.timers, queue := t.queue } := by
  have hlength : 0 < s.timers.length := (List.getElem?_eq_some_iff.mp hr).1
  set u := s.setIrq Config.pitIrqLine (s.pit0.outAt time) with hu
  have hpop : (s.popTimer Config.pitTimer).CpuConforms := hcpu
  refine ⟨({ u.popTimer Config.pitTimer with pitNext := nextTransition s.pit0 time } : State).changeTimer
    Config.pitTimer (scheduleChange (nextTransition s.pit0 time)), ?_, ?_, ?_⟩
  · have hcallback : (s.popTimer Config.pitTimer).pitOnExpiry = (s.popTimer Config.pitTimer).irqTimerUpdate .c0 time := by
      simp only [State.pitOnExpiry, State.popTimer_pitNext, hnext]
    simp only [State.fire, hr, Option.map_some, htarget, if_true]
    rw [State.cpuReturns_completes hpop, hcallback, State.irqTimerUpdate_eq, if_pos rfl, State.popTimer_pit0,
      State.popTimer_setIrq]
  · exact (State.schedule_scheduled (State.popTimer_inv _ (hq.setIrq _ _)) (by simpa [hu] using hlength)).of_popTimer
  · refine (State.changeTimer_keeps _ _ _).trans ?_
    rw [State.changeTimer_pitNext]
    rfl

/-- A drain with the PIT's own timer at the head and no other one due fires it alone, as the new one is not due. -/
theorem drain_pit {n : Nat} {s : State} {rest : List Nat} {r : Timer} {time : Nat} (hq : s.QueueInv)
    (hcpu : s.CpuConforms) (hqueue : s.queue = Config.pitTimer :: rest) (hr : s.timers[Config.pitTimer]? = some r)
    (htarget : r.target = .pit0) (hdue : r.expiry ≤ s.currentTime) (hothers : ∀ u ∈ rest, s.currentTime < s.expiryOf u)
    (hnext : s.pitNext = some time) (hlate : ∀ x, nextTransition s.pit0 time = some x → s.currentTime < x) :
    ∃ t, drain (n + 1) s = .next t ∧
      (s.setIrq Config.pitIrqLine (s.pit0.outAt time)).PitScheduled t (nextTransition s.pit0 time) ∧
      t = { s.setIrq Config.pitIrqLine (s.pit0.outAt time) with
        pitNext := t.pitNext, timers := t.timers, queue := t.queue } := by
  obtain ⟨t, ht, hscheduled, hkeeps⟩ := State.fire_pit hq hcpu hr htarget hnext
  have hexpiry : s.expiryOf Config.pitTimer ≤ s.currentTime := by simpa [State.expiryOf, hr] using hdue
  have hnone : t.NoneDue := by
    refine hscheduled.noneDue (by rw [hkeeps]) ?_ (fun u hu hpit => ?_) (fun x hx => by simpa using hlate x hx)
    · simpa using (List.getElem?_eq_some_iff.mp hr).1
    · have hmem : u ∈ rest := by simpa [hqueue, hpit] using hu
      simpa using hothers u hmem
  exact ⟨t, (drain_succ hqueue hexpiry ht).trans (hnone.drained.drain n), hscheduled, hkeeps⟩

/-- Settles O40: the front of the queue that is due fires in its order; and the PIT's timer fires alone, since the one
it schedules is not due. -/
theorem timersFireInQueueOrder : Obligations.TimersFireInQueueOrder := by
  intro s delta hlow hhigh hlimit hqueue now
  have hnodup : s.queue.Nodup := hqueue.2.1
  have htick := exec_tick hlow hhigh hlimit
  refine ⟨fun hreplies hdevices => ?_, fun rest r time hcpu hq hr htarget hdue hothers hnext hlate => ?_⟩
  · intro fired
    have hlength : (s.later delta).queue.length ≤ (s.later delta).drainBound := by
      simp only [State.drainBound]
      omega
    obtain ⟨t, ht, hfired⟩ := drain_due hlength hnodup hreplies hdevices
    have hsplit : fired ++ s.queue.dropWhile (s.dueBy now) = fired ++ t.queue :=
      List.takeWhile_append_dropWhile.trans hfired.queue
    exact ⟨t, htick.trans ht, hfired.told, (List.append_cancel_left hsplit).symm, hfired.disabled, hfired.pic, hfired.pit⟩
  · obtain ⟨t, ht, hscheduled, hkeeps⟩ :=
      drain_pit (s := s.later delta) hqueue hcpu hq hr htarget hdue hothers hnext hlate
    exact ⟨_, t, State.setIrq_driven _ _ _, hscheduled, htick.trans ht, hkeeps⟩

/-! ## The mutations of a timer (R152 to R156) -/

/-- A mutation of a timer leaves everything but the timers and their queue. -/
theorem State.changeTimer_onlyTimers (s : State) (timer : Nat) (m : TimerChange) :
    s.OnlyTimers (s.changeTimer timer m) := by
  refine ⟨fun e => ?_, ⟨fun c => ?_, ?_⟩, ?_, fun k => ?_, fun a => ?_, ?_, ?_, ?_, ?_, ?_, .same ?_ ?_⟩ <;> simp

/-- An `update` call in range is its mutation. -/
theorem exec_update {s : State} {timer : Nat} {m : TimerChange} (ht : timer < s.timers.length) (hm : m.wf = true) :
    exec (.update timer m) s = .next (s.changeTimer timer m) := if_pos ⟨ht, hm⟩

/-- The `update` of an enabled timer places it as an `arm` at the expiry it has (R154, R155). -/
theorem State.update_eq_arm {s : State} {timer : Nat} (h : s.timerEnabled timer = true) :
    s.update timer = s.arm timer (s.expiryOf timer) := by
  have hsame : (s.modifyTimer timer fun r => { r with expiry := s.expiryOf timer, enabled := true }) = s := by
    have hrecords : s.timers.modify timer (fun r => { r with expiry := s.expiryOf timer, enabled := true }) = s.timers := by
      refine List.ext_getElem? fun u => ?_
      rw [List.getElem?_modify]
      split
      · next hu =>
        subst hu
        cases hget : s.timers[timer]? with
        | none => rfl
        | some r =>
          have henabled : r.enabled = true := by simpa [State.timerEnabled, hget] using h
          simp [State.expiryOf, hget, ← henabled]
      · simp
    simp only [State.modifyTimer, hrecords]
  rw [State.arm, hsame]

/-- The `update` of a timer that is not enabled finds it not queued (R62, R156). -/
theorem State.update_queue_of_disabled {s : State} {timer : Nat} (hq : s.QueueInv) (h : s.timerEnabled timer = false) :
    (s.update timer).queue = s.queue := by
  obtain ⟨_, _, hmem⟩ := hq
  have habsent : timer ∉ s.queue := fun hin => by simp [(hmem timer).mp hin] at h
  simp only [State.update, State.remove_timerEnabled, h]
  exact filter_ne_of_not_mem habsent

/-- Settles O41: an `arm` offers the timer at its new expiry, a `disarm` removes it, and an `update` alone is an `arm` at
the old expiry or, of a timer that is not enabled, changes nothing. -/
theorem updatePlacesTimer : Obligations.UpdatePlacesTimer := by
  intro s timer hq ht placed
  have hframe := s.changeTimer_onlyTimers timer
  refine ⟨fun x hx => ?_, ?_, ?_⟩
  · exact ⟨_, exec_update ht (decide_eq_true hx), State.arm_queue hq ht, s.changeTimer_timers timer (.arm x),
      by simp, by simp, hframe _⟩
  · exact ⟨_, exec_update ht rfl, s.disarm_queue timer, s.changeTimer_timers timer .disarm, by simp, by simp, hframe _⟩
  · refine ⟨_, exec_update ht rfl, ?_, s.update_timers timer, by simp, by simp, hframe _⟩
    show (s.update timer).queue = _
    split
    · next henabled => rw [State.update_eq_arm henabled, State.arm_queue hq ht]
    · next hdisabled => exact State.update_queue_of_disabled hq (Bool.eq_false_of_not_eq_true hdisabled)

/-! ## The calls that answer (R81, R150, R151) -/

/-- An answer alone leaves everything else. -/
theorem State.answer_onlyAnswer (s : State) (r : Result) : s.OnlyAnswer (s.answer r) :=
  ⟨fun e => by simp, ⟨fun c => by simp, rfl⟩, ⟨rfl, rfl, rfl⟩, fun k => by simp, fun _ => rfl, rfl, rfl, rfl, rfl, rfl,
    .same rfl rfl⟩

/-- A new timer and the answer leave everything but the list of timers (R151). -/
theorem State.newTimer_onlyTimers (s : State) (r : Timer) (v : Result) :
    s.OnlyTimers (({ s with timers := s.timers ++ [r] } : State).answer v) := by
  obtain ⟨hpic, hpit, ⟨htime, _, _⟩, hdma, hmemory, hworld⟩ := s.answer_onlyAnswer v
  exact ⟨hpic, hpit, htime, hdma, hmemory, hworld⟩

/-- Settles O42: the three calls' rules are their equations, and the registers of a device are at the ports it
requests. -/
theorem timerAndQueryCalls : Obligations.TimerAndQueryCalls := fun s =>
  ⟨fun _ => ⟨_, rfl, rfl, rfl, rfl, rfl, s.newTimer_onlyTimers _ _⟩,
    ⟨_, rfl, rfl, rfl, s.answer_onlyAnswer _⟩,
    fun d => ⟨_, Config.portsRequested d, rfl, rfl, rfl, s.answer_onlyAnswer _, fun _ => mem_portsRequested⟩⟩

end Sys2Proof.Machine
end

section
/-! The PIC's registers and priorities: which line of an element is deliverable (R200, R201, R228), the line an end of
interrupt ends (R211), and the bits of an edge-triggered cascade pulse (R204). -/

namespace Sys2Proof.Machine

/-! ## Lines of a register -/

@[simp] theorem lineSet_zero (n : Line) : lineSet 0#8 n = false := BitVec.getLsbD_zero

/-- A register without a set line is 0. -/
theorem eq_zero_of_lineSet {b : Byte} (h : ∀ n, lineSet b n = false) : b = 0 :=
  lineSet_ext fun n => (h n).trans (lineSet_zero n).symm

/-- Clearing a line undoes setting it. -/
@[simp] theorem clearLineBit_setLineBit (b : Byte) (n : Line) :
    clearLineBit (setLineBit b n) n = clearLineBit b n := by
  refine lineSet_ext fun m => ?_
  by_cases hm : m = n <;> simp [lineSet_clearLineBit, lineSet_setLineBit, hm]

/-! ## Priority (R200, R201) -/

/-- Settles O13: `get_priority` finds the rank of a set line that no other one ranks before, or no line at all. -/
theorem getPriorityIsLeastRank : Obligations.GetPriorityIsLeastRank := by
  intro pa m
  constructor
  · rintro rfl
    exact getPriority_none.mpr lineSet_zero
  · intro hm
    have hsome : getPriority pa m ≠ 8 := fun h8 => hm (eq_zero_of_lineSet (getPriority_none.mp h8))
    have hlt : getPriority pa m < 8 := lt_of_le_of_ne (getPriority_le pa m) hsome
    obtain ⟨hset, hleast⟩ := (getPriority_some hlt).mp rfl
    have hrank := lineRank_rankLine pa hlt
    exact ⟨rankLine pa (getPriority pa m), hset, hrank.symm, fun n hn => hrank.symm ▸ hleast n hn⟩

/-- A line is pending when it is requested and not masked. -/
theorem PicElement.lineSet_pending (p : PicElement) (n : Line) :
    lineSet p.pending n = (lineSet p.irr n && !lineSet p.imr n) := by
  have hlt : n.toNat < 8 := n.isLt
  simp [PicElement.pending, lineSet, hlt]

/-- A line in service holds others back, but for line 2 of a master in special fully nested mode (R201). -/
theorem PicElement.lineSet_blocking (role : Elem) (p : PicElement) (m : Line) :
    lineSet (p.blocking role) m = true ↔
      lineSet p.isr m = true ∧ ¬(p.specialFullyNested = true ∧ role = .master ∧ m = 2) := by
  unfold PicElement.blocking
  by_cases hexcluded : p.specialFullyNested = true ∧ role = .master
  · obtain ⟨hsfnm, rfl⟩ := hexcluded
    simp [hsfnm, lineSet_clearLineBit, Config.cascadeLine]
  · rw [if_neg (by simpa using hexcluded)]
    exact ⟨fun h => ⟨h, fun ⟨hsfnm, hrole, _⟩ => hexcluded ⟨hsfnm, hrole⟩⟩, And.left⟩

/-- Settles O14: the pending and the blocking lines, read off the registers. -/
theorem getIrqIsDeliverableLine : Obligations.GetIrqIsDeliverableLine := by
  intro role p n
  rw [getIrq_some]
  simp only [PicElement.lineSet_pending, PicElement.lineSet_blocking, Bool.and_eq_true, Bool.not_eq_true', and_imp,
    and_assoc]

/-- With no request there is nothing to deliver. -/
theorem getIrq_of_no_request (role : Elem) {p : PicElement} (h : p.irr = 0) : getIrq role p = none := by
  refine Option.eq_none_iff_forall_ne_some.mpr fun n hn => ?_
  have hset := (getIrq_unmasked hn).1
  simp [h] at hset

/-- The only request is delivered when it is not masked and no line is in service. -/
theorem getIrq_of_one_request (role : Elem) {p : PicElement} {n : Line} (hirr : p.irr = setLineBit 0 n)
    (himr : lineSet p.imr n = false) (hisr : p.isr = 0) : getIrq role p = some n := by
  refine (getIrqIsDeliverableLine role p n).mpr ⟨?_, himr, fun m hm _ => ?_, fun m hm => ?_⟩
  · simp [hirr, lineSet_setLineBit]
  · obtain rfl : m = n := by simpa [hirr, lineSet_setLineBit] using hm
    exact le_rfl
  · simp [hisr] at hm

/-- A slave's line in service holds its own request back. -/
theorem getIrq_slave_ne_of_inService {p : PicElement} {n : Line} (h : lineSet p.isr n = true) :
    getIrq .slave p ≠ some n := by
  intro hn
  obtain ⟨_, _, _, hbefore⟩ := (getIrqIsDeliverableLine .slave p n).mp hn
  exact (hbefore n h (by simp)).false

/-! ## The line that a non-specific EOI ends (R211) -/

/-- The line in service of the highest rank is the one that no line in service ranks before. -/
theorem PicElement.HighestInService.currentLine {p : PicElement} {n : Line} (h : p.HighestInService n) :
    p.currentLine = some n := by
  obtain ⟨hset, hhighest⟩ := h
  have hlt := lineRank_lt p.priorityAdd n
  have hrank : getPriority p.priorityAdd p.isr = lineRank p.priorityAdd n :=
    (getPriority_some hlt).mpr ⟨by rwa [rankLine_lineRank], hhighest⟩
  simp only [PicElement.currentLine, hrank, if_neg hlt.ne, rankLine_lineRank]

theorem PicElement.currentLine_of_none {p : PicElement} (h : p.isr = 0) : p.currentLine = none := by
  have hnone : getPriority p.priorityAdd p.isr = 8 := getPriority_none.mpr fun n => h ▸ lineSet_zero n
  simp only [PicElement.currentLine, hnone, if_true]

/-! ## The cascade pulse of an edge-triggered line 2 (R204) -/

/-- The master's line 2 is edge-triggered: no bit of the ELCR's mask is its own (R6, R35). -/
theorem PicElement.Inv.cascade_edge {p : PicElement} (h : p.Inv .master) : lineSet p.elcr 2 = false := by
  obtain ⟨_, helcr⟩ := h
  have hbit := congrArg (lineSet · 2) helcr
  simpa [lineSet, Config.elcrMask] using hbit

/-- The pulse requests line 2 where its last level was 0, and ends with the level 0. -/
theorem PicElement.pulse_of_edge {p : PicElement} (h : lineSet p.elcr 2 = false) :
    p.pulse = { p with
      irr := if lineSet p.lastIrr 2 then p.irr else setLineBit p.irr 2
      lastIrr := clearLineBit p.lastIrr 2 } := by
  have he : p.elcr.getLsbD Config.cascadeLine.toNat = false := h
  have hl : p.lastIrr.getLsbD Config.cascadeLine.toNat = lineSet p.lastIrr 2 := rfl
  simp only [PicElement.pulse, PicElement.setLine, he, hl, Bool.false_eq_true, if_false]
  cases lineSet p.lastIrr 2 <;> simp [Config.cascadeLine]

end Sys2Proof.Machine
end

section
/-! The PIC's operations: what a command, a read, a request and an acknowledge leave, each with the recomputation that
follows it (R202 to R227), the cascade from a slave line to the CPU (R229), and the calls whose operands are out of
range (R400). -/

namespace Sys2Proof.Machine

/-! ## Operands out of range (R400) -/

/-- Settles O7: each call's own check fails; a channel above 2 is none of the PIT's. -/
theorem operandViolationsFault : Obligations.OperandViolationsFault := by
  intro s
  have hpit : ∀ channel, 2 < channel → pitChan? channel = none := by
    intro channel h
    match channel with
    | n + 3 => rfl
  refine ⟨fun line level h => if_pos h, fun channel level h => ?_, fun delta h => if_pos h, fun timer change h => ?_,
    fun timer x h => ?_, fun channel h => ?_⟩
  · simp only [exec, execGate]
    split
    · rfl
    · next hlevel => rw [hpit channel (h.resolve_right hlevel)]; rfl
  · exact if_neg fun ⟨hlt, _⟩ => absurd hlt (Nat.not_lt.mpr h)
  · exact if_neg fun ⟨_, hwf⟩ => absurd (of_decide_eq_true hwf) (Nat.not_lt.mpr h)
  · simp only [exec, execGetOut, hpit channel h]
    rfl

/-! ## Frames of an element's change -/

/-- A change of one element leaves everything else. -/
theorem State.setPic_onlyPic (s : State) (e : Elem) (p : PicElement) : s.OnlyPic (s.setPic e p) := by
  refine ⟨⟨fun c => ?_, ?_⟩, ⟨?_, ?_, ?_⟩, fun k => ?_, fun a => ?_, ?_, ?_, ?_, ?_, ?_, .same ?_ ?_⟩ <;> simp

/-- A change of one element alone, with no recomputation: the element, and what is left. -/
theorem State.setPic_leaves (s : State) (e : Elem) {p q : PicElement} (h : p = q) :
    (s.setPic e p).pic e = q ∧ (∀ e', e' ≠ e → (s.setPic e p).pic e' = s.pic e') ∧ (s.setPic e p).trace = s.trace ∧
      (s.setPic e p).result = s.result ∧ s.OnlyPic (s.setPic e p) :=
  ⟨by simp [h], fun e' he => by simp [he], s.setPic_trace e p, s.setPic_result e p, s.setPic_onlyPic e p⟩

/-- An operation that ends in a recomputation completes, when the CPU does not call back. -/
theorem State.cpuReturns_recomputed {s : State} (h : s.CpuConforms) (u : State) :
    ∃ t, s.cpuReturns u.updateIrq = .next t ∧ u.Recomputed t :=
  ⟨_, State.cpuReturns_completes h, u.updateIrq_recomputed⟩

/-! ## Requests (R202 to R204) -/

/-- A request with operands in range completes, when the CPU does not call back. -/
theorem exec_irq {s : State} {line level : Nat} (h : s.CpuConforms) (hline : line ≤ 15) (hlevel : level ≤ 1) :
    exec (.irq line level) s = .next (s.setIrq line (level == 1)) := State.setIrqCall_completes hline hlevel h

/-- Settles O15: a request is a driven line and a recomputation. -/
theorem setIrqDrivesLine : Obligations.SetIrqDrivesLine := fun s line _ h hline hlevel =>
  ⟨_, exec_irq h hline hlevel, s.setIrq_driven line _⟩

/-- A request of one of the slave's lines drives it, and recomputes. -/
theorem State.setIrq_slave (s : State) {line : Nat} (h : 7 < line) (l : Bool) :
    s.setIrq line l = ({ s with picS := s.picS.setLine (BitVec.ofNat 3 line) l } : State).updateIrq := by
  simp only [State.setIrq, if_neg (Nat.not_le.mpr h)]
  rfl

/-- A deliverable slave line pulses the master's line 2 (R204). -/
theorem State.updateIrq_picM_of_deliverable {s : State} (h : getIrq .slave s.picS ≠ none) :
    s.updateIrq.picM = s.picM.pulse := by
  rw [State.updateIrq_eq]
  exact if_neg h

/-- Settles O16: the request of a slave line leaves the master to the recomputation, whose pulse finds line 2
edge-triggered. -/
theorem cascadePulseRequestsLineTwo : Obligations.CascadePulseRequestsLineTwo := by
  intro s line level hcpu hslave hline hlevel hinv
  have hedge : lineSet s.picM.elcr 2 = false := hinv.cascade_edge
  refine ⟨_, exec_irq hcpu hline hlevel, ?_⟩
  rw [s.setIrq_slave hslave]
  have hrec := State.updateIrq_recomputed { s with picS := s.picS.setLine (BitVec.ofNat 3 line) (level == 1) }
  refine ⟨fun hdeliver => ?_, fun hnone => hrec.quiet (hrec.slave ▸ hnone), hrec.told⟩
  rw [hrec.slave] at hdeliver
  rw [State.updateIrq_picM_of_deliverable hdeliver, PicElement.pulse_of_edge hedge]
  refine ⟨fun n => ?_, fun n => lineSet_clearLineBit _ _ _⟩
  cases lineSet s.picM.lastIrr 2 <;> simp [lineSet_setLineBit]

/-! ## The acknowledge (R205, R206) -/

/-- An acknowledge leaves the vector offset. -/
theorem PicElement.ack_irqBase (p : PicElement) (n : Line) : (p.ack n).irqBase = p.irqBase := by
  rw [(p.ack_acknowledged n).frame]

/-- The spurious vector of an element. -/
theorem PicElement.vector_spurious (p : PicElement) : p.vector spuriousLine = p.irqBase + 7 := rfl

/-- Nothing deliverable: the master's spurious vector. -/
theorem State.acknowledge_none {s : State} (h : getIrq .master s.picM = none) :
    s.acknowledgeInterrupt = (s.updateIrq, s.picM.irqBase + 7) := by
  simp only [State.acknowledgeInterrupt, h, PicElement.vector_spurious]

/-- A master line of its own: acknowledged, with its vector. -/
theorem State.acknowledge_master {s : State} {m : Line} (h : getIrq .master s.picM = some m) (hm : m ≠ 2) :
    s.acknowledgeInterrupt =
      (({ s with picM := s.picM.ack m } : State).updateIrq, s.picM.irqBase + m.setWidth 8) := by
  simp only [State.acknowledgeInterrupt, h, Config.cascadeLine, if_neg hm, PicElement.vector, PicElement.ack_irqBase]

/-- Line 2 with a deliverable slave line: both acknowledged, with the slave's vector. -/
theorem State.acknowledge_slave {s : State} {j : Line} (h : getIrq .master s.picM = some 2)
    (hj : getIrq .slave s.picS = some j) :
    s.acknowledgeInterrupt =
      (({ s with picM := s.picM.ack 2, picS := s.picS.ack j } : State).updateIrq,
        s.picS.irqBase + j.setWidth 8) := by
  simp only [State.acknowledgeInterrupt, h, Config.cascadeLine, if_true, hj, PicElement.vector]

/-- Line 2 with no deliverable slave line: line 2 acknowledged, with the slave's spurious vector. -/
theorem State.acknowledge_slave_none {s : State} (h : getIrq .master s.picM = some 2)
    (hj : getIrq .slave s.picS = none) :
    s.acknowledgeInterrupt =
      (({ s with picM := s.picM.ack 2 } : State).updateIrq, s.picS.irqBase + 7) := by
  simp only [State.acknowledgeInterrupt, h, Config.cascadeLine, if_true, hj, PicElement.vector_spurious]

/-- `cpu_get_interrupt` completes with the vector that it resolves, when the CPU does not call back. -/
theorem exec_inta {s t : State} {v : Byte} (hcpu : s.CpuConforms) (h : s.acknowledgeInterrupt = (t, v)) :
    exec .inta s = .next (t.answer (.byte v)) := by
  have hexec : exec .inta s = _ := State.cpuReturns_completes hcpu
  rw [hexec, h]

/-- Settles O17: the four ways in which the acknowledge resolves. -/
theorem acknowledgeGivesVector : Obligations.AcknowledgeGivesVector := by
  intro s hcpu
  refine ⟨fun h => ?_, fun m h hm => ?_, fun h j hj => ?_, fun h hj => ?_⟩
  · exact ⟨_, s.updateIrq_recomputed, exec_inta hcpu (State.acknowledge_none h)⟩
  · exact ⟨_, _, s.picM.ack_acknowledged m, State.updateIrq_recomputed _,
      exec_inta hcpu (State.acknowledge_master h hm)⟩
  · exact ⟨_, _, _, s.picM.ack_acknowledged 2, s.picS.ack_acknowledged j, State.updateIrq_recomputed _,
      exec_inta hcpu (State.acknowledge_slave h hj)⟩
  · exact ⟨_, _, s.picM.ack_acknowledged 2, State.updateIrq_recomputed _,
      exec_inta hcpu (State.acknowledge_slave_none h hj)⟩

/-- The vector is a deliverable line's of its element, or an element's spurious one. -/
theorem State.acknowledge_vector (s : State) :
    (∃ e n, s.acknowledgeInterrupt.2 = (s.pic e).irqBase + n.setWidth 8 ∧ getIrq e (s.pic e) = some n) ∨
      ∃ e, s.acknowledgeInterrupt.2 = (s.pic e).irqBase + 7 := by
  cases hm : getIrq .master s.picM with
  | none => exact .inr ⟨.master, by rw [State.acknowledge_none hm]; rfl⟩
  | some m =>
    by_cases h2 : m = 2
    · subst h2
      cases hj : getIrq .slave s.picS with
      | none => exact .inr ⟨.slave, by rw [State.acknowledge_slave_none hm hj]; rfl⟩
      | some j => exact .inl ⟨.slave, j, by rw [State.acknowledge_slave hm hj]; rfl, hj⟩
    · exact .inl ⟨.master, m, by rw [State.acknowledge_master hm h2]; rfl, hm⟩

/-- Settles O18: the vector's line was deliverable, so requested and not masked. -/
theorem vectorIsUnmaskedOrSpurious : Obligations.VectorIsUnmaskedOrSpurious := by
  intro s t v hexec hresult
  obtain rfl := State.cpuReturns_next (s := s) hexec
  obtain rfl : s.acknowledgeInterrupt.2 = v := by simpa using hresult
  refine s.acknowledge_vector.imp_left ?_
  rintro ⟨e, n, hv, hn⟩
  exact ⟨e, n, hv, getIrq_unmasked hn⟩

/-! ## The cascade property (R229) -/

/-- A quiet element whose line `n` is unmasked and low. -/
structure PicElement.Quiet (p : PicElement) (n : Line) : Prop where
  irr : p.irr = 0
  isr : p.isr = 0
  unmasked : lineSet p.imr n = false
  low : lineSet p.lastIrr n = false
  autoEoi : p.autoEoi = false

/-- An element whose one request is line `n`, unmasked, with nothing in service. -/
structure PicElement.Requests (p : PicElement) (n : Line) : Prop where
  irr : p.irr = setLineBit 0 n
  isr : p.isr = 0
  unmasked : lineSet p.imr n = false
  autoEoi : p.autoEoi = false

/-- A rising line is the one request of a quiet element, whatever its trigger (R202). -/
theorem PicElement.Quiet.setLine {p : PicElement} {n : Line} (h : p.Quiet n) : (p.setLine n true).Requests n := by
  have hlow : p.lastIrr.getLsbD n.toNat = false := h.low
  rw [PicElement.setLine_frame]
  refine ⟨?_, h.isr, h.unmasked, h.autoEoi⟩
  simp only [PicElement.setLine, hlow, h.irr]
  split <;> rfl

/-- The pulse makes an edge-triggered line 2 the one request of a quiet master (R204). -/
theorem PicElement.Quiet.pulse {p : PicElement} (h : p.Quiet 2) (hedge : lineSet p.elcr 2 = false) :
    p.pulse.Requests 2 := by
  rw [PicElement.pulse_of_edge hedge, h.low, h.irr]
  exact ⟨rfl, h.isr, h.unmasked, h.autoEoi⟩

/-- The one request is deliverable. -/
theorem PicElement.Requests.deliverable {p : PicElement} {n : Line} (h : p.Requests n) (role : Elem) :
    getIrq role p = some n := getIrq_of_one_request role h.irr h.unmasked h.isr

/-- The acknowledge puts the requested line, alone, in service (R205). -/
theorem PicElement.Requests.ack_isr {p : PicElement} {n : Line} (h : p.Requests n) : (p.ack n).isr = setLineBit 0 n :=
  lineSet_ext fun m => by simp [(p.ack_acknowledged n).inService m, h.isr, h.autoEoi, lineSet_setLineBit]

/-- The acknowledge of an edge-triggered line leaves no request (R205). -/
theorem PicElement.Requests.ack_irr {p : PicElement} {n : Line} (h : p.Requests n) (hedge : lineSet p.elcr n = false) :
    (p.ack n).irr = 0 := by
  refine eq_zero_of_lineSet fun m => ?_
  rw [(p.ack_acknowledged n).requested m, h.irr, lineSet_setLineBit]
  by_cases hm : m = n <;> simp [hm, hedge]

/-- The slave's line in service holds its own request back, also one that its level keeps up. -/
theorem PicElement.Requests.ack_slave {p : PicElement} {n : Line} (h : p.Requests n) :
    getIrq .slave (p.ack n) = none := by
  refine Option.eq_none_iff_forall_ne_some.mpr fun m hm => ?_
  have hset := (getIrq_unmasked hm).1
  rw [(p.ack_acknowledged n).requested m, h.irr, lineSet_setLineBit] at hset
  obtain ⟨rfl, _⟩ : m = n ∧ _ := by simpa using hset
  exact getIrq_slave_ne_of_inService (by simp [h.ack_isr, lineSet_setLineBit]) hm

/-- A recomputation with nothing deliverable changes nothing (R204). -/
theorem State.updateIrq_quiet {s : State} (hs : getIrq .slave s.picS = none) (hm : getIrq .master s.picM = none) :
    s.updateIrq = s := by
  simp [State.updateIrq, hs, hm]

/-- A rising line of a quiet slave requests the quiet master's line 2 and tells the CPU once. -/
theorem State.setIrq_reaches_cpu {s : State} {j : Line} (hslave : s.picS.Quiet j) (hmaster : s.picM.Quiet 2)
    (hedge : lineSet s.picM.elcr 2 = false) :
    (s.setIrq (8 + j.toNat) true).picS = s.picS.setLine j true ∧ (s.setIrq (8 + j.toNat) true).picM = s.picM.pulse ∧
      (s.setIrq (8 + j.toNat) true).trace = s.trace ++ [.raiseInterrupt] := by
  have hline : BitVec.ofNat 3 (8 + j.toNat) = j := by bv_omega
  rw [s.setIrq_slave (by omega), hline]
  have hrec := State.updateIrq_recomputed { s with picS := s.picS.setLine j true }
  have hdeliver : getIrq .slave (s.picS.setLine j true) ≠ none := by simp [hslave.setLine.deliverable .slave]
  have hpulse := State.updateIrq_picM_of_deliverable (s := { s with picS := s.picS.setLine j true }) hdeliver
  refine ⟨hrec.slave, hpulse, ?_⟩
  rw [hrec.told, hpulse, (hmaster.pulse hedge).deliverable]
  rfl

/-- The acknowledge of the cascaded request takes both lines into service, and leaves nothing to deliver. -/
theorem State.acknowledge_cascade {s : State} {j : Line} (hslave : s.picS.Requests j) (hmaster : s.picM.Requests 2)
    (hedge : lineSet s.picM.elcr 2 = false) :
    s.acknowledgeInterrupt =
      ({ s with picM := s.picM.ack 2, picS := s.picS.ack j }, s.picS.irqBase + j.setWidth 8) := by
  have hquiet := State.updateIrq_quiet (s := { s with picM := s.picM.ack 2, picS := s.picS.ack j }) hslave.ack_slave
    (getIrq_of_no_request .master (hmaster.ack_irr hedge))
  rw [State.acknowledge_slave (hmaster.deliverable .master) (hslave.deliverable .slave), hquiet]

/-- Settles O19: the slave's request pulses line 2, which the acknowledge takes off again; the slave's line in service
then leaves the recomputation nothing to deliver. -/
theorem slaveLineReachesCpu : Obligations.SlaveLineReachesCpu := by
  intro s j hcpu hmirr hsirr hmisr hsisr hmimr hsimr hmlast hslast hmauto hsauto hinv
  have hslave : s.picS.Quiet j := ⟨hsirr, hsisr, hsimr, hslast, hsauto⟩
  have hmaster : s.picM.Quiet 2 := ⟨hmirr, hmisr, hmimr, hmlast, hmauto⟩
  have hedge : lineSet s.picM.elcr 2 = false := hinv.cascade_edge
  obtain ⟨hpicS, hpicM, htrace⟩ := State.setIrq_reaches_cpu hslave hmaster hedge
  have hraise : exec (.irq (8 + j.toNat) 1) s = .next (s.setIrq (8 + j.toNat) true) :=
    exec_irq hcpu (by omega) le_rfl
  have hconforms := (s.setIrq_answered (8 + j.toNat) true).conforms hcpu
  generalize s.setIrq (8 + j.toNat) true = t at *
  have hS : t.picS.Requests j := hpicS ▸ hslave.setLine
  have hM : t.picM.Requests 2 := hpicM ▸ hmaster.pulse hedge
  have htedge : lineSet t.picM.elcr 2 = false := by rwa [hpicM, s.picM.pulse_frame]
  have hbase : t.picS.irqBase = s.picS.irqBase := hpicS ▸ s.picS.setLine_irqBase j true
  exact ⟨t, _, hraise, exec_inta hconforms (State.acknowledge_cascade hS hM htedge), htrace, hM.irr, by rw [← hbase]; rfl,
    rfl, hM.ack_isr, hS.ack_isr, hM.ack_irr htedge⟩

/-! ## The command port (R207 to R217) -/

theorem State.OnlyPic.trans {s t u : State} (h : s.OnlyPic t) (k : t.OnlyPic u) : s.OnlyPic u := by
  obtain ⟨⟨hpit, hnext⟩, ⟨htime, htimers, hqueue⟩, hdma, hmem, hcalls, hdev, hexp, hnested, hfree, hcpu⟩ := h
  obtain ⟨⟨kpit, knext⟩, ⟨ktime, ktimers, kqueue⟩, kdma, kmem, kcalls, kdev, kexp, knested, kfree, kcpu⟩ := k
  exact ⟨⟨fun c => (kpit c).trans (hpit c), knext.trans hnext⟩,
    ⟨ktime.trans htime, ktimers.trans htimers, kqueue.trans hqueue⟩, fun c => (kdma c).trans (hdma c),
    fun a => (kmem a).trans (hmem a), kcalls.trans hcalls, kdev.trans hdev, kexp.trans hexp, knested.trans hnested,
    kfree.trans hfree, hcpu.trans kcpu⟩

/-- A notification is an event, and an entry of the CPU's (R95). -/
theorem State.notify_onlyPic (s : State) {ev : Event} (h : ev.isNotice = true) : s.OnlyPic (s.notify ev) :=
  ⟨⟨fun _ => by simp, rfl⟩, ⟨rfl, rfl, rfl⟩, fun _ => by simp, fun _ => rfl, rfl, rfl, rfl, rfl, rfl,
    s.notify_answered h⟩

/-- Settles O20: the reset, the notification and the cursor. -/
theorem icw1StartsInitialization : Obligations.Icw1StartsInitialization := by
  intro s e ic4 hcpu
  refine ⟨_, State.cpuReturns_completes hcpu, ?_, fun e' he => ?_, ?_, ?_, ?_⟩
  · simp [PicElement.elementReset]
  · simp [he]
  · simp
  · simp
  · exact (s.setPic_onlyPic e _).trans ((State.notify_onlyPic _ rfl).trans (State.setPic_onlyPic _ e _))

/-- Settles O21: each command is a change of its element's flags, or nothing. -/
theorem picFlagCommandsSetFlags : Obligations.PicFlagCommandsSetFlags := fun s e =>
  ⟨fun esmm smm p rr ris => ⟨_, rfl, s.setPic_leaves e (by cases rr <;> cases p <;> cases esmm <;> simp)⟩,
    ⟨_, rfl, s.setPic_leaves e rfl⟩, ⟨_, rfl, s.setPic_leaves e rfl⟩, rfl⟩

/-- Settles O22: the line of the highest priority is the one that the commands find. -/
theorem nonSpecificEoiEndsHighestLine : Obligations.NonSpecificEoiEndsHighestLine := by
  intro s e
  refine ⟨fun n hcpu hn => ?_, fun hnone => ?_⟩
  · simp only [exec, execPicOcw2Eoi, execPicOcw2RotateEoi, hn.currentLine]
    exact ⟨State.cpuReturns_recomputed hcpu _, State.cpuReturns_recomputed hcpu _⟩
  · simp only [exec, execPicOcw2Eoi, execPicOcw2RotateEoi, PicElement.currentLine_of_none hnone, and_self]

/-- Settles O23: each command is a change of its element and a recomputation. -/
theorem specificEoiAndRotation : Obligations.SpecificEoiAndRotation := fun _ _ _ hcpu =>
  ⟨State.cpuReturns_recomputed hcpu _, State.cpuReturns_recomputed hcpu _, State.cpuReturns_recomputed hcpu _⟩

/-! ## The data port and the registers (R218 to R227) -/

/-- Settles O24: the mask is written, and a recomputation follows. -/
theorem maskWriteRecomputes : Obligations.MaskWriteRecomputes := fun _ _ _ hcpu => State.cpuReturns_recomputed hcpu _

/-- The vector offset of an ICW2 has its low three bits 0 (R219). -/
theorem fieldAt_three (base : BitVec 5) : fieldAt base 3 = base ++ (0 : BitVec 3) := by
  revert base; decide

/-- Settles O25: each word is a change of its element alone. -/
theorem initializationWordsAdvance : Obligations.InitializationWordsAdvance := fun s e =>
  ⟨fun base => ⟨_, rfl, s.setPic_leaves e (by rw [fieldAt_three])⟩, ⟨_, rfl, s.setPic_leaves e rfl⟩,
    fun _ _ => ⟨_, rfl, s.setPic_leaves e rfl⟩⟩

/-- Settles O26: a read is an answer alone, and the ELCR write a change of its element alone. -/
theorem picRegisterAccess : Obligations.PicRegisterAccess := fun s e =>
  ⟨⟨_, rfl, rfl, rfl, s.answer_onlyAnswer _⟩, ⟨_, rfl, rfl, rfl, s.answer_onlyAnswer _⟩,
    ⟨_, rfl, rfl, rfl, s.answer_onlyAnswer _⟩, ⟨_, rfl, rfl, rfl, s.answer_onlyAnswer _⟩,
    fun _ => ⟨_, rfl, s.setPic_leaves e (by cases e <;> rfl)⟩⟩

/-! ## The poll read (R225) -/

/-- What a poll read leaves of the element of its line (R225). -/
def PicElement.polled (p : PicElement) (n : Line) : PicElement :=
  ({ p with poll := false } : PicElement).clearLine n

/-- The poll latch is no part of the resolution (R201). -/
theorem getIrq_poll (role : Elem) (p : PicElement) (b : Bool) : getIrq role { p with poll := b } = getIrq role p := rfl

/-- With nothing deliverable a poll read gives 0x07 and recomputes. -/
theorem State.pollRead_none {s : State} {e : Elem} (h : getIrq e (s.pic e) = none) :
    s.pollRead e = (s.setPic e { s.pic e with poll := false }).updateIrq.answer (.byte 0x07) := by
  simp only [State.pollRead, State.setPic_pic, if_true, getIrq_poll, h]

/-- A poll read of the master's line 2 takes it off and recomputes nothing. -/
theorem State.pollRead_cascade {s : State} (h : getIrq .master s.picM = some 2) :
    s.pollRead .master = ({ s with picM := s.picM.polled 2 } : State).answer (.byte 2) := by
  have hpic : getIrq .master (s.pic .master) = some 2 := h
  simp only [State.pollRead, State.setPic_pic, if_true, getIrq_poll, hpic, Config.cascadeLine]
  rfl

/-- A poll read of another line of the master takes it off and recomputes. -/
theorem State.pollRead_master {s : State} {n : Line} (h : getIrq .master s.picM = some n) (hn : n ≠ 2) :
    s.pollRead .master =
      ({ s with picM := s.picM.polled n } : State).updateIrq.answer (.byte (n.setWidth 8)) := by
  have hpic : getIrq .master (s.pic .master) = some n := h
  have hrecomputes : Elem.master = .slave ∨ n ≠ Config.cascadeLine := .inr hn
  simp only [State.pollRead, State.setPic_pic, if_true, getIrq_poll, hpic, if_pos hrecomputes]
  rfl

/-- A poll read of the slave takes its line off, and the master's line 2 with it, and recomputes. -/
theorem State.pollRead_slave {s : State} {n : Line} (h : getIrq .slave s.picS = some n) :
    s.pollRead .slave =
      ({ s with picS := s.picS.polled n, picM := s.picM.clearLine 2 } : State).updateIrq.answer
        (.byte (n.setWidth 8)) := by
  have hpic : getIrq .slave (s.pic .slave) = some n := h
  simp only [State.pollRead, State.setPic_pic, if_true, getIrq_poll, hpic, true_or]
  rfl

/-- Settles O27: the forms of a poll read, for a CPU that does not call back. -/
theorem pollReadReturnsLine : Obligations.PollReadReturnsLine := by
  intro s e port hcpu
  have hexec : exec (.picPollRead e port) s = .next (s.pollRead e) := State.cpuReturns_completes hcpu
  rw [hexec]
  refine ⟨fun hnone => ?_, fun n hn => ⟨?_, ?_, ?_⟩⟩
  · exact ⟨_, State.updateIrq_recomputed _, congrArg _ (State.pollRead_none hnone)⟩
  · rintro rfl rfl
    exact congrArg _ (State.pollRead_cascade hn)
  · rintro rfl h2
    exact ⟨_, State.updateIrq_recomputed _, congrArg _ (State.pollRead_master hn h2)⟩
  · rintro rfl
    exact ⟨_, State.updateIrq_recomputed _, congrArg _ (State.pollRead_slave hn)⟩

end Sys2Proof.Machine
end

section
/-! The PIT's counting: the count and the output by mode (R261, R262), the next change of the output (R263), and the
time of the next transition with its rounding (R264, R441). -/

namespace Sys2Proof.Machine

/-! ## The count and the output (R261, R262) -/

theorem toNat_ofInt_half (i : Int) : ((BitVec.ofInt 16 i).toNat : Int) = i % 65536 := by
  rw [BitVec.toNat_ofInt]
  exact Int.toNat_of_nonneg (Int.emod_nonneg i (by decide))

theorem countAfter_toNat (mode : PitMode) (n d : Nat) :
    ((countAfter mode n d).toNat : Int) =
      (match mode with
        | .m0 | .m1 | .m4 | .m5 => (n - d : Int) % 65536
        | .m3 => (n - (2 * d % n : Nat) : Int) % 65536
        | .m2 => (n - (d % n : Nat) : Int) % 65536) := by
  cases mode <;> exact toNat_ofInt_half _

theorem outAfter_iff (mode : PitMode) (n d : Nat) :
    outAfter mode n d = true ↔
      match mode with
        | .m0 => n ≤ d
        | .m1 => d < n
        | .m2 => 0 < d ∧ n ∣ d
        | .m3 => d % n < (n + 1) / 2
        | .m4 | .m5 => d = n := by
  cases mode <;> simp [outAfter, Nat.shiftRight_one, Nat.dvd_iff_mod_eq_zero, Nat.pos_iff_ne_zero, and_comm]

/-- Settles O28: the count and the output after the clocks that have passed. -/
theorem countAndOutputByMode : Obligations.CountAndOutputByMode := fun c _ _ =>
  ⟨countAfter_toNat c.mode c.countValue _, outAfter_iff c.mode c.countValue _⟩

/-! ## The next change of the output (R263) -/

/-- `o` is the first clock after `d` at which the output differs from its level at `d`, or none if there is none. -/
def FirstChange (mode : PitMode) (n d : Nat) (o : Option Nat) : Prop :=
  match o with
  | some d' => d < d' ∧ outAfter mode n d' ≠ outAfter mode n d ∧
      ∀ x, d < x → x < d' → outAfter mode n x = outAfter mode n d
  | none => ∀ x, d < x → outAfter mode n x = outAfter mode n d

/-- Modes 0, 1, 4 and 5 change only around the clock of the count. -/
theorem nextFlip_first_of_once {mode : PitMode} (n d : Nat) (h2 : mode ≠ .m2) (h3 : mode ≠ .m3) :
    FirstChange mode n d (nextFlip mode n d) := by
  cases mode with
  | m2 => exact absurd rfl h2
  | m3 => exact absurd rfl h3
  | m0 | m1 | m4 | m5 =>
    simp only [nextFlip]
    split_ifs <;> grind [FirstChange, outAfter]

/-- After the start the output of mode 2 is high at the multiples of the count. -/
theorem outAfter_m2_of_pos {n x : Nat} (hx : 0 < x) : outAfter .m2 n x = decide (n ∣ x) := by
  rw [Bool.eq_iff_iff, outAfter_iff, decide_eq_true_eq]
  exact and_iff_right hx

/-- In mode 2 a high clock is followed by a low one, and a low one by the end of its period. -/
theorem nextFlip_first_of_m2 {n : Nat} (d : Nat) (hn : 1 ≤ n) : FirstChange .m2 n d (nextFlip .m2 n d) := by
  simp only [nextFlip]
  split_ifs with h1 h0 hhigh
  · subst h1 h0
    exact ⟨by decide, by decide, fun x h h' => by omega⟩
  · subst h1
    intro x hx
    rw [outAfter_m2_of_pos (by omega), outAfter_m2_of_pos (by omega)]
    simp
  · have hnext : ¬n ∣ d + 1 := by
      rw [Nat.dvd_add_right ((outAfter_iff .m2 n d).mp hhigh).2, Nat.dvd_one]
      exact h1
    refine ⟨by omega, ?_, fun x h h' => by omega⟩
    rw [hhigh, outAfter_m2_of_pos (by omega)]
    simpa using hnext
  · have hlow : outAfter .m2 n d = false := Bool.eq_false_of_not_eq_true hhigh
    have hstart : n * (d / n) ≤ d := Nat.mul_div_le d n
    have hend : d < n * (d / n + 1) := Nat.lt_mul_div_succ d hn
    rw [Nat.mul_comm, FirstChange, hlow]
    refine ⟨hend, ?_, fun x h h' => ?_⟩
    · rw [outAfter_m2_of_pos (by omega)]
      simp
    · rw [outAfter_m2_of_pos (by omega), decide_eq_false_iff_not]
      exact Nat.not_dvd_of_lt_of_lt_mul_succ (by omega) h'

/-- In mode 3 the output is high in the first half of each period of the count. -/
theorem outAfter_m3_of_period {n r : Nat} (q : Nat) (hr : r < n) :
    outAfter .m3 n (q * n + r) = decide (r < (n + 1) / 2) := by
  simp only [outAfter, Nat.mul_add_mod_of_lt hr, Nat.shiftRight_one]

/-- In mode 3 the output changes at the middle and at the end of each period. -/
theorem nextFlip_first_of_m3 {n : Nat} (d : Nat) (hn : 1 ≤ n) : FirstChange .m3 n d (nextFlip .m3 n d) := by
  obtain ⟨q, r, hr, rfl⟩ : ∃ q r, r < n ∧ d = q * n + r :=
    ⟨d / n, d % n, Nat.mod_lt _ hn, (Nat.div_add_mod' d n).symm⟩
  have hlevel : ∀ x, q * n + r < x → x < q * n + n → outAfter .m3 n x = decide (x - q * n < (n + 1) / 2) := by
    intro x h h'
    have hx := outAfter_m3_of_period (n := n) (r := x - q * n) q (by omega)
    rwa [Nat.add_sub_cancel' (by omega)] at hx
  have hend : outAfter .m3 n (q * n + n) = true := by
    have := outAfter_m3_of_period (r := 0) (q + 1) hn
    rw [Nat.add_mul, Nat.one_mul, Nat.add_zero] at this
    rw [this]
    simpa using hn
  simp only [nextFlip, Nat.mul_add_mod_of_lt hr, Nat.add_sub_cancel, Nat.shiftRight_one]
  split_ifs with h1 hhigh
  · subst h1
    intro x hx
    simp [outAfter, Nat.mod_one]
  · simp only [FirstChange, outAfter_m3_of_period q hr]
    refine ⟨by omega, ?_, fun x h h' => ?_⟩
    · rw [hlevel _ (by omega) (by omega)]
      simp [hhigh]
    · rw [hlevel _ (by omega) (by omega), decide_eq_decide]
      omega
  · simp only [FirstChange, outAfter_m3_of_period q hr]
    refine ⟨by omega, ?_, fun x h h' => ?_⟩
    · rw [hend]
      simp [hhigh]
    · rw [hlevel _ (by omega) (by omega), decide_eq_decide]
      omega

theorem nextFlip_first (mode : PitMode) {n : Nat} (d : Nat) (hn : 1 ≤ n) :
    FirstChange mode n d (nextFlip mode n d) := by
  cases mode with
  | m2 => exact nextFlip_first_of_m2 d hn
  | m3 => exact nextFlip_first_of_m3 d hn
  | m0 | m1 | m4 | m5 => exact nextFlip_first_of_once n d nofun nofun

/-- Settles O29: `next_flip` is the first change, mode by mode. -/
theorem nextFlipIsFirstChange : Obligations.NextFlipIsFirstChange := by
  intro mode n d hn
  have hfirst := nextFlip_first mode d hn
  exact ⟨fun d' h => by rwa [h] at hfirst, fun h => by rwa [h] at hfirst⟩

/-! ## The next transition time (R264, R441) -/

/-- The tick in which PIT clock `d` falls, rounded down (R264). -/
def PitChannel.flipTime (c : PitChannel) (d : Nat) : Nat :=
  c.countStartTime + scale64 d Config.tickRate Config.pitFreq

/-- The time of the clock `d` as a transition after `t` (R264). -/
def PitChannel.transitionTime (c : PitChannel) (t d : Nat) : Nat :=
  if c.flipTime d ≤ t then t + 1 else c.flipTime d

/-- A transition is that of the next flip, if its time has 64 bits (R264). -/
theorem nextTransition_eq (c : PitChannel) (t : Nat) :
    nextTransition c t = (nextFlip c.mode c.countValue (elapsed c t)).bind fun d =>
      if Config.timeLimit ≤ c.transitionTime t d then none else some (c.transitionTime t d) := by
  unfold nextTransition
  cases nextFlip c.mode c.countValue (elapsed c t) with
  | none => rfl
  | some d =>
    rw [Option.bind_some, PitChannel.transitionTime, PitChannel.flipTime]

/-- A clock has not come before the tick in which it falls (R260). -/
theorem elapsed_lt_of_lt_flipTime {c : PitChannel} {x d : Nat} (hs : c.countStartTime ≤ x) (hx : x < c.flipTime d) :
    elapsed c x < d := by
  simp only [PitChannel.flipTime, elapsed, scale64, Config.pitFreq, Config.tickRate] at *
  omega

/-- One tick after that tick it has come, and no other one has (R260, R441). -/
theorem elapsed_flipTime_succ (c : PitChannel) (d : Nat) : elapsed c (c.flipTime d + 1) = d := by
  simp only [PitChannel.flipTime, elapsed, scale64, Config.pitFreq, Config.tickRate]
  omega

/-- The transition time is the tick of its clock, or the tick after it where that tick is now. -/
theorem transitionTime_cases {c : PitChannel} {t d : Nat} (hd : elapsed c t < d) :
    (t < c.flipTime d ∧ c.transitionTime t d = c.flipTime d) ∨
      (t = c.flipTime d ∧ c.transitionTime t d = c.flipTime d + 1) := by
  rcases Nat.lt_or_ge t (c.flipTime d) with h | h
  · exact .inl ⟨h, if_neg (Nat.not_le.mpr h)⟩
  · have hnow : ¬c.flipTime d + 1 ≤ t := fun hlate => by
      have := elapsed_mono c hlate
      rw [elapsed_flipTime_succ] at this
      omega
    have ht : t = c.flipTime d := by omega
    exact .inr ⟨ht, (if_pos h).trans (by rw [ht])⟩

/-- Before the transition time its clock has not come. -/
theorem elapsed_lt_of_lt_transitionTime {c : PitChannel} {t d x : Nat} (hs : c.countStartTime ≤ t)
    (hd : elapsed c t < d) (hx : t ≤ x) (hlt : x < c.transitionTime t d) : elapsed c x < d := by
  rcases transitionTime_cases hd with ⟨_, h⟩ | ⟨ht, h⟩
  · exact elapsed_lt_of_lt_flipTime (hs.trans hx) (by omega)
  · have hxt : x = t := by omega
    rwa [hxt]

/-- The clock comes at the transition time or one tick later (R441). -/
theorem elapsed_transitionTime {c : PitChannel} {t d : Nat} (hd : elapsed c t < d) :
    elapsed c (c.transitionTime t d) = d ∨ elapsed c (c.transitionTime t d + 1) = d := by
  rcases transitionTime_cases hd with ⟨_, h⟩ | ⟨_, h⟩
  · exact .inr (h ▸ elapsed_flipTime_succ c d)
  · exact .inl (h ▸ elapsed_flipTime_succ c d)

/-- The output at a later time is that of a later clock, or of the same one. -/
theorem PitChannel.outAt_eq_of_later {c : PitChannel} {t x : Nat} (hx : t ≤ x)
    (h : elapsed c t < elapsed c x →
      outAfter c.mode c.countValue (elapsed c x) = outAfter c.mode c.countValue (elapsed c t)) :
    c.outAt x = c.outAt t := by
  rcases (elapsed_mono c hx).eq_or_lt with hsame | hlater
  · rw [PitChannel.outAt, PitChannel.outAt, hsame]
  · exact h hlater

/-- Settles O30: the transition is at the time of the first change that `next_flip` gives. -/
theorem nextTransitionIsFirstChange : Obligations.NextTransitionIsFirstChange := by
  intro c t hn hs
  have hfirst := nextFlip_first c.mode (elapsed c t) hn
  have hbounds := fun u => nextTransition_bounds (c := c) (t := t) (u := u)
  rw [nextTransition_eq] at *
  cases hflip : nextFlip c.mode c.countValue (elapsed c t) with
  | none =>
    rw [hflip] at hfirst
    exact ⟨nofun, fun _ x hx _ => PitChannel.outAt_eq_of_later hx (hfirst _)⟩
  | some d =>
    rw [hflip] at hfirst hbounds
    obtain ⟨hd, hchanged, hbetween⟩ := hfirst
    have hkept : ∀ x, t ≤ x → x < c.transitionTime t d → c.outAt x = c.outAt t := fun x hx hlt =>
      PitChannel.outAt_eq_of_later hx fun hlater =>
        hbetween _ hlater (elapsed_lt_of_lt_transitionTime hs hd hx hlt)
    have hchange : ∀ x, elapsed c x = d → c.outAt x ≠ c.outAt t := by
      rintro x rfl
      exact hchanged
    rw [Option.bind_some] at *
    split_ifs at * with hlimit
    · exact ⟨nofun, fun _ x hx hlt => hkept x hx (hlt.trans_le hlimit)⟩
    · refine ⟨?_, nofun⟩
      rintro u ⟨⟩
      obtain ⟨hlater, hbelow⟩ := hbounds _ rfl
      exact ⟨hlater, hbelow, hkept, (elapsed_transitionTime hd).imp (hchange _) (hchange _)⟩

end Sys2Proof.Machine
end

section
/-! The PIT's operations: what a read, a control word and a latch leave (R268 to R271, R276 to R286), and the restarts
of a channel by a counter write or a rising gate edge (R265, R266, R272 to R275, R285). -/

namespace Sys2Proof.Machine

/-! ## Frames of a channel's change -/

/-- A change of one channel leaves everything but the PIT. -/
theorem State.setPit_onlyPit (s : State) (c : PitChan) (p : PitChannel) : s.OnlyPit (s.setPit c p) := by
  refine ⟨fun e => ?_, ⟨?_, ?_, ?_⟩, fun k => ?_, fun a => ?_, ?_, ?_, ?_, ?_, ?_, .same ?_ ?_⟩ <;> simp

/-- An answer after a change of the PIT leaves everything else, too. -/
theorem State.OnlyPit.answer {s t : State} (h : s.OnlyPit t) (r : Result) : s.OnlyPit (t.answer r) := by
  obtain ⟨hpic, htime, hdma, hmem, hcalls, hdev, hexp, hnested, hfree, hcpu⟩ := h
  exact ⟨fun e => by simpa using hpic e, htime, fun k => by simpa using hdma k, hmem, hcalls, hdev, hexp, hnested, hfree,
    hcpu.congr rfl rfl rfl rfl⟩

/-- A change of one channel alone: the channel, and what is left. -/
theorem State.setPit_leaves (s : State) (c : PitChan) {p q : PitChannel} (h : p = q) :
    (s.setPit c p).pit c = q ∧ (∀ c', c' ≠ c → (s.setPit c p).pit c' = s.pit c') ∧
      (s.setPit c p).pitNext = s.pitNext ∧ (s.setPit c p).trace = s.trace ∧ (s.setPit c p).result = s.result ∧
      s.OnlyPit (s.setPit c p) :=
  ⟨by simp [h], fun c' hc => by simp [hc], s.setPit_pitNext c p, s.setPit_trace c p, s.setPit_result c p,
    s.setPit_onlyPit c p⟩

theorem State.setPit_self (s : State) (c : PitChan) : s.setPit c (s.pit c) = s := by
  cases c <;> rfl

/-- A read that leaves its channel as `p`: its answer, the channel, and what is left. -/
theorem exec_read_leaves {i : Instr} {s : State} {c : PitChan} {p : PitChannel} {v : Byte}
    (h : exec i s = .next ((s.setPit c p).answer (.byte v))) :
    ∃ t, exec i s = .next t ∧ t.result = .byte v ∧ t.pit c = p ∧ (∀ c', c' ≠ c → t.pit c' = s.pit c') ∧
      t.pitNext = s.pitNext ∧ t.trace = s.trace ∧ s.OnlyPit t :=
  ⟨_, h, rfl, by simp, fun c' hc => by simp [hc], by simp, by simp, (s.setPit_onlyPit c p).answer _⟩

/-! ## Reads (R276 to R286) -/

/-- Settles O36: each read is an answer and a change of its channel. -/
theorem latchedReadsConsume : Obligations.LatchedReadsConsume := by
  rintro s c i v p o (⟨rfl, rfl, rfl⟩ | ⟨rfl, rfl, rfl⟩ | ⟨rfl, rfl, rfl⟩ | ⟨rfl, rfl, rfl⟩) <;>
    exact exec_read_leaves rfl

/-- Settles O37: each read is an answer and a change of its channel, which the reads of one byte leave as it is. -/
theorem liveReadsReturnCount : Obligations.LiveReadsReturnCount := by
  rintro s c i v p n (⟨rfl, rfl, rfl⟩ | ⟨rfl, rfl, rfl⟩ | ⟨rfl, rfl, rfl⟩ | ⟨rfl, rfl, rfl⟩)
  · exact exec_read_leaves (by rw [s.setPit_self]; rfl)
  · exact exec_read_leaves (by rw [s.setPit_self]; rfl)
  · exact exec_read_leaves rfl
  · exact exec_read_leaves rfl

/-- Settles O38: both are answers, the first with a free value drawn. -/
theorem controlReadAndOutputQuery : Obligations.ControlReadAndOutputQuery := by
  refine fun s => ⟨?_, fun c channel hc => ?_⟩
  · obtain ⟨hpic, hpit, htime, hdma, hmem, _⟩ := s.answer_onlyAnswer (.byte (Config.pitControlReadValue s.freeCount))
    exact ⟨_, _, rfl, rfl, rfl, hpic, hpit, htime, hdma, hmem, rfl, rfl, rfl⟩
  · have hexec : exec (.getOut channel) s = .next (s.answer (.level ((s.pit c).outAt s.currentTime))) := by
      simp only [exec, execGetOut, hc]
    exact ⟨_, hexec, rfl, rfl, s.answer_onlyAnswer _⟩

/-! ## Control words, latches (R268 to R271) -/

theorem modeOfField_eq (m : BitVec 3) :
    modeOfField m = if m = 0 then .m0 else if m = 1 then .m1 else if m = 2 ∨ m = 6 then .m2
      else if m = 3 ∨ m = 7 then .m3 else if m = 4 then .m4 else .m5 := by
  revert m; decide

/-- Settles O33: a control word is a change of its channel alone. -/
theorem controlWordSetsModes : Obligations.ControlWordSetsModes := by
  rintro s c m bcd rw b i (⟨rfl, rfl, rfl⟩ | ⟨rfl, rfl, rfl⟩ | ⟨rfl, rfl, rfl⟩) <;>
    exact ⟨_, rfl, s.setPit_leaves c (by rw [PitChannel.control, modeOfField_eq]; rfl)⟩

theorem PitChannel.latchCount_eq (p : PitChannel) (now : Nat) :
    p.latchCount now =
      if p.countLatched = .none then
        { p with outputLatch := getCount p now, countLatched := latchStateOf p.rwMode }
      else p := by
  unfold PitChannel.latchCount
  cases h : p.countLatched <;> rfl

/-- Settles O34: the two latches of a channel are changes of it alone, and a readback makes those that it selects. -/
theorem latchCommandsLatch : Obligations.LatchCommandsLatch := by
  intro s count status
  have hcount : ∀ p : PitChannel, p.latchCount s.currentTime = count p := fun p => by
    rw [PitChannel.latchCount_eq]
    cases hrw : p.rwMode <;> simp [count, hrw, latchStateOf]
  have hreadback : ∀ (p : PitChannel) (cnt st : Bool), p.readback cnt st s.currentTime =
      if st then status (if cnt then count p else p) else if cnt then count p else p := fun p cnt st => by
    rw [← hcount]
    rfl
  refine ⟨fun c => ⟨_, rfl, s.setPit_leaves c (hcount _)⟩, fun cnt st sel => ⟨_, rfl, ?_⟩⟩
  refine ⟨fun c => ?_, rfl, rfl, rfl, fun _ => rfl, ⟨rfl, rfl, rfl⟩, fun _ => rfl, fun _ => rfl, rfl, rfl, rfl, rfl, rfl,
    .same rfl rfl⟩
  cases c <;> simp only [← hreadback] <;> rfl

/-! ## Loads and the gate (R265, R266, R272 to R275, R285) -/

theorem joinBytes_toNat (lo hi : Byte) : (joinBytes lo hi).toNat = lo.toNat + 256 * hi.toNat :=
  append_byte_toNat hi lo

/-- The count that two bytes load (R265). -/
theorem loadedCount_joinBytes (lo hi : Byte) :
    loadedCount (joinBytes lo hi) = if hi = 0 ∧ lo = 0 then 0x10000 else lo.toNat + 256 * hi.toNat := by
  have hzero : joinBytes lo hi = 0 ↔ hi = 0 ∧ lo = 0 := by
    simp only [← BitVec.toNat_inj, joinBytes_toNat]
    simp
    omega
  simp only [loadedCount, hzero, joinBytes_toNat]

theorem loadedCount_lsbCount (b : Byte) : loadedCount (lsbCount b) = if b = 0 then 0x10000 else b.toNat := by
  simpa [lsbCount] using loadedCount_joinBytes b 0

theorem loadedCount_msbCount (b : Byte) : loadedCount (msbCount b) = if b = 0 then 0x10000 else 256 * b.toNat := by
  simpa [msbCount] using loadedCount_joinBytes 0 b

/-- A load is a restart with the loaded count (R265). -/
theorem State.loadCount_restarted {s : State} (c : PitChan) {v : Half} {n : Nat} (hq : s.QueueInv)
    (ht : 0 < s.timers.length) (hv : loadedCount v = n) :
    s.Restarted (s.loadCount c v) c { s.pit c with countValue := n, countStartTime := s.currentTime }
      (startLevel (s.pit c).mode) (firstTransition (s.pit c).mode n s.currentTime) := by
  subst hv
  exact State.restart_restarted (p := { s.pit c with countValue := loadedCount v, countStartTime := s.currentTime })
    hq ht (loadedCount_bounds v).1 rfl

/-- Settles O31: each write loads its count, or holds its byte. -/
theorem counterWritesLoadCount : Obligations.CounterWritesLoadCount := by
  intro s c b hq hcpu ht load restart
  refine ⟨⟨_, State.cpuReturns_completes hcpu, State.loadCount_restarted c hq ht (loadedCount_lsbCount b)⟩,
    ⟨_, State.cpuReturns_completes hcpu, State.loadCount_restarted c hq ht (loadedCount_msbCount b)⟩,
    ⟨_, rfl, s.setPit_leaves c rfl⟩,
    ⟨_, State.loadCount_restarted c hq ht (loadedCount_joinBytes _ b), State.cpuReturns_completes hcpu⟩⟩

theorem retriggerable_iff (mode : PitMode) : retriggerable mode = true ↔ mode ≠ .m0 ∧ mode ≠ .m4 := by
  cases mode <;> decide

theorem exec_gate {s : State} {c : PitChan} {channel level : Nat} (hcpu : s.CpuConforms)
    (hc : pitChan? channel = some c) (hlevel : level ≤ 1) :
    exec (.gate channel level) s = .next (s.setGate c (level == 1)) := by
  simp only [exec, execGate, if_neg (Nat.not_lt.mpr hlevel), hc]
  exact State.cpuReturns_completes hcpu

/-- A rising edge in a mode that it restarts (R285). -/
theorem State.setGate_rising {s : State} {c : PitChan} (hmode : retriggerable (s.pit c).mode = true)
    (hgate : (s.pit c).gate = false) :
    s.setGate c true =
      let t := (s.setPit c { s.pit c with countStartTime := s.currentTime }).irqTimerUpdate c s.currentTime
      t.setPit c { t.pit c with gate := true } := by
  simp only [State.setGate, hmode, hgate, Bool.not_false, Bool.and_self, if_true]

/-- Every other change of a gate (R285). -/
theorem State.setGate_level {s : State} {c : PitChan} {level : Bool}
    (h : ¬(retriggerable (s.pit c).mode = true ∧ (s.pit c).gate = false ∧ level = true)) :
    s.setGate c level = s.setPit c { s.pit c with gate := level } := by
  have hedge : ¬(retriggerable (s.pit c).mode && !(s.pit c).gate && level) = true := by
    simpa [and_assoc] using h
  simp only [State.setGate, if_neg hedge]

/-- Settles O32: a rising edge is a restart with the count it has and the level stored, and anything else the level. -/
theorem gateEdgeRestartsCounting : Obligations.GateEdgeRestartsCounting := by
  intro s c channel level hq hcpu ht hn hc hlevel rising
  rw [exec_gate hcpu hc hlevel]
  refine ⟨fun ⟨hmode, hgate, hlevel⟩ => ?_, fun h => ?_⟩
  · subst hlevel
    exact ⟨_, State.restart_restarted (p := { s.pit c with countStartTime := s.currentTime }) hq ht hn rfl,
      congrArg _ (State.setGate_rising ((retriggerable_iff _).mpr hmode) hgate)⟩
  · refine congrArg _ (State.setGate_level ?_)
    simpa only [retriggerable_iff, beq_iff_eq] using h

end Sys2Proof.Machine
end

section
/-! The DMA registers: the writes and reads of a controller that run no channel (R321 to R336), the page registers
(R338 to R340), the calls that name a channel (R342, R345, R346), and the calls whose operands are out of range (R400). -/

namespace Sys2Proof.Machine

/-! ## Operands out of range (R400) -/

theorem bufferRangeOk_eq_false {buf : List Byte} {off pos len : Int}
    (h : off < 0 ∨ pos < 0 ∨ len < 0 ∨ (len ≠ 0 ∧ (buf.length : Int) < off + len)) :
    bufferRangeOk buf off pos len = false := by
  rw [Bool.eq_false_iff, ne_eq, bufferRangeOk_iff]
  omega

/-- Settles O8: each call checks its channel first, and a copy its range next. -/
theorem dmaCallViolationsFault : Obligations.DmaCallViolationsFault := by
  refine fun s n => ⟨fun hn => ?_, fun buf off pos len hn hrange => ?_⟩
  · exact ⟨if_pos hn, if_pos hn, fun _ => if_pos hn, if_pos hn, fun _ _ _ _ => if_pos hn, fun _ _ _ _ => if_pos hn⟩
  · have hn := Nat.not_lt.mpr hn
    have hbad : (!bufferRangeOk buf off pos len) = true := by rw [bufferRangeOk_eq_false hrange]; rfl
    exact ⟨(if_neg hn).trans (if_pos hbad), (if_neg hn).trans (if_pos hbad)⟩

/-! ## Frames of a controller's change -/

/-- A change of one controller leaves everything else. -/
theorem State.setDma_onlyDma (s : State) (k : DmaCtl) (d : DmaController) : s.OnlyDma (s.setDma k d) := by
  refine ⟨fun e => ?_, ⟨fun c => ?_, ?_⟩, ⟨?_, ?_, ?_⟩, fun a => ?_, ?_, ?_, ?_, ?_, ?_, .same ?_ ?_⟩ <;> simp

/-- An answer after a change of the controllers leaves everything else, too. -/
theorem State.OnlyDma.answer {s t : State} (h : s.OnlyDma t) (r : Result) : s.OnlyDma (t.answer r) := by
  obtain ⟨hpic, ⟨hpit, hnext⟩, htime, hmem, hcalls, hdev, hexp, hnested, hfree, hcpu⟩ := h
  exact ⟨fun e => by simpa using hpic e, ⟨fun c => by simpa using hpit c, hnext⟩, htime, hmem, hcalls, hdev, hexp,
    hnested, hfree, hcpu.congr rfl rfl rfl rfl⟩

/-- A write that leaves its controller as `d`: the controller, and what is left. -/
theorem exec_dmaWrite_leaves {i : Instr} {s : State} {k : DmaCtl} {d : DmaController}
    (h : exec i s = .next (s.setDma k d)) :
    ∃ t, exec i s = .next t ∧ t.dma k = d ∧ (∀ k', k' ≠ k → t.dma k' = s.dma k') ∧ t.trace = s.trace ∧
      t.result = s.result ∧ s.OnlyDma t :=
  ⟨_, h, by simp, fun k' hk => by simp [hk], by simp, by simp, s.setDma_onlyDma k d⟩

/-- A read that leaves its controller as `d`: its answer, the controller, and what is left. -/
theorem exec_dmaRead_leaves {i : Instr} {s : State} {k : DmaCtl} {d : DmaController} {v : Byte}
    (h : exec i s = .next ((s.setDma k d).answer (.byte v))) :
    ∃ t, exec i s = .next t ∧ t.result = .byte v ∧ t.dma k = d ∧ (∀ k', k' ≠ k → t.dma k' = s.dma k') ∧
      t.trace = s.trace ∧ s.OnlyDma t :=
  ⟨_, h, rfl, by simp, fun k' hk => by simp [hk], by simp, (s.setDma_onlyDma k d).answer _⟩

/-- A read that leaves its controller as it is: its answer, and what is left. -/
theorem exec_answer_leaves {i : Instr} {s : State} {v : Byte} (h : exec i s = .next (s.answer (.byte v))) :
    ∃ t, exec i s = .next t ∧ t.result = .byte v ∧ t.trace = s.trace ∧ s.OnlyAnswer t :=
  ⟨_, h, rfl, rfl, s.answer_onlyAnswer _⟩

theorem State.setDma_self (s : State) (k : DmaCtl) : s.setDma k (s.dma k) = s := by
  cases k <;> rfl

/-! ## Base and current registers (R321 to R325) -/

/-- The byte that the flip-flop selects is replaced (R322, R323). -/
theorem withByte_eq (h : Half) (high : Bool) (b : Byte) :
    withByte h high b = if high then b ++ h.extractLsb' 0 8 else h.extractLsb' 8 8 ++ b := by
  cases high <;> rfl

/-- A block starts at its base address in bytes (R321). -/
theorem blockStart_eq (k : DmaCtl) (base : Half) :
    blockStart k base = BitVec.ofNat 32 (base.toNat * 2 ^ Config.dShift k) := by
  refine BitVec.eq_of_toNat_eq ?_
  have hbase := base.isLt
  rw [blockStart, BitVec.toNat_shiftLeft, BitVec.toNat_setWidth, BitVec.toNat_ofNat, Nat.shiftLeft_eq,
    Nat.mod_eq_of_lt (by omega : base.toNat < 2 ^ 32)]

/-- The start of a block in the channel's own registers (R321). -/
theorem DmaChannel.init_eq (k : DmaCtl) (ch : DmaChannel) : ch.init k =
    { ch with currentAddress := BitVec.ofNat 32 (ch.baseAddress.toNat * 2 ^ Config.dShift k), currentWordCount := 0 } :=
  congrArg (fun a => { ch with currentAddress := a, currentWordCount := 0 }) (blockStart_eq k ch.baseAddress)

/-- A change of a channel leaves the flip-flop to toggle. -/
theorem DmaController.toggle_setCh (d : DmaController) (i : DmaChan) (ch : DmaChannel) :
    (d.setCh i ch).toggle = { d.setCh i ch with flipFlop := !d.flipFlop } := by
  rw [DmaController.toggle, DmaController.setCh_flipFlop]

/-- Settles O44: both writes replace a byte of their register, and the high byte starts the block. -/
theorem dmaBaseWritesThroughFlipFlop : Obligations.DmaBaseWritesThroughFlipFlop := by
  intro s k i b ff put start
  have hput : ∀ h, withByte h ff b = put h := fun h => withByte_eq h ff b
  have hstart : ∀ ch : DmaChannel, (if ff then ch.init k else ch) = start ch := fun ch => by
    rw [DmaChannel.init_eq]
  refine ⟨exec_dmaWrite_leaves ?_, exec_dmaWrite_leaves ?_⟩
  · rw [← hput, ← hstart, ← DmaController.toggle_setCh]
    rfl
  · rw [← hput, ← hstart, ← DmaController.toggle_setCh]
    rfl

/-- The byte of a register read, from the value that the register holds mod 2^32 (R324, R325). -/
theorem registerByte_eq {k : DmaCtl} {high : Bool} {val : Long} {v : Int} (h : (val.toNat : Int) = v % 2 ^ 32) :
    registerByte k high val =
      BitVec.ofNat 8 ((v % 2 ^ 32).toNat / 2 ^ (Config.dShift k + if high then 8 else 0)) := by
  refine BitVec.eq_of_toNat_eq ?_
  rw [← h, Int.toNat_natCast, registerByte, BitVec.toNat_setWidth, BitVec.toNat_ushiftRight, BitVec.toNat_ofNat,
    Nat.shiftRight_eq_div_pow]

theorem reachedAddress_toNat (ch : DmaChannel) : ((reachedAddress ch).toNat : Int) =
    (if ch.mode.getLsbD 5 then (ch.currentAddress.toNat : Int) - ch.currentWordCount.toNat
      else ch.currentAddress.toNat + ch.currentWordCount.toNat) % 2 ^ 32 := by
  have haddress := ch.currentAddress.isLt
  have hcount := ch.currentWordCount.isLt
  rw [reachedAddress, DmaChannel.decrement]
  split
  · rw [BitVec.toNat_sub]
    omega
  · rw [BitVec.toNat_add]
    omega

theorem remainingCount_toNat (k : DmaCtl) (ch : DmaChannel) : ((remainingCount k ch).toNat : Int) =
    ((ch.baseWordCount.toNat : Int) * 2 ^ Config.dShift k - ch.currentWordCount.toNat) % 2 ^ 32 := by
  have hbase := ch.baseWordCount.isLt
  have hcount := ch.currentWordCount.isLt
  have hshift : ch.baseWordCount.setWidth 32 <<< Config.dShift k = blockStart k ch.baseWordCount := rfl
  rw [remainingCount, hshift, blockStart_eq, BitVec.toNat_sub, BitVec.toNat_ofNat]
  cases k <;> simp only [Config.dShift] <;> omega

/-- Settles O45: both reads give a byte of a value mod 2^32. -/
theorem dmaCurrentReadsThroughFlipFlop : Obligations.DmaCurrentReadsThroughFlipFlop := by
  intro s k i ff ch byteOf
  have hbyte : ∀ {val : Long} {v : Int}, (val.toNat : Int) = v % 2 ^ 32 → registerByte k ff val = byteOf v :=
    registerByte_eq
  refine ⟨exec_dmaRead_leaves ?_, exec_dmaRead_leaves ?_⟩
  · rw [← hbyte (reachedAddress_toNat ch)]
    rfl
  · rw [← hbyte (remainingCount_toNat k ch)]
    rfl

/-! ## Control writes and reads (R326 to R336) -/

/-- The command values that are stored are 0x00 and 0x04 (R326). -/
theorem command_accepted_iff (v : Byte) : v &&& 0xFB = 0 ↔ v = 0x00 ∨ v = 0x04 := by
  revert v
  decide

theorem getLsbD_maskBit (i j : DmaChan) : (maskBit i).getLsbD j.val = decide (j = i) := by
  revert i j
  decide

/-- The set mask bits are those of before and the channel's (R328). -/
theorem mask_or_maskBit {m m' : BitVec 4} {i : DmaChan}
    (h : ∀ j : DmaChan, m'.getLsbD j.val = (m.getLsbD j.val || decide (j = i))) : m ||| maskBit i = m' := by
  refine BitVec.eq_of_getLsbD_eq fun j hj => ?_
  rw [BitVec.getLsbD_or, getLsbD_maskBit i ⟨j, hj⟩, h ⟨j, hj⟩]

/-- A mode byte selects its channel by its two low bits (R329). -/
theorem dmaChannelOf_eq {v : Byte} {i : DmaChan} (h : i.val = v.toNat % 4) : dmaChannelOf v = i := by
  refine Fin.ext ?_
  rw [h]
  simp [dmaChannelOf, field]

/-- Settles O46: each write leaves its controller as the rule says. -/
theorem dmaControlWrites : Obligations.DmaControlWrites := by
  rintro s k i d (⟨v, rfl, rfl⟩ | ⟨ch, rfl, hd, hmask⟩ | ⟨v, ch, rfl, hch, rfl⟩ | ⟨rfl, rfl⟩ | ⟨rfl, rfl⟩)
  · refine exec_dmaWrite_leaves ?_
    simp only [exec, execDmaCommand, command_accepted_iff]
    split
    · rfl
    · rw [State.setDma_self]
  · refine exec_dmaWrite_leaves ?_
    rw [hd, ← mask_or_maskBit hmask]
    rfl
  · refine exec_dmaWrite_leaves ?_
    rw [← dmaChannelOf_eq hch]
    rfl
  · exact exec_dmaWrite_leaves rfl
  · exact exec_dmaWrite_leaves rfl

/-- A mask is read as a byte with its upper half 0 (R335). -/
theorem mask_setWidth (m : BitVec 4) : m.setWidth 8 = (0 : BitVec 4) ++ m := by
  revert m
  decide

/-- Settles O47: each read is an answer, the status read's after its terminal-count bits are cleared. -/
theorem dmaControlReads : Obligations.DmaControlReads := by
  refine fun s k => ⟨exec_dmaRead_leaves rfl, exec_answer_leaves ?_, fun r => exec_answer_leaves rfl⟩
  rw [← mask_setWidth]
  rfl

/-! ## Page registers and the channel calls (R338 to R346) -/

/-- Settles O48: a page write changes its register, and a page read is an answer. -/
theorem dmaPageRegisters : Obligations.DmaPageRegisters := fun _ _ _ _ =>
  ⟨exec_dmaWrite_leaves rfl, exec_dmaWrite_leaves rfl, exec_answer_leaves rfl, exec_answer_leaves rfl⟩

theorem getLsbD_requestBit (i : DmaChan) {j : Nat} (hj : j < 8) :
    (requestBit i).getLsbD j = decide (j = 4 + i.val) := by
  interval_cases j <;> revert i <;> decide

/-- A cleared request leaves the other bits of the status (R342). -/
theorem DmaController.clearRequest_getLsbD (d : DmaController) (i : DmaChan) {j : Nat} (hj : j < 8) :
    (d.clearRequest i).status.getLsbD j = (d.status.getLsbD j && decide (j ≠ 4 + i.val)) := by
  rw [DmaController.clearRequest, BitVec.getLsbD_and, BitVec.getLsbD_not, getLsbD_requestBit i hj]
  simp [hj]

/-- Settles O49: the calls of a channel 0..7 pass their check and act on that channel. -/
theorem dmaChannelCalls : Obligations.DmaChannelCalls := by
  intro s k i n hn
  have hn : n = globalChannel k i := hn
  subst hn
  have hle := Nat.not_lt.mpr (globalChannel_le k i)
  have hrelease : exec (.drel (globalChannel k i)) s = .next (s.setDma k ((s.dma k).clearRequest i)) := by
    simp only [exec, execDrel, State.releaseCall, if_neg hle, controllerOf_globalChannel, channelOf_globalChannel]
  refine ⟨?_, fun device => exec_dmaWrite_leaves ?_, exec_answer_leaves ?_⟩
  · obtain ⟨t, ht, hdma, hleft⟩ := exec_dmaWrite_leaves hrelease
    exact ⟨t, ht, by rw [hdma]; rfl, fun j hj => by rw [hdma, DmaController.clearRequest_getLsbD _ _ hj], hleft⟩
  · simp only [exec, execReg, if_neg hle, controllerOf_globalChannel, channelOf_globalChannel]
    rfl
  · simp only [exec, execGetChannelMode, State.channelModeCall, if_neg hle, controllerOf_globalChannel,
      channelOf_globalChannel]

end Sys2Proof.Machine
end

section
/-! Passes over a DMA controller (R341, R343, R344, R347): what a task leaves, that a pass completes and what it
leaves, one run of a channel with the calls of its device, and the order of the runs. -/

namespace Sys2Proof.Machine

/-! ## The controllers in a pass -/

/-- All registers of the controllers but request bits and positions are as before. -/
structure State.ControllersKept (s t : State) : Prop where
  controllers : ∀ k, (t.dma k).command = (s.dma k).command ∧ (t.dma k).mask = (s.dma k).mask ∧
    (t.dma k).flipFlop = (s.dma k).flipFlop ∧ (t.dma k).status &&& 0x0F = (s.dma k).status &&& 0x0F
  channels : ∀ k i, t.chan k i = { s.chan k i with currentWordCount := (t.chan k i).currentWordCount }

theorem State.ControllersKept.of_dma {s t : State} (h : ∀ k, t.dma k = s.dma k) : s.ControllersKept t where
  controllers k := by simp [h]
  channels k i := by simp [State.chan, h]

theorem State.ControllersKept.trans {s t u : State} (h : s.ControllersKept t) (k : t.ControllersKept u) :
    s.ControllersKept u where
  controllers c :=
    have ⟨hcommand, hmask, hflip, hstatus⟩ := h.controllers c
    have ⟨kcommand, kmask, kflip, kstatus⟩ := k.controllers c
    ⟨kcommand.trans hcommand, kmask.trans hmask, kflip.trans hflip, kstatus.trans hstatus⟩
  channels c i := by rw [k.channels c i, h.channels c i]

theorem State.setPosition_kept (s : State) (k : DmaCtl) (i : DmaChan) (w : Long) :
    s.ControllersKept (s.setChan k i { s.chan k i with currentWordCount := w }) where
  controllers k' := by
    refine ⟨by simp, by simp, ?_, by simp⟩
    by_cases hk : k' = k <;> simp [State.setChan, hk]
  channels k' i' := by
    rw [State.setChan_chan]
    split
    · next h => obtain ⟨rfl, rfl⟩ := h; rfl
    · rfl

theorem State.setStatus_kept (s : State) (k : DmaCtl) {b : Byte} (h : b &&& 0x0F = (s.dma k).status &&& 0x0F) :
    s.ControllersKept (s.setDma k { s.dma k with status := b }) where
  controllers k' := by
    rw [State.setDma_dma]
    split
    · next hk => subst hk; exact ⟨rfl, rfl, rfl, h⟩
    · exact ⟨rfl, rfl, rfl, rfl⟩
  channels k' i' := by simp

/-- The request bits are none of the terminal-count bits (R66). -/
theorem setRequest_low (b : Byte) (i : DmaChan) : (b ||| requestBit i) &&& 0x0F = b &&& 0x0F := by
  have hnone : requestBit i &&& 0x0F = 0 := by fin_cases i <;> decide
  rw [BitVec.and_or_distrib_right, hnone]
  exact BitVec.or_zero

theorem clearRequest_low (b : Byte) (i : DmaChan) : (b &&& ~~~requestBit i) &&& 0x0F = b &&& 0x0F := by
  have hall : ~~~requestBit i &&& 0x0F = 0x0F := by fin_cases i <;> decide
  rw [BitVec.and_assoc, hall]

/-- One task moves request bits and positions at most. -/
theorem State.taskStep_kept {s t : State} {task : Task} {more : List Task} (h : s.taskStep task = .next (t, more)) :
    s.ControllersKept t := by
  rcases State.taskStep_state h with rfl | ⟨k, i, w, rfl⟩ | ⟨_, rfl⟩ | ⟨_, rfl⟩ | ⟨ev, k, i, w, _, rfl⟩ |
    ⟨_, _, _, rfl⟩ | ⟨_, _, _, rfl⟩ | ⟨_, rfl⟩ | ⟨n, rfl⟩ | ⟨n, rfl⟩ | ⟨_, _, rfl⟩
  · exact .of_dma fun _ => rfl
  · exact s.setPosition_kept k i w
  · exact .of_dma fun k => by cases k <;> rfl
  · exact .of_dma fun k => by cases k <;> rfl
  · exact .trans (.of_dma (s.emit_dma ev)) (State.emit_chan s ev k i ▸ (s.emit ev).setPosition_kept k i w)
  · exact .of_dma fun k => by simp
  · exact .of_dma fun k => by simp
  · exact .of_dma fun k => by simp
  · exact s.setStatus_kept _ (clearRequest_low _ _)
  · exact s.setStatus_kept _ (setRequest_low _ _)
  · exact .of_dma fun k => by simp

theorem State.runTransfers_kept {s t : State} {k : DmaCtl} (h : s.runTransfers k = .next t) : s.ControllersKept t :=
  runTasks_keeps (P := s.ControllersKept) (fun hu hv => hu.trans (State.taskStep_kept hv)) (.of_dma fun _ => rfl) h

/-- What a pass leaves (R343, R344, R347). -/
theorem State.runTransfers_leaves {s t : State} {k : DmaCtl} (h : s.runTransfers k = .next t) : s.PassLeaves t :=
  have hframe := runTasks_frame h
  have hkept := State.runTransfers_kept h
  { pit := ⟨hframe.pit, hframe.pitNext⟩
    time := ⟨hframe.currentTime, hframe.timers, hframe.queue⟩
    calls := hframe.calls
    expiryReplies := hframe.expiryReplies
    result := hframe.result
    cpu := hframe.cpu
    controllers := hkept.controllers
    channels := hkept.channels }

/-! ## What the devices' calls do -/

/-- The calls that the listed replies still make all satisfy `C`. -/
def State.RepliesSatisfy (C : Call → Prop) (s : State) : Prop := ∀ r ∈ s.deviceReplies, ∀ c ∈ r.calls, C c

/-- A task that makes a call makes one that satisfies `C`. -/
def Task.CallSatisfies (C : Call → Prop) (task : Task) : Prop := ∀ c, task = .call c → C c

theorem State.pendingRuns_callSatisfies {C : Call → Prop} {s : State} {k : DmaCtl} :
    ∀ x ∈ s.pendingRuns k, x.CallSatisfies C := by
  intro x hx c hc
  rw [State.pendingRuns_eq] at hx
  obtain ⟨i, _, hi⟩ := List.mem_map.mp hx
  rw [hc] at hi
  cases hi

/-- A task brings no calls but those of the next reply, which it takes from the list. -/
theorem State.taskStep_replies {C : Call → Prop} {s t : State} {task : Task} {more : List Task}
    (hs : s.RepliesSatisfy C) (h : s.taskStep task = .next (t, more)) :
    t.RepliesSatisfy C ∧ ∀ x ∈ more, x.CallSatisfies C := by
  cases task with
  | run k i =>
    simp only [State.taskStep, Host.Outcome.next.injEq] at h
    rcases s.runChannel_cases k i with ⟨_, _, hr⟩ | ⟨_, hr⟩ | ⟨_, d, _, hr⟩
    · cases hr.symm.trans h
      exact ⟨by simpa [State.RepliesSatisfy] using hs, by simp⟩
    · cases hr.symm.trans h
      exact ⟨hs, by simp⟩
    · rw [hr] at h
      rcases s.callDevice_cases k i d (s.chan k i).currentWordCount.toNat (threshold k (s.chan k i)) with
        ⟨r, rest, hl, hc⟩ | ⟨_, p, hc⟩
      · cases hc.symm.trans h
        rw [State.RepliesSatisfy, hl, List.forall_mem_cons] at hs
        obtain ⟨hfirst, hrest⟩ := hs
        refine ⟨hrest, fun x hx c hxc => ?_⟩
        subst hxc
        simp only [List.mem_append, List.mem_map, List.mem_singleton, Task.call.injEq, exists_eq_right, reduceCtorEq,
          or_false] at hx
        exact hfirst c hx
      · cases hc.symm.trans h
        exact ⟨hs, by simp [Task.CallSatisfies]⟩
  | finish k i position size p =>
    simp only [State.taskStep] at h
    split at h
    · next u hu =>
      obtain ⟨_, _, w, rfl⟩ := State.finishTransfer_next hu
      cases h
      exact ⟨by simpa [State.RepliesSatisfy] using hs, by simp⟩
    · cases h
    · cases h
  | call c =>
    rcases (State.deviceCall_next h).2 with ⟨rfl, hd⟩ | ⟨_, n, rfl, rfl⟩
    · refine ⟨?_, by simp⟩
      rcases hd with ⟨_, _, _, rfl⟩ | ⟨_, _, _, rfl⟩ | ⟨_, rfl⟩ | ⟨_, rfl⟩ | ⟨_, _, rfl⟩ <;>
        simpa [State.RepliesSatisfy] using hs
    · exact ⟨by simpa [State.RepliesSatisfy] using hs, State.pendingRuns_callSatisfies⟩

/-- What every task with a call that satisfies `C` keeps, a pass keeps when the listed replies make no other calls. -/
theorem State.runTransfers_keeps {C : Call → Prop} {P : State → Prop}
    (hstep : ∀ {s t : State} {task : Task} {more : List Task}, task.CallSatisfies C → P s →
      s.taskStep task = .next (t, more) → P t)
    {s t : State} {k : DmaCtl} (hC : s.RepliesSatisfy C) (hs : P s) (h : s.runTransfers k = .next t) : P t := by
  have key : ∀ {n : Nat} {tasks : List Task} {s : State}, s.RepliesSatisfy C → (∀ x ∈ tasks, x.CallSatisfies C) → P s →
      runTasks n tasks s = .next t → P t := by
    intro n
    induction n with
    | zero =>
      intro tasks s _ _ hs h
      cases tasks with
      | nil => cases h; exact hs
      | cons task rest => cases h
    | succ n ih =>
      intro tasks s hC htasks hs h
      cases tasks with
      | nil => cases h; exact hs
      | cons task rest =>
        obtain ⟨htask, hrest⟩ := List.forall_mem_cons.mp htasks
        simp only [runTasks] at h
        split at h
        · next u more hu =>
          obtain ⟨huC, hmore⟩ := State.taskStep_replies hC hu
          exact ih huC (List.forall_mem_append.mpr ⟨hmore, hrest⟩) (hstep htask hs hu) h
        · cases h
        · cases h
  exact key hC State.pendingRuns_callSatisfies hs h

/-- Memory is written by `write_memory` alone, and the PIC moves by `set_irq` alone (R203, R90). -/
theorem State.taskStep_memory_pic {s t : State} {task : Task} {more : List Task}
    (h : s.taskStep task = .next (t, more)) :
    ((∃ n buf off pos len, task = .call (.writeMemory n buf off pos len)) ∨ t.memory = s.memory) ∧
      ((∃ line level, task = .call (.setIrq line level)) ∨ s.SamePic t) := by
  cases task with
  | run k i =>
    simp only [State.taskStep, Host.Outcome.next.injEq] at h
    rcases s.runChannel_cases k i with ⟨_, _, hr⟩ | ⟨_, hr⟩ | ⟨_, d, _, hr⟩
    · cases hr.symm.trans h
      exact ⟨.inr (by simp), .inr fun e => by simp⟩
    · cases hr.symm.trans h
      exact ⟨.inr rfl, .inr fun _ => rfl⟩
    · rw [hr] at h
      rcases s.callDevice_cases k i d (s.chan k i).currentWordCount.toNat (threshold k (s.chan k i)) with
        ⟨r, rest, _, hc⟩ | ⟨_, p, hc⟩ <;>
      · cases hc.symm.trans h
        exact ⟨.inr rfl, .inr fun e => by cases e <;> rfl⟩
  | finish k i position size p =>
    simp only [State.taskStep] at h
    split at h
    · next u hu =>
      obtain ⟨_, _, w, rfl⟩ := State.finishTransfer_next hu
      cases h
      exact ⟨.inr (by simp), .inr fun e => by simp⟩
    · cases h
    · cases h
  | call c =>
    cases c with
    | writeMemory n buf off pos len =>
      obtain ⟨_, u, hu, rfl⟩ := settle_next h
      obtain ⟨_, _, addr, bytes, r, rfl⟩ := State.writeMemoryCall_next hu
      exact ⟨.inl ⟨n, buf, off, pos, len, rfl⟩, .inr fun e => by simp⟩
    | setIrq line level =>
      obtain ⟨_, u, hu, rfl⟩ := settle_next h
      obtain ⟨_, _, rfl⟩ := State.setIrqCall_next hu
      exact ⟨.inr (by simp), .inl ⟨line, level, rfl⟩⟩
    | readMemory n buf off pos len =>
      obtain ⟨_, u, hu, rfl⟩ := settle_next h
      obtain ⟨_, _, addr, r, rfl⟩ := State.readMemoryCall_next hu
      exact ⟨.inr (by simp), .inr fun e => by simp⟩
    | getChannelMode n =>
      obtain ⟨_, u, hu, rfl⟩ := settle_next h
      obtain ⟨_, r, rfl⟩ := State.channelModeCall_next hu
      exact ⟨.inr (by simp), .inr fun e => by simp⟩
    | releaseDmaRequest n =>
      obtain ⟨_, u, hu, rfl⟩ := settle_next h
      obtain ⟨_, rfl⟩ := State.releaseCall_next hu
      exact ⟨.inr (by simp), .inr fun e => by simp⟩
    | holdDmaRequest n =>
      simp only [State.taskStep, State.deviceCall] at h
      split at h
      · cases h
      · cases h
        exact ⟨.inr (by simp), .inr fun e => by simp⟩
    | _ => cases h

/-- No device writes memory, so the pass leaves it (R90). -/
theorem State.runTransfers_sameMemory {s t : State} {k : DmaCtl} (hs : s.NoDeviceWrites)
    (h : s.runTransfers k = .next t) : s.SameMemory t := by
  refine State.runTransfers_keeps (C := fun c => ∀ n buf off pos len, c ≠ .writeMemory n buf off pos len)
    (P := s.SameMemory) (fun htask hu hv => ?_) hs (fun _ => rfl) h
  rcases (State.taskStep_memory_pic hv).1 with ⟨n, buf, off, pos, len, rfl⟩ | hmemory
  · exact absurd rfl (htask _ rfl n buf off pos len)
  · intro a
    rw [hmemory]
    exact hu a

/-- No device drives a line, so the pass leaves the PIC (R203). -/
theorem State.runTransfers_samePic {s t : State} {k : DmaCtl} (hs : s.NoDeviceLines)
    (h : s.runTransfers k = .next t) : s.SamePic t := by
  refine State.runTransfers_keeps (C := fun c => ∀ line level, c ≠ .setIrq line level)
    (P := s.SamePic) (fun htask hu hv => ?_) hs (fun _ => rfl) h
  rcases (State.taskStep_memory_pic hv).2 with ⟨line, level, rfl⟩ | hpic
  · exact absurd rfl (htask _ rfl line level)
  · exact fun e => (hpic e).trans (hu e)

/-! ## What brings a pass -/

/-- Each write or call that re-evaluates a controller sets its bits and then runs the pass (R327, R328, R332, R333,
R341). -/
theorem exec_reevaluates {s : State} {k : DmaCtl} {i : Instr} {d : DmaController} (h : s.Reevaluates k i d) :
    exec i s = (s.setDma k d).runTransfers k := by
  rcases h with ⟨ch, rfl, rfl⟩ | ⟨ch, rfl, rfl⟩ | ⟨ch, rfl, rfl⟩ | ⟨rfl, rfl⟩ | ⟨m, rfl, rfl⟩ | ⟨ch, rfl, rfl⟩
  · rfl
  · rfl
  · rfl
  · rfl
  · rfl
  · exact exec_dreq s k ch

/-- Settles O50: the pass that the instruction brings completes under the contract, runs nothing if no channel is
requested, and leaves what no call of a device changes. -/
theorem dmaPassCompletes : Obligations.DmaPassCompletes := by
  intro s k i d hdevices hcpu hi
  obtain ⟨hdevices', hcpu'⟩ := State.WorldConforms.setDma k d ⟨hdevices, hcpu⟩
  obtain ⟨t, ht, htdevices, htcpu⟩ := State.runTransfers_completes k hdevices' hcpu'
  refine ⟨t, (exec_reevaluates hi).trans ht, htdevices, htcpu, State.runTransfers_leaves ht, fun hnone => ?_,
    fun hwrites a => ?_, fun hlines e => ?_⟩
  · rw [State.runTransfers_eq, State.pendingRuns_eq, hnone, List.map_nil, State.runAll_nil] at ht
    cases ht
    rfl
  · have hkept := State.runTransfers_sameMemory (by simpa [State.NoDeviceWrites] using hwrites) ht a
    rwa [State.setDma_memory] at hkept
  · have hkept := State.runTransfers_samePic (by simpa [State.NoDeviceLines] using hlines) ht e
    rwa [State.setDma_pic] at hkept

/-! ## One run of a channel -/

theorem threshold_eq (k : DmaCtl) (ch : DmaChannel) :
    threshold k ch = (ch.baseWordCount.toNat + 1) * 2 ^ Config.dShift k := Nat.shiftLeft_eq _ _

/-- A request whose controller has no other channel to run runs its channel alone (R341, R343). -/
theorem exec_dreq_single {s held : State} {k : DmaCtl} {ch : DmaChan}
    (hheld : held = s.setDma k { s.dma k with status := (s.dma k).status ||| requestBit ch })
    (hone : held.requestedChannels k = [ch]) : exec (.dreq (globalChannel k ch)) s = held.runAll [.run k ch] := by
  rw [exec_dreq, ← hheld, State.runTransfers_eq, State.pendingRuns_eq, hone, List.map_singleton]

/-- An incomplete channel with a device: its calls run, then its handler returns (R344, R347). -/
theorem State.runAll_device {s u : State} {k : DmaCtl} {ch : DmaChan} {device : Nat} {r : DeviceReply}
    {rest : List DeviceReply} (more : List Task) (hdevice : (s.chan k ch).device = some device)
    (hincomplete : ¬s.channelComplete k ch) (hreply : s.deviceReplies = r :: rest)
    (hrun : DeviceCallsRun { s with deviceReplies := rest } r.calls u) :
    s.runAll (.run k ch :: more) = u.runAll (.finish k ch (s.chan k ch).currentWordCount.toNat
      (threshold k (s.chan k ch)) r.newPosition :: more) := by
  have hstart : s.taskStep (.run k ch) = .next _ := congrArg _ (State.runChannel_reply hdevice hincomplete hreply)
  rw [State.runAll_cons more hstart, List.append_assoc, State.runAll_calls hrun, List.singleton_append]

/-- A handler that returns a position of 32 bits: the event, and the position, or 0 where that completes a
block that starts again by itself (R344). -/
theorem State.finishTransfer_stores {u : State} {k : DmaCtl} {ch : DmaChan} {position size : Nat} {p : Int} {w : Long}
    (h0 : 0 ≤ p) (h1 : p < 2 ^ 32)
    (hw : w.toNat = if (size : Int) ≤ p ∧ (u.chan k ch).mode.getLsbD 4 = true then 0 else p.toNat) :
    u.finishTransfer k ch position size p = .next
      ((u.emit (.handleTransfer (globalChannel k ch) position size p)).setChan k ch
        { u.chan k ch with currentWordCount := w }) := by
  have hrange : ¬(p < 0 ∨ Config.positionLimit ≤ p) := by
    rintro (h | h)
    · omega
    · exact absurd h1 (Int.not_lt.mpr h)
  have hword : w = if decide ((size : Int) ≤ p) && (u.chan k ch).autoInit then 0 else BitVec.ofInt 32 p := by
    refine BitVec.eq_of_toNat_eq ?_
    rw [hw]
    simp only [Bool.and_eq_true, decide_eq_true_eq, DmaChannel.autoInit]
    split
    · rfl
    · rw [BitVec.toNat_ofInt]
      omega
  rw [hword]
  exact if_neg hrange

theorem State.runAll_finish {u : State} {k : DmaCtl} {ch : DmaChan} {position size : Nat} {p : Int} {w : Long}
    (more : List Task) (h0 : 0 ≤ p) (h1 : p < 2 ^ 32)
    (hw : w.toNat = if (size : Int) ≤ p ∧ (u.chan k ch).mode.getLsbD 4 = true then 0 else p.toNat) :
    u.runAll (.finish k ch position size p :: more) =
      ((u.emit (.handleTransfer (globalChannel k ch) position size p)).setChan k ch
        { u.chan k ch with currentWordCount := w }).runAll more := by
  refine State.runAll_cons (more := []) more ?_
  simp only [State.taskStep, State.finishTransfer_stores h0 h1 hw]

/-- A handler that returns any other position stops the pass (R344, CV7). -/
theorem State.runAll_finish_fault {u : State} {k : DmaCtl} {ch : DmaChan} {position size : Nat} {p : Int}
    (more : List Task) (h : p < 0 ∨ 2 ^ 32 ≤ p) :
    u.runAll (.finish k ch position size p :: more) = .fault (.transferPosition (globalChannel k ch) p
      (u.trace ++ [.handleTransfer (globalChannel k ch) position size p])) := by
  refine State.runAll_fault more ?_
  have hrange : p < 0 ∨ Config.positionLimit ≤ p := h
  simp only [State.taskStep, State.finishTransfer, if_pos hrange]
  rfl

/-- A run that calls no device and brings no tasks. -/
theorem State.runAll_run_quiet {s t : State} {k : DmaCtl} {ch : DmaChan} (h : s.runChannel k ch = (t, [])) :
    s.runAll [.run k ch] = .next t := by
  have hstep : s.taskStep (.run k ch) = .next (t, []) := congrArg _ h
  rw [State.runAll_cons [] hstep, List.append_nil, State.runAll_nil]

theorem State.runChannel_complete {s : State} {k : DmaCtl} {ch : DmaChan} (h : s.channelComplete k ch) :
    s.runChannel k ch =
      (if (s.chan k ch).autoInit then s.setChan k ch { s.chan k ch with currentWordCount := 0 } else s, []) :=
  if_pos h

theorem State.runChannel_noDevice {s : State} {k : DmaCtl} {ch : DmaChan} (hincomplete : ¬s.channelComplete k ch)
    (hdevice : (s.chan k ch).device = none) : s.runChannel k ch = (s, []) := by
  rw [State.channelComplete] at hincomplete
  simp only [State.runChannel, if_neg hincomplete, hdevice]

/-- Settles O51: the request runs its channel alone, by the case that holds of it. -/
theorem dmaChannelRun : Obligations.DmaChannelRun := by
  intro s k ch held size position n hone
  have hchan : held.chan k ch = s.chan k ch := State.setDma_status_chan _ _ _ _ _
  have hsize : threshold k (s.chan k ch) = size := threshold_eq _ _
  have hcomplete : held.channelComplete k ch ↔ size ≤ position := by rw [State.channelComplete, hchan, hsize]
  have hexec : exec (.dreq n) s = held.runAll [.run k ch] := exec_dreq_single rfl hone
  rw [hexec]
  refine ⟨fun hlt device calls p rest u hdevice hreplies hrun => ?_, fun hge hauto => ?_, fun hge hauto => ?_,
    fun hlt hdevice => ?_⟩
  · have hreply : held.deviceReplies = { calls := calls, newPosition := p } :: rest :=
      (State.setDma_deviceReplies _ _ _).trans hreplies
    rw [State.runAll_device [] (hchan ▸ hdevice) (by rw [hcomplete]; omega) hreply hrun, hchan, hsize]
    refine ⟨fun h0 h1 w hw => ?_, fun hp => State.runAll_finish_fault [] hp⟩
    rw [State.runAll_finish [] h0 h1 hw, State.runAll_nil]
    rfl
  · have hauto : (s.chan k ch).autoInit = true := hauto
    refine State.runAll_run_quiet ?_
    rw [State.runChannel_complete (hcomplete.mpr hge), hchan, if_pos hauto]
  · have hauto : ¬(s.chan k ch).autoInit = true := by simpa [DmaChannel.autoInit] using hauto
    refine State.runAll_run_quiet ?_
    rw [State.runChannel_complete (hcomplete.mpr hge), hchan, if_neg hauto]
  · exact State.runAll_run_quiet (State.runChannel_noDevice (by rw [hcomplete]; omega) (hchan ▸ hdevice))

/-! ## The order of the runs -/

/-- The event of a channel's run, at the position and with the threshold that the channel has in `s` (R344). -/
def State.runEvent (s : State) (k : DmaCtl) (ch : DmaChan) (r : DeviceReply) : Event :=
  .handleTransfer (globalChannel k ch) (s.chan k ch).currentWordCount.toNat (threshold k (s.chan k ch)) r.newPosition

/-- A run whose device makes no calls: the reply is taken, the event is emitted, and the other channels are left. -/
theorem State.runAll_run {s : State} {k : DmaCtl} {ch : DmaChan} {r : DeviceReply} {rest : List DeviceReply}
    (hdevice : (s.chan k ch).device ≠ none) (hincomplete : ¬s.channelComplete k ch)
    (hreply : s.deviceReplies = r :: rest) (hcalls : r.calls = []) (h0 : 0 ≤ r.newPosition)
    (h1 : r.newPosition < 2 ^ 32) :
    ∃ t : State, (∀ more, s.runAll (.run k ch :: more) = t.runAll more) ∧ t.deviceReplies = rest ∧
      t.trace = s.trace ++ [s.runEvent k ch r] ∧ ∀ ch', ch' ≠ ch → t.chan k ch' = s.chan k ch' := by
  obtain ⟨device, hdevice⟩ := Option.ne_none_iff_exists'.mp hdevice
  obtain ⟨u, hu⟩ : ∃ u : State, u = { s with deviceReplies := rest } := ⟨_, rfl⟩
  have hchan : ∀ ch', u.chan k ch' = s.chan k ch' := fun _ => hu ▸ rfl
  have hrun : DeviceCallsRun { s with deviceReplies := rest } r.calls u := by rw [hcalls, hu]; exact .done _
  obtain ⟨w, hw⟩ : ∃ w : Long, w.toNat =
      if (threshold k (s.chan k ch) : Int) ≤ r.newPosition ∧ (u.chan k ch).mode.getLsbD 4 = true then 0
      else r.newPosition.toNat := by
    refine ⟨BitVec.ofNat 32 _, (BitVec.toNat_ofNat ..).trans (Nat.mod_eq_of_lt ?_)⟩
    split <;> omega
  refine ⟨(u.emit (s.runEvent k ch r)).setChan k ch { u.chan k ch with currentWordCount := w }, fun more => ?_, ?_, ?_,
    fun ch' hne => ?_⟩
  · rw [State.runAll_device more hdevice hincomplete hreply hrun, State.runAll_finish more h0 h1 hw]
    rfl
  · simp [hu]
  · simp [hu]
  · rw [State.setChan_chan, if_neg fun h => hne h.2, State.emit_chan, hchan]

/-- Runs of different channels that are as they are in `s0`, incomplete and with devices that make no calls: the runs
go through in their order, each with its own event, for each leaves the channels behind it as they were. -/
theorem State.runAll_runs {s0 : State} {k : DmaCtl} {rest : List DeviceReply} {order : List DmaChan} :
    ∀ {s : State} {replies : List DeviceReply}, order.Nodup → (∀ ch ∈ order, s.chan k ch = s0.chan k ch) →
    (∀ ch ∈ order, (s0.chan k ch).device ≠ none ∧ ¬s0.channelComplete k ch) →
    s.deviceReplies = replies ++ rest → replies.length = order.length →
    (∀ r ∈ replies, r.calls = [] ∧ 0 ≤ r.newPosition ∧ r.newPosition < 2 ^ 32) →
    ∃ t, s.runAll (order.map (.run k)) = .next t ∧ t.deviceReplies = rest ∧
      t.trace = s.trace ++ List.zipWith (s0.runEvent k) order replies := by
  induction order with
  | nil =>
    intro s replies _ _ _ hreplies hlength _
    obtain rfl := List.length_eq_zero_iff.mp hlength
    exact ⟨s, State.runAll_nil s, hreplies, by simp⟩
  | cons ch order ih =>
    intro s replies hnodup hsame hready hreplies hlength hconform
    obtain ⟨r, replies, rfl⟩ := List.exists_cons_of_length_eq_add_one hlength
    obtain ⟨hnotin, hnodup⟩ := List.nodup_cons.mp hnodup
    obtain ⟨hchan, hsame⟩ := List.forall_mem_cons.mp hsame
    obtain ⟨⟨hdevice, hincomplete⟩, hready⟩ := List.forall_mem_cons.mp hready
    obtain ⟨⟨hcalls, h0, h1⟩, hconform⟩ := List.forall_mem_cons.mp hconform
    obtain ⟨u, hrun, hureplies, hutrace, huchan⟩ := State.runAll_run (s := s) (hchan ▸ hdevice)
      (by rwa [State.channelComplete, hchan]) hreplies hcalls h0 h1
    have hsame : ∀ ch' ∈ order, u.chan k ch' = s0.chan k ch' := fun ch' hin =>
      (huchan ch' fun heq => hnotin (heq ▸ hin)).trans (hsame ch' hin)
    obtain ⟨t, ht, htreplies, httrace⟩ := ih hnodup hsame hready hureplies (Nat.succ.inj hlength) hconform
    have hevent : s.runEvent k ch r = s0.runEvent k ch r := by rw [State.runEvent, State.runEvent, hchan]
    exact ⟨t, (hrun _).trans ht, htreplies, by rw [httrace, hutrace, hevent, List.append_assoc]; rfl⟩

/-- What re-evaluates a controller leaves its channels. -/
theorem State.Reevaluates.chan {s : State} {k : DmaCtl} {i : Instr} {d : DmaController} (h : s.Reevaluates k i d)
    (ch : DmaChan) : (s.setDma k d).chan k ch = s.chan k ch := by
  rcases h with ⟨_, _, rfl⟩ | ⟨_, _, rfl⟩ | ⟨_, _, rfl⟩ | ⟨_, rfl⟩ | ⟨_, _, rfl⟩ | ⟨_, _, rfl⟩ <;>
    cases k <;> fin_cases ch <;> rfl

/-- Settles O52: the pass is the runs of the requested channels, which are different ones. -/
theorem dmaPassAscends : Obligations.DmaPassAscends := by
  intro s k i d replies rest hi order hreplies hlength hconform hready
  have hnodup : order.Nodup := List.Nodup.filter _ (by decide)
  obtain ⟨t, ht, htreplies, httrace⟩ := State.runAll_runs (s := s.setDma k d) hnodup (fun ch _ => hi.chan ch) hready
    ((State.setDma_deviceReplies _ _ _).trans hreplies) hlength hconform
  refine ⟨t, ?_, htreplies, by rw [httrace, State.setDma_trace]; rfl⟩
  rw [exec_reevaluates hi, State.runTransfers_eq, State.pendingRuns_eq, ht]

end Sys2Proof.Machine
end

section
/-! What every instruction keeps of time and of the events (R404, R412): events are only added, `ClearInterrupt` is
ICW1's alone, and time stands still but in `time_passes`. Then the steps without an instruction (R11, R81, R400,
R417). -/

namespace Sys2Proof.Machine

/-! ## Time and events -/

/-- From `s` to `t` time stands still and events are only added, `ClearInterrupt` among them only if `may` (R404, R412). -/
structure State.Follows (may : Prop) (s t : State) : Prop where
  time : t.currentTime = s.currentTime
  told : ∃ events, t.trace = s.trace ++ events ∧ (.clearInterrupt ∈ events → may)

/-- No event and no time. -/
theorem State.Follows.quiet {may : Prop} {s t : State} (htime : t.currentTime = s.currentTime)
    (htrace : t.trace = s.trace) : s.Follows may t :=
  ⟨htime, [], by simp [htrace], by simp⟩

/-- One event. -/
theorem State.Follows.event {may : Prop} {s t : State} {ev : Event} (htime : t.currentTime = s.currentTime)
    (htrace : t.trace = s.trace ++ [ev]) (hev : .clearInterrupt = ev → may) : s.Follows may t :=
  ⟨htime, [ev], htrace, fun h => hev (List.mem_singleton.mp h)⟩

theorem State.Follows.trans {may : Prop} {s t u : State} (h : s.Follows may t) (k : t.Follows may u) :
    s.Follows may u := by
  obtain ⟨htime, events, htrace, hclear⟩ := h
  obtain ⟨ktime, more, ktrace, kclear⟩ := k
  refine ⟨ktime.trans htime, events ++ more, by rw [ktrace, htrace, List.append_assoc], fun hin => ?_⟩
  exact (List.mem_append.mp hin).elim hclear kclear

theorem State.Follows.mono {may can : Prop} {s t : State} (h : s.Follows may t) (hcan : may → can) :
    s.Follows can t := by
  obtain ⟨htime, events, htrace, hclear⟩ := h
  exact ⟨htime, events, htrace, fun hin => hcan (hclear hin)⟩

theorem State.Follows.answer {may : Prop} {s t : State} (h : s.Follows may t) (r : Result) :
    s.Follows may (t.answer r) := h.trans (.quiet rfl rfl)

/-! ## The PIC and the PIT -/

/-- A recomputation emits `RaiseInterrupt` or nothing (R204). -/
theorem State.updateIrq_follows (may : Prop) (s : State) : s.Follows may s.updateIrq := by
  rcases s.updateIrq_trace with h | h
  · exact .quiet (by simp) h
  · exact .event (by simp) h nofun

theorem State.Follows.updateIrq {may : Prop} {s t : State} (h : s.Follows may t) : s.Follows may t.updateIrq :=
  h.trans (t.updateIrq_follows may)

/-- A change of an element and the recomputation after it. -/
theorem State.setPic_updateIrq_follows (may : Prop) (s : State) (e : Elem) (p : PicElement) :
    s.Follows may (s.setPic e p).updateIrq :=
  State.Follows.updateIrq (.quiet (by simp) (by simp))

theorem State.setIrq_follows (may : Prop) (s : State) (line : Nat) (l : Bool) : s.Follows may (s.setIrq line l) :=
  s.setPic_updateIrq_follows may _ _

/-- Every way through an acknowledge ends in a recomputation (R206). -/
theorem State.acknowledgeInterrupt_follows (may : Prop) (s : State) : s.Follows may s.acknowledgeInterrupt.1 := by
  simp only [State.acknowledgeInterrupt]
  split
  · exact s.updateIrq_follows may
  · split
    · split
      · exact State.Follows.updateIrq (.quiet rfl rfl)
      · exact State.Follows.updateIrq (.quiet rfl rfl)
    · exact State.Follows.updateIrq (.quiet rfl rfl)

/-- A poll read clears lines and recomputes or not (R225). -/
theorem State.pollRead_follows (may : Prop) (s : State) (e : Elem) : s.Follows may (s.pollRead e) := by
  simp only [State.pollRead]
  split
  · exact (s.setPic_updateIrq_follows may e _).answer _
  · refine State.Follows.answer ?_ _
    cases e with
    | master =>
      split
      · exact State.Follows.updateIrq (.quiet rfl rfl)
      · exact .quiet rfl rfl
    | slave => exact State.Follows.updateIrq (.quiet rfl rfl)

/-- Channel 0 drives its line; no other channel is heard of (R266). -/
theorem State.irqTimerUpdate_follows (may : Prop) (s : State) (c : PitChan) (now : Nat) :
    s.Follows may (s.irqTimerUpdate c now) := by
  rw [State.irqTimerUpdate_eq]
  split
  · exact (s.setIrq_follows may Config.pitIrqLine (s.pit0.outAt now)).trans (.quiet (by simp) (by simp))
  · exact .quiet rfl rfl

theorem State.pitOnExpiry_follows (may : Prop) (s : State) : s.Follows may s.pitOnExpiry := by
  unfold State.pitOnExpiry
  split
  · exact s.irqTimerUpdate_follows may _ _
  · exact .quiet rfl rfl

theorem State.loadCount_follows (may : Prop) (s : State) (c : PitChan) (v : Half) :
    s.Follows may (s.loadCount c v) :=
  State.Follows.trans (.quiet (by simp) (by simp)) (State.irqTimerUpdate_follows may _ c _)

theorem State.setGate_follows (may : Prop) (s : State) (c : PitChan) (l : Bool) : s.Follows may (s.setGate c l) := by
  refine State.Follows.trans ?_ (.quiet (State.setPit_currentTime ..) (State.setPit_trace ..))
  split
  · exact State.Follows.trans (.quiet (by simp) (by simp)) (State.irqTimerUpdate_follows may _ c _)
  · exact .quiet rfl rfl

theorem State.pitChannelReset_follows (may : Prop) (s : State) (c : PitChan) :
    s.Follows may (s.pitChannelReset c) :=
  State.Follows.trans (.quiet (by simp) (by simp)) (State.loadCount_follows may _ c 0)

/-- The reset emits what the count of channel 0 makes of its line, and leaves the time (R431, R434). -/
theorem State.blockReset_follows (may : Prop) (s : State) : s.Follows may s.blockReset := by
  have hquiet : s.Follows may ((s.picReset.dmaReset .primary).dmaReset .secondary) := .quiet (by simp) (by simp)
  exact ((hquiet.trans (State.pitChannelReset_follows may _ .c0)).trans
    (State.pitChannelReset_follows may _ .c1)).trans (State.pitChannelReset_follows may _ .c2)

/-! ## Passes and the drain -/

/-- A task emits the end of a transfer, a copy, or what a line makes of the PIC (R344, R347). -/
theorem State.taskStep_follows (may : Prop) {s t : State} {task : Task} {more : List Task}
    (h : s.taskStep task = .next (t, more)) : s.Follows may t := by
  rcases State.taskStep_state h with rfl | ⟨_, _, _, rfl⟩ | ⟨_, rfl⟩ | ⟨_, rfl⟩ | ⟨ev, _, _, _, hev, rfl⟩ |
    ⟨_, _, _, rfl⟩ | ⟨_, _, _, rfl⟩ | ⟨_, rfl⟩ | ⟨_, rfl⟩ | ⟨_, rfl⟩ | ⟨_, _, rfl⟩
  case inr.inr.inr.inr.inl =>
    have hemit : s.Follows may (s.emit ev) := .event rfl rfl (by rintro rfl; cases hev)
    exact hemit.trans (.quiet (by simp) (by simp))
  case inr.inr.inr.inr.inr.inl => exact .event rfl rfl nofun
  case inr.inr.inr.inr.inr.inr.inl => exact .event rfl rfl nofun
  case inr.inr.inr.inr.inr.inr.inr.inr.inr.inr => exact s.setIrq_follows may _ _
  all_goals exact .quiet (by simp) (by simp)

/-- A callback's call changes a timer, drives a line, or reads the time (R95). -/
theorem State.callbackCall_follows (may : Prop) {s t : State} {c : Call} (h : s.callbackCall c = .next t) :
    s.Follows may t := by
  rcases State.callbackCall_next h with ⟨timer, m, _, _, rfl⟩ | ⟨line, l, rfl⟩ | ⟨_, rfl⟩
  · exact .quiet (by simp) (by simp)
  · exact s.setIrq_follows may line l
  · exact .quiet rfl rfl

/-- A firing emits `Expiry` or not, and then what its callback emits (R159, R413). -/
theorem State.fire_follows (may : Prop) {s t : State} {h : Nat} (hf : s.fire h = .next t) : s.Follows may t := by
  rcases State.fire_next hf with ⟨u, hu, rfl⟩ | ⟨reply, more, _, hrun⟩ | ⟨_, rfl⟩ | rfl
  · have hpopped : s.Follows may u := by
      rcases hu with rfl | rfl
      · exact .quiet rfl rfl
      · exact .event rfl rfl nofun
    exact hpopped.trans (u.pitOnExpiry_follows may)
  · have htold : s.Follows may { (s.popTimer h).emit (.expiry h) with expiryReplies := more } :=
      .event rfl rfl nofun
    exact runCallback_keeps (P := s.Follows may) (fun hu hv => hu.trans (State.callbackCall_follows may hv)) htold hrun
  · exact .event rfl rfl nofun
  · exact .quiet rfl rfl

theorem drain_follows (may : Prop) {n : Nat} {s t : State} (h : drain n s = .next t) : s.Follows may t :=
  drain_keeps (P := s.Follows may) (fun hu hv => hu.trans (State.fire_follows may hv)) (.quiet rfl rfl) h

/-! ## Outcomes -/

/-- The next state follows `s`, where there is one. -/
def NextFollows (may : Prop) (s : State) (o : Outcome) : Prop := ∀ t, o = .next t → s.Follows may t

theorem NextFollows.next {may : Prop} {s t : State} (h : s.Follows may t) : NextFollows may s (.next t) := by
  rintro _ ⟨⟩; exact h

theorem NextFollows.quiet {may : Prop} {s t : State} (htime : t.currentTime = s.currentTime)
    (htrace : t.trace = s.trace) : NextFollows may s (.next t) := .next (.quiet htime htrace)

theorem NextFollows.violate {may : Prop} {s u : State} {info : List Event → Fault} :
    NextFollows may s (u.violate info) := by
  rintro _ ⟨⟩

theorem NextFollows.cpuReturns {may : Prop} {s t : State} (h : s.Follows may t) :
    NextFollows may s (s.cpuReturns t) :=
  fun _ hu => State.cpuReturns_next hu ▸ h

theorem NextFollows.mono {may can : Prop} {s : State} {o : Outcome} (h : NextFollows may s o) (hcan : may → can) :
    NextFollows can s o :=
  fun t ht => (h t ht).mono hcan

/-- A change of a controller and the pass after it (R343). -/
theorem State.setDma_runTransfers_follows (may : Prop) (s : State) (k : DmaCtl) (d : DmaController) :
    NextFollows may s ((s.setDma k d).runTransfers k) :=
  fun _ ht => runTasks_keeps (P := s.Follows may) (fun hu hv => hu.trans (State.taskStep_follows may hv))
    (.quiet (by simp) (by simp)) ht

/-! ## The rows of a port access -/

/-- ICW1, the row that clears the CPU's interrupt (R208). -/
def IsIcw1 (i : Instr) : Prop := ∃ e ic4, i = .picIcw1 e ic4

/-- Every row that a port access can select leaves the time, and ICW1 alone emits `ClearInterrupt` (R106 to R127). -/
theorem runPortRow_follows (s : State) (i : Instr) : NextFollows (IsIcw1 i) s (runPortRow i s) := by
  cases i with
  | picIcw1 e ic4 => exact .cpuReturns (.event (ev := .clearInterrupt) (by simp) (by simp) fun _ => ⟨e, ic4, rfl⟩)
  | picOcw2Eoi e =>
    simp only [runPortRow, execPicOcw2Eoi]
    split
    · exact .quiet rfl rfl
    · exact .cpuReturns (s.setPic_updateIrq_follows _ e _)
  | picOcw2RotateEoi e =>
    simp only [runPortRow, execPicOcw2RotateEoi]
    split
    · exact .quiet rfl rfl
    · exact .cpuReturns (s.setPic_updateIrq_follows _ e _)
  | picOcw2SpecificEoi e l => exact .cpuReturns (s.setPic_updateIrq_follows _ e _)
  | picOcw2SetPriority e l => exact .cpuReturns (s.setPic_updateIrq_follows _ e _)
  | picOcw2RotateSpecificEoi e l => exact .cpuReturns (s.setPic_updateIrq_follows _ e _)
  | picOcw1 e d => exact .cpuReturns (s.setPic_updateIrq_follows _ e _)
  | picPollRead e port => exact .cpuReturns (s.pollRead_follows _ e)
  | pitWriteLsb c b => exact .cpuReturns (s.loadCount_follows _ c _)
  | pitWriteMsb c b => exact .cpuReturns (s.loadCount_follows _ c _)
  | pitWriteWord1 c b =>
    have hloaded := s.loadCount_follows (IsIcw1 (.pitWriteWord1 c b)) c (joinBytes (s.pit c).inputLatch b)
    exact .cpuReturns (hloaded.trans (.quiet (by simp) (by simp)))
  | dmaCommand k v => exact .quiet (by split <;> simp) (by split <;> simp)
  | dmaRequest k i set => exact s.setDma_runTransfers_follows _ k _
  | dmaSingleMask k i set =>
    cases set
    · exact s.setDma_runTransfers_follows _ k _
    · exact .quiet (by simp) (by simp)
  | dmaClearMasks k => exact s.setDma_runTransfers_follows _ k _
  | dmaWriteMasks k m => exact s.setDma_runTransfers_follows _ k _
  | outwOutl | inwInl | irq | inta | gate | getOut | dreq | drel | reg | getChannelMode | readMemory | writeMemory
  | newTimer | update | getTime | tick | reset | portsRequested => exact .violate
  | _ => exact .quiet (by simp) (by simp)

/-- ICW1 is a write (R106). -/
theorem decodeRead_not_icw1 (cur : Cursors) (r : PortReg) : ¬IsIcw1 (decodeRead cur r) := by
  have hpic : ∀ (c : PicCursor) e port, ¬IsIcw1 (decodePicRead c e port) := by
    intro c e port
    unfold decodePicRead
    cases port <;> (repeat' split) <;> exact nofun
  cases r with
  | picCommand e => exact hpic _ e _
  | picData e => exact hpic _ e _
  | pitData c => simp only [decodeRead, decodePitRead]; (repeat' split) <;> exact nofun
  | dmaControl k n => simp only [decodeRead, decodeDmaControlRead]; split <;> exact nofun
  | elcr | pitControl | dmaAddress | dmaCount | page => exact nofun

/-! ## Wide port accesses -/

/-- A byte of a wide write runs a row, which may be ICW1 (R83). -/
theorem writePorts_follows {d : PortDevice} {port : Nat} {bytes : List Byte} {s : State} :
    NextFollows True s (writePorts d port bytes s) := by
  induction bytes generalizing port s with
  | nil => exact .quiet rfl rfl
  | cons b rest ih =>
    intro t ht
    simp only [writePorts] at ht
    split at ht
    · next u hu =>
      have hrow : NextFollows True s (s.portWrite d port b) := by
        unfold State.portWrite
        split
        · exact (runPortRow_follows s _).mono fun _ => trivial
        · exact .violate
      exact (hrow u hu).trans (ih t ht)
    · cases ht
    · cases ht

/-- A byte of a wide read runs the row of a read (R83). -/
theorem readPorts_follows (may : Prop) {d : PortDevice} {count port : Nat} {bytes : List Byte} {s : State} :
    NextFollows may s (readPorts d count port bytes s) := by
  induction count generalizing port bytes s with
  | zero => exact .quiet rfl rfl
  | succ count ih =>
    intro t ht
    simp only [readPorts] at ht
    split at ht
    · next u hu =>
      have hrow : NextFollows may s (s.portRead d port) := by
        unfold State.portRead
        split
        · exact (runPortRow_follows s _).mono fun h => absurd h (decodeRead_not_icw1 _ _)
        · exact .violate
      exact (hrow u hu).trans (ih t ht)
    · cases ht
    · cases ht

/-! ## The instructions -/

/-- An instruction that can clear the CPU's interrupt: ICW1, and a wide write, whose bytes may hold one (R404). -/
def MayClear (i : Instr) : Prop := IsIcw1 i ∨ ∃ long port value, i = .outwOutl long port value

/-- Every instruction but `time_passes` leaves the time, and no event is taken back (R404, R412). -/
theorem exec_follows (s : State) {i : Instr} (hi : ∀ delta, i ≠ .tick delta) :
    NextFollows (MayClear i) s (exec i s) := by
  have hrow : NextFollows (MayClear i) s (runPortRow i s) := (runPortRow_follows s i).mono .inl
  cases i with
  | outwOutl long port value =>
    simp only [exec, execOutwOutl]
    split
    · exact writePorts_follows.mono fun _ => .inr ⟨long, port, value, rfl⟩
    · exact .violate
  | inwInl long port =>
    simp only [exec, execInwInl]
    split
    · exact readPorts_follows _
    · exact .violate
  | irq line level =>
    intro t ht
    obtain ⟨_, _, rfl⟩ := State.setIrqCall_next ht
    exact s.setIrq_follows _ line _
  | inta => exact .cpuReturns ((s.acknowledgeInterrupt_follows _).answer _)
  | gate channel level =>
    simp only [exec, execGate]
    split
    · exact .violate
    · split
      · next c _ => exact .cpuReturns (s.setGate_follows _ c _)
      · exact .violate
  | getOut channel =>
    simp only [exec, execGetOut]
    split
    · exact .quiet rfl rfl
    · exact .violate
  | dreq n =>
    simp only [exec, execDreq]
    split
    · exact .violate
    · exact s.setDma_runTransfers_follows _ _ _
  | drel n =>
    intro t ht
    obtain ⟨_, rfl⟩ := State.releaseCall_next ht
    exact .quiet (by simp) (by simp)
  | reg n device =>
    simp only [exec, execReg]
    split
    · exact .violate
    · exact .quiet (by simp) (by simp)
  | getChannelMode n =>
    intro t ht
    obtain ⟨_, r, rfl⟩ := State.channelModeCall_next ht
    exact .quiet rfl rfl
  | readMemory n buf off pos len =>
    intro t ht
    obtain ⟨_, _, addr, r, rfl⟩ := State.readMemoryCall_next ht
    exact .event rfl rfl nofun
  | writeMemory n buf off pos len =>
    intro t ht
    obtain ⟨_, _, addr, bytes, r, rfl⟩ := State.writeMemoryCall_next ht
    exact .event rfl rfl nofun
  | newTimer target => exact .quiet rfl rfl
  | update timer change =>
    intro t ht
    obtain ⟨_, _, rfl⟩ := State.updateCall_next ht
    exact .quiet (by simp) (by simp)
  | getTime => exact .quiet rfl rfl
  | tick delta => exact absurd rfl (hi delta)
  | reset => exact .cpuReturns (s.blockReset_follows _)
  | portsRequested d => exact .quiet rfl rfl
  | _ => exact hrow

/-- `time_passes` moves the time by its delta, which is not negative, and drains the queue at the later time (R158). -/
theorem exec_tick_follows (may : Prop) {s t : State} {delta : Int} (h : exec (.tick delta) s = .next t) :
    0 ≤ delta ∧ (s.later delta).Follows may t := by
  simp only [exec, execTick] at h
  split at h
  · cases h
  · next hrange => exact ⟨by omega, drain_follows may h⟩

/-- Settles O43: every other instruction leaves the time, and the drain of `time_passes` leaves the later time. -/
theorem onlyTimePassesMovesTime : Obligations.OnlyTimePassesMovesTime := by
  intro s t i ht
  split
  · next delta =>
    obtain ⟨hdelta, htime, -⟩ := exec_tick_follows True ht
    have hlater : ((s.later delta).currentTime : Int) = s.currentTime + delta := by
      rw [Int.natCast_add, Int.toNat_of_nonneg hdelta]
    rw [htime, hlater]
  · next hi =>
    rw [(exec_follows s (fun delta h => hi delta h) t ht).time, Int.add_zero]

/-- Settles O60: of the rows ICW1 alone clears, a wide write runs rows, and a drain emits expiries and what lines make
of the PIC. -/
theorem onlyIcw1ClearsInterrupt : Obligations.OnlyIcw1ClearsInterrupt := by
  intro s t i ht
  by_cases hi : ∃ delta, i = .tick delta
  · obtain ⟨delta, rfl⟩ := hi
    obtain ⟨-, -, htold⟩ := exec_tick_follows (MayClear (.tick delta)) ht
    exact htold
  · exact (exec_follows s (fun delta h => hi ⟨delta, h⟩) t ht).told

/-! ## Steps without an instruction -/

/-- A call that the decoder rejects stops the step, with the port or the call on record (CV4, CV9). -/
theorem step_rejected {s : State} {c : Call} {rest : List Action} {r : Reject} (hcalls : s.calls = .call c :: rest)
    (hdecode : decode s.cursors c = .error r) : step s = rejected c (s.fetched rest) r := by
  simp only [step, hcalls, hdecode]

/-- A port or a value outside its type is rejected before the port is looked up (CV9, log entry 14). -/
theorem decode_outside_type {cur : Cursors} {port v : Nat} {c : Call}
    (h : (2 ^ 16 ≤ port ∧ (c = .readByte port ∨ c = .readWord port ∨ c = .readLong port)) ∨
      ((2 ^ 16 ≤ port ∨ 2 ^ 8 ≤ v) ∧ c = .writeByte port v) ∨
      ((2 ^ 16 ≤ port ∨ 2 ^ 16 ≤ v) ∧ c = .writeWord port v) ∨
      ((2 ^ 16 ≤ port ∨ 2 ^ 32 ≤ v) ∧ c = .writeLong port v)) :
    decode cur c = .error .badArgument := by
  rcases h with ⟨hport, rfl | rfl | rfl⟩ | ⟨hout, rfl⟩ | ⟨hout, rfl⟩ | ⟨hout, rfl⟩
  · exact if_pos hport
  · exact if_pos hport
  · exact if_pos hport
  · exact if_pos hout
  · exact if_pos hout
  · exact if_pos hout

/-- Settles O6: the idle step, the dump and the reload field by field, and the two rejections of the decoder. -/
theorem stepWithoutInstruction : Obligations.StepWithoutInstruction := by
  refine ⟨fun s hs => ?_, fun s rest hs => ?_, fun s u rest hu => ?_, fun s port v rest => ⟨fun hport hnone => ?_, ?_⟩⟩
  · simp only [step, hs]
  · simp only [step, hs, State.fetched, State.answer]
  · simp only [step, hu, State.fetched, State.reload, State.dump]
  · obtain ⟨hwrite, hread⟩ := (registeredPorts port .pic).2 hport hnone s.cursors
    exact ⟨fun hs => step_rejected hs hread, fun hv hs => step_rejected hs (hwrite v hv)⟩
  · intro c hs hout
    exact step_rejected hs (decode_outside_type hout)

end Sys2Proof.Machine
end

section
/-! The reset of the block (R430 to R436): what each of its parts leaves, and the state it makes of any other. -/

namespace Sys2Proof.Machine

/-! ## The request of channel 0 (R202, R204, R432) -/

/-- A reset master whose line 0 has risen, whatever its trigger (R202, R207). -/
def PicElement.resetRequested (p : PicElement) : PicElement :=
  { PicElement.reset with irr := 0x01, lastIrr := 0x01, elcr := p.elcr }

theorem PicElement.elementReset_setLine (p : PicElement) : p.elementReset.setLine 0 true = p.resetRequested := by
  have hset : setLineBit 0 0 = 0x01 := by decide
  simp only [PicElement.setLine, PicElement.elementReset, PicElement.reset, PicElement.resetRequested, hset]
  split <;> rfl

theorem PicElement.resetRequested_deliverable (p : PicElement) : getIrq .master p.resetRequested = some 0 := by
  have hbit : setLineBit 0 0 = 0x01 := by decide
  exact getIrq_of_one_request .master hbit.symm (by simp [lineSet, PicElement.resetRequested, PicElement.reset]) rfl

/-- Line 0 of the reset PIC goes up: the slave has nothing to cascade, and the CPU is told of the master's request. -/
theorem State.setIrq_of_reset {r : State} {m v : PicElement} (hm : r.picM = m.elementReset)
    (hv : r.picS = v.elementReset) :
    r.setIrq Config.pitIrqLine true = ({ r with picM := m.resetRequested } : State).notify .raiseInterrupt := by
  have hset : r.setIrq Config.pitIrqLine true = ({ r with picM := r.picM.setLine 0 true } : State).updateIrq := rfl
  have hslave : getIrq .slave r.picS = none := hv ▸ getIrq_of_no_request .slave rfl
  rw [hset, hm, PicElement.elementReset_setLine]
  simp [State.updateIrq, hslave, m.resetRequested_deliverable]

/-! ## The channels of the PIT (R434) -/

/-- A channel after its reset at a time. -/
def PitChannel.resetAt (now : Nat) (c : PitChan) : PitChannel :=
  { PitChannel.reset (decide (c ≠ .c2)) with countStartTime := now }

theorem PitChannel.resetAt_counts (now : Nat) (c : PitChan) : 1 ≤ (PitChannel.resetAt now c).countValue := by
  simp [PitChannel.resetAt, PitChannel.reset]

/-- The reset of a channel is a restart of it. -/
theorem State.pitChannelReset_eq (s : State) (c : PitChan) :
    s.pitChannelReset c = (s.setPit c (.resetAt s.currentTime c)).irqTimerUpdate c s.currentTime := by
  cases c <;> rfl

theorem State.pitChannelReset_other {c : PitChan} (hc : c ≠ .c0) (s : State) :
    s.pitChannelReset c = s.setPit c (.resetAt s.currentTime c) := by
  rw [State.pitChannelReset_eq, State.irqTimerUpdate_other hc]

/-- The full count's first change, 32768 PIT clocks on, falls in tick 27462700 (R264, R434). -/
theorem firstTransition_full {now : Nat} (h : now + 27462700 < 2 ^ 64) :
    firstTransition .m3 0x10000 now = some (now + 27462700) := by
  have hflip : firstFlip .m3 0x10000 = some 32768 := by decide
  have hclocks : scale64 32768 Config.tickRate Config.pitFreq = 27462700 := by decide
  rw [firstTransition, hflip, Option.bind_some, hclocks]
  exact if_pos h

theorem nextTransition_resetAt {now : Nat} (h : now + 27462700 < 2 ^ 64) (c : PitChan) :
    nextTransition (.resetAt now c) now = some (now + 27462700) :=
  (nextTransition_start (.resetAt now c) (PitChannel.resetAt_counts now c)).trans (firstTransition_full h)

/-- Channel 0's output is high at the start of counting: it requests line 0, and its timer is armed (R434). -/
theorem State.pitChannelReset_zero {r : State} {m v : PicElement} (hm : r.picM = m.elementReset)
    (hv : r.picS = v.elementReset) (h : r.currentTime + 27462700 < 2 ^ 64) :
    r.pitChannelReset .c0 =
      ({ ({ r with picM := m.resetRequested, pit0 := .resetAt r.currentTime .c0 } : State).notify .raiseInterrupt with
        pitNext := some (r.currentTime + 27462700) } : State).arm Config.pitTimer (r.currentTime + 27462700) := by
  have hhigh : (PitChannel.resetAt r.currentTime .c0).outAt r.currentTime = true :=
    outAt_start (.resetAt r.currentTime .c0) (PitChannel.resetAt_counts _ _)
  have hpit : (r.setPit .c0 (.resetAt r.currentTime .c0)).pit0 = .resetAt r.currentTime .c0 := rfl
  rw [State.pitChannelReset_eq, State.irqTimerUpdate_eq, if_pos rfl, hpit, hhigh, nextTransition_resetAt h,
    State.setIrq_of_reset (r := r.setPit .c0 (.resetAt r.currentTime .c0)) hm hv]
  rfl

/-! ## The block (R431) -/

/-- The state in which the reset arms channel 0's timer: the PIC, the DMA controllers and channel 0 are reset, line 0 is
requested, the CPU told and the transition stored. -/
def State.resetTold (s : State) : State :=
  ({ s with
      picM := s.picM.resetRequested, picS := s.picS.elementReset, pit0 := .resetAt s.currentTime .c0,
      pitNext := some (s.currentTime + 27462700), dma0 := .reset, dma1 := .reset } : State).notify .raiseInterrupt

/-- The reset of the block, part by part in the order of R431. -/
theorem State.blockReset_eq {s : State} (h : s.currentTime + 27462700 < 2 ^ 64) :
    s.blockReset = ((s.resetTold.arm Config.pitTimer (s.currentTime + 27462700)).setPit .c1
      (.resetAt s.currentTime .c1)).setPit .c2 (.resetAt s.currentTime .c2) := by
  have hzero : ((s.picReset.dmaReset .primary).dmaReset .secondary).pitChannelReset .c0 =
      s.resetTold.arm Config.pitTimer (s.currentTime + 27462700) :=
    State.pitChannelReset_zero (m := s.picM) (v := s.picS) rfl rfl h
  have htime : (s.resetTold.arm Config.pitTimer (s.currentTime + 27462700)).currentTime = s.currentTime :=
    State.arm_currentTime ..
  rw [State.blockReset, State.pitReset, hzero, State.pitChannelReset_other (c := .c1) (by decide),
    State.pitChannelReset_other (c := .c2) (by decide), State.setPit_currentTime, htime]

/-- What schedules channel 0's timer is the timers, their queue and the stored time. -/
theorem State.PitScheduled.congr {s s' t t' : State} {next : Option Nat} (h : s.PitScheduled t next)
    (hs : s'.timers = s.timers) (hs' : s'.queue = s.queue) (hn : t'.pitNext = t.pitNext) (ht : t'.timers = t.timers)
    (ht' : t'.queue = t.queue) : s'.PitScheduled t' next where
  stored := hn.trans h.stored
  records := by rw [ht, hs]; exact h.records
  armed := by
    have hexpiry : s'.expiryOf = s.expiryOf := by funext u; rw [State.expiryOf, State.expiryOf, hs]
    rw [ht', hs', hexpiry]
    exact h.armed
  disarmed := by rw [hs', ht']; exact h.disarmed

/-- The reset arms channel 0's timer and keeps the others and their order (R434, R435). -/
theorem State.blockReset_scheduled {s : State} (hq : s.QueueInv) (ht : 0 < s.timers.length)
    (h : s.currentTime + 27462700 < 2 ^ 64) : s.PitScheduled s.blockReset (some (s.currentTime + 27462700)) := by
  have htold : s.resetTold.QueueInv := (State.queueInv_congr rfl rfl).mpr hq
  rw [State.blockReset_eq h]
  exact (State.schedule_scheduled htold ht).congr rfl rfl rfl rfl rfl

/-- The reset notifies the CPU once (R434). -/
theorem State.blockReset_answered {s : State} (h : s.currentTime + 27462700 < 2 ^ 64) : s.CpuAnswered s.blockReset := by
  have htold : s.CpuAnswered s.resetTold := State.notify_answered _ rfl
  rw [State.blockReset_eq h]
  exact htold.trans (.same (by simp) (by simp))

/-! ## The reset state, part by part (R432 to R434) -/

theorem State.blockReset_picM {s : State} (h : s.currentTime + 27462700 < 2 ^ 64) :
    s.blockReset.picM = s.picM.resetRequested := by
  rw [State.blockReset_eq h]
  simp [State.resetTold]

theorem State.blockReset_picS {s : State} (h : s.currentTime + 27462700 < 2 ^ 64) :
    s.blockReset.picS = s.picS.elementReset := by
  rw [State.blockReset_eq h]
  simp [State.resetTold]

theorem State.blockReset_pit {s : State} (h : s.currentTime + 27462700 < 2 ^ 64) (c : PitChan) :
    s.blockReset.pit c = .resetAt s.currentTime c := by
  rw [State.blockReset_eq h]
  cases c with
  | c0 =>
    have htold : s.resetTold.pit .c0 = .resetAt s.currentTime .c0 := rfl
    simpa using htold
  | c1 => simp
  | c2 => simp

theorem State.blockReset_dma {s : State} (h : s.currentTime + 27462700 < 2 ^ 64) (k : DmaCtl) :
    s.blockReset.dma k = .reset := by
  have htold : s.resetTold.dma k = .reset := by cases k <;> rfl
  rw [State.blockReset_eq h]
  simpa using htold

theorem State.blockReset_trace {s : State} (h : s.currentTime + 27462700 < 2 ^ 64) :
    s.blockReset.trace = s.trace ++ [.raiseInterrupt] := by
  rw [State.blockReset_eq h]
  simp [State.resetTold]

/-- Settles O10: the parts of the reset state as the reset leaves them, and what it does not touch. -/
theorem resetGivesResetValues : Obligations.ResetGivesResetValues := by
  intro s hinv hcpu ht h
  exact ⟨s.blockReset, State.cpuReturns_completes hcpu, State.blockReset_picM h, State.blockReset_picS h,
    State.blockReset_pit h, State.blockReset_scheduled hinv.queue ht h, State.blockReset_dma h,
    s.blockReset_currentTime, State.blockReset_trace h, s.blockReset_result, fun a => by rw [s.blockReset_memory],
    s.blockReset_calls, s.blockReset_deviceReplies, s.blockReset_expiryReplies, s.blockReset_nested,
    s.blockReset_freeCount, State.blockReset_answered h⟩

/-- Settles O9: the reset at time 0, where the armed timer is the only one. -/
theorem resetOfConstructionIsReset : Obligations.ResetOfConstructionIsReset := by
  have hfits : State.powerOn.currentTime + 27462700 < 2 ^ 64 := by decide
  have hreturns : exec .reset State.powerOn = .next State.powerOn.blockReset := rfl
  rw [Obligations.ResetOfConstructionIsReset, hreturns, State.blockReset_eq hfits]
  rfl

end Sys2Proof.Machine
end
